-- ==== Sys2Proof/Word.lean ====
section
/-! DEFINITION. The word types of the Aelnyx (R1): bytes, 64-bit words, 32-lane registers and masks, and the type of
sparse maps by which every array of the machine is held as plain data. -/
namespace Sys2Proof

/-- One byte of memory (R48). -/
abbrev Byte := BitVec 8
/-- A control register, a command word, an address as an operand (R136). -/
abbrev Word := BitVec 64
/-- One lane of a vector register (R197). -/
abbrev Lane := BitVec 32
/-- A vector register: 32 lanes of 32 bits, lane n in bits [32n+31:32n] (R197). Also one 128-byte cache line. -/
abbrev Lanes := BitVec 1024
/-- One bit per lane: a predicate, an execute mask, a mask-stack entry (R198). -/
abbrev Mask := BitVec 32
/-- The number of a control register x0 to x63 (R136). -/
abbrev XReg := BitVec 6
/-- The number of a vector register v0 to v2047 (R197). -/
abbrev VReg := BitVec 11
/-- A team-relative tile number (R269). -/
abbrev TileNo := BitVec 6

/-- A sparse map from numbers to values: pairs in rising key order, none equal to the default an unlisted key reads as. -/
abbrev SMap (α : Type) := List (Nat × α)

end Sys2Proof
end

