-- ==== Sys2Proof/Syntax.lean ====
section
/-! DEFINITION. The steps of the machine: one constructor of Instr per row of the opcode table. Control and vector
instructions carry their decoded operands (R117 to R131), engine commands their eight words (R180), events the choice
that hardware, firmware or the host makes (spec/95_what_each_step_holds.md). -/
namespace Sys2Proof

/-- Guard of a control instruction: predicate CG and its negation (Table 50). -/
structure CGuard where
  cg : BitVec 3
  cgn : Bool
  deriving DecidableEq, Repr

/-- Condition of the control `cmp` and `brc` (Table 67). -/
inductive Cond where
  | eq | ne | ltS | geS | ltN | geN | tst | ntst
  deriving DecidableEq, Repr

/-- Scopes, in the order of their codes (Table 20). -/
inductive Scope where
  | grp | team | clu | die | pkg | sys
  deriving DecidableEq, Repr

/-- Atomic orders (R129, Table 73). -/
inductive Order where
  | rlx | acq | rel | ar
  deriving DecidableEq, Repr

/-- Integer types of atomics (Table 73). -/
inductive ATy where
  | s32 | n32 | s64 | n64
  deriving DecidableEq, Repr

/-- Cache hints (Table 99). -/
inductive Hint where
  | dflt | str | keep | nol1
  deriving DecidableEq, Repr

/-- The count of `vrun`: an immediate or a register (R175). -/
inductive RunCount where
  | imm (n : BitVec 16)
  | reg (b : XReg)
  deriving DecidableEq, Repr

/-- Which source of a vector instruction HOLD copies into a latch (R125). -/
inductive Hold where
  | none | a | b | c
  deriving DecidableEq, Repr

/-- The guard, hint and scheduling fields that every vector word carries (Table 49). -/
structure VCtl where
  g0 : BitVec 3
  g0n : Bool
  g1 : BitVec 3
  g1n : Bool
  hint : Hint
  stall : BitVec 3
  hold : Hold
  lastA : Bool
  lastB : Bool
  lastC : Bool
  wset : BitVec 3
  deriving DecidableEq, Repr

/-- A vector-side source after its window is applied (Table 48). -/
inductive VSrc where
  | v (n : VReg)
  | k (n : BitVec 6)
  | i (n : BitVec 2)
  deriving DecidableEq, Repr

/-- Floating-point types of the formula opcodes (R129). -/
inductive FTy where
  | f64 | f32 | f16 | bf16 | f16x2 | bf16x2
  deriving DecidableEq, Repr

/-- Integer types of the formula opcodes (R129). -/
inductive ITy where
  | s32 | n32 | s64 | n64 | s16x2 | n16x2
  deriving DecidableEq, Repr

/-- Types that `cvt` accepts (R231). -/
inductive CvtTy where
  | f64 | f32 | f16 | bf16 | s8 | s16 | s32 | s64 | n8 | n16 | n32 | n64
  deriving DecidableEq, Repr

/-- The rounding field E[6:4] (Table 40). -/
inductive RndSel where
  | dyn | rne | rz | ru | rd
  deriving DecidableEq, Repr

/-- Source modifiers E[3:0] (R119). -/
structure SMods where
  negA : Bool
  absA : Bool
  negB : Bool
  absB : Bool
  deriving DecidableEq, Repr

/-- Rounding and source modifiers of the rounding arithmetic (R119). -/
structure FMods where
  rnd : RndSel
  src : SMods
  deriving DecidableEq, Repr

/-- Conditions of `fcmp` (Table 84). -/
inductive FCond where
  | eq | ne | lt | le | gt | ge | ord | uno
  deriving DecidableEq, Repr

/-- Conditions of the vector `cmp` (Table 89). -/
inductive ICond where
  | eq | ne | lt | le | gt | ge | tst | ntst
  deriving DecidableEq, Repr

/-- The lane operand of `shfl`: a register or an immediate (R241). -/
inductive ShB where
  | reg (b : VSrc)
  | imm (n : BitVec 5)
  deriving DecidableEq, Repr

/-- Types of `redt` (R244). -/
inductive RTy where
  | s32 | n32 | f32
  deriving DecidableEq, Repr

/-- Types of the vector `ld` (Table 53). -/
inductive LdTy where
  | s8 | n8 | s16 | n16 | b32 | b64
  deriving DecidableEq, Repr

/-- Widths of the vector `st` (Table 53). -/
inductive StW where
  | b8 | b16 | b32 | b64
  deriving DecidableEq, Repr

/-- Types of `red.defer` (R260). -/
inductive DTy where
  | f32 | f16 | bf16 | s8 | s16 | s32
  deriving DecidableEq, Repr

/-- Operand types of `mma` (Table 104). -/
inductive MTy where
  | f64 | f32 | f16 | bf16 | s8
  deriving DecidableEq, Repr

/-- An engine command: eight little-endian words (R180). -/
structure Cmd where
  w0 : Word
  w1 : Word
  w2 : Word
  w3 : Word
  w4 : Word
  w5 : Word
  w6 : Word
  w7 : Word
  deriving DecidableEq, Repr

/-- An engine context: copy engine (quad, context), basin (package number, context), collective, launch (Table 11). -/
inductive EngineRef where
  | copy (quad ctx : Nat)
  | basin (b ctx : Nat)
  | coll (ctx : Nat)
  | launch (ctx : Nat)
  deriving DecidableEq, Repr

/-- Who met a fault: a slice of the group in focus or an engine context (Table 30, ORIG). -/
inductive Faulter where
  | ctl
  | vec
  | engine (e : EngineRef)
  deriving DecidableEq, Repr

/-- Where the firmware puts one team: its core, a slot per group, the quad's tile registers it gets (R36). -/
structure TeamPlace where
  core : Nat
  slots : List Nat
  tiles : List Nat
  deriving DecidableEq, Repr

/-- The firmware's choice for one cluster: the mesh position of its first core on a die, and its teams row by row (R37). -/
structure Placement where
  die : Nat
  col : Nat
  row : Nat
  teams : List TeamPlace
  deriving DecidableEq, Repr

/-- Units by their numbers: dies of Table 5 from 1, ports, and package cores, quads and basins (R9, R435). -/
structure Units where
  dies : List Nat
  ports : List Nat
  cores : List Nat
  quads : List Nat
  basins : List Nat
  deriving DecidableEq, Repr

/-- No unit. -/
def Units.none : Units := { dies := [], ports := [], cores := [], quads := [], basins := [] }

/-- What the firmware meets on its way to full service: the units that fail training (R435), and the minimum version that the image asks for
(R431). -/
structure Training where
  failed : Units
  raise : BitVec 32
  deriving DecidableEq, Repr

/-- A sequence that a token die serves (R394, R395): its SEQ, the position of its next token, how many tokens of its prompt are still to be
processed there, and, where the prompt dies prefilled all of it, the address of the flag of its last layer's handoff with the generation
that the handoff writes there. -/
structure Sequence where
  id : BitVec 32
  pos : Nat
  left : Nat
  flag : BitVec 64 × BitVec 64 := (0, 0)
  deriving DecidableEq, Repr

/-- The firmware's choices for an iteration of a token die (R394, R395): the budget B, the sequences that have come to the die and those
that leave it, and CNT of the slices of the oldest waiting prompts. -/
structure Iteration where
  budget : Nat
  come : List Sequence
  gone : List (BitVec 32)
  cnts : List Nat
  deriving DecidableEq, Repr

/-- A launch context, with the iteration that its next launch starts, if any (R394). -/
structure Starting where
  ctx : Nat
  it : Option Iteration
  deriving DecidableEq, Repr

/-- A lane of a write; `early` as it enters its core's write-through buffer, ahead of its home (R320). -/
structure LaneWrite where
  lane : Nat
  early : Bool
  deriving DecidableEq, Repr

/-- Lanes of a put (R248). -/
structure PutLanes where
  stamp : Nat
  lanes : BitVec 32
  deriving DecidableEq, Repr

/-- What a peer sends, under the TAG of a `send` (R402, R405). -/
structure Packet where
  tag : BitVec 32
  bytes : List Byte
  deriving DecidableEq, Repr

/-- How message 0x07 loads a key slot (R432). -/
inductive KeyLoad where
  | generated
  | wrapped (pub : BitVec 512) (blob : BitVec 576)
  deriving DecidableEq, Repr

/-- Ultra Ethernet features a peer may offer (Table 169). -/
inductive Feature where
  | uetIp | semanticSub | semanticAtomic | rud | rod | uud | senderCc | receiverCc | llr | creditFlow | trimming | security
  | inNetwork
  deriving DecidableEq, Repr

/-- The steps of the machine, one constructor per row of the opcode table. -/
inductive Instr where
  | launch (w : Cmd)
  | reclaim (w : Cmd)
  | addCr (g : CGuard) (d : XReg) (a : XReg) (b : XReg)
  | subCr (g : CGuard) (d : XReg) (a : XReg) (b : XReg)
  | mulCr (g : CGuard) (d : XReg) (a : XReg) (b : XReg)
  | mulhiS64Cr (g : CGuard) (d : XReg) (a : XReg) (b : XReg)
  | mulhiN64Cr (g : CGuard) (d : XReg) (a : XReg) (b : XReg)
  | andCr (g : CGuard) (d : XReg) (a : XReg) (b : XReg)
  | orCr (g : CGuard) (d : XReg) (a : XReg) (b : XReg)
  | xorCr (g : CGuard) (d : XReg) (a : XReg) (b : XReg)
  | shlCr (g : CGuard) (d : XReg) (a : XReg) (b : XReg)
  | shrN64Cr (g : CGuard) (d : XReg) (a : XReg) (b : XReg)
  | shrS64Cr (g : CGuard) (d : XReg) (a : XReg) (b : XReg)
  | minS64Cr (g : CGuard) (d : XReg) (a : XReg) (b : XReg)
  | minN64Cr (g : CGuard) (d : XReg) (a : XReg) (b : XReg)
  | maxS64Cr (g : CGuard) (d : XReg) (a : XReg) (b : XReg)
  | maxN64Cr (g : CGuard) (d : XReg) (a : XReg) (b : XReg)
  | addCi (g : CGuard) (d : XReg) (a : XReg) (imm : BitVec 32)
  | subCi (g : CGuard) (d : XReg) (a : XReg) (imm : BitVec 32)
  | mulCi (g : CGuard) (d : XReg) (a : XReg) (imm : BitVec 32)
  | mulhiS64Ci (g : CGuard) (d : XReg) (a : XReg) (imm : BitVec 32)
  | mulhiN64Ci (g : CGuard) (d : XReg) (a : XReg) (imm : BitVec 32)
  | andCi (g : CGuard) (d : XReg) (a : XReg) (imm : BitVec 32)
  | orCi (g : CGuard) (d : XReg) (a : XReg) (imm : BitVec 32)
  | xorCi (g : CGuard) (d : XReg) (a : XReg) (imm : BitVec 32)
  | shlCi (g : CGuard) (d : XReg) (a : XReg) (imm : BitVec 32)
  | shrN64Ci (g : CGuard) (d : XReg) (a : XReg) (imm : BitVec 32)
  | shrS64Ci (g : CGuard) (d : XReg) (a : XReg) (imm : BitVec 32)
  | minS64Ci (g : CGuard) (d : XReg) (a : XReg) (imm : BitVec 32)
  | minN64Ci (g : CGuard) (d : XReg) (a : XReg) (imm : BitVec 32)
  | maxS64Ci (g : CGuard) (d : XReg) (a : XReg) (imm : BitVec 32)
  | maxN64Ci (g : CGuard) (d : XReg) (a : XReg) (imm : BitVec 32)
  | cmpCr (g : CGuard) (cc : Cond) (pd : BitVec 3) (a : XReg) (b : XReg)
  | cmpCi (g : CGuard) (cc : Cond) (pd : BitVec 3) (a : XReg) (imm : BitVec 32)
  | lea (g : CGuard) (d : XReg) (a : XReg) (b : XReg) (pcRel : Bool) (sh : BitVec 3) (disp : BitVec 28)
  | movi (g : CGuard) (d : XReg) (imm : BitVec 32)
  | movhi (g : CGuard) (d : XReg) (a : XReg) (imm : BitVec 32)
  | br (g : CGuard) (imm : BitVec 32)
  | brc (g : CGuard) (cc : Cond) (a : XReg) (b : XReg) (imm : BitVec 32)
  | loop (g : CGuard) (d : XReg) (imm : BitVec 32)
  | jmp (g : CGuard) (a : XReg)
  | call (g : CGuard) (d : XReg) (imm : BitVec 32)
  | ret (g : CGuard) (a : XReg)
  | exit (g : CGuard)
  | ldS8 (g : CGuard) (d : XReg) (a : XReg) (h : Hint) (imm : BitVec 32)
  | ldN8 (g : CGuard) (d : XReg) (a : XReg) (h : Hint) (imm : BitVec 32)
  | ldS16 (g : CGuard) (d : XReg) (a : XReg) (h : Hint) (imm : BitVec 32)
  | ldN16 (g : CGuard) (d : XReg) (a : XReg) (h : Hint) (imm : BitVec 32)
  | ldS32 (g : CGuard) (d : XReg) (a : XReg) (h : Hint) (imm : BitVec 32)
  | ldN32 (g : CGuard) (d : XReg) (a : XReg) (h : Hint) (imm : BitVec 32)
  | ldB64 (g : CGuard) (d : XReg) (a : XReg) (h : Hint) (imm : BitVec 32)
  | ldAcqN32 (g : CGuard) (d : XReg) (a : XReg) (sc : Scope) (h : Hint) (imm : BitVec 32)
  | ldAcqB64 (g : CGuard) (d : XReg) (a : XReg) (sc : Scope) (h : Hint) (imm : BitVec 32)
  | stB8 (g : CGuard) (d : XReg) (a : XReg) (h : Hint) (imm : BitVec 32)
  | stB16 (g : CGuard) (d : XReg) (a : XReg) (h : Hint) (imm : BitVec 32)
  | stB32 (g : CGuard) (d : XReg) (a : XReg) (h : Hint) (imm : BitVec 32)
  | stB64 (g : CGuard) (d : XReg) (a : XReg) (h : Hint) (imm : BitVec 32)
  | stRelB32 (g : CGuard) (d : XReg) (a : XReg) (sc : Scope) (h : Hint) (imm : BitVec 32)
  | stRelB64 (g : CGuard) (d : XReg) (a : XReg) (sc : Scope) (h : Hint) (imm : BitVec 32)
  | controlAtomAdd (g : CGuard) (d : XReg) (a : XReg) (b : XReg) (o : Order) (sc : Scope) (ty : ATy) (h : Hint)
  | controlAtomMin (g : CGuard) (d : XReg) (a : XReg) (b : XReg) (o : Order) (sc : Scope) (ty : ATy) (h : Hint)
  | controlAtomMax (g : CGuard) (d : XReg) (a : XReg) (b : XReg) (o : Order) (sc : Scope) (ty : ATy) (h : Hint)
  | controlAtomAnd (g : CGuard) (d : XReg) (a : XReg) (b : XReg) (o : Order) (sc : Scope) (ty : ATy) (h : Hint)
  | controlAtomOr (g : CGuard) (d : XReg) (a : XReg) (b : XReg) (o : Order) (sc : Scope) (ty : ATy) (h : Hint)
  | controlAtomXor (g : CGuard) (d : XReg) (a : XReg) (b : XReg) (o : Order) (sc : Scope) (ty : ATy) (h : Hint)
  | controlAtomExch (g : CGuard) (d : XReg) (a : XReg) (b : XReg) (o : Order) (sc : Scope) (ty : ATy) (h : Hint)
  | controlAtomCas (g : CGuard) (d : XReg) (a : XReg) (b : XReg) (tr : XReg) (o : Order) (sc : Scope) (ty : ATy) (h : Hint)
  | fence (g : CGuard) (sc : Scope)
  | fenceAcq (g : CGuard) (sc : Scope)
  | fenceRel (g : CGuard) (sc : Scope)
  | pause (g : CGuard) (n : BitVec 16)
  | icinv (g : CGuard) (sc : Scope)
  | vrun (g : CGuard) (a : XReg) (cnt : RunCount)
  | vwalk (g : CGuard) (a : XReg) (b : XReg)
  | vmpush (g : CGuard) (p : BitVec 3) (neg : Bool) (dem : Bool) (sib : BitVec 24)
  | vmelse (g : CGuard)
  | vmpop (g : CGuard)
  | vput (g : CGuard) (k : BitVec 6) (a : XReg) (imm : BitVec 32)
  | vget (g : CGuard) (d : XReg) (lane : BitVec 5) (reg : BitVec 11)
  | vgetB64 (g : CGuard) (d : XReg) (lane : BitVec 5) (reg : BitVec 11)
  | vgetPredicate (g : CGuard) (d : XReg) (lane : BitVec 5) (reg : BitVec 11)
  | vgetMask (g : CGuard) (d : XReg) (lane : BitVec 5) (reg : BitVec 11)
  | vsync (g : CGuard)
  | push (g : CGuard) (d : XReg) (a : XReg) (q : BitVec 2) (full : BitVec 3)
  | fwait (g : CGuard) (a : XReg)
  | ftest (g : CGuard) (d : XReg) (a : XReg)
  | fcancel (g : CGuard) (a : XReg)
  | tlwait (g : CGuard) (a : XReg) (b : XReg)
  | handoff (g : CGuard) (d : XReg) (a : XReg) (b : XReg) (n : BitVec 16)
  | publish (g : CGuard) (w : BitVec 8)
  | bar (g : CGuard) (b : BitVec 4)
  | cbarArr (g : CGuard) (d : XReg) (b : BitVec 2)
  | cbarWait (g : CGuard) (a : XReg) (b : BitVec 2)
  | await (g : CGuard) (ctr : BitVec 3) (a : XReg) (imm : BitVec 32)
  | mxacq (g : CGuard)
  | mxrel (g : CGuard)
  | tcfg (g : CGuard) (a : XReg) (t : BitVec 6)
  | csrr (g : CGuard) (d : XReg) (sel : BitVec 12)
  | csrwFpm (g : CGuard) (a : XReg)
  | csrwFlags (g : CGuard) (a : XReg)
  | csrwQtab (g : CGuard) (a : XReg)
  | csrwChk (g : CGuard) (a : XReg)
  | csrwPart (g : CGuard) (a : XReg)
  | csrwArrivalCounter (g : CGuard) (a : XReg) (n : BitVec 3)
  | csrw (g : CGuard) (a : XReg) (sel : BitVec 12)
  | trap (g : CGuard) (imm : BitVec 32)
  | nop (g : CGuard)
  | fadd (c : VCtl) (t : FTy) (m : FMods) (d : VReg) (a : VSrc) (b : VSrc)
  | fsub (c : VCtl) (t : FTy) (m : FMods) (d : VReg) (a : VSrc) (b : VSrc)
  | fmul (c : VCtl) (t : FTy) (m : FMods) (d : VReg) (a : VSrc) (b : VSrc)
  | ffma (c : VCtl) (t : FTy) (m : FMods) (d : VReg) (a : VSrc) (b : VSrc) (cc : VSrc)
  | fmin (c : VCtl) (t : FTy) (m : SMods) (d : VReg) (a : VSrc) (b : VSrc)
  | fmax (c : VCtl) (t : FTy) (m : SMods) (d : VReg) (a : VSrc) (b : VSrc)
  | fcmp (c : VCtl) (t : FTy) (m : SMods) (cond : FCond) (pd : BitVec 3) (a : VSrc) (b : VSrc)
  | fclass (c : VCtl) (t : FTy) (neg : Bool) (abs : Bool) (d : VReg) (a : VSrc)
  | frcp (c : VCtl) (t : FTy) (r : RndSel) (neg : Bool) (abs : Bool) (d : VReg) (a : VSrc)
  | frsq (c : VCtl) (t : FTy) (r : RndSel) (neg : Bool) (abs : Bool) (d : VReg) (a : VSrc)
  | fsqrt (c : VCtl) (t : FTy) (r : RndSel) (neg : Bool) (abs : Bool) (d : VReg) (a : VSrc)
  | fexp2 (c : VCtl) (t : FTy) (r : RndSel) (neg : Bool) (abs : Bool) (d : VReg) (a : VSrc)
  | flog2 (c : VCtl) (t : FTy) (r : RndSel) (neg : Bool) (abs : Bool) (d : VReg) (a : VSrc)
  | fsin (c : VCtl) (t : FTy) (r : RndSel) (neg : Bool) (abs : Bool) (d : VReg) (a : VSrc)
  | fcos (c : VCtl) (t : FTy) (r : RndSel) (neg : Bool) (abs : Bool) (d : VReg) (a : VSrc)
  | add (c : VCtl) (t : ITy) (sat : Bool) (d : VReg) (a : VSrc) (b : VSrc)
  | sub (c : VCtl) (t : ITy) (sat : Bool) (d : VReg) (a : VSrc) (b : VSrc)
  | mul (c : VCtl) (t : ITy) (d : VReg) (a : VSrc) (b : VSrc)
  | mad (c : VCtl) (t : ITy) (d : VReg) (a : VSrc) (b : VSrc) (cc : VSrc)
  | mulhi (c : VCtl) (t : ITy) (d : VReg) (a : VSrc) (b : VSrc)
  | min (c : VCtl) (t : ITy) (d : VReg) (a : VSrc) (b : VSrc)
  | max (c : VCtl) (t : ITy) (d : VReg) (a : VSrc) (b : VSrc)
  | cmp (c : VCtl) (t : ITy) (cond : ICond) (pd : BitVec 3) (a : VSrc) (b : VSrc)
  | andB32 (c : VCtl) (d : VReg) (a : VSrc) (b : VSrc)
  | orB32 (c : VCtl) (d : VReg) (a : VSrc) (b : VSrc)
  | xorB32 (c : VCtl) (d : VReg) (a : VSrc) (b : VSrc)
  | andnB32 (c : VCtl) (d : VReg) (a : VSrc) (b : VSrc)
  | shlB32 (c : VCtl) (d : VReg) (a : VSrc) (b : VSrc)
  | shrN32 (c : VCtl) (d : VReg) (a : VSrc) (b : VSrc)
  | shrS32 (c : VCtl) (d : VReg) (a : VSrc) (b : VSrc)
  | popcB32 (c : VCtl) (d : VReg) (a : VSrc)
  | clzB32 (c : VCtl) (d : VReg) (a : VSrc)
  | bfeN32 (c : VCtl) (d : VReg) (a : VSrc) (b : VSrc) (cc : VSrc)
  | bfeS32 (c : VCtl) (d : VReg) (a : VSrc) (b : VSrc) (cc : VSrc)
  | selB32 (c : VCtl) (p : BitVec 3) (d : VReg) (a : VSrc) (b : VSrc)
  | acsH2 (c : VCtl) (j : BitVec 2) (d : VReg) (a : VSrc) (b : VSrc)
  | cvt (c : VCtl) (dty : CvtTy) (sty : CvtTy) (r : RndSel) (d : VReg) (a : VSrc)
  | pack4 (c : VCtl) (d : VReg) (a : VSrc) (b : VSrc) (cc : VSrc) (e : VSrc)
  | unpack4 (c : VCtl) (h : BitVec 2) (d : VReg) (a : VSrc)
  | q8t (c : VCtl) (h : BitVec 2) (d : VReg) (a : VSrc) (b : VSrc)
  | q8e (c : VCtl) (h : BitVec 2) (d : VReg) (a : VSrc) (b : VSrc) (cc : VSrc)
  | movB32 (c : VCtl) (d : VReg) (a : VSrc)
  | movB64 (c : VCtl) (d : VReg) (a : VSrc)
  | moviB32 (c : VCtl) (d : VReg) (imm : BitVec 21)
  | laneid (c : VCtl) (d : VReg)
  | shflIdx (c : VCtl) (d : VReg) (a : VSrc) (b : ShB)
  | shflUp (c : VCtl) (d : VReg) (a : VSrc) (b : ShB)
  | shflDown (c : VCtl) (d : VReg) (a : VSrc) (b : ShB)
  | shflXor (c : VCtl) (d : VReg) (a : VSrc) (b : ShB)
  | bflyLo (c : VCtl) (k : BitVec 3) (d : VReg) (a : VSrc) (b : VSrc)
  | bflyHi (c : VCtl) (k : BitVec 3) (d : VReg) (a : VSrc) (b : VSrc)
  | voteAny (c : VCtl) (pd : BitVec 3) (p : BitVec 3) (neg : Bool)
  | voteAll (c : VCtl) (pd : BitVec 3) (p : BitVec 3) (neg : Bool)
  | voteBallot (c : VCtl) (d : VReg) (p : BitVec 3) (neg : Bool)
  | voteEq (c : VCtl) (pd : BitVec 3) (p : BitVec 3) (neg : Bool)
  | redtAdd (c : VCtl) (ty : RTy) (r : RndSel) (d : VReg) (a : VSrc)
  | redtMin (c : VCtl) (ty : RTy) (r : RndSel) (d : VReg) (a : VSrc)
  | redtMax (c : VCtl) (ty : RTy) (r : RndSel) (d : VReg) (a : VSrc)
  | redtAnd (c : VCtl) (ty : RTy) (r : RndSel) (d : VReg) (a : VSrc)
  | redtOr (c : VCtl) (ty : RTy) (r : RndSel) (d : VReg) (a : VSrc)
  | redtXor (c : VCtl) (ty : RTy) (r : RndSel) (d : VReg) (a : VSrc)
  | matchLanes (c : VCtl) (fp : Bool) (d : VReg) (a : VSrc)
  | xsend (c : VCtl) (slot : BitVec 4) (wide : Bool) (a : VSrc)
  | xrecv (c : VCtl) (slot : BitVec 4) (wide : Bool) (d : VReg)
  | rput (c : VCtl) (wide : Bool) (a : VSrc) (k : BitVec 6)
  | ld (c : VCtl) (ty : LdTy) (d : VReg) (a : VSrc) (off : BitVec 18)
  | ldTurn (c : VCtl) (wide : Bool) (d : VReg) (a : VSrc) (off : BitVec 18)
  | ldAcq (c : VCtl) (wide : Bool) (sc : Scope) (d : VReg) (a : VSrc) (off : BitVec 18)
  | st (c : VCtl) (w : StW) (d : VSrc) (a : VSrc) (off : BitVec 18)
  | stRel (c : VCtl) (wide : Bool) (sc : Scope) (d : VSrc) (a : VSrc) (off : BitVec 18)
  | prefetch (c : VCtl) (a : VSrc) (off : BitVec 18)
  | atomAdd (c : VCtl) (o : Order) (sc : Scope) (ty : ATy) (d : VReg) (a : VSrc) (b : VSrc)
  | atomMin (c : VCtl) (o : Order) (sc : Scope) (ty : ATy) (d : VReg) (a : VSrc) (b : VSrc)
  | atomMax (c : VCtl) (o : Order) (sc : Scope) (ty : ATy) (d : VReg) (a : VSrc) (b : VSrc)
  | atomAnd (c : VCtl) (o : Order) (sc : Scope) (ty : ATy) (d : VReg) (a : VSrc) (b : VSrc)
  | atomOr (c : VCtl) (o : Order) (sc : Scope) (ty : ATy) (d : VReg) (a : VSrc) (b : VSrc)
  | atomXor (c : VCtl) (o : Order) (sc : Scope) (ty : ATy) (d : VReg) (a : VSrc) (b : VSrc)
  | atomExch (c : VCtl) (o : Order) (sc : Scope) (ty : ATy) (d : VReg) (a : VSrc) (b : VSrc)
  | atomCas (c : VCtl) (o : Order) (sc : Scope) (ty : ATy) (d : VReg) (a : VSrc) (b : VSrc) (cc : VSrc)
  | atomAddF32 (c : VCtl) (o : Order) (sc : Scope) (d : VReg) (a : VSrc) (b : VSrc)
  | redAdd (c : VCtl) (rel : Bool) (sc : Scope) (ty : ATy) (a : VSrc) (b : VSrc)
  | redMin (c : VCtl) (rel : Bool) (sc : Scope) (ty : ATy) (a : VSrc) (b : VSrc)
  | redMax (c : VCtl) (rel : Bool) (sc : Scope) (ty : ATy) (a : VSrc) (b : VSrc)
  | redAnd (c : VCtl) (rel : Bool) (sc : Scope) (ty : ATy) (a : VSrc) (b : VSrc)
  | redOr (c : VCtl) (rel : Bool) (sc : Scope) (ty : ATy) (a : VSrc) (b : VSrc)
  | redXor (c : VCtl) (rel : Bool) (sc : Scope) (ty : ATy) (a : VSrc) (b : VSrc)
  | redAddF32 (c : VCtl) (rel : Bool) (sc : Scope) (a : VSrc) (b : VSrc)
  | redDefer (c : VCtl) (ty : DTy) (a : VSrc) (b : VSrc)
  | vectorFence (c : VCtl) (sc : Scope)
  | vectorFenceAcq (c : VCtl) (sc : Scope)
  | vectorFenceRel (c : VCtl) (sc : Scope)
  | fenceD (c : VCtl)
  | mma (c : VCtl) (ty : MTy) (r : RndSel) (ra : Bool) (rb : Bool) (d : TileNo) (a : TileNo) (b : TileNo) (k : BitVec 9)
  | mmaz (c : VCtl) (q4 : Bool) (ra : Bool) (rb : Bool) (d : TileNo) (a : TileNo) (b : TileNo) (z : TileNo)
  | sacc (c : VCtl) (r : RndSel) (d : TileNo) (a : TileNo) (b : TileNo) (cc : TileNo)
  | tzero (c : VCtl) (d : TileNo)
  | tmovToVector (c : VCtl) (d : VReg) (t : TileNo) (j : BitVec 7) (rb : BitVec 4)
  | tmovToTile (c : VCtl) (t : TileNo) (a : VSrc) (j : BitVec 7) (rb : BitVec 4)
  | vectorNop (stall : BitVec 3)
  | copy (w : Cmd)
  | copyx (w : Cmd)
  | gather (w : Cmd)
  | scatter (w : Cmd)
  | fill (w : Cmd)
  | tfill (w : Cmd)
  | tdrain (w : Cmd)
  | clist (w : Cmd)
  | copyResume (w : Cmd)
  | sweepScale (w : Cmd)
  | sweepAffine (w : Cmd)
  | sweepClamp (w : Cmd)
  | sweepFill (w : Cmd)
  | sweepAbsmax (w : Cmd)
  | sweepSum (w : Cmd)
  | sweepForce (w : Cmd)
  | sweepStatus (w : Cmd)
  | rowCopy (w : Cmd)
  | rowZero (w : Cmd)
  | deriveRegTranspose (w : Cmd)
  | deriveRegCast (w : Cmd)
  | deriveRegRowsum (w : Cmd)
  | deriveDrop (w : Cmd)
  | deriveFlush (w : Cmd)
  | snapArm (w : Cmd)
  | snapAbort (w : Cmd)
  | basinResume (w : Cmd)
  | allreduce (w : Cmd)
  | reducescatter (w : Cmd)
  | allgather (w : Cmd)
  | sendCmd (w : Cmd)
  | recvCmd (w : Cmd)
  | bucketArm (w : Cmd)
  | stepCmd (w : Cmd)
  | collectiveResume (w : Cmd)
  -- the events of the machine
  | powerUp
  | portTrainingTimeout
  | imageDownload (img : List Byte)
  | fullService
  | attestationRequest (nonce : Option (BitVec 256))
  | sensorSample (core : Nat) (quarterDeg : Int) (droop : Nat)
  | uncorrectableSoftError (pa : Nat) (corrected : Bool)
  | launchMessage (ty : BitVec 8) (tag : BitVec 32) (ep : Nat) (body : List (BitVec 64))
  | openWindow (tag : BitVec 32) (win : Nat) (grid : BitVec 64) (base : BitVec 64) (len : Nat) (vaddr : Nat)
  | closeWindow (tag : BitVec 32) (win : Nat)
  | setCommunicator (tag : BitVec 32) (num : Nat) (rank : Nat) (ports : BitVec 8) (eps : List Nat)
  | setDrainTarget (tag : BitVec 32) (slot : Nat) (endpoint : Nat) (ports : BitVec 8) (base : Nat) (len : Nat) (key : Nat)
  | resolveHalt (tag : BitVec 32) (w0 : BitVec 64) (w1 : BitVec 64) (w2 : BitVec 64)
  | loadKeySlot (tag : BitVec 32) (slot : Nat) (key : KeyLoad)
  | hostRmaRead (win : Nat) (off : Nat) (len : Nat)
  | launchStart (go : Starting)
  | teamPlacement (ctx : Nat) (place : Placement)
  | tlbInvalidation
  | groupStart (core : Nat) (slot : Nat)
  | groupEnd
  | gridEnd (ctx : Nat)
  | clauseGrant (core : Nat) (sq : Nat)
  | pipeGrant (core : Nat) (pipe : Nat) (delay : Nat)
  | pauseExpiry
  | resultArrival (stamp : Nat) (lanes : BitVec 32) (l1 : BitVec 32)
  | zeroMaskSlotFall (stamp : Nat)
  | regsExhausted (core : Nat)
  | faultRecord (who : Faulter)
  | replayHalt (vec : Bool)
  | continueHalt (vec : Bool)
  | discardHalt (vec : Bool)
  | terminateHalt (vec : Bool)
  | preemptionRequest (core : Nat)
  | contextSave (core : Nat) (lead : Nat) (go : Bool)
  | contextResume (n : Nat) (place : Placement)
  | writePerformed (stamp : Nat) (lane : LaneWrite)
  | demandCapture (row : Nat)
  | deferredAccept (stamp : Nat) (lane : Nat)
  | recompute (row : Nat)
  | fifoUnit (core : Nat) (bank : Nat)
  | refreshRestore (bank : Nat)
  | forcedActivation (bank : Nat)
  | registration (basin : Nat) (ctx : Nat) (row : Nat)
  | snapshotDrainRecord (basin : Nat)
  | drainAcknowledgement (slot : Nat)
  | elementDelivery (e : EngineRef)
  | matrixGrant (quad : Nat)
  | matrixCompletion (quad : Nat)
  | rendezvousPairing (slot : Nat)
  | rputArrival (part : PutLanes)
  | barPhaseComplete (b : Nat)
  | clusterBarrierPhase (b : Nat)
  | runToken
  | walkToken (point : Nat)
  | maskPush
  | maskInvert
  | maskPop
  | deposit
  | synchronise
  | returnTok
  | bootPortTrained
  | bringUpFault
  | connectionSetUp (peer : Nat) (features : List Feature)
  | peerDelivery (ctx : Nat) (rank : Nat) (data : Packet)
  | retransmissionFailure (ctx : Nat)
  | engineContextPreemption (e : EngineRef)
  | engineContextResume (e : EngineRef)
  | commandEndedInError (e : EngineRef)
  deriving DecidableEq, Repr

end Sys2Proof
end

