-- ==== Sys2Proof/WellFormed.lean ====
section
/-! DEFINITION. Well-formed instructions: the field values that the spec allows an instruction to carry (R116, R118 to
R121, R125 to R127, R157). A word that decodes to a term that fails its check faults OP_ILLEGAL (R131). -/
namespace Sys2Proof

/-- CG = 7 with CGN = 1 faults OP_ILLEGAL (R121). -/
def CGuard.wf (g : CGuard) : Bool := !(g.cg == 7 && g.cgn)

/-- A vector register named by a source, which alone HOLD and LAST may name (R125, R126). -/
def VSrc.isV : VSrc → Bool
  | .v _ => true
  | .k _ => false
  | .i _ => false

/-- A source of a 64-bit operand: an even register, an even k register, never an i register (R93, R116, R199). -/
def VSrc.even : VSrc → Bool
  | .v n => n.getLsbD 0 == false
  | .k n => n.getLsbD 0 == false
  | .i _ => false

/-- The width rule of one source. -/
def VSrc.fits (wide : Bool) (s : VSrc) : Bool := !wide || s.even

/-- The width rule of a destination (R93). -/
def VReg.fits (wide : Bool) (d : VReg) : Bool := !wide || d.getLsbD 0 == false

/-- What WSET an instruction may carry (R127). -/
inductive WRule where
  | zero | must | may
  deriving DecidableEq, Repr

/-- WSET against its rule; 7 faults OP_ILLEGAL (Table 49). -/
def WRule.ok (r : WRule) (w : BitVec 3) : Bool :=
  match r with
  | .zero => w == 0
  | .must => w != 0 && w != 7
  | .may => w != 7

/-- A source that HOLD or LAST names must be a vector register of the instruction (R125, R126). -/
def heldOk (used : Bool) (s : Option VSrc) : Bool := !used || (s.map VSrc.isV).getD false

/-- The guard and scheduling fields of a vector word (R118, R120, R125 to R127), given which hints are allowed, the WSET
rule, and the sources A, B and C. -/
def VCtl.wf (c : VCtl) (mem : Bool) (r : WRule) (a b x : Option VSrc) : Bool :=
  !(c.g0 == 7 && c.g0n) && !(c.g1 == 7 && c.g1n) && (mem || c.hint == .dflt) && r.ok c.wset
    && heldOk (c.hold == .a || c.lastA) a && heldOk (c.hold == .b || c.lastB) b && heldOk (c.hold == .c || c.lastC) x

/-- 64-bit types. -/
def FTy.wide (t : FTy) : Bool := t == .f64
def FTy.packed (t : FTy) : Bool := t == .f16x2 || t == .bf16x2
def ITy.wide (t : ITy) : Bool := t == .s64 || t == .n64
def ITy.packed (t : ITy) : Bool := t == .s16x2 || t == .n16x2
def ATy.wide (t : ATy) : Bool := t == .s64 || t == .n64

/-- Conversions of Table 91 that never round. -/
def CvtTy.isFloat : CvtTy → Bool
  | .f64 | .f32 | .f16 | .bf16 => true
  | .s8 | .s16 | .s32 | .s64 | .n8 | .n16 | .n32 | .n64 => false
def CvtTy.wide : CvtTy → Bool
  | .f64 | .s64 | .n64 => true
  | .f32 | .f16 | .bf16 | .s8 | .s16 | .s32 | .n8 | .n16 | .n32 => false
def cvtExact (dt st : CvtTy) : Bool :=
  match st, dt with
  | .f16, .f32 | .f16, .f64 | .bf16, .f32 | .bf16, .f64 | .f32, .f64 => true
  | .s8, _ | .n8, _ => true
  | .s16, .f32 | .s16, .f64 | .n16, .f32 | .n16, .f64 => true
  | .s32, .f64 | .n32, .f64 => true
  | s, d => !s.isFloat && !d.isFloat

/-- A pair that `cvt` accepts, with the rounding field it may carry (R231, R232). -/
def cvtOk (dt st : CvtTy) (r : RndSel) : Bool :=
  (st.isFloat || !(dt == st)) && (!cvtExact dt st || r == .dyn)

/-- The type and operation pairs of `redt` (R244); only `.add.f32` rounds. -/
def redtOk (ty : RTy) (r : RndSel) (arith add : Bool) : Bool :=
  (ty != .f32 || arith) && (r == .dyn || (ty == .f32 && add))

/-- CMD and FN of a command word 0 (Tables 113, 138, 170, 176). -/
def Cmd.cmd (w : Cmd) : BitVec 8 := w.w0.extractLsb' 56 8
def Cmd.fn (w : Cmd) : BitVec 4 := w.w0.extractLsb' 44 4

/-- The field values the spec allows. -/
def Instr.wf : Instr → Bool
  | .powerUp => true
  | .portTrainingTimeout => true
  | .imageDownload _ => true
  | .fullService => true
  | .attestationRequest _ => true
  | .sensorSample core _ _ => decide (core < 1024)
  | .uncorrectableSoftError _ _ => true
  | .launchMessage ty _ _ _ => !(2 ≤ ty.toNat && ty.toNat ≤ 5) && ty != 7
  | .openWindow _ win _ _ _ _ => decide (win < 256)
  | .closeWindow _ win => decide (win < 256)
  | .setCommunicator _ num _ _ _ => decide (num < 256)
  | .setDrainTarget _ slot _ _ _ _ _ => decide (slot < 16)
  | .resolveHalt _ _ _ _ => true
  | .loadKeySlot _ slot _ => decide (slot < 16)
  | .hostRmaRead win _ _ => decide (win < 256)
  | .launch w => w.cmd == 1
  | .launchStart go => decide (go.ctx < 8)
  | .teamPlacement ctx _ => decide (ctx < 8)
  | .reclaim w => w.cmd == 2
  | .tlbInvalidation => true
  | .groupStart core slot => decide (core < 1024) && decide (slot < 32)
  | .groupEnd => true
  | .gridEnd ctx => decide (ctx < 8)
  | .clauseGrant core sq => decide (core < 1024) && decide (sq < 2)
  | .pipeGrant core pipe _ => decide (core < 1024) && decide (pipe < 4)
  | .pauseExpiry => true
  | .resultArrival _ _ _ => true
  | .zeroMaskSlotFall _ => true
  | .regsExhausted core => decide (core < 1024)
  | .faultRecord _ => true
  | .replayHalt _ => true
  | .continueHalt _ => true
  | .discardHalt _ => true
  | .terminateHalt _ => true
  | .preemptionRequest core => decide (core < 1024)
  | .contextSave core lead _ => decide (core < 1024) && decide (lead < 32)
  | .contextResume _ _ => true
  | .writePerformed _ lane => decide (lane.lane < 32)
  | .demandCapture row => decide (row < 402653184)
  | .deferredAccept _ lane => decide (lane < 32)
  | .recompute row => decide (row < 402653184)
  | .fifoUnit core bank => decide (core < 1024) && decide (bank < 8)
  | .refreshRestore bank => decide (bank < 6144)
  | .forcedActivation bank => decide (bank < 6144)
  | .registration basin ctx _ => decide (basin < 192) && decide (ctx < 4)
  | .snapshotDrainRecord basin => decide (basin < 192)
  | .drainAcknowledgement slot => decide (slot < 16)
  | .elementDelivery _ => true
  | .matrixGrant quad => decide (quad < 256)
  | .matrixCompletion quad => decide (quad < 256)
  | .rendezvousPairing slot => decide (slot < 16)
  | .rputArrival _ => true
  | .barPhaseComplete b => decide (b < 16)
  | .clusterBarrierPhase b => decide (b < 4)
  | .runToken => true
  | .walkToken _ => true
  | .maskPush => true
  | .maskInvert => true
  | .maskPop => true
  | .deposit => true
  | .synchronise => true
  | .returnTok => true
  | .addCr g _ _ _ => g.wf
  | .subCr g _ _ _ => g.wf
  | .mulCr g _ _ _ => g.wf
  | .mulhiS64Cr g _ _ _ => g.wf
  | .mulhiN64Cr g _ _ _ => g.wf
  | .andCr g _ _ _ => g.wf
  | .orCr g _ _ _ => g.wf
  | .xorCr g _ _ _ => g.wf
  | .shlCr g _ _ _ => g.wf
  | .shrN64Cr g _ _ _ => g.wf
  | .shrS64Cr g _ _ _ => g.wf
  | .minS64Cr g _ _ _ => g.wf
  | .minN64Cr g _ _ _ => g.wf
  | .maxS64Cr g _ _ _ => g.wf
  | .maxN64Cr g _ _ _ => g.wf
  | .addCi g _ _ _ => g.wf
  | .subCi g _ _ _ => g.wf
  | .mulCi g _ _ _ => g.wf
  | .mulhiS64Ci g _ _ _ => g.wf
  | .mulhiN64Ci g _ _ _ => g.wf
  | .andCi g _ _ _ => g.wf
  | .orCi g _ _ _ => g.wf
  | .xorCi g _ _ _ => g.wf
  | .shlCi g _ _ imm => g.wf && imm.extractLsb' 6 26 == 0
  | .shrN64Ci g _ _ imm => g.wf && imm.extractLsb' 6 26 == 0
  | .shrS64Ci g _ _ imm => g.wf && imm.extractLsb' 6 26 == 0
  | .minS64Ci g _ _ _ => g.wf
  | .minN64Ci g _ _ _ => g.wf
  | .maxS64Ci g _ _ _ => g.wf
  | .maxN64Ci g _ _ _ => g.wf
  | .cmpCr g _ _ _ _ => g.wf
  | .cmpCi g _ _ _ _ => g.wf
  | .lea g _ a _ pcRel _ _ => g.wf && (!pcRel || a == 0)
  | .movi g _ _ => g.wf
  | .movhi g _ _ _ => g.wf
  | .br g _ => g.wf
  | .brc g _ _ _ _ => g.wf
  | .loop g d _ => g.wf && d != 0
  | .jmp g _ => g.wf
  | .call g _ _ => g.wf
  | .ret g _ => g.wf
  | .exit g => g.wf
  | .ldS8 g _ _ _ _ => g.wf
  | .ldN8 g _ _ _ _ => g.wf
  | .ldS16 g _ _ _ _ => g.wf
  | .ldN16 g _ _ _ _ => g.wf
  | .ldS32 g _ _ _ _ => g.wf
  | .ldN32 g _ _ _ _ => g.wf
  | .ldB64 g _ _ _ _ => g.wf
  | .ldAcqN32 g _ _ _ _ _ => g.wf
  | .ldAcqB64 g _ _ _ _ _ => g.wf
  | .stB8 g _ _ _ _ => g.wf
  | .stB16 g _ _ _ _ => g.wf
  | .stB32 g _ _ _ _ => g.wf
  | .stB64 g _ _ _ _ => g.wf
  | .stRelB32 g _ _ _ _ _ => g.wf
  | .stRelB64 g _ _ _ _ _ => g.wf
  | .controlAtomAdd g _ _ _ _ _ _ _ => g.wf
  | .controlAtomMin g _ _ _ _ _ _ _ => g.wf
  | .controlAtomMax g _ _ _ _ _ _ _ => g.wf
  | .controlAtomAnd g _ _ _ _ _ _ _ => g.wf
  | .controlAtomOr g _ _ _ _ _ _ _ => g.wf
  | .controlAtomXor g _ _ _ _ _ _ _ => g.wf
  | .controlAtomExch g _ _ _ _ _ _ _ => g.wf
  | .controlAtomCas g _ _ _ _ _ _ _ _ => g.wf
  | .fence g _ => g.wf
  | .fenceAcq g _ => g.wf
  | .fenceRel g _ => g.wf
  | .pause g _ => g.wf
  | .icinv g _ => g.wf
  | .vrun g _ _ => g.wf
  | .vwalk g _ _ => g.wf
  | .vmpush g _ _ dem sib => g.wf && (dem || sib == 0)
  | .vmelse g => g.wf
  | .vmpop g => g.wf
  | .vput g _ _ _ => g.wf
  | .vget g _ _ _ => g.wf
  | .vgetB64 g _ _ _ => g.wf
  | .vgetPredicate g _ _ _ => g.wf
  | .vgetMask g _ _ _ => g.wf
  | .vsync g => g.wf
  | .push g _ a _ _ => g.wf && a.toNat ≤ 56
  | .fwait g _ => g.wf
  | .ftest g _ _ => g.wf
  | .fcancel g _ => g.wf
  | .tlwait g _ _ => g.wf
  | .handoff g _ _ _ n => g.wf && 1 ≤ n.toNat && n.toNat ≤ 4096
  | .publish g _ => g.wf
  | .bar g _ => g.wf
  | .cbarArr g _ _ => g.wf
  | .cbarWait g _ _ => g.wf
  | .await g _ _ _ => g.wf
  | .mxacq g => g.wf
  | .mxrel g => g.wf
  | .tcfg g _ _ => g.wf
  | .csrr g _ _ => g.wf
  | .csrwFpm g _ => g.wf
  | .csrwFlags g _ => g.wf
  | .csrwQtab g _ => g.wf
  | .csrwChk g _ => g.wf
  | .csrwPart g _ => g.wf
  | .csrwArrivalCounter g _ _ => g.wf
  | .csrw g _ sel => g.wf && 5 ≤ sel.toNat && !(8 ≤ sel.toNat && sel.toNat ≤ 15)
  | .trap g _ => g.wf
  | .nop g => g.wf
  | .fadd c t _ d a b => c.wf false .zero (some a) (some b) none && a.fits t.wide && b.fits t.wide && VReg.fits t.wide d
  | .fsub c t _ d a b => c.wf false .zero (some a) (some b) none && a.fits t.wide && b.fits t.wide && VReg.fits t.wide d
  | .fmul c t _ d a b => c.wf false .zero (some a) (some b) none && a.fits t.wide && b.fits t.wide && VReg.fits t.wide d
  | .ffma c t _ d a b cc => c.wf false .zero (some a) (some b) (some cc) && a.fits t.wide && b.fits t.wide && cc.fits t.wide && VReg.fits t.wide d
  | .fmin c t _ d a b => c.wf false .zero (some a) (some b) none && a.fits t.wide && b.fits t.wide && VReg.fits t.wide d
  | .fmax c t _ d a b => c.wf false .zero (some a) (some b) none && a.fits t.wide && b.fits t.wide && VReg.fits t.wide d
  | .fcmp c t _ _ _ a b => c.wf false .zero (some a) (some b) none && a.fits t.wide && b.fits t.wide && !t.packed
  | .fclass c t _ _ _ a => c.wf false .zero (some a) none none && a.fits t.wide
  | .frcp c t _ _ _ d a => c.wf false .zero (some a) none none && a.fits t.wide && VReg.fits t.wide d && !t.packed
  | .frsq c t _ _ _ d a => c.wf false .zero (some a) none none && a.fits t.wide && VReg.fits t.wide d && !t.packed
  | .fsqrt c t _ _ _ d a => c.wf false .zero (some a) none none && a.fits t.wide && VReg.fits t.wide d && !t.packed
  | .fexp2 c t _ _ _ d a => c.wf false .zero (some a) none none && a.fits t.wide && VReg.fits t.wide d && !t.packed
  | .flog2 c t _ _ _ d a => c.wf false .zero (some a) none none && a.fits t.wide && VReg.fits t.wide d && !t.packed
  | .fsin c t _ _ _ d a => c.wf false .zero (some a) none none && a.fits t.wide && VReg.fits t.wide d && !t.packed
  | .fcos c t _ _ _ d a => c.wf false .zero (some a) none none && a.fits t.wide && VReg.fits t.wide d && !t.packed
  | .add c t _ d a b => c.wf false .zero (some a) (some b) none && a.fits t.wide && b.fits t.wide && VReg.fits t.wide d
  | .sub c t _ d a b => c.wf false .zero (some a) (some b) none && a.fits t.wide && b.fits t.wide && VReg.fits t.wide d
  | .mul c t d a b => c.wf false .zero (some a) (some b) none && a.fits t.wide && b.fits t.wide && VReg.fits t.wide d
  | .mad c t d a b cc => c.wf false .zero (some a) (some b) (some cc) && a.fits t.wide && b.fits t.wide && cc.fits t.wide && VReg.fits t.wide d
  | .mulhi c t d a b => c.wf false .zero (some a) (some b) none && a.fits t.wide && b.fits t.wide && VReg.fits t.wide d
  | .min c t d a b => c.wf false .zero (some a) (some b) none && a.fits t.wide && b.fits t.wide && VReg.fits t.wide d
  | .max c t d a b => c.wf false .zero (some a) (some b) none && a.fits t.wide && b.fits t.wide && VReg.fits t.wide d
  | .cmp c t _ pd a b => c.wf false .zero (some a) (some b) none && a.fits t.wide && b.fits t.wide && (!t.packed || pd == 0 || pd == 2 || pd == 4)
  | .andB32 c _ a b => c.wf false .zero (some a) (some b) none
  | .orB32 c _ a b => c.wf false .zero (some a) (some b) none
  | .xorB32 c _ a b => c.wf false .zero (some a) (some b) none
  | .andnB32 c _ a b => c.wf false .zero (some a) (some b) none
  | .shlB32 c _ a b => c.wf false .zero (some a) (some b) none
  | .shrN32 c _ a b => c.wf false .zero (some a) (some b) none
  | .shrS32 c _ a b => c.wf false .zero (some a) (some b) none
  | .popcB32 c _ a => c.wf false .zero (some a) none none
  | .clzB32 c _ a => c.wf false .zero (some a) none none
  | .bfeN32 c _ a b cc => c.wf false .zero (some a) (some b) (some cc)
  | .bfeS32 c _ a b cc => c.wf false .zero (some a) (some b) (some cc)
  | .selB32 c _ _ a b => c.wf false .zero (some a) (some b) none
  | .acsH2 c j _ a b => c.wf false .zero (some a) (some b) none && j != 3
  | .cvt c dty sty r d a => c.wf false .zero (some a) none none && a.fits sty.wide && VReg.fits dty.wide d && cvtOk dty sty r
  | .pack4 c _ a b cc _ => c.wf false .zero (some a) (some b) (some cc)
  | .unpack4 c _ _ a => c.wf false .zero (some a) none none
  | .q8t c _ _ a b => c.wf false .must (some a) (some b) none
  | .q8e c _ _ a b cc => c.wf false .must (some a) (some b) (some cc)
  | .movB32 c _ a => c.wf false .zero (some a) none none
  | .movB64 c d a => c.wf false .zero (some a) none none && a.fits true && VReg.fits true d
  | .moviB32 c _ _ => c.wf false .zero none none none
  | .laneid c _ => c.wf false .zero none none none
  | .shflIdx c _ a b => c.wf false .zero (some a) (match b with | .reg x => some x | .imm _ => none) none
  | .shflUp c _ a b => c.wf false .zero (some a) (match b with | .reg x => some x | .imm _ => none) none
  | .shflDown c _ a b => c.wf false .zero (some a) (match b with | .reg x => some x | .imm _ => none) none
  | .shflXor c _ a b => c.wf false .zero (some a) (match b with | .reg x => some x | .imm _ => none) none
  | .bflyLo c k _ a b => c.wf false .zero (some a) (some b) none && k.toNat ≤ 4
  | .bflyHi c k _ a b => c.wf false .zero (some a) (some b) none && k.toNat ≤ 4
  | .voteAny c _ _ _ => c.wf false .zero none none none
  | .voteAll c _ _ _ => c.wf false .zero none none none
  | .voteBallot c _ _ _ => c.wf false .zero none none none
  | .voteEq c _ _ _ => c.wf false .zero none none none
  | .redtAdd c ty r _ a => c.wf false .zero (some a) none none && redtOk ty r true true
  | .redtMin c ty r _ a => c.wf false .zero (some a) none none && redtOk ty r true false
  | .redtMax c ty r _ a => c.wf false .zero (some a) none none && redtOk ty r true false
  | .redtAnd c ty r _ a => c.wf false .zero (some a) none none && redtOk ty r false false
  | .redtOr c ty r _ a => c.wf false .zero (some a) none none && redtOk ty r false false
  | .redtXor c ty r _ a => c.wf false .zero (some a) none none && redtOk ty r false false
  | .matchLanes c _ _ a => c.wf false .zero (some a) none none
  | .xsend c _ wide a => c.wf false .may (some a) none none && a.fits wide
  | .xrecv c _ wide d => c.wf false .must none none none && VReg.fits wide d
  | .rput c wide a _ => c.wf false .may (some a) none none && a.fits wide
  | .ld c ty d a _ => c.wf true .must (some a) none none && a.even && VReg.fits (ty == .b64) d
  | .ldTurn c wide d a _ => c.wf true .must (some a) none none && a.even && VReg.fits true d && (d.toNat % 128 ≤ (if wide then 124 else 126))
  | .ldAcq c wide _ d a _ => c.wf true .must (some a) none none && a.even && VReg.fits wide d
  | .st c w d a _ => c.wf true .zero (some a) none none && a.even && d.fits (w == .b64)
  | .stRel c wide _ d a _ => c.wf true .zero (some a) none none && a.even && d.fits wide
  | .prefetch c a _ => c.wf true .zero (some a) none none && a.even
  | .atomAdd c _ _ ty d a b => c.wf true .must (some a) (some b) none && a.even && b.fits ty.wide && VReg.fits ty.wide d
  | .atomMin c _ _ ty d a b => c.wf true .must (some a) (some b) none && a.even && b.fits ty.wide && VReg.fits ty.wide d
  | .atomMax c _ _ ty d a b => c.wf true .must (some a) (some b) none && a.even && b.fits ty.wide && VReg.fits ty.wide d
  | .atomAnd c _ _ ty d a b => c.wf true .must (some a) (some b) none && a.even && b.fits ty.wide && VReg.fits ty.wide d
  | .atomOr c _ _ ty d a b => c.wf true .must (some a) (some b) none && a.even && b.fits ty.wide && VReg.fits ty.wide d
  | .atomXor c _ _ ty d a b => c.wf true .must (some a) (some b) none && a.even && b.fits ty.wide && VReg.fits ty.wide d
  | .atomExch c _ _ ty d a b => c.wf true .must (some a) (some b) none && a.even && b.fits ty.wide && VReg.fits ty.wide d
  | .atomCas c _ _ ty d a b cc => c.wf true .must (some a) (some b) (some cc) && a.even && b.fits ty.wide && cc.fits ty.wide && VReg.fits ty.wide d
  | .atomAddF32 c _ _ _ a b => c.wf true .must (some a) (some b) none && a.even
  | .redAdd c _ _ ty a b => c.wf true .may (some a) (some b) none && a.even && b.fits ty.wide
  | .redMin c _ _ ty a b => c.wf true .may (some a) (some b) none && a.even && b.fits ty.wide
  | .redMax c _ _ ty a b => c.wf true .may (some a) (some b) none && a.even && b.fits ty.wide
  | .redAnd c _ _ ty a b => c.wf true .may (some a) (some b) none && a.even && b.fits ty.wide
  | .redOr c _ _ ty a b => c.wf true .may (some a) (some b) none && a.even && b.fits ty.wide
  | .redXor c _ _ ty a b => c.wf true .may (some a) (some b) none && a.even && b.fits ty.wide
  | .redAddF32 c _ _ a b => c.wf true .may (some a) (some b) none && a.even
  | .redDefer c _ a b => c.wf true .may (some a) (some b) none && a.even
  | .vectorFence c _ => c.wf false .zero none none none
  | .vectorFenceAcq c _ => c.wf false .zero none none none
  | .vectorFenceRel c _ => c.wf false .zero none none none
  | .fenceD c => c.wf false .zero none none none
  | .mma c ty r _ _ _ _ _ _ => c.wf false .may none none none && (ty != .s8 || r == .dyn)
  | .mmaz c _ _ _ _ _ _ _ => c.wf false .may none none none
  | .sacc c _ _ _ _ _ => c.wf false .may none none none
  | .tzero c _ => c.wf false .zero none none none
  | .tmovToVector c _ _ _ _ => c.wf false .must none none none
  | .tmovToTile c _ a _ _ => c.wf false .may (some a) none none
  | .vectorNop _ => true
  | .copy w => w.cmd == 1
  | .copyx w => w.cmd == 2
  | .gather w => w.cmd == 3
  | .scatter w => w.cmd == 4
  | .fill w => w.cmd == 5
  | .tfill w => w.cmd == 6
  | .tdrain w => w.cmd == 7
  | .clist w => w.cmd == 8
  | .copyResume w => w.cmd == 9
  | .sweepScale w => w.cmd == 1 && w.fn == 1
  | .sweepAffine w => w.cmd == 1 && w.fn == 2
  | .sweepClamp w => w.cmd == 1 && w.fn == 3
  | .sweepFill w => w.cmd == 1 && w.fn == 4
  | .sweepAbsmax w => w.cmd == 1 && w.fn == 5
  | .sweepSum w => w.cmd == 1 && w.fn == 6
  | .sweepForce w => w.cmd == 2
  | .sweepStatus w => w.cmd == 3
  | .rowCopy w => w.cmd == 4
  | .rowZero w => w.cmd == 5
  | .deriveRegTranspose w => w.cmd == 6 && w.fn == 1
  | .deriveRegCast w => w.cmd == 6 && w.fn == 2
  | .deriveRegRowsum w => w.cmd == 6 && w.fn == 3
  | .deriveDrop w => w.cmd == 7
  | .deriveFlush w => w.cmd == 8
  | .snapArm w => w.cmd == 9
  | .snapAbort w => w.cmd == 10
  | .basinResume w => w.cmd == 11
  | .allreduce w => w.cmd == 1
  | .reducescatter w => w.cmd == 2
  | .allgather w => w.cmd == 3
  | .sendCmd w => w.cmd == 4
  | .recvCmd w => w.cmd == 5
  | .bucketArm w => w.cmd == 6
  | .stepCmd w => w.cmd == 7
  | .collectiveResume w => w.cmd == 8
  | .bootPortTrained => true
  | .bringUpFault => true
  | .connectionSetUp _ _ => true
  | .peerDelivery ctx _ _ => decide (ctx < 16)
  | .retransmissionFailure ctx => decide (ctx < 16)
  | .engineContextPreemption _ => true
  | .engineContextResume _ => true
  | .commandEndedInError _ => true

end Sys2Proof
end

