-- ==== Sys2Proof/Decode.lean ====
section
/-! DEFINITION. Decoding of clause headers, control words (Table 50, Table 54), vector words (Table 49, Table 53) and
engine command words, total and rejecting by name, and after it the encoder written from the same tables. -/
namespace Sys2Proof

/-! ### Codes of the operand fields -/

/-- One bit of a field. -/
def b1 (b : Bool) : BitVec 1 := if b then 1 else 0

def Cond.code : Cond → BitVec 3
  | .eq => 0 | .ne => 1 | .ltS => 2 | .geS => 3 | .ltN => 4 | .geN => 5 | .tst => 6 | .ntst => 7
def Cond.ofCode (c : BitVec 3) : Cond :=
  if c == 0 then .eq else if c == 1 then .ne else if c == 2 then .ltS else if c == 3 then .geS else if c == 4 then .ltN
  else if c == 5 then .geN else if c == 6 then .tst else .ntst
def FCond.code : FCond → BitVec 3
  | .eq => 0 | .ne => 1 | .lt => 2 | .le => 3 | .gt => 4 | .ge => 5 | .ord => 6 | .uno => 7
def FCond.ofCode (c : BitVec 3) : FCond :=
  if c == 0 then .eq else if c == 1 then .ne else if c == 2 then .lt else if c == 3 then .le else if c == 4 then .gt
  else if c == 5 then .ge else if c == 6 then .ord else .uno
def ICond.code : ICond → BitVec 3
  | .eq => 0 | .ne => 1 | .lt => 2 | .le => 3 | .gt => 4 | .ge => 5 | .tst => 6 | .ntst => 7
def ICond.ofCode (c : BitVec 3) : ICond :=
  if c == 0 then .eq else if c == 1 then .ne else if c == 2 then .lt else if c == 3 then .le else if c == 4 then .gt
  else if c == 5 then .ge else if c == 6 then .tst else .ntst
/-- Table 20; 6 and 7 name no scope (R51). -/
def Scope.code : Scope → BitVec 3
  | .grp => 0 | .team => 1 | .clu => 2 | .die => 3 | .pkg => 4 | .sys => 5
def Scope.ofCode (c : BitVec 3) : Option Scope :=
  if c == 0 then some .grp else if c == 1 then some .team else if c == 2 then some .clu else if c == 3 then some .die
  else if c == 4 then some .pkg else if c == 5 then some .sys else none
def Order.code : Order → BitVec 2
  | .rlx => 0 | .acq => 1 | .rel => 2 | .ar => 3
def Order.ofCode (c : BitVec 2) : Order :=
  if c == 0 then .rlx else if c == 1 then .acq else if c == 2 then .rel else .ar
def ATy.code : ATy → BitVec 2
  | .s32 => 0 | .n32 => 1 | .s64 => 2 | .n64 => 3
def ATy.ofCode (c : BitVec 2) : ATy :=
  if c == 0 then .s32 else if c == 1 then .n32 else if c == 2 then .s64 else .n64
def Hint.code : Hint → BitVec 2
  | .dflt => 0 | .str => 1 | .keep => 2 | .nol1 => 3
def Hint.ofCode (c : BitVec 2) : Hint :=
  if c == 0 then .dflt else if c == 1 then .str else if c == 2 then .keep else .nol1
def Hold.code : Hold → BitVec 2
  | .none => 0 | .a => 1 | .b => 2 | .c => 3
def Hold.ofCode (c : BitVec 2) : Hold :=
  if c == 0 then .none else if c == 1 then .a else if c == 2 then .b else .c
/-- Table 40; 5 to 7 fault OP_ILLEGAL (R96). -/
def RndSel.code : RndSel → BitVec 3
  | .dyn => 0 | .rne => 1 | .rz => 2 | .ru => 3 | .rd => 4
def RndSel.ofCode (c : BitVec 3) : Option RndSel :=
  if c == 0 then some .dyn else if c == 1 then some .rne else if c == 2 then some .rz else if c == 3 then some .ru
  else if c == 4 then some .rd else none
def SMods.code (m : SMods) : BitVec 4 := b1 m.negA ++ b1 m.absA ++ b1 m.negB ++ b1 m.absB
def FTy.code : FTy → BitVec 8
  | .f64 => 0 | .f32 => 1 | .f16 => 2 | .bf16 => 3 | .f16x2 => 4 | .bf16x2 => 5
def ITy.code : ITy → BitVec 8
  | .s32 => 0 | .n32 => 1 | .s64 => 2 | .n64 => 3 | .s16x2 => 4 | .n16x2 => 5
def MTy.code : MTy → BitVec 8
  | .f64 => 0 | .f32 => 1 | .f16 => 2 | .bf16 => 3 | .s8 => 4
/-- Type codes of Table 55 for `cvt`. -/
def CvtTy.code : CvtTy → BitVec 5
  | .f64 => 0x00 | .f32 => 0x01 | .f16 => 0x02 | .bf16 => 0x03 | .s8 => 0x08 | .s16 => 0x09 | .s32 => 0x0A | .s64 => 0x0B
  | .n8 => 0x0C | .n16 => 0x0D | .n32 => 0x0E | .n64 => 0x0F
def CvtTy.ofCode (c : BitVec 5) : Option CvtTy :=
  if c == 0x00 then some .f64 else if c == 0x01 then some .f32 else if c == 0x02 then some .f16
  else if c == 0x03 then some .bf16 else if c == 0x08 then some .s8 else if c == 0x09 then some .s16
  else if c == 0x0A then some .s32 else if c == 0x0B then some .s64 else if c == 0x0C then some .n8
  else if c == 0x0D then some .n16 else if c == 0x0E then some .n32 else if c == 0x0F then some .n64 else none
def RTy.code : RTy → BitVec 2
  | .s32 => 0 | .n32 => 1 | .f32 => 2
def RTy.ofCode (c : BitVec 2) : Option RTy :=
  if c == 0 then some .s32 else if c == 1 then some .n32 else if c == 2 then some .f32 else none
def LdTy.code : LdTy → BitVec 3
  | .s8 => 0 | .n8 => 1 | .s16 => 2 | .n16 => 3 | .b32 => 4 | .b64 => 5
def LdTy.ofCode (c : BitVec 3) : Option LdTy :=
  if c == 0 then some .s8 else if c == 1 then some .n8 else if c == 2 then some .s16 else if c == 3 then some .n16
  else if c == 4 then some .b32 else if c == 5 then some .b64 else none
def StW.code : StW → BitVec 3
  | .b8 => 0 | .b16 => 1 | .b32 => 2 | .b64 => 3
def StW.ofCode (c : BitVec 3) : Option StW :=
  if c == 0 then some .b8 else if c == 1 then some .b16 else if c == 2 then some .b32 else if c == 3 then some .b64 else none
def DTy.code : DTy → BitVec 3
  | .f32 => 0 | .f16 => 1 | .bf16 => 2 | .s8 => 3 | .s16 => 4 | .s32 => 5
def DTy.ofCode (c : BitVec 3) : Option DTy :=
  if c == 0 then some .f32 else if c == 1 then some .f16 else if c == 2 then some .bf16 else if c == 3 then some .s8
  else if c == 4 then some .s16 else if c == 5 then some .s32 else none

/-! ### The clause header (Table 47) -/

/-- The windows of the five operand slots. -/
structure Wins where
  wd : BitVec 5
  wa : BitVec 5
  wb : BitVec 5
  wc : BitVec 5
  we : BitVec 5
  deriving DecidableEq, Repr

/-- A clause header's fields. -/
structure Header where
  vec : Bool
  n : BitVec 4
  wins : Wins
  wait : BitVec 6
  blkEnd : Bool
  loopBuf : Bool
  deriving DecidableEq, Repr

/-- R115: CLS, windows of at most 17, zero reserved bits, and nothing but CLS and N in a control header. -/
def decodeHeader (w : Word) : Option Header :=
  let h : Header := {
    vec := w.extractLsb' 60 4 == 9
    n := w.extractLsb' 56 4
    wins := ⟨w.extractLsb' 51 5, w.extractLsb' 46 5, w.extractLsb' 41 5, w.extractLsb' 36 5, w.extractLsb' 31 5⟩
    wait := w.extractLsb' 25 6
    blkEnd := w.getLsbD 24
    loopBuf := w.getLsbD 23 }
  let win (x : BitVec 5) : Bool := decide (x.toNat ≤ 17)
  if w.extractLsb' 60 4 == 9 then
    if win h.wins.wd && win h.wins.wa && win h.wins.wb && win h.wins.wc && win h.wins.we && w.extractLsb' 0 23 == 0
    then some h else none
  else if w.extractLsb' 60 4 == 8 && w.extractLsb' 0 56 == 0 then some h else none

/-- The header word of a clause. -/
def encodeHeader (h : Header) : Word :=
  (if h.vec then (9 : BitVec 4) else 8) ++ h.n ++ h.wins.wd ++ h.wins.wa ++ h.wins.wb ++ h.wins.wc ++ h.wins.we ++ h.wait
    ++ b1 h.blkEnd ++ b1 h.loopBuf ++ (0 : BitVec 23)

/-! ### Control words -/

/-- The fields of Table 50. -/
structure CFields where
  op : BitVec 8
  d : BitVec 6
  a : BitVec 6
  b : BitVec 6
  g : CGuard
  hint : Hint
  imm : BitVec 32

def CFields.of (w : Word) : CFields where
  op := w.extractLsb' 56 8
  d := w.extractLsb' 50 6
  a := w.extractLsb' 44 6
  b := w.extractLsb' 38 6
  g := ⟨w.extractLsb' 35 3, w.getLsbD 34⟩
  hint := Hint.ofCode (w.extractLsb' 32 2)
  imm := w.extractLsb' 0 32

/-- The word with these fields. -/
def cw (op : BitVec 8) (d a b : BitVec 6) (g : CGuard) (h : Hint) (imm : BitVec 32) : Word :=
  op ++ d ++ a ++ b ++ g.cg ++ b1 g.cgn ++ h.code ++ imm

/-- IMM32 of `atom` (Table 73). -/
def atomImm (tr : BitVec 6) (opc : BitVec 4) (o : Order) (sc : Scope) (ty : ATy) : BitVec 32 :=
  tr ++ opc ++ o.code ++ sc.code ++ ty.code ++ (0 : BitVec 15)

def ctlAtomCand (f : CFields) : Option Instr := do
  let sc ← Scope.ofCode (f.imm.extractLsb' 17 3)
  let o := Order.ofCode (f.imm.extractLsb' 20 2)
  let ty := ATy.ofCode (f.imm.extractLsb' 15 2)
  let opc := f.imm.extractLsb' 22 4
  if opc == 0 then some (.controlAtomAdd f.g f.d f.a f.b o sc ty f.hint)
  else if opc == 1 then some (.controlAtomMin f.g f.d f.a f.b o sc ty f.hint)
  else if opc == 2 then some (.controlAtomMax f.g f.d f.a f.b o sc ty f.hint)
  else if opc == 3 then some (.controlAtomAnd f.g f.d f.a f.b o sc ty f.hint)
  else if opc == 4 then some (.controlAtomOr f.g f.d f.a f.b o sc ty f.hint)
  else if opc == 5 then some (.controlAtomXor f.g f.d f.a f.b o sc ty f.hint)
  else if opc == 6 then some (.controlAtomExch f.g f.d f.a f.b o sc ty f.hint)
  else if opc == 7 then some (.controlAtomCas f.g f.d f.a f.b (f.imm.extractLsb' 26 6) o sc ty f.hint)
  else none

/-- KIND of `fence` (Table 74). -/
def ctlFenceCand (f : CFields) : Option Instr := do
  let sc ← Scope.ofCode (f.imm.extractLsb' 0 3)
  let k := f.imm.extractLsb' 3 2
  if k == 0 then some (.fence f.g sc) else if k == 1 then some (.fenceAcq f.g sc)
  else if k == 2 then some (.fenceRel f.g sc) else none

/-- SEL of `vget` (Table 77). -/
def vgetCand (f : CFields) : Option Instr :=
  let l := f.imm.extractLsb' 11 5
  let r := f.imm.extractLsb' 0 11
  let s := f.imm.extractLsb' 16 2
  if s == 0 then some (.vget f.g f.d l r) else if s == 1 then some (.vgetB64 f.g f.d l r)
  else if s == 2 then some (.vgetPredicate f.g f.d l r) else some (.vgetMask f.g f.d l r)

/-- Selectors of `csrw` (Table 58). -/
def csrwCand (f : CFields) : Option Instr :=
  let s := f.imm.extractLsb' 0 12
  if s == 0 then some (.csrwFpm f.g f.a) else if s == 1 then some (.csrwFlags f.g f.a)
  else if s == 2 then some (.csrwQtab f.g f.a) else if s == 3 then some (.csrwChk f.g f.a)
  else if s == 4 then some (.csrwPart f.g f.a)
  else if s.extractLsb' 3 9 == 1 then some (.csrwArrivalCounter f.g f.a (s.extractLsb' 0 3))
  else some (.csrw f.g f.a s)

/-- Rows of the control opcode map (Table 54). -/
def ctlTab0 : List (Nat × (CFields → Option Instr)) := [
  (0x10, fun f => some (.addCr f.g f.d f.a f.b)),
  (0x11, fun f => some (.subCr f.g f.d f.a f.b)),
  (0x12, fun f => some (.mulCr f.g f.d f.a f.b)),
  (0x13, fun f => some (.mulhiS64Cr f.g f.d f.a f.b)),
  (0x14, fun f => some (.mulhiN64Cr f.g f.d f.a f.b)),
  (0x15, fun f => some (.andCr f.g f.d f.a f.b)),
  (0x16, fun f => some (.orCr f.g f.d f.a f.b)),
  (0x17, fun f => some (.xorCr f.g f.d f.a f.b)),
  (0x18, fun f => some (.shlCr f.g f.d f.a f.b)),
  (0x19, fun f => some (.shrN64Cr f.g f.d f.a f.b)),
  (0x1A, fun f => some (.shrS64Cr f.g f.d f.a f.b)),
  (0x1B, fun f => some (.minS64Cr f.g f.d f.a f.b)),
  (0x1C, fun f => some (.minN64Cr f.g f.d f.a f.b)),
  (0x1D, fun f => some (.maxS64Cr f.g f.d f.a f.b)),
  (0x1E, fun f => some (.maxN64Cr f.g f.d f.a f.b)),
  (0x20, fun f => some (.addCi f.g f.d f.a f.imm)),
  (0x21, fun f => some (.subCi f.g f.d f.a f.imm)),
  (0x22, fun f => some (.mulCi f.g f.d f.a f.imm)),
  (0x23, fun f => some (.mulhiS64Ci f.g f.d f.a f.imm)),
  (0x24, fun f => some (.mulhiN64Ci f.g f.d f.a f.imm)),
  (0x25, fun f => some (.andCi f.g f.d f.a f.imm)),
  (0x26, fun f => some (.orCi f.g f.d f.a f.imm)),
  (0x27, fun f => some (.xorCi f.g f.d f.a f.imm)),
  (0x28, fun f => some (.shlCi f.g f.d f.a f.imm)),
  (0x29, fun f => some (.shrN64Ci f.g f.d f.a f.imm)),
  (0x2A, fun f => some (.shrS64Ci f.g f.d f.a f.imm)),
  (0x2B, fun f => some (.minS64Ci f.g f.d f.a f.imm)),
  (0x2C, fun f => some (.minN64Ci f.g f.d f.a f.imm)),
  (0x2D, fun f => some (.maxS64Ci f.g f.d f.a f.imm)),
  (0x2E, fun f => some (.maxN64Ci f.g f.d f.a f.imm)),
  (0x30, fun f => some (.cmpCr f.g (Cond.ofCode (f.d.extractLsb' 3 3)) (f.d.extractLsb' 0 3) f.a f.b)),
  (0x31, fun f => some (.cmpCi f.g (Cond.ofCode (f.d.extractLsb' 3 3)) (f.d.extractLsb' 0 3) f.a f.imm)),
  (0x32, fun f => some (.lea f.g f.d f.a f.b (f.imm.getLsbD 31) (f.imm.extractLsb' 28 3) (f.imm.extractLsb' 0 28))),
  (0x33, fun f => some (.movi f.g f.d f.imm)),
  (0x34, fun f => some (.movhi f.g f.d f.a f.imm)),
  (0x40, fun f => some (.br f.g f.imm)),
  (0x41, fun f => some (.brc f.g (Cond.ofCode (f.d.extractLsb' 3 3)) f.a f.b f.imm)),
  (0x42, fun f => some (.loop f.g f.d f.imm)),
  (0x43, fun f => some (.jmp f.g f.a)),
  (0x44, fun f => some (.call f.g f.d f.imm))]

/-- Rows of the control opcode map (Table 54). -/
def ctlTab1 : List (Nat × (CFields → Option Instr)) := [
  (0x45, fun f => some (.ret f.g f.a)),
  (0x46, fun f => some (.exit f.g)),
  (0x50, fun f => some (.ldS8 f.g f.d f.a f.hint f.imm)),
  (0x51, fun f => some (.ldN8 f.g f.d f.a f.hint f.imm)),
  (0x52, fun f => some (.ldS16 f.g f.d f.a f.hint f.imm)),
  (0x53, fun f => some (.ldN16 f.g f.d f.a f.hint f.imm)),
  (0x54, fun f => some (.ldS32 f.g f.d f.a f.hint f.imm)),
  (0x55, fun f => some (.ldN32 f.g f.d f.a f.hint f.imm)),
  (0x56, fun f => some (.ldB64 f.g f.d f.a f.hint f.imm)),
  (0x57, fun f => (Scope.ofCode (f.b.extractLsb' 0 3)).map fun sc => .ldAcqN32 f.g f.d f.a sc f.hint f.imm),
  (0x58, fun f => (Scope.ofCode (f.b.extractLsb' 0 3)).map fun sc => .ldAcqB64 f.g f.d f.a sc f.hint f.imm),
  (0x59, fun f => some (.stB8 f.g f.d f.a f.hint f.imm)),
  (0x5A, fun f => some (.stB16 f.g f.d f.a f.hint f.imm)),
  (0x5B, fun f => some (.stB32 f.g f.d f.a f.hint f.imm)),
  (0x5C, fun f => some (.stB64 f.g f.d f.a f.hint f.imm)),
  (0x5D, fun f => (Scope.ofCode (f.b.extractLsb' 0 3)).map fun sc => .stRelB32 f.g f.d f.a sc f.hint f.imm),
  (0x5E, fun f => (Scope.ofCode (f.b.extractLsb' 0 3)).map fun sc => .stRelB64 f.g f.d f.a sc f.hint f.imm),
  (0x5F, fun f => ctlAtomCand f),
  (0x60, fun f => ctlFenceCand f),
  (0x61, fun f => some (.pause f.g (f.imm.extractLsb' 0 16))),
  (0x62, fun f => (Scope.ofCode (f.imm.extractLsb' 0 3)).map fun sc => .icinv f.g sc),
  (0x70, fun f => some (.vrun f.g f.a (if f.imm.getLsbD 16 then .reg f.b else .imm (f.imm.extractLsb' 0 16)))),
  (0x71, fun f => some (.vwalk f.g f.a f.b)),
  (0x72, fun f => some (.vmpush f.g (f.imm.extractLsb' 0 3) (f.imm.getLsbD 3) (f.imm.getLsbD 4) (f.imm.extractLsb' 8 24))),
  (0x73, fun f => some (.vmelse f.g)),
  (0x74, fun f => some (.vmpop f.g)),
  (0x75, fun f => some (.vput f.g f.d f.a f.imm)),
  (0x76, fun f => vgetCand f),
  (0x77, fun f => some (.vsync f.g)),
  (0x80, fun f => some (.push f.g f.d f.a (f.imm.extractLsb' 0 2) (f.imm.extractLsb' 2 3))),
  (0x81, fun f => some (.fwait f.g f.a)),
  (0x82, fun f => some (.ftest f.g f.d f.a)),
  (0x83, fun f => some (.fcancel f.g f.a)),
  (0x84, fun f => some (.tlwait f.g f.a f.b)),
  (0x85, fun f => some (.handoff f.g f.d f.a f.b (f.imm.extractLsb' 0 16))),
  (0x86, fun f => some (.publish f.g (f.imm.extractLsb' 0 8))),
  (0x90, fun f => some (.bar f.g (f.imm.extractLsb' 0 4))),
  (0x91, fun f => some (.cbarArr f.g f.d (f.imm.extractLsb' 0 2))),
  (0x92, fun f => some (.cbarWait f.g f.a (f.imm.extractLsb' 0 2))),
  (0x93, fun f => some (.await f.g (f.d.extractLsb' 0 3) f.a f.imm))]

/-- Rows of the control opcode map (Table 54). -/
def ctlTab2 : List (Nat × (CFields → Option Instr)) := [
  (0xA0, fun f => some (.mxacq f.g)),
  (0xA1, fun f => some (.mxrel f.g)),
  (0xA2, fun f => some (.tcfg f.g f.a (f.imm.extractLsb' 0 6))),
  (0xB0, fun f => some (.csrr f.g f.d (f.imm.extractLsb' 0 12))),
  (0xB1, fun f => csrwCand f),
  (0xB2, fun f => some (.trap f.g f.imm)),
  (0xB3, fun f => some (.nop f.g))]

/-- Rows of the control opcode map (Table 54). -/
def ctlTab : List (Nat × (CFields → Option Instr)) := ctlTab0 ++ ctlTab1 ++ ctlTab2

/-- The row of an opcode; an opcode without a row is reserved (R131). -/
def rowOf {β : Type} (op : Nat) : List (Nat × β) → Option β
  | [] => none
  | (k, f) :: t => if k == op then some f else rowOf op t

/-- The word of a control instruction. -/
def encodeCtl : Instr → Option Word
  | .addCr g d a b => some (cw 0x10 d a b g .dflt 0)
  | .subCr g d a b => some (cw 0x11 d a b g .dflt 0)
  | .mulCr g d a b => some (cw 0x12 d a b g .dflt 0)
  | .mulhiS64Cr g d a b => some (cw 0x13 d a b g .dflt 0)
  | .mulhiN64Cr g d a b => some (cw 0x14 d a b g .dflt 0)
  | .andCr g d a b => some (cw 0x15 d a b g .dflt 0)
  | .orCr g d a b => some (cw 0x16 d a b g .dflt 0)
  | .xorCr g d a b => some (cw 0x17 d a b g .dflt 0)
  | .shlCr g d a b => some (cw 0x18 d a b g .dflt 0)
  | .shrN64Cr g d a b => some (cw 0x19 d a b g .dflt 0)
  | .shrS64Cr g d a b => some (cw 0x1A d a b g .dflt 0)
  | .minS64Cr g d a b => some (cw 0x1B d a b g .dflt 0)
  | .minN64Cr g d a b => some (cw 0x1C d a b g .dflt 0)
  | .maxS64Cr g d a b => some (cw 0x1D d a b g .dflt 0)
  | .maxN64Cr g d a b => some (cw 0x1E d a b g .dflt 0)
  | .addCi g d a imm => some (cw 0x20 d a 0 g .dflt imm)
  | .subCi g d a imm => some (cw 0x21 d a 0 g .dflt imm)
  | .mulCi g d a imm => some (cw 0x22 d a 0 g .dflt imm)
  | .mulhiS64Ci g d a imm => some (cw 0x23 d a 0 g .dflt imm)
  | .mulhiN64Ci g d a imm => some (cw 0x24 d a 0 g .dflt imm)
  | .andCi g d a imm => some (cw 0x25 d a 0 g .dflt imm)
  | .orCi g d a imm => some (cw 0x26 d a 0 g .dflt imm)
  | .xorCi g d a imm => some (cw 0x27 d a 0 g .dflt imm)
  | .shlCi g d a imm => some (cw 0x28 d a 0 g .dflt imm)
  | .shrN64Ci g d a imm => some (cw 0x29 d a 0 g .dflt imm)
  | .shrS64Ci g d a imm => some (cw 0x2A d a 0 g .dflt imm)
  | .minS64Ci g d a imm => some (cw 0x2B d a 0 g .dflt imm)
  | .minN64Ci g d a imm => some (cw 0x2C d a 0 g .dflt imm)
  | .maxS64Ci g d a imm => some (cw 0x2D d a 0 g .dflt imm)
  | .maxN64Ci g d a imm => some (cw 0x2E d a 0 g .dflt imm)
  | .cmpCr g cc pd a b => some (cw 0x30 (cc.code ++ pd) a b g .dflt 0)
  | .cmpCi g cc pd a imm => some (cw 0x31 (cc.code ++ pd) a 0 g .dflt imm)
  | .lea g d a b pr sh disp => some (cw 0x32 d a b g .dflt (b1 pr ++ sh ++ disp))
  | .movi g d imm => some (cw 0x33 d 0 0 g .dflt imm)
  | .movhi g d a imm => some (cw 0x34 d a 0 g .dflt imm)
  | .br g imm => some (cw 0x40 0 0 0 g .dflt imm)
  | .brc g cc a b imm => some (cw 0x41 (cc.code ++ 0#3) a b g .dflt imm)
  | .loop g d imm => some (cw 0x42 d 0 0 g .dflt imm)
  | .jmp g a => some (cw 0x43 0 a 0 g .dflt 0)
  | .call g d imm => some (cw 0x44 d 0 0 g .dflt imm)
  | .ret g a => some (cw 0x45 0 a 0 g .dflt 0)
  | .exit g => some (cw 0x46 0 0 0 g .dflt 0)
  | .ldS8 g d a h imm => some (cw 0x50 d a 0 g h imm)
  | .ldN8 g d a h imm => some (cw 0x51 d a 0 g h imm)
  | .ldS16 g d a h imm => some (cw 0x52 d a 0 g h imm)
  | .ldN16 g d a h imm => some (cw 0x53 d a 0 g h imm)
  | .ldS32 g d a h imm => some (cw 0x54 d a 0 g h imm)
  | .ldN32 g d a h imm => some (cw 0x55 d a 0 g h imm)
  | .ldB64 g d a h imm => some (cw 0x56 d a 0 g h imm)
  | .ldAcqN32 g d a sc h imm => some (cw 0x57 d a (0#3 ++ sc.code) g h imm)
  | .ldAcqB64 g d a sc h imm => some (cw 0x58 d a (0#3 ++ sc.code) g h imm)
  | .stB8 g d a h imm => some (cw 0x59 d a 0 g h imm)
  | .stB16 g d a h imm => some (cw 0x5A d a 0 g h imm)
  | .stB32 g d a h imm => some (cw 0x5B d a 0 g h imm)
  | .stB64 g d a h imm => some (cw 0x5C d a 0 g h imm)
  | .stRelB32 g d a sc h imm => some (cw 0x5D d a (0#3 ++ sc.code) g h imm)
  | .stRelB64 g d a sc h imm => some (cw 0x5E d a (0#3 ++ sc.code) g h imm)
  | .controlAtomAdd g d a b o sc ty h => some (cw 0x5F d a b g h (atomImm 0 0 o sc ty))
  | .controlAtomMin g d a b o sc ty h => some (cw 0x5F d a b g h (atomImm 0 1 o sc ty))
  | .controlAtomMax g d a b o sc ty h => some (cw 0x5F d a b g h (atomImm 0 2 o sc ty))
  | .controlAtomAnd g d a b o sc ty h => some (cw 0x5F d a b g h (atomImm 0 3 o sc ty))
  | .controlAtomOr g d a b o sc ty h => some (cw 0x5F d a b g h (atomImm 0 4 o sc ty))
  | .controlAtomXor g d a b o sc ty h => some (cw 0x5F d a b g h (atomImm 0 5 o sc ty))
  | .controlAtomExch g d a b o sc ty h => some (cw 0x5F d a b g h (atomImm 0 6 o sc ty))
  | .controlAtomCas g d a b tr o sc ty h => some (cw 0x5F d a b g h (atomImm tr 7 o sc ty))
  | .fence g sc => some (cw 0x60 0 0 0 g .dflt (0#27 ++ 0#2 ++ sc.code))
  | .fenceAcq g sc => some (cw 0x60 0 0 0 g .dflt (0#27 ++ 1#2 ++ sc.code))
  | .fenceRel g sc => some (cw 0x60 0 0 0 g .dflt (0#27 ++ 2#2 ++ sc.code))
  | .pause g n => some (cw 0x61 0 0 0 g .dflt (0#16 ++ n))
  | .icinv g sc => some (cw 0x62 0 0 0 g .dflt (0#29 ++ sc.code))
  | .vrun g a (.imm n) => some (cw 0x70 0 a 0 g .dflt (0#16 ++ n))
  | .vrun g a (.reg b) => some (cw 0x70 0 a b g .dflt 0x10000)
  | .vwalk g a b => some (cw 0x71 0 a b g .dflt 0)
  | .vmpush g p neg dem sib => some (cw 0x72 0 0 0 g .dflt (sib ++ 0#3 ++ b1 dem ++ b1 neg ++ p))
  | .vmelse g => some (cw 0x73 0 0 0 g .dflt 0)
  | .vmpop g => some (cw 0x74 0 0 0 g .dflt 0)
  | .vput g k a imm => some (cw 0x75 k a 0 g .dflt imm)
  | .vget g d lane reg => some (cw 0x76 d 0 0 g .dflt (0#14 ++ 0#2 ++ lane ++ reg))
  | .vgetB64 g d lane reg => some (cw 0x76 d 0 0 g .dflt (0#14 ++ 1#2 ++ lane ++ reg))
  | .vgetPredicate g d lane reg => some (cw 0x76 d 0 0 g .dflt (0#14 ++ 2#2 ++ lane ++ reg))
  | .vgetMask g d lane reg => some (cw 0x76 d 0 0 g .dflt (0#14 ++ 3#2 ++ lane ++ reg))
  | .vsync g => some (cw 0x77 0 0 0 g .dflt 0)
  | .push g d a q full => some (cw 0x80 d a 0 g .dflt (0#27 ++ full ++ q))
  | .fwait g a => some (cw 0x81 0 a 0 g .dflt 0)
  | .ftest g d a => some (cw 0x82 d a 0 g .dflt 0)
  | .fcancel g a => some (cw 0x83 0 a 0 g .dflt 0)
  | .tlwait g a b => some (cw 0x84 0 a b g .dflt 0)
  | .handoff g d a b n => some (cw 0x85 d a b g .dflt (0#16 ++ n))
  | .publish g win => some (cw 0x86 0 0 0 g .dflt (0#24 ++ win))
  | .bar g b => some (cw 0x90 0 0 0 g .dflt (0#28 ++ b))
  | .cbarArr g d b => some (cw 0x91 d 0 0 g .dflt (0#30 ++ b))
  | .cbarWait g a b => some (cw 0x92 0 a 0 g .dflt (0#30 ++ b))
  | .await g ctr a imm => some (cw 0x93 (0#3 ++ ctr) a 0 g .dflt imm)
  | .mxacq g => some (cw 0xA0 0 0 0 g .dflt 0)
  | .mxrel g => some (cw 0xA1 0 0 0 g .dflt 0)
  | .tcfg g a t => some (cw 0xA2 0 a 0 g .dflt (0#26 ++ t))
  | .csrr g d sel => some (cw 0xB0 d 0 0 g .dflt (0#20 ++ sel))
  | .csrwFpm g a => some (cw 0xB1 0 a 0 g .dflt 0)
  | .csrwFlags g a => some (cw 0xB1 0 a 0 g .dflt 1)
  | .csrwQtab g a => some (cw 0xB1 0 a 0 g .dflt 2)
  | .csrwChk g a => some (cw 0xB1 0 a 0 g .dflt 3)
  | .csrwPart g a => some (cw 0xB1 0 a 0 g .dflt 4)
  | .csrwArrivalCounter g a n => some (cw 0xB1 0 a 0 g .dflt (0#28 ++ 1#1 ++ n))
  | .csrw g a sel => some (cw 0xB1 0 a 0 g .dflt (0#20 ++ sel))
  | .trap g imm => some (cw 0xB2 0 0 0 g .dflt imm)
  | .nop g => some (cw 0xB3 0 0 0 g .dflt 0)
  | _ => none

/-! ### Vector words -/

/-- The fields of Table 49 beside the windows of the clause. -/
structure VFields where
  fd : BitVec 7
  fa : BitVec 7
  fb : BitVec 7
  fc : BitVec 7
  fe : BitVec 7
  c : VCtl
  w : Wins

def VCtl.of (w : Word) : VCtl where
  g0 := w.extractLsb' 18 3
  g0n := w.getLsbD 17
  g1 := w.extractLsb' 14 3
  g1n := w.getLsbD 13
  hint := Hint.ofCode (w.extractLsb' 11 2)
  stall := w.extractLsb' 8 3
  hold := Hold.ofCode (w.extractLsb' 6 2)
  lastA := w.getLsbD 5
  lastB := w.getLsbD 4
  lastC := w.getLsbD 3
  wset := w.extractLsb' 0 3

def VFields.of (ws : Wins) (w : Word) : VFields where
  fd := w.extractLsb' 49 7
  fa := w.extractLsb' 42 7
  fb := w.extractLsb' 35 7
  fc := w.extractLsb' 28 7
  fe := w.extractLsb' 21 7
  c := VCtl.of w
  w := ws

/-- The low 21 bits of a vector word. -/
def VCtl.bits (c : VCtl) : BitVec 21 :=
  c.g0 ++ b1 c.g0n ++ c.g1 ++ b1 c.g1n ++ c.hint.code ++ c.stall ++ c.hold.code ++ b1 c.lastA ++ b1 c.lastB ++ b1 c.lastC
    ++ c.wset

/-- Table 48: the source that window and offset name. -/
def srcOf (win : BitVec 5) (f : BitVec 7) : Option VSrc :=
  if win.toNat ≤ 15 then some (.v (win.extractLsb' 0 4 ++ f))
  else if win == 16 then (if f.toNat ≤ 63 then some (.k (f.extractLsb' 0 6)) else none)
  else if win == 17 then (if f.toNat ≤ 3 then some (.i (f.extractLsb' 0 2)) else none)
  else none

/-- A destination is a vector register (R116). -/
def dstOf (win : BitVec 5) (f : BitVec 7) : Option VReg :=
  if win.toNat ≤ 15 then some (win.extractLsb' 0 4 ++ f) else none

namespace VFields
def sa (f : VFields) : Option VSrc := srcOf f.w.wa f.fa
def sb (f : VFields) : Option VSrc := srcOf f.w.wb f.fb
def sc (f : VFields) : Option VSrc := srcOf f.w.wc f.fc
def se (f : VFields) : Option VSrc := srcOf f.w.we f.fe
def sd (f : VFields) : Option VSrc := srcOf f.w.wd f.fd
def dst (f : VFields) : Option VReg := dstOf f.w.wd f.fd
def rnd (f : VFields) : Option RndSel := RndSel.ofCode (f.fe.extractLsb' 4 3)
def mods (f : VFields) : SMods := ⟨f.fe.getLsbD 3, f.fe.getLsbD 2, f.fe.getLsbD 1, f.fe.getLsbD 0⟩
/-- Form VI: the signed 21-bit immediate in bits [41:21]. -/
def imm21 (f : VFields) : BitVec 21 := f.fb ++ f.fc ++ f.fe
/-- Form VM: the signed 18-bit offset in bits [41:24] and the sub-field S in [23:21]. -/
def off (f : VFields) : BitVec 18 := f.fb ++ f.fc ++ f.fe.extractLsb' 3 4
def s3 (f : VFields) : BitVec 3 := f.fe.extractLsb' 0 3
def esc (f : VFields) : Option Scope := Scope.ofCode (f.fe.extractLsb' 2 3)
def eord (f : VFields) : Order := Order.ofCode (f.fe.extractLsb' 5 2)
def ety (f : VFields) : ATy := ATy.ofCode (f.fe.extractLsb' 0 2)
def td (f : VFields) : TileNo := f.fd.extractLsb' 0 6
def ta (f : VFields) : TileNo := f.fa.extractLsb' 0 6
def tb (f : VFields) : TileNo := f.fb.extractLsb' 0 6
def tc (f : VFields) : TileNo := f.fc.extractLsb' 0 6
end VFields

/-- `shfl`: mode and immediate in C (Table 93). -/
def shflCand (f : VFields) : Option Instr := do
  let a ← f.sa
  let d ← f.dst
  let b ← (if f.fc.getLsbD 2 then some (ShB.imm (f.fb.extractLsb' 0 5)) else f.sb.map ShB.reg)
  let m := f.fc.extractLsb' 0 2
  if m == 0 then some (.shflIdx f.c d a b) else if m == 1 then some (.shflUp f.c d a b)
  else if m == 2 then some (.shflDown f.c d a b) else some (.shflXor f.c d a b)

/-- `vote`: mode in C, predicate in A (Table 93). -/
def voteCand (f : VFields) : Option Instr :=
  let p := f.fa.extractLsb' 0 3
  let neg := f.fa.getLsbD 3
  let pd := f.fd.extractLsb' 0 3
  let m := f.fc.extractLsb' 0 2
  if m == 0 then some (.voteAny f.c pd p neg) else if m == 1 then some (.voteAll f.c pd p neg)
  else if m == 2 then f.dst.map fun d => .voteBallot f.c d p neg else some (.voteEq f.c pd p neg)

/-- `redt`: operation and type in C (Table 93). -/
def redtCand (f : VFields) : Option Instr := do
  let a ← f.sa
  let d ← f.dst
  let ty ← RTy.ofCode (f.fc.extractLsb' 3 2)
  let r ← f.rnd
  let o := f.fc.extractLsb' 0 3
  if o == 0 then some (.redtAdd f.c ty r d a) else if o == 1 then some (.redtMin f.c ty r d a)
  else if o == 2 then some (.redtMax f.c ty r d a) else if o == 3 then some (.redtAnd f.c ty r d a)
  else if o == 4 then some (.redtOr f.c ty r d a) else if o == 5 then some (.redtXor f.c ty r d a) else none

/-- Vector `fence`: kind and scope in C (R262). -/
def vfenceCand (f : VFields) : Option Instr := do
  let sc ← Scope.ofCode (f.fc.extractLsb' 0 3)
  let k := f.fc.extractLsb' 3 2
  if k == 0 then some (.vectorFence f.c sc) else if k == 1 then some (.vectorFenceAcq f.c sc)
  else if k == 2 then some (.vectorFenceRel f.c sc) else none


/-- Rows of the vector opcode map (Table 53). -/
def vecTab0 : List (Nat × (VFields → Option Instr)) := [
  (0x08, fun f => do let a ← f.sa; let b ← f.sb; let r ← f.rnd; let d ← f.dst; some (.fadd f.c .f64 ⟨r, f.mods⟩ d a b)),
  (0x09, fun f => do let a ← f.sa; let b ← f.sb; let r ← f.rnd; let d ← f.dst; some (.fadd f.c .f32 ⟨r, f.mods⟩ d a b)),
  (0x0A, fun f => do let a ← f.sa; let b ← f.sb; let r ← f.rnd; let d ← f.dst; some (.fadd f.c .f16 ⟨r, f.mods⟩ d a b)),
  (0x0B, fun f => do let a ← f.sa; let b ← f.sb; let r ← f.rnd; let d ← f.dst; some (.fadd f.c .bf16 ⟨r, f.mods⟩ d a b)),
  (0x0C, fun f => do let a ← f.sa; let b ← f.sb; let r ← f.rnd; let d ← f.dst; some (.fadd f.c .f16x2 ⟨r, f.mods⟩ d a b)),
  (0x0D, fun f => do let a ← f.sa; let b ← f.sb; let r ← f.rnd; let d ← f.dst; some (.fadd f.c .bf16x2 ⟨r, f.mods⟩ d a b)),
  (0x10, fun f => do let a ← f.sa; let b ← f.sb; let r ← f.rnd; let d ← f.dst; some (.fsub f.c .f64 ⟨r, f.mods⟩ d a b)),
  (0x11, fun f => do let a ← f.sa; let b ← f.sb; let r ← f.rnd; let d ← f.dst; some (.fsub f.c .f32 ⟨r, f.mods⟩ d a b)),
  (0x12, fun f => do let a ← f.sa; let b ← f.sb; let r ← f.rnd; let d ← f.dst; some (.fsub f.c .f16 ⟨r, f.mods⟩ d a b)),
  (0x13, fun f => do let a ← f.sa; let b ← f.sb; let r ← f.rnd; let d ← f.dst; some (.fsub f.c .bf16 ⟨r, f.mods⟩ d a b)),
  (0x14, fun f => do let a ← f.sa; let b ← f.sb; let r ← f.rnd; let d ← f.dst; some (.fsub f.c .f16x2 ⟨r, f.mods⟩ d a b)),
  (0x15, fun f => do let a ← f.sa; let b ← f.sb; let r ← f.rnd; let d ← f.dst; some (.fsub f.c .bf16x2 ⟨r, f.mods⟩ d a b)),
  (0x18, fun f => do let a ← f.sa; let b ← f.sb; let r ← f.rnd; let d ← f.dst; some (.fmul f.c .f64 ⟨r, f.mods⟩ d a b)),
  (0x19, fun f => do let a ← f.sa; let b ← f.sb; let r ← f.rnd; let d ← f.dst; some (.fmul f.c .f32 ⟨r, f.mods⟩ d a b)),
  (0x1A, fun f => do let a ← f.sa; let b ← f.sb; let r ← f.rnd; let d ← f.dst; some (.fmul f.c .f16 ⟨r, f.mods⟩ d a b)),
  (0x1B, fun f => do let a ← f.sa; let b ← f.sb; let r ← f.rnd; let d ← f.dst; some (.fmul f.c .bf16 ⟨r, f.mods⟩ d a b)),
  (0x1C, fun f => do let a ← f.sa; let b ← f.sb; let r ← f.rnd; let d ← f.dst; some (.fmul f.c .f16x2 ⟨r, f.mods⟩ d a b)),
  (0x1D, fun f => do let a ← f.sa; let b ← f.sb; let r ← f.rnd; let d ← f.dst; some (.fmul f.c .bf16x2 ⟨r, f.mods⟩ d a b)),
  (0x20, fun f => do let a ← f.sa; let b ← f.sb; let x ← f.sc; let r ← f.rnd; let d ← f.dst; some (.ffma f.c .f64 ⟨r, f.mods⟩ d a b x)),
  (0x21, fun f => do let a ← f.sa; let b ← f.sb; let x ← f.sc; let r ← f.rnd; let d ← f.dst; some (.ffma f.c .f32 ⟨r, f.mods⟩ d a b x)),
  (0x22, fun f => do let a ← f.sa; let b ← f.sb; let x ← f.sc; let r ← f.rnd; let d ← f.dst; some (.ffma f.c .f16 ⟨r, f.mods⟩ d a b x)),
  (0x23, fun f => do let a ← f.sa; let b ← f.sb; let x ← f.sc; let r ← f.rnd; let d ← f.dst; some (.ffma f.c .bf16 ⟨r, f.mods⟩ d a b x)),
  (0x24, fun f => do let a ← f.sa; let b ← f.sb; let x ← f.sc; let r ← f.rnd; let d ← f.dst; some (.ffma f.c .f16x2 ⟨r, f.mods⟩ d a b x)),
  (0x25, fun f => do let a ← f.sa; let b ← f.sb; let x ← f.sc; let r ← f.rnd; let d ← f.dst; some (.ffma f.c .bf16x2 ⟨r, f.mods⟩ d a b x)),
  (0x28, fun f => do let a ← f.sa; let b ← f.sb; let d ← f.dst; some (.fmin f.c .f64 f.mods d a b)),
  (0x29, fun f => do let a ← f.sa; let b ← f.sb; let d ← f.dst; some (.fmin f.c .f32 f.mods d a b)),
  (0x2A, fun f => do let a ← f.sa; let b ← f.sb; let d ← f.dst; some (.fmin f.c .f16 f.mods d a b)),
  (0x2B, fun f => do let a ← f.sa; let b ← f.sb; let d ← f.dst; some (.fmin f.c .bf16 f.mods d a b)),
  (0x2C, fun f => do let a ← f.sa; let b ← f.sb; let d ← f.dst; some (.fmin f.c .f16x2 f.mods d a b)),
  (0x2D, fun f => do let a ← f.sa; let b ← f.sb; let d ← f.dst; some (.fmin f.c .bf16x2 f.mods d a b)),
  (0x30, fun f => do let a ← f.sa; let b ← f.sb; let d ← f.dst; some (.fmax f.c .f64 f.mods d a b)),
  (0x31, fun f => do let a ← f.sa; let b ← f.sb; let d ← f.dst; some (.fmax f.c .f32 f.mods d a b)),
  (0x32, fun f => do let a ← f.sa; let b ← f.sb; let d ← f.dst; some (.fmax f.c .f16 f.mods d a b)),
  (0x33, fun f => do let a ← f.sa; let b ← f.sb; let d ← f.dst; some (.fmax f.c .bf16 f.mods d a b)),
  (0x34, fun f => do let a ← f.sa; let b ← f.sb; let d ← f.dst; some (.fmax f.c .f16x2 f.mods d a b)),
  (0x35, fun f => do let a ← f.sa; let b ← f.sb; let d ← f.dst; some (.fmax f.c .bf16x2 f.mods d a b)),
  (0x38, fun f => do let a ← f.sa; let b ← f.sb; some (.fcmp f.c .f64 f.mods (FCond.ofCode (f.fc.extractLsb' 0 3)) (f.fd.extractLsb' 0 3) a b)),
  (0x39, fun f => do let a ← f.sa; let b ← f.sb; some (.fcmp f.c .f32 f.mods (FCond.ofCode (f.fc.extractLsb' 0 3)) (f.fd.extractLsb' 0 3) a b)),
  (0x3A, fun f => do let a ← f.sa; let b ← f.sb; some (.fcmp f.c .f16 f.mods (FCond.ofCode (f.fc.extractLsb' 0 3)) (f.fd.extractLsb' 0 3) a b)),
  (0x3B, fun f => do let a ← f.sa; let b ← f.sb; some (.fcmp f.c .bf16 f.mods (FCond.ofCode (f.fc.extractLsb' 0 3)) (f.fd.extractLsb' 0 3) a b))]

/-- Rows of the vector opcode map (Table 53). -/
def vecTab1 : List (Nat × (VFields → Option Instr)) := [
  (0x40, fun f => do let a ← f.sa; let d ← f.dst; some (.fclass f.c .f64 (f.fe.getLsbD 3) (f.fe.getLsbD 2) d a)),
  (0x41, fun f => do let a ← f.sa; let d ← f.dst; some (.fclass f.c .f32 (f.fe.getLsbD 3) (f.fe.getLsbD 2) d a)),
  (0x42, fun f => do let a ← f.sa; let d ← f.dst; some (.fclass f.c .f16 (f.fe.getLsbD 3) (f.fe.getLsbD 2) d a)),
  (0x43, fun f => do let a ← f.sa; let d ← f.dst; some (.fclass f.c .bf16 (f.fe.getLsbD 3) (f.fe.getLsbD 2) d a)),
  (0x44, fun f => do let a ← f.sa; let d ← f.dst; some (.fclass f.c .f16x2 (f.fe.getLsbD 3) (f.fe.getLsbD 2) d a)),
  (0x45, fun f => do let a ← f.sa; let d ← f.dst; some (.fclass f.c .bf16x2 (f.fe.getLsbD 3) (f.fe.getLsbD 2) d a)),
  (0x48, fun f => do let a ← f.sa; let r ← f.rnd; let d ← f.dst; some (.frcp f.c .f64 r (f.fe.getLsbD 3) (f.fe.getLsbD 2) d a)),
  (0x49, fun f => do let a ← f.sa; let r ← f.rnd; let d ← f.dst; some (.frcp f.c .f32 r (f.fe.getLsbD 3) (f.fe.getLsbD 2) d a)),
  (0x4A, fun f => do let a ← f.sa; let r ← f.rnd; let d ← f.dst; some (.frcp f.c .f16 r (f.fe.getLsbD 3) (f.fe.getLsbD 2) d a)),
  (0x4B, fun f => do let a ← f.sa; let r ← f.rnd; let d ← f.dst; some (.frcp f.c .bf16 r (f.fe.getLsbD 3) (f.fe.getLsbD 2) d a)),
  (0x4C, fun f => do let a ← f.sa; let r ← f.rnd; let d ← f.dst; some (.frsq f.c .f64 r (f.fe.getLsbD 3) (f.fe.getLsbD 2) d a)),
  (0x4D, fun f => do let a ← f.sa; let r ← f.rnd; let d ← f.dst; some (.frsq f.c .f32 r (f.fe.getLsbD 3) (f.fe.getLsbD 2) d a)),
  (0x4E, fun f => do let a ← f.sa; let r ← f.rnd; let d ← f.dst; some (.frsq f.c .f16 r (f.fe.getLsbD 3) (f.fe.getLsbD 2) d a)),
  (0x4F, fun f => do let a ← f.sa; let r ← f.rnd; let d ← f.dst; some (.frsq f.c .bf16 r (f.fe.getLsbD 3) (f.fe.getLsbD 2) d a)),
  (0x50, fun f => do let a ← f.sa; let r ← f.rnd; let d ← f.dst; some (.fsqrt f.c .f64 r (f.fe.getLsbD 3) (f.fe.getLsbD 2) d a)),
  (0x51, fun f => do let a ← f.sa; let r ← f.rnd; let d ← f.dst; some (.fsqrt f.c .f32 r (f.fe.getLsbD 3) (f.fe.getLsbD 2) d a)),
  (0x52, fun f => do let a ← f.sa; let r ← f.rnd; let d ← f.dst; some (.fsqrt f.c .f16 r (f.fe.getLsbD 3) (f.fe.getLsbD 2) d a)),
  (0x53, fun f => do let a ← f.sa; let r ← f.rnd; let d ← f.dst; some (.fsqrt f.c .bf16 r (f.fe.getLsbD 3) (f.fe.getLsbD 2) d a)),
  (0x54, fun f => do let a ← f.sa; let r ← f.rnd; let d ← f.dst; some (.fexp2 f.c .f64 r (f.fe.getLsbD 3) (f.fe.getLsbD 2) d a)),
  (0x55, fun f => do let a ← f.sa; let r ← f.rnd; let d ← f.dst; some (.fexp2 f.c .f32 r (f.fe.getLsbD 3) (f.fe.getLsbD 2) d a)),
  (0x56, fun f => do let a ← f.sa; let r ← f.rnd; let d ← f.dst; some (.fexp2 f.c .f16 r (f.fe.getLsbD 3) (f.fe.getLsbD 2) d a)),
  (0x57, fun f => do let a ← f.sa; let r ← f.rnd; let d ← f.dst; some (.fexp2 f.c .bf16 r (f.fe.getLsbD 3) (f.fe.getLsbD 2) d a)),
  (0x58, fun f => do let a ← f.sa; let r ← f.rnd; let d ← f.dst; some (.flog2 f.c .f64 r (f.fe.getLsbD 3) (f.fe.getLsbD 2) d a)),
  (0x59, fun f => do let a ← f.sa; let r ← f.rnd; let d ← f.dst; some (.flog2 f.c .f32 r (f.fe.getLsbD 3) (f.fe.getLsbD 2) d a)),
  (0x5A, fun f => do let a ← f.sa; let r ← f.rnd; let d ← f.dst; some (.flog2 f.c .f16 r (f.fe.getLsbD 3) (f.fe.getLsbD 2) d a)),
  (0x5B, fun f => do let a ← f.sa; let r ← f.rnd; let d ← f.dst; some (.flog2 f.c .bf16 r (f.fe.getLsbD 3) (f.fe.getLsbD 2) d a)),
  (0x5C, fun f => do let a ← f.sa; let r ← f.rnd; let d ← f.dst; some (.fsin f.c .f64 r (f.fe.getLsbD 3) (f.fe.getLsbD 2) d a)),
  (0x5D, fun f => do let a ← f.sa; let r ← f.rnd; let d ← f.dst; some (.fsin f.c .f32 r (f.fe.getLsbD 3) (f.fe.getLsbD 2) d a)),
  (0x5E, fun f => do let a ← f.sa; let r ← f.rnd; let d ← f.dst; some (.fsin f.c .f16 r (f.fe.getLsbD 3) (f.fe.getLsbD 2) d a)),
  (0x5F, fun f => do let a ← f.sa; let r ← f.rnd; let d ← f.dst; some (.fsin f.c .bf16 r (f.fe.getLsbD 3) (f.fe.getLsbD 2) d a)),
  (0x60, fun f => do let a ← f.sa; let r ← f.rnd; let d ← f.dst; some (.fcos f.c .f64 r (f.fe.getLsbD 3) (f.fe.getLsbD 2) d a)),
  (0x61, fun f => do let a ← f.sa; let r ← f.rnd; let d ← f.dst; some (.fcos f.c .f32 r (f.fe.getLsbD 3) (f.fe.getLsbD 2) d a)),
  (0x62, fun f => do let a ← f.sa; let r ← f.rnd; let d ← f.dst; some (.fcos f.c .f16 r (f.fe.getLsbD 3) (f.fe.getLsbD 2) d a)),
  (0x63, fun f => do let a ← f.sa; let r ← f.rnd; let d ← f.dst; some (.fcos f.c .bf16 r (f.fe.getLsbD 3) (f.fe.getLsbD 2) d a)),
  (0x68, fun f => do let a ← f.sa; let b ← f.sb; let d ← f.dst; some (.add f.c .s32 (f.fe.getLsbD 0) d a b)),
  (0x69, fun f => do let a ← f.sa; let b ← f.sb; let d ← f.dst; some (.add f.c .n32 (f.fe.getLsbD 0) d a b)),
  (0x6A, fun f => do let a ← f.sa; let b ← f.sb; let d ← f.dst; some (.add f.c .s64 (f.fe.getLsbD 0) d a b)),
  (0x6B, fun f => do let a ← f.sa; let b ← f.sb; let d ← f.dst; some (.add f.c .n64 (f.fe.getLsbD 0) d a b)),
  (0x6C, fun f => do let a ← f.sa; let b ← f.sb; let d ← f.dst; some (.add f.c .s16x2 (f.fe.getLsbD 0) d a b)),
  (0x6D, fun f => do let a ← f.sa; let b ← f.sb; let d ← f.dst; some (.add f.c .n16x2 (f.fe.getLsbD 0) d a b))]

/-- Rows of the vector opcode map (Table 53). -/
def vecTab2 : List (Nat × (VFields → Option Instr)) := [
  (0x70, fun f => do let a ← f.sa; let b ← f.sb; let d ← f.dst; some (.sub f.c .s32 (f.fe.getLsbD 0) d a b)),
  (0x71, fun f => do let a ← f.sa; let b ← f.sb; let d ← f.dst; some (.sub f.c .n32 (f.fe.getLsbD 0) d a b)),
  (0x72, fun f => do let a ← f.sa; let b ← f.sb; let d ← f.dst; some (.sub f.c .s64 (f.fe.getLsbD 0) d a b)),
  (0x73, fun f => do let a ← f.sa; let b ← f.sb; let d ← f.dst; some (.sub f.c .n64 (f.fe.getLsbD 0) d a b)),
  (0x74, fun f => do let a ← f.sa; let b ← f.sb; let d ← f.dst; some (.sub f.c .s16x2 (f.fe.getLsbD 0) d a b)),
  (0x75, fun f => do let a ← f.sa; let b ← f.sb; let d ← f.dst; some (.sub f.c .n16x2 (f.fe.getLsbD 0) d a b)),
  (0x78, fun f => do let a ← f.sa; let b ← f.sb; let d ← f.dst; some (.mul f.c .s32 d a b)),
  (0x79, fun f => do let a ← f.sa; let b ← f.sb; let d ← f.dst; some (.mul f.c .n32 d a b)),
  (0x7A, fun f => do let a ← f.sa; let b ← f.sb; let d ← f.dst; some (.mul f.c .s64 d a b)),
  (0x7B, fun f => do let a ← f.sa; let b ← f.sb; let d ← f.dst; some (.mul f.c .n64 d a b)),
  (0x7C, fun f => do let a ← f.sa; let b ← f.sb; let d ← f.dst; some (.mul f.c .s16x2 d a b)),
  (0x7D, fun f => do let a ← f.sa; let b ← f.sb; let d ← f.dst; some (.mul f.c .n16x2 d a b)),
  (0x80, fun f => do let a ← f.sa; let b ← f.sb; let x ← f.sc; let d ← f.dst; some (.mad f.c .s32 d a b x)),
  (0x81, fun f => do let a ← f.sa; let b ← f.sb; let x ← f.sc; let d ← f.dst; some (.mad f.c .n32 d a b x)),
  (0x82, fun f => do let a ← f.sa; let b ← f.sb; let x ← f.sc; let d ← f.dst; some (.mad f.c .s64 d a b x)),
  (0x83, fun f => do let a ← f.sa; let b ← f.sb; let x ← f.sc; let d ← f.dst; some (.mad f.c .n64 d a b x)),
  (0x84, fun f => do let a ← f.sa; let b ← f.sb; let x ← f.sc; let d ← f.dst; some (.mad f.c .s16x2 d a b x)),
  (0x85, fun f => do let a ← f.sa; let b ← f.sb; let x ← f.sc; let d ← f.dst; some (.mad f.c .n16x2 d a b x)),
  (0x88, fun f => do let a ← f.sa; let b ← f.sb; let d ← f.dst; some (.mulhi f.c .s32 d a b)),
  (0x89, fun f => do let a ← f.sa; let b ← f.sb; let d ← f.dst; some (.mulhi f.c .n32 d a b)),
  (0x8A, fun f => do let a ← f.sa; let b ← f.sb; let d ← f.dst; some (.mulhi f.c .s64 d a b)),
  (0x8B, fun f => do let a ← f.sa; let b ← f.sb; let d ← f.dst; some (.mulhi f.c .n64 d a b)),
  (0x8C, fun f => do let a ← f.sa; let b ← f.sb; let d ← f.dst; some (.mulhi f.c .s16x2 d a b)),
  (0x8D, fun f => do let a ← f.sa; let b ← f.sb; let d ← f.dst; some (.mulhi f.c .n16x2 d a b)),
  (0x90, fun f => do let a ← f.sa; let b ← f.sb; let d ← f.dst; some (.min f.c .s32 d a b)),
  (0x91, fun f => do let a ← f.sa; let b ← f.sb; let d ← f.dst; some (.min f.c .n32 d a b)),
  (0x92, fun f => do let a ← f.sa; let b ← f.sb; let d ← f.dst; some (.min f.c .s64 d a b)),
  (0x93, fun f => do let a ← f.sa; let b ← f.sb; let d ← f.dst; some (.min f.c .n64 d a b)),
  (0x94, fun f => do let a ← f.sa; let b ← f.sb; let d ← f.dst; some (.min f.c .s16x2 d a b)),
  (0x95, fun f => do let a ← f.sa; let b ← f.sb; let d ← f.dst; some (.min f.c .n16x2 d a b)),
  (0x98, fun f => do let a ← f.sa; let b ← f.sb; let d ← f.dst; some (.max f.c .s32 d a b)),
  (0x99, fun f => do let a ← f.sa; let b ← f.sb; let d ← f.dst; some (.max f.c .n32 d a b)),
  (0x9A, fun f => do let a ← f.sa; let b ← f.sb; let d ← f.dst; some (.max f.c .s64 d a b)),
  (0x9B, fun f => do let a ← f.sa; let b ← f.sb; let d ← f.dst; some (.max f.c .n64 d a b)),
  (0x9C, fun f => do let a ← f.sa; let b ← f.sb; let d ← f.dst; some (.max f.c .s16x2 d a b)),
  (0x9D, fun f => do let a ← f.sa; let b ← f.sb; let d ← f.dst; some (.max f.c .n16x2 d a b)),
  (0xA0, fun f => do let a ← f.sa; let b ← f.sb; some (.cmp f.c .s32 (ICond.ofCode (f.fc.extractLsb' 0 3)) (f.fd.extractLsb' 0 3) a b)),
  (0xA1, fun f => do let a ← f.sa; let b ← f.sb; some (.cmp f.c .n32 (ICond.ofCode (f.fc.extractLsb' 0 3)) (f.fd.extractLsb' 0 3) a b)),
  (0xA2, fun f => do let a ← f.sa; let b ← f.sb; some (.cmp f.c .s64 (ICond.ofCode (f.fc.extractLsb' 0 3)) (f.fd.extractLsb' 0 3) a b)),
  (0xA3, fun f => do let a ← f.sa; let b ← f.sb; some (.cmp f.c .n64 (ICond.ofCode (f.fc.extractLsb' 0 3)) (f.fd.extractLsb' 0 3) a b))]

/-- Rows of the vector opcode map (Table 53). -/
def vecTab3 : List (Nat × (VFields → Option Instr)) := [
  (0xA4, fun f => do let a ← f.sa; let b ← f.sb; some (.cmp f.c .s16x2 (ICond.ofCode (f.fc.extractLsb' 0 3)) (f.fd.extractLsb' 0 3) a b)),
  (0xA5, fun f => do let a ← f.sa; let b ← f.sb; some (.cmp f.c .n16x2 (ICond.ofCode (f.fc.extractLsb' 0 3)) (f.fd.extractLsb' 0 3) a b)),
  (0xA8, fun f => do let a ← f.sa; let b ← f.sb; let d ← f.dst; some (.andB32 f.c d a b)),
  (0xA9, fun f => do let a ← f.sa; let b ← f.sb; let d ← f.dst; some (.orB32 f.c d a b)),
  (0xAA, fun f => do let a ← f.sa; let b ← f.sb; let d ← f.dst; some (.xorB32 f.c d a b)),
  (0xAB, fun f => do let a ← f.sa; let b ← f.sb; let d ← f.dst; some (.andnB32 f.c d a b)),
  (0xAC, fun f => do let a ← f.sa; let b ← f.sb; let d ← f.dst; some (.shlB32 f.c d a b)),
  (0xAD, fun f => do let a ← f.sa; let b ← f.sb; let d ← f.dst; some (.shrN32 f.c d a b)),
  (0xAE, fun f => do let a ← f.sa; let b ← f.sb; let d ← f.dst; some (.shrS32 f.c d a b)),
  (0xAF, fun f => do let a ← f.sa; let d ← f.dst; some (.popcB32 f.c d a)),
  (0xB0, fun f => do let a ← f.sa; let d ← f.dst; some (.clzB32 f.c d a)),
  (0xB1, fun f => do let a ← f.sa; let b ← f.sb; let x ← f.sc; let d ← f.dst; some (.bfeN32 f.c d a b x)),
  (0xB2, fun f => do let a ← f.sa; let b ← f.sb; let x ← f.sc; let d ← f.dst; some (.bfeS32 f.c d a b x)),
  (0xB3, fun f => do let a ← f.sa; let b ← f.sb; let d ← f.dst; some (.selB32 f.c (f.fc.extractLsb' 0 3) d a b)),
  (0xB4, fun f => do let a ← f.sa; let b ← f.sb; let d ← f.dst; some (.acsH2 f.c (f.fc.extractLsb' 0 2) d a b)),
  (0xB8, fun f => do let a ← f.sa; let dt ← CvtTy.ofCode (f.fb.extractLsb' 0 5); let st ← CvtTy.ofCode (f.fc.extractLsb' 0 5); let r ← f.rnd; let d ← f.dst; some (.cvt f.c dt st r d a)),
  (0xB9, fun f => do let a ← f.sa; let b ← f.sb; let x ← f.sc; let e ← f.se; let d ← f.dst; some (.pack4 f.c d a b x e)),
  (0xBA, fun f => do let a ← f.sa; let d ← f.dst; some (.unpack4 f.c (f.fc.extractLsb' 0 2) d a)),
  (0xBB, fun f => do let a ← f.sa; let b ← f.sb; let d ← f.dst; some (.q8t f.c (f.fc.extractLsb' 0 2) d a b)),
  (0xBC, fun f => do let a ← f.sa; let b ← f.sb; let x ← f.sc; let d ← f.dst; some (.q8e f.c (f.fe.extractLsb' 0 2) d a b x)),
  (0xC0, fun f => do let a ← f.sa; let d ← f.dst; some (.movB32 f.c d a)),
  (0xC1, fun f => do let a ← f.sa; let d ← f.dst; some (.movB64 f.c d a)),
  (0xC2, fun f => do let d ← f.dst; some (.moviB32 f.c d f.imm21)),
  (0xC3, fun f => do let d ← f.dst; some (.laneid f.c d)),
  (0xC4, fun f => shflCand f),
  (0xC5, fun f => do let a ← f.sa; let b ← f.sb; let d ← f.dst; some (if f.fc.getLsbD 3 then .bflyHi f.c (f.fc.extractLsb' 0 3) d a b else .bflyLo f.c (f.fc.extractLsb' 0 3) d a b)),
  (0xC6, fun f => voteCand f),
  (0xC7, fun f => redtCand f),
  (0xC8, fun f => do let a ← f.sa; let d ← f.dst; some (.matchLanes f.c (f.fc.getLsbD 0) d a)),
  (0xC9, fun f => do let a ← f.sa; some (.xsend f.c (f.fc.extractLsb' 0 4) (f.fc.getLsbD 4) a)),
  (0xCA, fun f => do let d ← f.dst; some (.xrecv f.c (f.fc.extractLsb' 0 4) (f.fc.getLsbD 4) d)),
  (0xCB, fun f => do let a ← f.sa; let b ← f.sb; match b with | .k n => some (.rput f.c (f.fc.getLsbD 0) a n) | _ => none),
  (0xD0, fun f => do let a ← f.sa; let d ← f.dst; let ty ← LdTy.ofCode f.s3; some (.ld f.c ty d a f.off)),
  (0xD1, fun f => do let a ← f.sa; let d ← f.dst; some (.ldTurn f.c (f.s3.getLsbD 0) d a f.off)),
  (0xD2, fun f => do let a ← f.sa; let d ← f.dst; let sc ← Scope.ofCode f.s3; some (.ldAcq f.c false sc d a f.off)),
  (0xD3, fun f => do let a ← f.sa; let d ← f.dst; let sc ← Scope.ofCode f.s3; some (.ldAcq f.c true sc d a f.off)),
  (0xD4, fun f => do let a ← f.sa; let d ← f.sd; let wd ← StW.ofCode f.s3; some (.st f.c wd d a f.off)),
  (0xD5, fun f => do let a ← f.sa; let d ← f.sd; let sc ← Scope.ofCode f.s3; some (.stRel f.c false sc d a f.off)),
  (0xD6, fun f => do let a ← f.sa; let d ← f.sd; let sc ← Scope.ofCode f.s3; some (.stRel f.c true sc d a f.off)),
  (0xD7, fun f => do let a ← f.sa; some (.prefetch f.c a f.off))]

/-- Rows of the vector opcode map (Table 53). -/
def vecTab4 : List (Nat × (VFields → Option Instr)) := [
  (0xD8, fun f => do let a ← f.sa; let b ← f.sb; let d ← f.dst; let sc ← f.esc; some (.atomAdd f.c f.eord sc f.ety d a b)),
  (0xD9, fun f => do let a ← f.sa; let b ← f.sb; let d ← f.dst; let sc ← f.esc; some (.atomMin f.c f.eord sc f.ety d a b)),
  (0xDA, fun f => do let a ← f.sa; let b ← f.sb; let d ← f.dst; let sc ← f.esc; some (.atomMax f.c f.eord sc f.ety d a b)),
  (0xDB, fun f => do let a ← f.sa; let b ← f.sb; let d ← f.dst; let sc ← f.esc; some (.atomAnd f.c f.eord sc f.ety d a b)),
  (0xDC, fun f => do let a ← f.sa; let b ← f.sb; let d ← f.dst; let sc ← f.esc; some (.atomOr f.c f.eord sc f.ety d a b)),
  (0xDD, fun f => do let a ← f.sa; let b ← f.sb; let d ← f.dst; let sc ← f.esc; some (.atomXor f.c f.eord sc f.ety d a b)),
  (0xDE, fun f => do let a ← f.sa; let b ← f.sb; let d ← f.dst; let sc ← f.esc; some (.atomExch f.c f.eord sc f.ety d a b)),
  (0xDF, fun f => do let a ← f.sa; let b ← f.sb; let x ← f.sc; let d ← f.dst; let sc ← f.esc; some (.atomCas f.c f.eord sc f.ety d a b x)),
  (0xE0, fun f => do let a ← f.sa; let b ← f.sb; let d ← f.dst; let sc ← f.esc; some (.atomAddF32 f.c f.eord sc d a b)),
  (0xE1, fun f => do let a ← f.sa; let b ← f.sb; let sc ← f.esc; some (.redAdd f.c (f.fe.getLsbD 6) sc f.ety a b)),
  (0xE2, fun f => do let a ← f.sa; let b ← f.sb; let sc ← f.esc; some (.redMin f.c (f.fe.getLsbD 6) sc f.ety a b)),
  (0xE3, fun f => do let a ← f.sa; let b ← f.sb; let sc ← f.esc; some (.redMax f.c (f.fe.getLsbD 6) sc f.ety a b)),
  (0xE4, fun f => do let a ← f.sa; let b ← f.sb; let sc ← f.esc; some (.redAnd f.c (f.fe.getLsbD 6) sc f.ety a b)),
  (0xE5, fun f => do let a ← f.sa; let b ← f.sb; let sc ← f.esc; some (.redOr f.c (f.fe.getLsbD 6) sc f.ety a b)),
  (0xE6, fun f => do let a ← f.sa; let b ← f.sb; let sc ← f.esc; some (.redXor f.c (f.fe.getLsbD 6) sc f.ety a b)),
  (0xE7, fun f => do let a ← f.sa; let b ← f.sb; let sc ← f.esc; some (.redAddF32 f.c (f.fe.getLsbD 6) sc a b)),
  (0xE8, fun f => do let a ← f.sa; let b ← f.sb; let ty ← DTy.ofCode (f.fe.extractLsb' 4 3); some (.redDefer f.c ty a b)),
  (0xE9, fun f => vfenceCand f),
  (0xEA, fun f => some (.fenceD f.c)),
  (0xF0, fun f => do let r ← f.rnd; some (.mma f.c .f64 r (f.fe.getLsbD 3) (f.fe.getLsbD 2) f.td f.ta f.tb (f.fe.extractLsb' 0 2 ++ f.fc))),
  (0xF1, fun f => do let r ← f.rnd; some (.mma f.c .f32 r (f.fe.getLsbD 3) (f.fe.getLsbD 2) f.td f.ta f.tb (f.fe.extractLsb' 0 2 ++ f.fc))),
  (0xF2, fun f => do let r ← f.rnd; some (.mma f.c .f16 r (f.fe.getLsbD 3) (f.fe.getLsbD 2) f.td f.ta f.tb (f.fe.extractLsb' 0 2 ++ f.fc))),
  (0xF3, fun f => do let r ← f.rnd; some (.mma f.c .bf16 r (f.fe.getLsbD 3) (f.fe.getLsbD 2) f.td f.ta f.tb (f.fe.extractLsb' 0 2 ++ f.fc))),
  (0xF4, fun f => do let r ← f.rnd; some (.mma f.c .s8 r (f.fe.getLsbD 3) (f.fe.getLsbD 2) f.td f.ta f.tb (f.fe.extractLsb' 0 2 ++ f.fc))),
  (0xF5, fun f => some (.mmaz f.c false (f.fe.getLsbD 3) (f.fe.getLsbD 2) f.td f.ta f.tb f.tc)),
  (0xF6, fun f => some (.mmaz f.c true (f.fe.getLsbD 3) (f.fe.getLsbD 2) f.td f.ta f.tb f.tc)),
  (0xF7, fun f => do let r ← f.rnd; some (.sacc f.c r f.td f.ta f.tb f.tc)),
  (0xF8, fun f => some (.tzero f.c f.td)),
  (0xF9, fun f => do let d ← f.dst; some (.tmovToVector f.c d f.ta f.fc (f.fe.extractLsb' 0 4))),
  (0xFA, fun f => do let a ← f.sa; some (.tmovToTile f.c f.td a f.fc (f.fe.extractLsb' 0 4))),
  (0xFB, fun f => some (.vectorNop f.c.stall))]

/-- Rows of the vector opcode map (Table 53). -/
def vecTab : List (Nat × (VFields → Option Instr)) := vecTab0 ++ vecTab1 ++ vecTab2 ++ vecTab3 ++ vecTab4

/-- The window that names a register. -/
def VSrc.win : VSrc → BitVec 5
  | .v n => 0#1 ++ n.extractLsb' 7 4
  | .k _ => 16
  | .i _ => 17
/-- The offset of a source within its window. -/
def so : VSrc → BitVec 7
  | .v n => n.extractLsb' 0 7
  | .k n => 0#1 ++ n
  | .i n => 0#5 ++ n
def dwin (d : VReg) : BitVec 5 := 0#1 ++ d.extractLsb' 7 4
def dw (d : VReg) : BitVec 7 := d.extractLsb' 0 7

/-- Form V with the windows of its slots. -/
def vw (op : BitVec 8) (d a b x e : BitVec 7) (c : VCtl) (wd wa wb wc we : BitVec 5) : Wins × Word :=
  (⟨wd, wa, wb, wc, we⟩, op ++ d ++ a ++ b ++ x ++ e ++ c.bits)
/-- Form VI. -/
def vi (op : BitVec 8) (d a : BitVec 7) (imm : BitVec 21) (c : VCtl) (wd wa : BitVec 5) : Wins × Word :=
  (⟨wd, wa, 0, 0, 0⟩, op ++ d ++ a ++ imm ++ c.bits)
/-- Form VM. -/
def vm (op : BitVec 8) (d a : BitVec 7) (off : BitVec 18) (s : BitVec 3) (c : VCtl) (wd wa : BitVec 5) : Wins × Word :=
  (⟨wd, wa, 0, 0, 0⟩, op ++ d ++ a ++ off ++ s ++ c.bits)
/-- The control fields of `nop`: no guard, nothing but STALL (Table 53). -/
def nopCtl (st : BitVec 3) : VCtl := ⟨7, false, 7, false, .dflt, st, .none, false, false, false, 0⟩

/-- The word of a vector instruction and the windows under which it names its operands. -/
def encodeVec : Instr → Option (Wins × Word)
  | .fadd c t m d a b => some (vw (0x08 + t.code) (dw d) (so a) (so b) 0 (m.rnd.code ++ m.src.code) c (dwin d) a.win b.win 0 0)
  | .fsub c t m d a b => some (vw (0x10 + t.code) (dw d) (so a) (so b) 0 (m.rnd.code ++ m.src.code) c (dwin d) a.win b.win 0 0)
  | .fmul c t m d a b => some (vw (0x18 + t.code) (dw d) (so a) (so b) 0 (m.rnd.code ++ m.src.code) c (dwin d) a.win b.win 0 0)
  | .ffma c t m d a b x => some (vw (0x20 + t.code) (dw d) (so a) (so b) (so x) (m.rnd.code ++ m.src.code) c (dwin d) a.win b.win x.win 0)
  | .fmin c t m d a b => some (vw (0x28 + t.code) (dw d) (so a) (so b) 0 (0#3 ++ m.code) c (dwin d) a.win b.win 0 0)
  | .fmax c t m d a b => some (vw (0x30 + t.code) (dw d) (so a) (so b) 0 (0#3 ++ m.code) c (dwin d) a.win b.win 0 0)
  | .fcmp c t m cond pd a b => some (vw (0x38 + t.code) (0#4 ++ pd) (so a) (so b) (0#4 ++ cond.code) (0#3 ++ m.code) c 0 a.win b.win 0 0)
  | .fclass c t neg abs d a => some (vw (0x40 + t.code) (dw d) (so a) 0 0 (0#3 ++ b1 neg ++ b1 abs ++ 0#2) c (dwin d) a.win 0 0 0)
  | .frcp c t r neg abs d a => some (vw (0x48 + t.code) (dw d) (so a) 0 0 (r.code ++ b1 neg ++ b1 abs ++ 0#2) c (dwin d) a.win 0 0 0)
  | .frsq c t r neg abs d a => some (vw (0x4C + t.code) (dw d) (so a) 0 0 (r.code ++ b1 neg ++ b1 abs ++ 0#2) c (dwin d) a.win 0 0 0)
  | .fsqrt c t r neg abs d a => some (vw (0x50 + t.code) (dw d) (so a) 0 0 (r.code ++ b1 neg ++ b1 abs ++ 0#2) c (dwin d) a.win 0 0 0)
  | .fexp2 c t r neg abs d a => some (vw (0x54 + t.code) (dw d) (so a) 0 0 (r.code ++ b1 neg ++ b1 abs ++ 0#2) c (dwin d) a.win 0 0 0)
  | .flog2 c t r neg abs d a => some (vw (0x58 + t.code) (dw d) (so a) 0 0 (r.code ++ b1 neg ++ b1 abs ++ 0#2) c (dwin d) a.win 0 0 0)
  | .fsin c t r neg abs d a => some (vw (0x5C + t.code) (dw d) (so a) 0 0 (r.code ++ b1 neg ++ b1 abs ++ 0#2) c (dwin d) a.win 0 0 0)
  | .fcos c t r neg abs d a => some (vw (0x60 + t.code) (dw d) (so a) 0 0 (r.code ++ b1 neg ++ b1 abs ++ 0#2) c (dwin d) a.win 0 0 0)
  | .add c t sat d a b => some (vw (0x68 + t.code) (dw d) (so a) (so b) 0 (0#6 ++ b1 sat) c (dwin d) a.win b.win 0 0)
  | .sub c t sat d a b => some (vw (0x70 + t.code) (dw d) (so a) (so b) 0 (0#6 ++ b1 sat) c (dwin d) a.win b.win 0 0)
  | .mul c t d a b => some (vw (0x78 + t.code) (dw d) (so a) (so b) 0 0 c (dwin d) a.win b.win 0 0)
  | .mulhi c t d a b => some (vw (0x88 + t.code) (dw d) (so a) (so b) 0 0 c (dwin d) a.win b.win 0 0)
  | .min c t d a b => some (vw (0x90 + t.code) (dw d) (so a) (so b) 0 0 c (dwin d) a.win b.win 0 0)
  | .max c t d a b => some (vw (0x98 + t.code) (dw d) (so a) (so b) 0 0 c (dwin d) a.win b.win 0 0)
  | .mad c t d a b x => some (vw (0x80 + t.code) (dw d) (so a) (so b) (so x) 0 c (dwin d) a.win b.win x.win 0)
  | .cmp c t cond pd a b => some (vw (0xA0 + t.code) (0#4 ++ pd) (so a) (so b) (0#4 ++ cond.code) 0 c 0 a.win b.win 0 0)
  | .andB32 c d a b => some (vw 0xA8 (dw d) (so a) (so b) 0 0 c (dwin d) a.win b.win 0 0)
  | .orB32 c d a b => some (vw 0xA9 (dw d) (so a) (so b) 0 0 c (dwin d) a.win b.win 0 0)
  | .xorB32 c d a b => some (vw 0xAA (dw d) (so a) (so b) 0 0 c (dwin d) a.win b.win 0 0)
  | .andnB32 c d a b => some (vw 0xAB (dw d) (so a) (so b) 0 0 c (dwin d) a.win b.win 0 0)
  | .shlB32 c d a b => some (vw 0xAC (dw d) (so a) (so b) 0 0 c (dwin d) a.win b.win 0 0)
  | .shrN32 c d a b => some (vw 0xAD (dw d) (so a) (so b) 0 0 c (dwin d) a.win b.win 0 0)
  | .shrS32 c d a b => some (vw 0xAE (dw d) (so a) (so b) 0 0 c (dwin d) a.win b.win 0 0)
  | .popcB32 c d a => some (vw 0xAF (dw d) (so a) 0 0 0 c (dwin d) a.win 0 0 0)
  | .clzB32 c d a => some (vw 0xB0 (dw d) (so a) 0 0 0 c (dwin d) a.win 0 0 0)
  | .movB32 c d a => some (vw 0xC0 (dw d) (so a) 0 0 0 c (dwin d) a.win 0 0 0)
  | .movB64 c d a => some (vw 0xC1 (dw d) (so a) 0 0 0 c (dwin d) a.win 0 0 0)
  | .bfeN32 c d a b x => some (vw 0xB1 (dw d) (so a) (so b) (so x) 0 c (dwin d) a.win b.win x.win 0)
  | .bfeS32 c d a b x => some (vw 0xB2 (dw d) (so a) (so b) (so x) 0 c (dwin d) a.win b.win x.win 0)
  | .selB32 c p d a b => some (vw 0xB3 (dw d) (so a) (so b) (0#4 ++ p) 0 c (dwin d) a.win b.win 0 0)
  | .acsH2 c j d a b => some (vw 0xB4 (dw d) (so a) (so b) (0#5 ++ j) 0 c (dwin d) a.win b.win 0 0)
  | .cvt c dt st r d a => some (vw 0xB8 (dw d) (so a) (0#2 ++ dt.code) (0#2 ++ st.code) (r.code ++ 0#4) c (dwin d) a.win 0 0 0)
  | .pack4 c d a b x e => some (vw 0xB9 (dw d) (so a) (so b) (so x) (so e) c (dwin d) a.win b.win x.win e.win)
  | .unpack4 c h d a => some (vw 0xBA (dw d) (so a) 0 (0#5 ++ h) 0 c (dwin d) a.win 0 0 0)
  | .q8t c h d a b => some (vw 0xBB (dw d) (so a) (so b) (0#5 ++ h) 0 c (dwin d) a.win b.win 0 0)
  | .q8e c h d a b x => some (vw 0xBC (dw d) (so a) (so b) (so x) (0#5 ++ h) c (dwin d) a.win b.win x.win 0)
  | .moviB32 c d imm => some (vi 0xC2 (dw d) 0 imm c (dwin d) 0)
  | .laneid c d => some (vw 0xC3 (dw d) 0 0 0 0 c (dwin d) 0 0 0 0)
  | .shflIdx c d a (.reg b) => some (vw 0xC4 (dw d) (so a) (so b) (0#5 ++ 0#2) 0 c (dwin d) a.win b.win 0 0)
  | .shflIdx c d a (.imm n) => some (vw 0xC4 (dw d) (so a) (0#2 ++ n) (0#4 ++ 1#1 ++ 0#2) 0 c (dwin d) a.win 0 0 0)
  | .shflUp c d a (.reg b) => some (vw 0xC4 (dw d) (so a) (so b) (0#5 ++ 1#2) 0 c (dwin d) a.win b.win 0 0)
  | .shflUp c d a (.imm n) => some (vw 0xC4 (dw d) (so a) (0#2 ++ n) (0#4 ++ 1#1 ++ 1#2) 0 c (dwin d) a.win 0 0 0)
  | .shflDown c d a (.reg b) => some (vw 0xC4 (dw d) (so a) (so b) (0#5 ++ 2#2) 0 c (dwin d) a.win b.win 0 0)
  | .shflDown c d a (.imm n) => some (vw 0xC4 (dw d) (so a) (0#2 ++ n) (0#4 ++ 1#1 ++ 2#2) 0 c (dwin d) a.win 0 0 0)
  | .shflXor c d a (.reg b) => some (vw 0xC4 (dw d) (so a) (so b) (0#5 ++ 3#2) 0 c (dwin d) a.win b.win 0 0)
  | .shflXor c d a (.imm n) => some (vw 0xC4 (dw d) (so a) (0#2 ++ n) (0#4 ++ 1#1 ++ 3#2) 0 c (dwin d) a.win 0 0 0)
  | .bflyLo c k d a b => some (vw 0xC5 (dw d) (so a) (so b) (0#3 ++ 0#1 ++ k) 0 c (dwin d) a.win b.win 0 0)
  | .bflyHi c k d a b => some (vw 0xC5 (dw d) (so a) (so b) (0#3 ++ 1#1 ++ k) 0 c (dwin d) a.win b.win 0 0)
  | .voteAny c pd p neg => some (vw 0xC6 (0#4 ++ pd) (0#3 ++ b1 neg ++ p) 0 (0#5 ++ 0#2) 0 c 0 0 0 0 0)
  | .voteAll c pd p neg => some (vw 0xC6 (0#4 ++ pd) (0#3 ++ b1 neg ++ p) 0 (0#5 ++ 1#2) 0 c 0 0 0 0 0)
  | .voteEq c pd p neg => some (vw 0xC6 (0#4 ++ pd) (0#3 ++ b1 neg ++ p) 0 (0#5 ++ 3#2) 0 c 0 0 0 0 0)
  | .voteBallot c d p neg => some (vw 0xC6 (dw d) (0#3 ++ b1 neg ++ p) 0 (0#5 ++ 2#2) 0 c (dwin d) 0 0 0 0)
  | .redtAdd c ty r d a => some (vw 0xC7 (dw d) (so a) 0 (0#2 ++ ty.code ++ 0#3) (r.code ++ 0#4) c (dwin d) a.win 0 0 0)
  | .redtMin c ty r d a => some (vw 0xC7 (dw d) (so a) 0 (0#2 ++ ty.code ++ 1#3) (r.code ++ 0#4) c (dwin d) a.win 0 0 0)
  | .redtMax c ty r d a => some (vw 0xC7 (dw d) (so a) 0 (0#2 ++ ty.code ++ 2#3) (r.code ++ 0#4) c (dwin d) a.win 0 0 0)
  | .redtAnd c ty r d a => some (vw 0xC7 (dw d) (so a) 0 (0#2 ++ ty.code ++ 3#3) (r.code ++ 0#4) c (dwin d) a.win 0 0 0)
  | .redtOr c ty r d a => some (vw 0xC7 (dw d) (so a) 0 (0#2 ++ ty.code ++ 4#3) (r.code ++ 0#4) c (dwin d) a.win 0 0 0)
  | .redtXor c ty r d a => some (vw 0xC7 (dw d) (so a) 0 (0#2 ++ ty.code ++ 5#3) (r.code ++ 0#4) c (dwin d) a.win 0 0 0)
  | .matchLanes c fp d a => some (vw 0xC8 (dw d) (so a) 0 (0#6 ++ b1 fp) 0 c (dwin d) a.win 0 0 0)
  | .xsend c slot wide a => some (vw 0xC9 0 (so a) 0 (0#2 ++ b1 wide ++ slot) 0 c 0 a.win 0 0 0)
  | .xrecv c slot wide d => some (vw 0xCA (dw d) 0 0 (0#2 ++ b1 wide ++ slot) 0 c (dwin d) 0 0 0 0)
  | .rput c wide a k => some (vw 0xCB 0 (so a) (0#1 ++ k) (0#6 ++ b1 wide) 0 c 0 a.win 16 0 0)
  | .ld c ty d a off => some (vm 0xD0 (dw d) (so a) off ty.code c (dwin d) a.win)
  | .ldTurn c wide d a off => some (vm 0xD1 (dw d) (so a) off (2#2 ++ b1 wide) c (dwin d) a.win)
  | .ldAcq c wide sc d a off => some (vm (if wide then 0xD3 else 0xD2) (dw d) (so a) off sc.code c (dwin d) a.win)
  | .st c wd d a off => some (vm 0xD4 (so d) (so a) off wd.code c d.win a.win)
  | .stRel c wide sc d a off => some (vm (if wide then 0xD6 else 0xD5) (so d) (so a) off sc.code c d.win a.win)
  | .prefetch c a off => some (vm 0xD7 0 (so a) off 0 c 0 a.win)
  | .atomAdd c o sc ty d a b => some (vw 0xD8 (dw d) (so a) (so b) 0 (o.code ++ sc.code ++ ty.code) c (dwin d) a.win b.win 0 0)
  | .atomMin c o sc ty d a b => some (vw 0xD9 (dw d) (so a) (so b) 0 (o.code ++ sc.code ++ ty.code) c (dwin d) a.win b.win 0 0)
  | .atomMax c o sc ty d a b => some (vw 0xDA (dw d) (so a) (so b) 0 (o.code ++ sc.code ++ ty.code) c (dwin d) a.win b.win 0 0)
  | .atomAnd c o sc ty d a b => some (vw 0xDB (dw d) (so a) (so b) 0 (o.code ++ sc.code ++ ty.code) c (dwin d) a.win b.win 0 0)
  | .atomOr c o sc ty d a b => some (vw 0xDC (dw d) (so a) (so b) 0 (o.code ++ sc.code ++ ty.code) c (dwin d) a.win b.win 0 0)
  | .atomXor c o sc ty d a b => some (vw 0xDD (dw d) (so a) (so b) 0 (o.code ++ sc.code ++ ty.code) c (dwin d) a.win b.win 0 0)
  | .atomExch c o sc ty d a b => some (vw 0xDE (dw d) (so a) (so b) 0 (o.code ++ sc.code ++ ty.code) c (dwin d) a.win b.win 0 0)
  | .atomCas c o sc ty d a b x => some (vw 0xDF (dw d) (so a) (so b) (so x) (o.code ++ sc.code ++ ty.code) c (dwin d) a.win b.win x.win 0)
  | .atomAddF32 c o sc d a b => some (vw 0xE0 (dw d) (so a) (so b) 0 (o.code ++ sc.code ++ 0#2) c (dwin d) a.win b.win 0 0)
  | .redAdd c rel sc ty a b => some (vw 0xE1 0 (so a) (so b) 0 (b1 rel ++ 0#1 ++ sc.code ++ ty.code) c 0 a.win b.win 0 0)
  | .redMin c rel sc ty a b => some (vw 0xE2 0 (so a) (so b) 0 (b1 rel ++ 0#1 ++ sc.code ++ ty.code) c 0 a.win b.win 0 0)
  | .redMax c rel sc ty a b => some (vw 0xE3 0 (so a) (so b) 0 (b1 rel ++ 0#1 ++ sc.code ++ ty.code) c 0 a.win b.win 0 0)
  | .redAnd c rel sc ty a b => some (vw 0xE4 0 (so a) (so b) 0 (b1 rel ++ 0#1 ++ sc.code ++ ty.code) c 0 a.win b.win 0 0)
  | .redOr c rel sc ty a b => some (vw 0xE5 0 (so a) (so b) 0 (b1 rel ++ 0#1 ++ sc.code ++ ty.code) c 0 a.win b.win 0 0)
  | .redXor c rel sc ty a b => some (vw 0xE6 0 (so a) (so b) 0 (b1 rel ++ 0#1 ++ sc.code ++ ty.code) c 0 a.win b.win 0 0)
  | .redAddF32 c rel sc a b => some (vw 0xE7 0 (so a) (so b) 0 (b1 rel ++ 0#1 ++ sc.code ++ 0#2) c 0 a.win b.win 0 0)
  | .redDefer c ty a b => some (vw 0xE8 0 (so a) (so b) 0 (ty.code ++ 0#4) c 0 a.win b.win 0 0)
  | .vectorFence c sc => some (vw 0xE9 0 0 0 (0#2 ++ 0#2 ++ sc.code) 0 c 0 0 0 0 0)
  | .vectorFenceAcq c sc => some (vw 0xE9 0 0 0 (0#2 ++ 1#2 ++ sc.code) 0 c 0 0 0 0 0)
  | .vectorFenceRel c sc => some (vw 0xE9 0 0 0 (0#2 ++ 2#2 ++ sc.code) 0 c 0 0 0 0 0)
  | .fenceD c => some (vw 0xEA 0 0 0 0 0 c 0 0 0 0 0)
  | .mma c ty r ra rb d a b k => some (vw (0xF0 + ty.code) (0#1 ++ d) (0#1 ++ a) (0#1 ++ b) (k.extractLsb' 0 7) (r.code ++ b1 ra ++ b1 rb ++ k.extractLsb' 7 2) c 0 0 0 0 0)
  | .mmaz c q4 ra rb d a b z => some (vw (if q4 then 0xF6 else 0xF5) (0#1 ++ d) (0#1 ++ a) (0#1 ++ b) (0#1 ++ z) (0#3 ++ b1 ra ++ b1 rb ++ 0#2) c 0 0 0 0 0)
  | .sacc c r d a b x => some (vw 0xF7 (0#1 ++ d) (0#1 ++ a) (0#1 ++ b) (0#1 ++ x) (r.code ++ 0#4) c 0 0 0 0 0)
  | .tzero c d => some (vw 0xF8 (0#1 ++ d) 0 0 0 0 c 0 0 0 0 0)
  | .tmovToVector c d t j rb => some (vw 0xF9 (dw d) (0#1 ++ t) 0 j (0#3 ++ rb) c (dwin d) 0 0 0 0)
  | .tmovToTile c t a j rb => some (vw 0xFA (0#1 ++ t) (so a) 0 j (0#3 ++ rb) c 0 a.win 0 0 0)
  | .vectorNop st => some (vw 0xFB 0 0 0 0 0 (nopCtl st) 0 0 0 0 0)
  | _ => none

/-! ### Decoding, with the reason of a rejection -/

/-- Why a word is no instruction; each faults OP_ILLEGAL (R131). -/
inductive Illegal where
  /-- the opcode, a type, a code or an operand name is reserved -/
  | reserved
  /-- a field that must be zero is not, or a field value is not allowed -/
  | field
  deriving DecidableEq, Repr

/-- Decode a control word: the row's instruction, if the word is exactly its encoding and its fields are allowed. -/
def decodeCtl (w : Word) : Except Illegal Instr :=
  match (rowOf (w.extractLsb' 56 8).toNat ctlTab).bind fun r => r (CFields.of w) with
  | none => .error .reserved
  | some i => if i.wf && encodeCtl i == some w then .ok i else .error .field

/-- Decode a vector word under the windows of its clause. -/
def decodeVec (ws : Wins) (w : Word) : Except Illegal Instr :=
  match (rowOf (w.extractLsb' 56 8).toNat vecTab).bind fun r => r (VFields.of ws w) with
  | none => .error .reserved
  | some i => if i.wf && (encodeVec i).map Prod.snd == some w then .ok i else .error .field

/-- The engine command that eight words pushed to queue q name, by CMD and FN; none where the queue knows no such command. -/
def decodeCmd (q : Nat) (w : Cmd) : Option Instr :=
  match q, w.cmd.toNat, w.fn.toNat with
  | 0, 1, _ => some (.copy w)
  | 0, 2, _ => some (.copyx w)
  | 0, 3, _ => some (.gather w)
  | 0, 4, _ => some (.scatter w)
  | 0, 5, _ => some (.fill w)
  | 0, 6, _ => some (.tfill w)
  | 0, 7, _ => some (.tdrain w)
  | 0, 8, _ => some (.clist w)
  | 0, 9, _ => some (.copyResume w)
  | 1, 2, _ => some (.sweepForce w)
  | 1, 3, _ => some (.sweepStatus w)
  | 1, 4, _ => some (.rowCopy w)
  | 1, 5, _ => some (.rowZero w)
  | 1, 7, _ => some (.deriveDrop w)
  | 1, 8, _ => some (.deriveFlush w)
  | 1, 9, _ => some (.snapArm w)
  | 1, 10, _ => some (.snapAbort w)
  | 1, 11, _ => some (.basinResume w)
  | 2, 1, _ => some (.allreduce w)
  | 2, 2, _ => some (.reducescatter w)
  | 2, 3, _ => some (.allgather w)
  | 2, 4, _ => some (.sendCmd w)
  | 2, 5, _ => some (.recvCmd w)
  | 2, 6, _ => some (.bucketArm w)
  | 2, 7, _ => some (.stepCmd w)
  | 2, 8, _ => some (.collectiveResume w)
  | 3, 1, _ => some (.launch w)
  | 3, 2, _ => some (.reclaim w)
  | 1, 1, 1 => some (.sweepScale w)
  | 1, 1, 2 => some (.sweepAffine w)
  | 1, 1, 3 => some (.sweepClamp w)
  | 1, 1, 4 => some (.sweepFill w)
  | 1, 1, 5 => some (.sweepAbsmax w)
  | 1, 1, 6 => some (.sweepSum w)
  | 1, 6, 1 => some (.deriveRegTranspose w)
  | 1, 6, 2 => some (.deriveRegCast w)
  | 1, 6, 3 => some (.deriveRegRowsum w)
  | _, _, _ => none

/-- The queue and the words of an engine command. -/
def encodeCmd : Instr → Option (Nat × Cmd)
  | .copy w | .copyx w | .gather w | .scatter w | .fill w | .tfill w | .tdrain w | .clist w | .copyResume w => some (0, w)
  | .sweepScale w | .sweepAffine w | .sweepClamp w | .sweepFill w | .sweepAbsmax w | .sweepSum w | .sweepForce w |
    .sweepStatus w | .rowCopy w | .rowZero w | .deriveRegTranspose w | .deriveRegCast w | .deriveRegRowsum w | .deriveDrop w |
    .deriveFlush w | .snapArm w | .snapAbort w | .basinResume w => some (1, w)
  | .allreduce w | .reducescatter w | .allgather w | .sendCmd w | .recvCmd w | .bucketArm w | .stepCmd w |
    .collectiveResume w => some (2, w)
  | .launch w | .reclaim w => some (3, w)
  | _ => none

/-- The instruction an instruction whose bits are w names (bit 0 of the first word lowest). 64 bits are read as a control
word, and where the control map refuses it as a vector word under windows of zero; 128 bits are a clause header followed
by the word it governs. -/
def decodeTableWord (nbits w : Nat) : Option Instr :=
  if nbits ≤ 64 then
    match decodeCtl (BitVec.ofNat 64 w) with
    | .ok i => some i
    | .error _ =>
      match decodeVec ⟨0, 0, 0, 0, 0⟩ (BitVec.ofNat 64 w) with
      | .ok i => some i
      | .error _ => none
  else
    match decodeHeader (BitVec.ofNat 64 w) with
    | none => none
    | some h =>
      match (if h.vec then decodeVec h.wins (BitVec.ofNat 64 (w / 2 ^ 64)) else decodeCtl (BitVec.ofNat 64 (w / 2 ^ 64))) with
      | .ok i => some i
      | .error _ => none

end Sys2Proof
end

