-- ==== Sys2Proof/Config.lean ====
section
/-! DEFINITION. What an implementation fixes and what the manual leaves open. A free value is an opaque constant applied
to the counter State.fresh; nothing constrains it (notes/assumptions/8.md). -/
namespace Sys2Proof

/-- A bit the manual leaves open (an old or a new translation, whether a piece of a refused write lands). -/
opaque Config.freeBit : Nat → Bool

/-- A 64-bit value the manual leaves open. -/
opaque Config.freeWord : Nat → BitVec 64

/-- The public key that the immutable root holds: the one with this SHA-256 hash (R427). -/
opaque Config.imageKey : BitVec 256 → BitVec 512

/-- The ephemeral value of an ECDSA signature (R433). -/
opaque Config.signNonce : Nat → BitVec 256

/-- A key generated by the internal random source (R432). -/
opaque Config.freeKey : Nat → BitVec 512

/-- Result of a transcendental whose correct rounding the model's arithmetic does not reach (function, format, operand bits). -/
opaque Config.freeTrans : Nat → Nat → Nat → BitVec 64

end Sys2Proof
end

