-- ==== Sys2Proof/Machine/Sparse.lean ====
section
/-! DEFINITION. Sparse maps: reading, writing and the canonical form (keys rising, no entry equal to the default). Every
array of the machine, memory included, is read and written by these two operations. -/
namespace Sys2Proof.Machine

/-- The value at a key; an unlisted key reads as the default. -/
def smGet {α : Type} (d : α) : SMap α → Nat → α
  | [], _ => d
  | (k, v) :: m, i => if k = i then v else smGet d m i

/-- Removes a key. -/
def smDel {α : Type} (m : SMap α) (i : Nat) : SMap α := m.filter fun e => e.1 != i

/-- Inserts a key, which the map does not list, below the first higher one. -/
def smIns {α : Type} (i : Nat) (v : α) : SMap α → SMap α
  | [] => [(i, v)]
  | (k, w) :: m => if i < k then (i, v) :: (k, w) :: m else (k, w) :: smIns i v m

/-- Writes a key; writing the default removes the entry. -/
def smPut {α : Type} [DecidableEq α] (d : α) (m : SMap α) (i : Nat) (v : α) : SMap α :=
  if v = d then smDel m i else smIns i v (smDel m i)

/-- Every key is above the bound, the keys rise, and no value is the default. -/
def smWfFrom {α : Type} [DecidableEq α] (d : α) : Option Nat → SMap α → Bool
  | _, [] => true
  | lo, (k, v) :: m => (match lo with | none => true | some b => decide (b < k)) && decide (v ≠ d) && smWfFrom d (some k) m

/-- The canonical form of a sparse map. -/
def smWf {α : Type} [DecidableEq α] (d : α) (m : SMap α) : Bool := smWfFrom d none m

/-- Changes the value at a key by a function. -/
def smUpd {α : Type} [DecidableEq α] (d : α) (m : SMap α) (i : Nat) (f : α → α) : SMap α := smPut d m i (f (smGet d m i))

/-- The bytes at n consecutive addresses, lowest first. -/
def smBytes (m : SMap Byte) (a : Nat) : Nat → List Byte
  | 0 => []
  | n + 1 => smGet 0 m a :: smBytes m (a + 1) n

/-- Writes consecutive bytes, lowest address first. -/
def smWrite (m : SMap Byte) (a : Nat) : List Byte → SMap Byte
  | [] => m
  | b :: bs => smWrite (smPut 0 m a b) (a + 1) bs

/-- The little-endian number held by bytes (R1). -/
def leNat : List Byte → Nat
  | [] => 0
  | b :: bs => b.toNat + 256 * leNat bs

/-- The n low bytes of a number, lowest first (R1). -/
def leBytes : Nat → Nat → List Byte
  | 0, _ => []
  | n + 1, v => BitVec.ofNat 8 v :: leBytes n (v / 256)

end Sys2Proof.Machine
end

