-- ==== Sys2Proof/Machine/State.lean ====
section
/-! DEFINITION. The state of the Aelnyx as plain data, the reasons a step of the model can stop, and the state after
power-up. Every field cites the rule that names it; INVENTORY.md lists them with their reset values. -/
namespace Sys2Proof.Machine

/-- The model's own faults. No instruction answers one: every fault of the manual is a record in the next state (R73). -/
inductive Fault where
  /-- raised by nothing; safe, since the model never answers it -/
  | none
  deriving DecidableEq, Repr

/-- Reasons the model gives no meaning. -/
inductive Refusal where
  /-- raised by Dispatch for an instruction without a meaning yet; safe, since nothing is proved of it -/
  | notModelled (mnemonic : String)
  deriving DecidableEq, Repr

/-! ## Fault records -/

/-- A fault record (Table 30). -/
structure FaultRec where
  code : BitVec 8
  orig : BitVec 2
  imprec : Bool
  index : BitVec 4
  slot : BitVec 5
  core : BitVec 10
  lanes : Mask
  clause : BitVec 56
  acc : BitVec 4
  addr : BitVec 56
  info : Word
  deriving DecidableEq, Repr

/-- The four resolutions of R81. -/
inductive Action where
  | replay | continue | discard | terminate
  deriving DecidableEq, Repr

/-- An outstanding record of a halted group: the record, whether the fault queue has taken it (R73), the stamp of the held
operation it was met by (R80), the resolution once the firmware has given it (R81), whether the slice stands past the release that
the record names, or at no release (R80, notes/assumptions/56.md), and whether a wait on an ended command made it (R76). -/
structure HaltRec where
  fr : FaultRec
  sent : Bool
  held : Option Nat
  act : Option Action
  past : Bool := false
  wait : Bool := false
  deriving DecidableEq, Repr

/-! ## Groups -/

/-- The identity CSRs of Table 14. -/
structure Ident where
  grp : Nat
  ngrp : Nat
  nlane : Nat
  row : Nat
  col : Nat
  ch : Nat
  cw : Nat
  cluX : Nat
  cluY : Nat
  cluZ : Nat
  gX : Nat
  gY : Nat
  gZ : Nat
  core : Nat
  parm : BitVec 56
  capa : BitVec 56
  deriving DecidableEq, Repr

/-- The CSRs whose value a token samples when it is sent (R100, R140). -/
structure VMode where
  fpm : Word
  qtab : Word
  chk : Word
  part : Word
  deriving DecidableEq, Repr

/-- The kinds of runnel tokens (Table 62). -/
inductive TokKind where
  | run (blk : BitVec 56) (c : Nat)
  | walk (blk : BitVec 56) (e0 e1 e2 : Nat)
  | maskPush (p : BitVec 3) (neg : Bool)
  | maskInvert
  | maskPop
  | deposit (k : BitVec 6) (v : BitVec 32)
  | sync
  | ret
  deriving DecidableEq, Repr

/-- A token with what it samples at sending: the CSR values, the number of `tcfg` and of `csrw flags` executed by its group,
and the number of vsync and vget sent before it (R100, R194, R105, R56). -/
structure Token where
  kind : TokKind
  mode : VMode
  tseq : Nat
  fseq : Nat
  epoch : Nat
  deriving DecidableEq, Repr

/-- State of the path of a level that is not the current one (R146). -/
inductive Other where
  | notStarted
  | susp (at_ : Word)
  | done (j : Option (Word × Nat))
  deriving DecidableEq, Repr

/-- A level record of the shadow mask stack (R146), with the number of its `vmpush`, which tells its paths apart (R53). -/
structure Level where
  id : Nat
  sib : Word
  dem : Bool
  path2 : Bool
  other : Other
  deriving DecidableEq, Repr

/-- The spin record (R147). -/
structure Spin where
  edge : Word
  vals : List Word
  eff : Bool
  deriving DecidableEq, Repr

/-- The control program counter (R27, R113): header of the current clause, its N, the next instruction, and the words of the
clause once it is fetched (R85; empty before the fetch). -/
structure CPos where
  hdr : Word
  n : Nat
  idx : Nat
  code : List Word
  deriving DecidableEq, Repr

/-- Why the control slice is blocked (R141). -/
inductive Block where
  | none
  | reg (r : XReg)
  | future (h : Word)
  | runnel
  | bar (b : Nat) (phase : Nat)
  | cbarArr (b : Nat) (phase : Nat)
  | cbarWait (b : Nat) (v : BitVec 32)
  | awaitCtr (n : Nat) (v : BitVec 32)
  | sync
  | syncDone
  | get (sel lane reg : Nat)
  | got (v : Word)
  | mx
  | release (sc : Scope)
  | fences
  | pages (ps : List Nat)
  | push (upto : Nat)
  | icinv (upto : Nat)
  | flag (stamp : Nat)
  deriving DecidableEq, Repr

/-- A bound vector register: its value, whether the uniform store holds it (R211), and the number of its binding (R207). -/
structure VName where
  val : Lanes
  comp : Bool
  bind : Nat
  deriving DecidableEq, Repr

/-- A latch entry: the register a source named, whether as a 64-bit pair, the index of the instruction that loaded it, and the
value it read, low and high register (R125). -/
structure Latch where
  reg : VReg
  wide : Bool
  idx : Nat
  lo : Lanes
  hi : Lanes
  deriving DecidableEq, Repr

/-- Where a fixed-latency result goes. -/
inductive PDest where
  | reg (r : VReg) (bind : Nat)
  | pred (p : BitVec 3)
  deriving DecidableEq, Repr

/-- A fixed-latency result not yet landed (R122, R123): the cycle it lands, the lanes it writes, what a consumer reads until
then, its producer's index. -/
structure PendWrite where
  ready : Nat
  dest : PDest
  mask : Mask
  val : Lanes
  old : Lanes
  idx : Nat
  deriving DecidableEq, Repr

/-- The vector fetch position inside the head token (R27, R88): whether the token has begun, the clause, its words once a
pipe is granted, the next instruction, the run count left and walk points visited, the pipe held and the moment it was granted, and
whether the clause, once fetched, closes its block, which a continue needs to know after a save has dropped its words (R78, R90). -/
structure VPos where
  begun : Bool
  hdr : Word
  n : Nat
  idx : Nat
  code : List Word
  resumed : Bool
  left : Nat
  visited : List Nat
  point : Bool
  pipe : Option Nat
  granted : Nat
  buffer : SMap (List Word)
  last : Bool := true
  deriving DecidableEq, Repr

/-- Where an access is served (R48): a DRAM byte address under a key slot, a byte of a scratch bank (2^18 bytes a core), a
FIFO bank (core, bank), or a byte of the capability block (R434). -/
inductive Loc where
  | dram (pa : Nat) (key : Nat)
  | sram (a : Nat)
  | fifo (core bank : Nat)
  | capa (off : Nat)
  deriving DecidableEq, Repr

/-- Atomic operations (Table 73), with the FP32 addition of R258. -/
inductive AOp where
  | add | min | max | and | or | xor | exch | cas | addF32
  deriving DecidableEq, Repr

/-- What an outstanding access does; a `fence` is a fence that has issued and is not complete (R171, R262). -/
inductive AccKind where
  | load
  | turn
  | store
  | flagStore
  | atom (op : AOp) (signed : Bool)
  | red (op : AOp) (signed : Bool)
  | defer (ty : DTy)
  | qtab (enc : Bool) (h : Nat) (fpm : Word)
  | fifoPop
  | fifoPush
  | rput (desc : BitVec 32)
  | xsend (slot : Nat)
  | xrecv (slot : Nat)
  | matrix
  | zeroMask
  | fence
  deriving DecidableEq, Repr

/-- One lane of an outstanding access: its address, its place, the value it stores or adds, the compare value, whether it is
performed, whether its home has refused it (R80), for a store the moment it entered its core's write-through buffer (R320),
whether it is to be translated again before its home sees it, after a replay (R80, R329), and the moment at which a read stood at its
home and waited there for the recompute of its row (R369). -/
structure LaneAcc where
  lane : Nat
  va : BitVec 64
  loc : Loc
  data : Word
  cmp : Word
  done : Bool
  held : Option (BitVec 8 × Word)
  sent : Option Nat := none
  retry : Bool := false
  came : Option Nat := none
  deriving DecidableEq, Repr

/-- Where the value of an access goes: a control register with its extension, vector names under their bindings, or the names an
`xrecv` binds at arrival. -/
inductive ADest where
  | none
  | recv (r : VReg) (wide : Bool)
  | x (r : XReg) (bits : Nat) (signed : Bool)
  | v (r : VReg) (b0 b1 : Nat) (wide : Bool) (bits : Nat) (signed : Bool)
  | vturn (r : VReg) (b0 b1 bt : Nat) (wide : Bool)
  deriving DecidableEq, Repr

/-- An outstanding access of a group (R47, R64, R127): its issue stamp, slice, epoch (R56), path (R53), what it does, its
width in bytes, order and scope, hint, lanes, destination, wait slot, token flag count, instruction place. -/
structure Acc where
  stamp : Nat
  ctl : Bool
  epoch : Nat
  path : List (Nat × Bool)
  kind : AccKind
  w : Nat
  acq : Bool
  rel : Bool
  scope : Scope
  hint : Hint
  lanes : List LaneAcc
  dst : ADest
  mask : Mask
  wset : Nat
  fseq : Nat
  clause : BitVec 56
  index : Nat
  deriving DecidableEq, Repr

/-- An arrival at its target (R437): when it arrived, the banks it waits to bind in, the sender (core, slot, stamp), the stamp of the
paired `xrecv` (0 for an `rput`), and the names that a put has bound with their bindings, while its lanes land (R248). -/
structure Arrival where
  born : Nat
  banks : List Nat
  src : Nat × Nat × Nat
  dst : Nat
  names : List (VReg × Nat)
  deriving DecidableEq, Repr

/-- What a matrix entry does (R277). -/
inductive MOp where
  | mma (ty : MTy) (r : RndSel) (ra rb : Bool) (k : Nat)
  | mmaz (q4 : Bool) (ra rb : Bool)
  | sacc (r : RndSel)
  | tzero
  | toVector (j rb : Nat)
  | toTile (j rb : Nat)
  deriving DecidableEq, Repr

/-- An entry of the reservation table (R272): acceptance stamp, group (core, slot) and its team, operation, tile registers of the quad in
the order D, A, B, C, their sampled control registers, execute mask, CSR values, the register operand, the stamp of its issue, which
is that of the access it reports to, grants passed since it became ready. -/
structure MEntry where
  stamp : Nat
  core : Nat
  slot : Nat
  team : Nat := 0
  op : MOp
  tiles : List Nat
  cfg : List Word
  mask : Mask
  fpm : Word
  fseq : Nat
  data : Lanes
  acc : Nat
  passed : Nat
  deriving DecidableEq, Repr

/-- The state of a group (R136 to R147, R197 to R212), with its place and launch. `vnow` is the earliest cycle at which its next
vector instruction issues (R122); `stall` the moment of an allocation stall and the banks it needs (R208); `pushes` the number of
its `vmpush` (R53); `acquired` the moment of its last acquire (R61, R68); `icPending` the scopes of the `icinv` that no release fence
of their scope has followed (R84); `late` the slice that may still finish the one instruction it is in when a fault of the other halts
the group, its vector slice or not (R79); `cbarAt` the moment of its last arrival at each cluster barrier (R59, R187); `loose` the bindings of freed names whose registers an outstanding write still holds (R207); `entries` its matrix
entries withdrawn while it is halted (R286). -/
structure Group where
  live : Bool
  core : Nat
  slot : Nat
  team : Nat
  asid : Nat
  id : Ident
  x : SMap Word
  c : BitVec 8
  a : SMap (BitVec 32)
  mode : VMode
  flagsDone : Word
  flagsLate : Word
  fseq : Nat
  tseq : Nat
  tlog : List (Nat × Nat × Word)
  epochSent : Nat
  epoch : Nat
  pos : CPos
  levels : List Level
  spin : Option Spin
  pause : Nat
  block : Block
  exited : Bool
  preempted : Bool
  recs : List HaltRec
  accs : List Acc
  runnel : List Token
  masks : List Mask
  paths : List (Nat × Bool)
  v : SMap (Option VName)
  p : SMap Mask
  k : SMap (BitVec 32)
  i0 : BitVec 32
  i1 : BitVec 32
  i2 : BitVec 32
  i3 : BitVec 32
  latch : SMap (Option Latch)
  vpos : VPos
  vnow : Nat
  pend : List PendWrite
  stall : Option (Nat × List Nat)
  arrivals : List Arrival
  ageC : Nat
  ageV : Nat
  fenceD : List Nat
  pushes : Nat
  acquired : Nat
  icPending : List Scope
  loose : List (VReg × Nat)
  entries : List MEntry
  late : Option Bool := none
  cbarAt : SMap Nat := []
  deriving DecidableEq, Repr

/-! ## Teams, clusters, grids -/

/-- A team barrier: completed phases and the groups that have arrived (R186). -/
structure Barrier where
  phase : Nat
  arrived : List Nat
  deriving DecidableEq, Repr

/-- A rendezvous slot: waiting senders and receivers as (core slot, stamp), oldest first (R246). -/
structure Rdv where
  send : List (Nat × Nat)
  recv : List (Nat × Nat)
  deriving DecidableEq, Repr

/-- A resident team (R23, R36): the grid and cluster it belongs to, its core, the slots of its groups in order, its tile
registers in its quad, its floor and banks, the groups that have ended, the names they left bound, which the team keeps until it ends
(R34), its barriers and rendezvous slots, and the moment of its last placement or resumption (R425). -/
structure Team where
  grid : Nat
  cluster : Nat
  core : Nat
  row : Nat
  col : Nat
  slots : List Nat
  tiles : List Nat
  floor : Nat
  scr : BitVec 8
  fifo : BitVec 8
  ended : List Nat
  kept : List (SMap (Option VName))
  bars : SMap Barrier
  rdv : SMap Rdv
  placed : Nat := 0
  deriving DecidableEq, Repr

/-- A put in flight from a group that has ended: the place of its sender, its access (R33, R239). -/
structure Put where
  core : Nat
  slot : Nat
  acc : Acc
  deriving DecidableEq, Repr

/-- A resident cluster: its grid, its shape, its teams in row order, its four barriers; arrivals name (team, group) (R187); puts of
its ended groups that are still in flight (R33, R248). -/
structure Cluster where
  grid : Nat
  die : Nat
  cw : Nat
  ch : Nat
  teams : List Nat
  cbar : SMap (Nat × List (Nat × Nat))
  puts : List Put
  deriving DecidableEq, Repr

/-- A running grid (R34, R418): its launch command and handle, its address space, the linear index of the next cluster to
place, clusters not ended, its notification endpoint and the TAG of its root message (R425), its first recorded code, whether
it is being terminated or cancelled. -/
structure Grid where
  w : Cmd
  handle : Word
  asid : Nat
  next : Nat
  open_ : Nat
  ep : Nat
  tag : BitVec 32
  err : Option (BitVec 8)
  term : Bool
  cancelled : Bool
  deriving DecidableEq, Repr

/-! ## Engine contexts -/

/-- How a command ended (R183). -/
inductive EndStat where
  | completed
  | error (code : BitVec 8)
  | cancelled
  deriving DecidableEq, Repr

/-- An accepted command that has not left its context (R289, R352, R402, R416); `olds` is what it has overwritten so far, as it
stood before: bytes by address for the copy engine, whole rows by row for a row copy (R295, R363); `holds` is the row whose pending
copyout holds its next write (R375); `place` is the moment at which its start phase began or may first have begun (R353, R436), `slots` the
result slots of a sweep that pending copyouts hold, with what they are to hold (R374). -/
structure ECmd where
  seq : Nat
  w : Cmd
  bad : Bool
  asid : Nat
  grid : Nat
  tokenSide : Bool
  quad : Nat
  tile : Option Nat
  cfg : Word
  before : Nat
  started : Bool
  fin : Option EndStat
  elem : Nat
  susp : Option (BitVec 8)
  waiting : Option FaultRec
  cancel : Bool
  block : List Word
  entry : Option Cmd
  rows : List Nat
  res : List Nat
  registered : List Nat
  regDone : Bool
  turned : List Nat
  peers : SMap (List Byte)
  sigma : Word
  barNo : Nat
  forced : Bool
  host : Bool
  ep : Nat
  tag : BitVec 32
  pol : Nat
  olds : SMap (Option (List Byte))
  holds : Option Nat
  place : Nat := 0
  slots : List (Nat × Word) := []
  deriving DecidableEq, Repr

/-- A context of an engine (R15, R183): its counter, the last sequence number given, its commands, end statuses by sequence
number, the last 65,536 commands that have left it, whether it is pre-empted, its unstarted commands saved in place (R89). -/
structure EngCtx where
  counter : Word
  seq : Nat
  cmds : List ECmd
  ends : SMap EndStat
  past : List ECmd
  preempted : Bool
  deriving DecidableEq, Repr

/-! ## Cores and quads -/

/-- A bind record (Table 178). -/
structure Bind where
  v : Bool
  grp : Nat
  pc : BitVec 56
  lctx : Nat
  lead : Nat
  seq : Nat
  cx : Nat
  cy : Nat
  cz : Nat
  row : Nat
  col : Nat
  deriving DecidableEq, Repr

/-- A translation held by a TLB (R328): its leaf entry and level. -/
structure Leaf where
  pte : Word
  level : Nat
  deriving DecidableEq, Repr

/-- A line of L1 (R318): its line number, which is its tag, and its 128 bytes. -/
structure L1Line where
  line : Nat
  data : Lanes
  deriving DecidableEq, Repr

/-- A line of an L2 slice (R322, R325): its line number, the key slot under which it was filled, and whether it must be written back;
its bytes are those of `State.dram`. -/
structure L2Line where
  line : Nat
  key : Nat
  dirty : Bool
  deriving DecidableEq, Repr

/-- A core: bank-mode register (Table 124), hot bit (R422), slot table (R420), the slot each sequencer has granted (R141), the
slot that holds each pipe (R201), L1 lines by 256 times the bank that is their way plus their set (R318), FIFO banks and the units
waiting at them as (core, slot, stamp) (R315, R316), the clauses its instruction cache holds by the physical address of their header
(R84, R85), its TLB (R328), and whether the firmware has saved the team placed most recently on it since its last REGS_EXHAUSTED trap
(R425). -/
structure Core where
  bankMode : SMap (BitVec 8)
  hot : Bool
  bind : SMap Bind
  seqGrant : SMap (Option Nat)
  pipe : SMap (Option Nat)
  l1 : SMap (Option L1Line)
  fifo : SMap (List (BitVec 32))
  units : SMap (List (Nat × Nat × Nat))
  icache : SMap (List Word)
  tlb : SMap (Option Leaf)
  relieved : Bool := false
  deriving DecidableEq, Repr

/-- Tile states (R19). -/
inductive TileSt where
  | empty | filling | ready | draining
  deriving DecidableEq, Repr

/-- A tile register: its state, its control register (Table 79), its bytes (R270), the team it is allocated to. -/
structure Tile where
  st : TileSt
  ctl : Word
  bytes : SMap Byte
  team : Option Nat
  deriving DecidableEq, Repr

/-- A quad: tile registers, reservation table, the granted entries that have not completed (oldest first), kept operands (R275), exclusive owner and queue of
requesters as (core, slot) (R191), copy-engine contexts, the TLB of its copy engine (R328). -/
structure Quad where
  tiles : SMap Tile
  table : List MEntry
  running : List MEntry
  keepA : Option Nat
  keepB : Option Nat
  owner : Option (Nat × Nat)
  queue : List (Nat × Nat)
  copy : SMap EngCtx
  tlb : SMap (Option Leaf)
  deriving DecidableEq, Repr

/-! ## Basins, banks, rows -/

/-- An entry of a deferred queue (R347). -/
structure Defer where
  pa : Nat
  ty : DTy
  val : Word
  deriving DecidableEq, Repr

/-- A bank: refresh pointer (R11) and deferred queue (R347). -/
structure Bank where
  ptr : Nat
  deferred : List Defer
  deriving DecidableEq, Repr

/-- Names a command of a basin: package basin number, context, sequence number. -/
structure CmdRef where
  basin : Nat
  ctx : Nat
  seq : Nat
  deriving DecidableEq, Repr

/-- A weir function with its parameters (Table 131). -/
structure WeirFn where
  fn : Nat
  fmt : Nat
  p0 : BitVec 32
  p1 : BitVec 32
  deriving DecidableEq, Repr

/-- A derivation rule at its derived row (Table 142): function, format, base rows. -/
structure DRule where
  fn : Nat
  fmt : Nat
  bases : List Nat
  deriving DecidableEq, Repr

/-- What the home holds for a row (R337, R364 to R369): the pending sweep function, the pending copyout, the derivation rule
when it is a derived row, the derived rows that depend on it, the stale mark, the bases a recompute in progress has read, with the
sectors of each that were poisoned then, the stamp at which a new mark reached it during that recompute, the stamp before which a read may be served although the row is
stale again (R369), the bucket regions that count it (R409) as (bucket, offset, length). -/
structure Row where
  pending : Option (CmdRef × WeirFn)
  copyout : Option CmdRef
  rule : Option DRule
  deps : List Nat
  stale : Bool
  part : List (List Byte)
  taint : List (List Nat) := []
  remark : Option Nat
  okBefore : Nat
  buckets : List (Nat × Nat × Nat)
  deriving DecidableEq, Repr

/-- A captured row in a basin's drain queue (R375): the snapshot, S, the indices of the row in the region, its bytes. -/
structure Captured where
  snap : CmdRef
  target : Nat
  s : Word
  indices : List Nat
  data : List Byte
  deriving DecidableEq, Repr

/-- A basin: four contexts and the snapshot drain queue. -/
structure Basin where
  ctx : SMap EngCtx
  drain : List Captured
  deriving DecidableEq, Repr

/-- An entry of the page-owner table (Table 159). -/
structure Owner where
  token : Bool
  gen : Word
  deriving DecidableEq, Repr

/-- An entry that has not reached a basin's copy: what the copy still holds, and the stamp of the handoff or reclaim that changed it
(R386, R389, R390). -/
structure Lag where
  old : Owner
  by_ : Nat
  deriving DecidableEq, Repr

/-! ## Collective engine and management core -/

/-- A communicator (R404), with the BAR steps started by each rank (R411). -/
structure Comm where
  eps : List Nat
  rank : Nat
  ports : BitVec 8
  bars : SMap Nat
  deriving DecidableEq, Repr

/-- A drain target (R412). -/
structure Target where
  endpoint : Nat
  ports : BitVec 8
  base : Nat
  len : Nat
  key : Nat
  deriving DecidableEq, Repr

/-- A host-visible window (R413): the grid that may publish it, its range, the address of its version word, its version. -/
structure Window where
  grid : Word
  base : Word
  len : Nat
  vaddr : Nat
  version : Word
  asid : Nat
  deriving DecidableEq, Repr

/-- An armed gradient bucket (R408): its threshold, the arm's context and sequence number, the armed command. -/
structure Bucket where
  t : Nat
  ctx : Nat
  seq : Nat
  cmd : Cmd
  deriving DecidableEq, Repr

/-- The collective engine (R402 to R414); `counts` are the 64 bucket counters of 40 bits (R408). -/
structure Coll where
  ctx : SMap EngCtx
  sigma : Word
  counts : SMap (BitVec 40)
  buckets : SMap (Option Bucket)
  comms : SMap (Option Comm)
  targets : SMap (Option Target)
  windows : SMap (Option Window)
  deriving DecidableEq, Repr

/-- What the device sends to the world: replies and notifications (R415, R425), attestation reports (R433), read data (R413),
drain records (R412), collective data (R405). -/
inductive Sent where
  | reply (ep : Nat) (ty : BitVec 8) (tag : BitVec 32) (status : Word)
  | notify (ep : Nat) (tag : BitVec 32) (body : List Word)
  | report (bytes : List Byte)
  | rma (bytes : List Byte)
  | drain (target : Nat) (offset : Nat) (bytes : List Byte)
  | peer (comm : Nat) (rank : Nat) (tag : BitVec 32) (bytes : List Byte)
  | image (status : BitVec 8)
  deriving DecidableEq, Repr

/-- A running image (R427). -/
structure Image where
  ver : BitVec 32
  hash : BitVec 256
  entry : Nat
  deriving DecidableEq, Repr

/-- A saved team (R88): the team, its groups, its tiles, the contents of its banks by byte within the core and by bank, the FIFO
units and matrix entries withdrawn, whether a group owns the matrix engine, and its places in the ownership queue. -/
structure SavedTeam where
  id : Nat
  team : Team
  groups : List Group
  tiles : List Tile
  sram : SMap Byte
  fifo : SMap (List (BitVec 32))
  units : SMap (List (Nat × Nat × Nat))
  entries : List MEntry
  owner : Option Nat
  queue : List (Nat × Nat)
  deriving DecidableEq, Repr

/-- A saved cluster: its number, the cluster and its teams in order (R87). -/
structure SavedCluster where
  id : Nat
  cluster : Cluster
  teams : List SavedTeam
  deriving DecidableEq, Repr

/-- The iterations of a token die (R394, R395): the number of the next, the grid of the last, its waiting prompts oldest first, and the sequences ready for
decode in the order in which they entered it. -/
structure Serving where
  iter : Word
  grid : Nat
  waiting : List Sequence
  decoding : List Sequence
  deriving DecidableEq, Repr

/-- A fault record that the management core has still to take although its group or command is no more (R73): the record, and the endpoint
and TAG of the notification that goes out with it, when the host is asked about it (R425). -/
structure DueRec where
  fr : FaultRec
  ask : Option (Nat × BitVec 32)
  deriving DecidableEq, Repr

/-- One write of the firmware to a mapping: a physical address, the key slot, the bytes. -/
structure MapWrite where
  pa : Nat
  key : Nat
  bytes : List Byte
  deriving DecidableEq, Repr

/-- A mapping that the host or the firmware is going to make: its writes, of page-table entries and of a page's bytes, and whether it changes
or removes a valid mapping, so that an invalidation of the TLBs goes with it (R308, R329, notes/assumptions/48.md). -/
structure Mapping where
  changes : Bool
  writes : List MapWrite
  deriving DecidableEq, Repr

/-- The management core (R416 to R435): bring-up, the sealed store with its identity key and its fuse map, what comes of the trainings
to come (R431, R435), the units absent now, address
spaces, fault queue and the records of what is no more that it has still to take (R73), the mappings to come and whether an invalidation of the
TLBs is in progress (R308, R329), saved teams, key slots, launch contexts, connected peers,
the iterations of the token dies, what was sent. -/
structure Mgmt where
  state : BitVec 8
  bootPort : Option Nat
  trying : Nat
  image : Option Image
  minVersion : BitVec 32
  keyHash : BitVec 256
  identity : BitVec 256
  fused : Units
  trainings : List Training
  absentDies : List Nat
  absentPorts : List Nat
  absentCores : List Nat
  absentQuads : List Nat
  absentBasins : List Nat
  setWin0 : Nat × Nat
  setWin1 : Nat × Nat
  win0 : Nat × Nat
  win1 : Nat × Nat
  cmdEp : Word
  attEp : Word
  softErrors : Word
  spaces : SMap (Option Nat)
  capaMap : SMap (BitVec 56)
  faultQueue : List FaultRec
  faultCap : Nat
  recsDue : List DueRec
  drainCap : Nat
  outbox : List Sent
  saved : List SavedCluster
  keySlots : SMap (Option (BitVec 512))
  launch : SMap EngCtx
  peers : List Nat
  serving : SMap Serving
  mappings : List Mapping := []
  changing : Bool := false
  deriving DecidableEq, Repr

/-! ## The agenda -/

/-- What happens next: the next instruction of a granted control or vector clause, or an event. -/
inductive Act where
  | issueControl
  | issueVector
  | event (e : Instr)
  deriving DecidableEq, Repr

/-- One move: the group brought into focus, by core and slot, and what happens. -/
structure Move where
  focus : Option (Nat × Nat)
  act : Act
  deriving DecidableEq, Repr

/-- The state of the machine. -/
structure State where
  g : Group
  others : List Group
  teams : SMap Team
  clusters : SMap Cluster
  grids : SMap (Option Grid)
  cores : SMap Core
  quads : SMap Quad
  basins : SMap Basin
  banks : SMap Bank
  rows : SMap Row
  dram : List Host.Cell
  lineKey : SMap Nat
  l2 : SMap (Option L2Line)
  poison : SMap Bool
  sram : List Host.Cell
  owners : SMap Owner
  lagging : SMap (Option Lag)
  tlb : SMap (Option Leaf)
  host : List Host.Cell
  coll : Coll
  mgmt : Mgmt
  agenda : List Move
  fresh : Nat
  stamp : Nat
  deriving DecidableEq, Repr

/-! ## Reset -/

/-- Table 14 before any launch (notes/assumptions/4.md). -/
def Ident.reset : Ident :=
  { grp := 0, ngrp := 1, nlane := 32, row := 0, col := 0, ch := 1, cw := 1, cluX := 0, cluY := 0, cluZ := 0, gX := 1,
    gY := 1, gZ := 1, core := 0, parm := 0, capa := 0 }

/-- The reset values of Table 58. -/
def VMode.reset : VMode := { fpm := 1, qtab := 0, chk := 0, part := 5 }

/-- No clause, nothing fetched. -/
def CPos.reset : CPos := { hdr := 0, n := 0, idx := 0, code := [] }

/-- A vector slice that waits on an empty runnel (R32). -/
def VPos.reset : VPos :=
  { begun := false, hdr := 0, n := 0, idx := 0, code := [], resumed := false, left := 0, visited := [], point := false,
    pipe := none, granted := 0, buffer := [] }

/-- A group at its first issue (Table 17); fields the launch sets stand at the values of notes/assumptions/4.md. -/
def Group.reset : Group :=
  { live := false, core := 0, slot := 0, team := 0, asid := 0, id := Ident.reset, x := [], c := 0x80#8, a := [],
    mode := VMode.reset, flagsDone := 0, flagsLate := 0, fseq := 0, tseq := 0, tlog := [], epochSent := 0, epoch := 0,
    pos := CPos.reset, levels := [], spin := none, pause := 0, block := .none, exited := false, preempted := false,
    recs := [], accs := [], runnel := [], masks := [0xFFFF_FFFF#32], paths := [], v := [], p := [], k := [], i0 := 0,
    i1 := 0, i2 := 0, i3 := 0, latch := [], vpos := VPos.reset, vnow := 0, pend := [], stall := none, arrivals := [],
    ageC := 0, ageV := 0, fenceD := [], pushes := 0, acquired := 0, icPending := [], loose := [],
    entries := [] }

/-- A barrier before any arrival (R186). -/
def Barrier.reset : Barrier := { phase := 0, arrived := [] }
/-- An empty rendezvous slot (R246). -/
def Rdv.reset : Rdv := { send := [], recv := [] }
/-- No team. -/
def Team.reset : Team :=
  { grid := 0, cluster := 0, core := 0, row := 0, col := 0, slots := [], tiles := [], floor := 0, scr := 0, fifo := 0,
    ended := [], kept := [], bars := [], rdv := [] }
/-- No cluster. -/
def Cluster.reset : Cluster := { grid := 0, die := 0, cw := 1, ch := 1, teams := [], cbar := [], puts := [] }
/-- A context after its reset: counter zero (R15). -/
def EngCtx.reset : EngCtx := { counter := 0, seq := 0, cmds := [], ends := [], past := [], preempted := false }
/-- An invalid bind record (R420). -/
def Bind.reset : Bind :=
  { v := false, grp := 0, pc := 0, lctx := 0, lead := 0, seq := 0, cx := 0, cy := 0, cz := 0, row := 0, col := 0 }
/-- A core after power-up: every bank in cache mode (Table 124), nothing cached, no group. -/
def Core.reset : Core :=
  { bankMode := [], hot := false, bind := [], seqGrant := [], pipe := [], l1 := [], fifo := [], units := [], icache := [], tlb := [] }
/-- A tile register that belongs to no team: zero, empty, control register at its allocation value (Table 79). -/
def Tile.reset : Tile := { st := .empty, ctl := 0x0000_0080_0020_0001, bytes := [], team := none }
/-- A quad after power-up. -/
def Quad.reset : Quad :=
  { tiles := [], table := [], running := [], keepA := none, keepB := none, owner := none, queue := [], copy := [], tlb := [] }
/-- A bank: refresh pointer at row 0 (notes/assumptions/5.md), no deferred entry. -/
def Bank.reset : Bank := { ptr := 0, deferred := [] }
/-- A plain row with nothing pending. -/
def Row.reset : Row :=
  { pending := none, copyout := none, rule := none, deps := [], stale := false, part := [], remark := none, okBefore := 0,
    buckets := [] }
/-- A basin after power-up. -/
def Basin.reset : Basin := { ctx := [], drain := [] }
/-- A page owned by the prompt side, generation 0 (Table 159). -/
def Owner.reset : Owner := { token := false, gen := 0 }
/-- The collective engine at power-up: step number 0 (R411), nothing configured. -/
def Coll.reset : Coll := { ctx := [], sigma := 0, counts := [], buckets := [], comms := [], targets := [], windows := [] }

/-- A token die that has run no iteration. -/
def Serving.reset : Serving := { iter := 0, grid := 0, waiting := [], decoding := [] }

/-- The management core at power-up: state 1 of Table 181; the sealed store as notes/assumptions/2.md says; capacities as
notes/assumptions/3.md says. -/
def Mgmt.reset : Mgmt :=
  { state := 1, bootPort := none, trying := 0, image := none, minVersion := 0, keyHash := 0, identity := 1
    fused := Units.none, trainings := [], absentDies := [],
    absentPorts := [], absentCores := [], absentQuads := [], absentBasins := [], setWin0 := (0, 0), setWin1 := (0, 0), win0 := (0, 0), win1 := (0, 0), cmdEp := 0,
    attEp := 0, softErrors := 0, spaces := [], capaMap := [], faultQueue := [], faultCap := 64, recsDue := [], drainCap := 16,
    outbox := [], saved := [], keySlots := [], launch := [], peers := [], serving := [] }

/-- The machine right after power-up (R426): no grid is resident, memory lists nothing, the agenda is empty
(notes/assumptions/6.md). -/
def State.reset : State :=
  { g := Group.reset, others := [], teams := [], clusters := [], grids := [], cores := [], quads := [], basins := [],
    banks := [], rows := [], dram := [], lineKey := [], l2 := [], poison := [], sram := [], owners := [], lagging := [], tlb := [],
    host := [], coll := Coll.reset, mgmt := Mgmt.reset, agenda := [], fresh := 0, stamp := 0 }

end Sys2Proof.Machine
end

