-- ==== Sys2Proof/Machine/Lanes.lean ====
section
/-! DEFINITION. Vector registers as lanes and names (R197, R198, R206, R207), the landing of fixed-latency results (R122, R123),
and the position of the vector slice in its clause, block and token (R43, R44, R113). -/
namespace Sys2Proof.Machine

/-! ## Lanes -/

/-- Lane n of a register. -/
def lane (v : Lanes) (n : Nat) : Lane := v.extractLsb' (32 * n) 32

/-- A register from its lanes. -/
def mkLanes (f : Nat → Lane) : Lanes :=
  (List.range 32).foldl (fun (v : Lanes) n => v ||| ((f n).zeroExtend 1024 <<< (32 * n))) 0

/-- A mask from a test of lanes. -/
def mkMask (f : Nat → Bool) : Mask := (List.range 32).foldl (fun (m : Mask) n => if f n then m ||| (1#32 <<< n) else m) 0

/-- Active lanes take the new value, the others keep the old (R4). -/
def blend (m : Mask) (new old : Lanes) : Lanes := mkLanes fun n => if m.getLsbD n then lane new n else lane old n

/-- Active lanes of a predicate take the new bits (R198). -/
def blendMask (m new old : Mask) : Mask := (new &&& m) ||| (old &&& ~~~ m)

/-- A uniform value in every lane. -/
def splat (x : Lane) : Lanes := mkLanes fun _ => x

/-- The 32 lanes are equal (R211). -/
def uniform (v : Lanes) : Bool := v == splat (lane v 0)

/-! ## Reading -/

/-- The name, when it is bound. -/
def Group.name (g : Group) (r : VReg) : Option VName := smGet none g.v r.toNat

/-- A name reads as its value; unwritten and freed names read as zero (R178, R126). -/
def Group.readV (g : Group) (r : VReg) : Lanes := match g.name r with | some n => n.val | none => 0

/-- p0 to p7; p7 reads as ones (R198). -/
def Group.readP (g : Group) (p : BitVec 3) : Mask := if p = 7 then 0xFFFF_FFFF else smGet 0 g.p p.toNat

/-- Writes the active lanes of a predicate; a write to p7 is discarded (R198). -/
def Group.writeP (g : Group) (p : BitVec 3) (m new : Mask) : Group :=
  if p = 7 then g else { g with p := smPut 0 g.p p.toNat (blendMask m new (g.readP p)) }

/-- Sets a name. -/
def Group.setName (g : Group) (r : VReg) (n : Option VName) : Group := { g with v := smPut none g.v r.toNat n }

/-- The names a vector access writes, with the binding each write lands in. -/
def ADest.names : ADest → List (VReg × Nat)
  | .v r b0 b1 wide _ _ => if wide then [(r, b0), (r + 1, b1)] else [(r, b0)]
  | .vturn r b0 b1 bt wide => if wide then [(r, b0), (r + 1, b1), (r + 2, bt)] else [(r, b0), (r + 1, bt)]
  | .none | .x _ _ _ | .recv _ _ => []

/-- A write to a name under a binding is outstanding (R207). -/
def Group.awaits (g : Group) (n : VReg × Nat) : Bool :=
  (g.pend.any fun w => w.dest == .reg n.1 n.2) || (g.accs.any fun a => a.dst.names.contains n) ||
    g.arrivals.any fun a => a.names.contains n

/-- Frees a name (R126, R206); a register that an outstanding write was bound to stays held until the write lands (R207). -/
def Group.free (g : Group) (r : VReg) : Group :=
  let keep := match g.name r with
    | some n => if !n.comp && g.awaits (r, n.bind) then [(r, n.bind)] else []
    | none => []
  { g.setName r none with loose := g.loose.filter g.awaits ++ keep }

/-- The binding a name has now. -/
def Group.bindOf (g : Group) (r : VReg) : Option Nat := (g.name r).map (·.bind)

/-- A result lands in the binding it was issued to; a name freed meanwhile is not written (R207). A result of unequal or of some lanes
expands a name that the uniform store holds, into the register that the outstanding write has kept (R211, notes/assumptions/63.md). -/
def Group.land (g : Group) (r : VReg) (bind : Nat) (m : Mask) (v : Lanes) : Group :=
  match g.name r with
  | some n =>
    if n.bind = bind then
      g.setName r (some { n with val := blend m v n.val, comp := n.comp && m == 0xFFFF_FFFF && uniform v })
    else g
  | none => g

/-! ## Fixed-latency results (R122, R123) -/

/-- A later result for the same binding that the uniform store has room for keeps the name there (R211). -/
def Group.compAfter (g : Group) (w : PendWrite) : Bool :=
  g.pend.any fun x => x.dest == w.dest && w.ready < x.ready && x.mask == 0xFFFF_FFFF && uniform x.val

/-- Lands one pending result. -/
def landOne (g : Group) (w : PendWrite) : Group :=
  match w.dest with
  | .reg r k =>
    let h := g.land r k w.mask w.val
    if g.compAfter w && g.bindOf r == some k then
      h.setName r ((h.name r).map fun n => { n with comp := (g.name r).any (·.comp) })
    else h
  | .pred p => g.writeP p w.mask (w.val.truncate 32)

/-- Inserts a result in landing order. -/
def insertPend (w : PendWrite) : List PendWrite → List PendWrite
  | [] => [w]
  | x :: xs => if w.ready < x.ready then w :: x :: xs else x :: insertPend w xs

/-- Lands every result due by a cycle (R122). -/
def Group.landBy (g : Group) (t : Nat) : Group :=
  { (g.pend.filter fun w => w.ready ≤ t).foldl landOne g with pend := g.pend.filter fun w => t < w.ready }

/-- Waits until every fixed-latency result is written (R78, R123, R203). -/
def Group.landAll (g : Group) : Group :=
  { g.pend.foldl landOne g with pend := [], vnow := g.pend.foldl (fun n w => max n w.ready) g.vnow }

/-- The last result pending for a name under its present binding. -/
def Group.pendFor (g : Group) (r : VReg) : Option PendWrite :=
  (g.pend.filter fun w => match w.dest with | .reg q k => q == r && g.bindOf r == some k | .pred _ => false).getLast?

/-- The last result pending for a predicate. -/
def Group.pendP (g : Group) (p : BitVec 3) : Option PendWrite :=
  (g.pend.filter fun w => match w.dest with | .pred q => q == p | .reg _ _ => false).getLast?

/-- What a consumer reads from a name: until a pending result's latency has passed, the value as it stood when its producer
issued (R123). -/
def Group.seenV (g : Group) (r : VReg) : Lanes := match g.pendFor r with | some w => w.old | none => g.readV r

/-- What a consumer reads from a predicate (R122, R123, R198). -/
def Group.seenP (g : Group) (p : BitVec 3) : Mask :=
  if p = 7 then 0xFFFF_FFFF else match g.pendP p with | some w => w.old.truncate 32 | none => g.readP p

/-! ## The position in a token -/

/-- The mode values the head token sampled (R100, R140). -/
def Group.tokMode (g : Group) : VMode := (g.runnel.head?.map (·.mode)).getD g.mode

/-- The first clause of the head token's block, for the next iteration or point. -/
def VPos.restart (p : VPos) (blk : Word) : VPos :=
  { p with hdr := blk, n := 0, idx := 0, code := [], resumed := false, pipe := none, last := true }

/-- The head token finishes: every fixed-latency result is written, and the runnel gives it up (R28, R123). -/
def Group.tokenDone (g : Group) : Group :=
  { g.landAll with runnel := g.runnel.tail, vpos := VPos.reset, latch := [] }

/-- One iteration or point of the head token has run its block (R43, R44). -/
def Group.blockDone (g : Group) : Group :=
  match g.runnel.head?.map fun t => t.kind with
  | some (TokKind.run blk _) =>
    if g.vpos.left ≤ 1 then g.tokenDone
    else { g with i0 := g.i0 + 1, vpos := { g.vpos.restart (blk.zeroExtend 64) with left := g.vpos.left - 1 } }
  | some (TokKind.walk blk e0 e1 e2) =>
    if e0 * e1 * e2 ≤ g.vpos.visited.length then g.tokenDone
    else { g with vpos := { g.vpos.restart (blk.zeroExtend 64) with point := false } }
  | _ => g.tokenDone

/-- The current clause's header closes its block: that of its words, or, when a save has dropped them, what it was known to say
(R78, R90). -/
def Group.blkEnd (g : Group) : Bool :=
  match g.vpos.code.head?.bind decodeHeader with
  | some h => h.blkEnd
  | none => g.vpos.last

/-- The current vector clause ends: the following clause in memory, or the end of the block (R113). Latches do not outlive it
(R125). -/
def Group.clauseDone (g : Group) : Group :=
  let h := { g with latch := [] }
  if g.blkEnd then h.blockDone
  else { h with vpos := h.vpos.restart (h.vpos.hdr + 8 * (BitVec.ofNat 64 h.vpos.n + 2)) }

/-- The vector slice goes past the current instruction (R78, R113). -/
def Group.vecNext (g : Group) : Group :=
  if g.vpos.idx < g.vpos.n then { g with vpos := { g.vpos with idx := g.vpos.idx + 1, resumed := true } } else g.clauseDone

end Sys2Proof.Machine
end

