-- ==== Sys2Proof/Machine/Ops.lean ====
section
/-! DEFINITION. The named operations that every meaning is written over: control registers, guards, the advance of the control
slice, blocking, taking a fault and resolving it, program order and the conditions of a release. -/
namespace Sys2Proof.Machine

/-- What a step answers. -/
abbrev Out := Host.Outcome State Fault Refusal

/-- Scope codes of Table 20. -/
def scopeCode : Scope → Nat
  | .grp => 0 | .team => 1 | .clu => 2 | .die => 3 | .pkg => 4 | .sys => 5

/-! ## Fault codes (Table 31) -/

def cClauseIllegal : BitVec 8 := 0x01
def cOpIllegal : BitVec 8 := 0x02
def cTargetBad : BitVec 8 := 0x03
def cStallShort : BitVec 8 := 0x04
def cReadUninit : BitVec 8 := 0x05
def cRegsExhausted : BitVec 8 := 0x06
def cAlign : BitVec 8 := 0x07
def cXlateAbsent : BitVec 8 := 0x08
def cXlatePerm : BitVec 8 := 0x09
def cNotOwner : BitVec 8 := 0x0A
def cDerivedWrite : BitVec 8 := 0x0B
def cDeriveCycle : BitVec 8 := 0x0C
def cDeriveDepth : BitVec 8 := 0x0D
def cSweepEncrypted : BitVec 8 := 0x0E
def cSweepOverlap : BitVec 8 := 0x0F
def cTileState : BitVec 8 := 0x10
def cMatrixOwner : BitVec 8 := 0x11
def cRunnelOrder : BitVec 8 := 0x12
def cFutureCancelled : BitVec 8 := 0x13
def cMemUncorrectable : BitVec 8 := 0x14
def cEngineCommand : BitVec 8 := 0x15
def cSoftware : BitVec 8 := 0x16

/-! ## Dies, cores and quads (Tables 4 and 5) -/

/-- The die of a package core number: 1 P0, 2 P1, 3 T0, 4 T1 (Table 5). -/
def dieOfCore (c : Nat) : Nat := if c < 320 then 1 else if c < 640 then 2 else if c < 832 then 3 else 4

/-- The die of a package basin number (Table 5). -/
def dieOfBasin (b : Nat) : Nat := if b < 32 then 1 else if b < 64 then 2 else if b < 128 then 3 else 4

/-- A die's first core, mesh columns and rows, first quad, first basin and basin count (Tables 4 and 5). -/
def dieFirstCore (d : Nat) : Nat := if d ≤ 1 then 0 else if d = 2 then 320 else if d = 3 then 640 else 832
def dieCols (d : Nat) : Nat := if d ≤ 2 then 16 else 12
def dieRows (d : Nat) : Nat := if d ≤ 2 then 20 else 16
def dieFirstQuad (d : Nat) : Nat := if d ≤ 1 then 0 else if d = 2 then 80 else if d = 3 then 160 else 208
def dieFirstBasin (d : Nat) : Nat := if d ≤ 1 then 0 else if d = 2 then 32 else if d = 3 then 64 else 128
def dieBasins (d : Nat) : Nat := if d ≤ 2 then 32 else 64

/-- The package quad of a core (R8, R9). -/
def quadOfCore (c : Nat) : Nat :=
  let d := dieOfCore c
  let i := c - dieFirstCore d
  dieFirstQuad d + i / dieCols d / 2 * (dieCols d / 2) + i % dieCols d / 2

/-- The package core at a mesh column and row of a die (R8). -/
def coreAt (d x y : Nat) : Nat := dieFirstCore d + y * dieCols d + x

/-! ## Control registers -/

/-- Reads x0 to x63; x0 reads as zero (R136). -/
def Group.readX (g : Group) (r : XReg) : Word := if r = 0 then 0 else smGet 0 g.x r.toNat

/-- Writes x0 to x63; a write to x0 is discarded (R136). -/
def Group.writeX (g : Group) (r : XReg) (v : Word) : Group := if r = 0 then g else { g with x := smPut 0 g.x r.toNat v }

/-- Reads c0 to c7; c7 reads as true (R137). -/
def Group.readC (g : Group) (i : BitVec 3) : Bool := i == 7 || g.c.getLsbD i.toNat

/-- Writes c0 to c7; a write to c7 is discarded (R137). -/
def Group.writeC (g : Group) (i : BitVec 3) (b : Bool) : Group :=
  if i = 7 then g
  else { g with c := if b then g.c ||| (1#8 <<< i.toNat) else g.c &&& ~~~ (1#8 <<< i.toNat) }

/-- The guard of a control instruction (R121). -/
def Group.guard (g : Group) (cg : CGuard) : Bool := if cg.cgn then !g.readC cg.cg else g.readC cg.cg

/-- The address of the current control instruction's word: pc of R158. -/
def Group.pc (g : Group) : Word := g.pos.hdr + 8 * (BitVec.ofNat 64 g.pos.idx + 1)

/-- Sign extension of a 32-bit immediate. -/
def sext32 (imm : BitVec 32) : Word := imm.signExtend 64

/-- Bits [55:0] of an address. -/
def lo56 (a : Word) : BitVec 56 := a.truncate 56

/-- An address whose bits [63:56] are not zero (Table 97). -/
def high8 (a : Word) : Bool := a >>> 56 != 0

/-! ## Outstanding accesses -/

/-- The place lies in DRAM. -/
def Loc.isDram : Loc → Bool
  | .dram _ _ => true
  | _ => false

/-- A lane still to be performed that no home holds. -/
def LaneAcc.open_ (l : LaneAcc) : Bool := !l.done && l.held.isNone

/-- A store lane that stands in its core's write-through buffer (R320). -/
def LaneAcc.buffered (l : LaneAcc) : Bool := l.open_ && l.sent.isSome

/-- A store: its DRAM lanes go through the core's write-through buffer (R319, R320). -/
def AccKind.isStore : AccKind → Bool
  | .store | .flagStore | .fifoPush => true
  | _ => false

/-- The access still has a lane to perform that no home holds; a fence is outstanding until it completes. -/
def Acc.outstanding (a : Acc) : Bool := a.kind == .fence || a.lanes.any LaneAcc.open_

/-- A home holds a lane of the access (R80, R265). -/
def Acc.holdsLane (a : Acc) : Bool := a.lanes.any fun l => !l.done && l.held.isSome

/-- Homes have answered every lane of the access, and hold some (R80, R265). -/
def Acc.isHeld (a : Acc) : Bool := !a.outstanding && a.holdsLane

/-- The access belongs to the memory model or to a FIFO bank (R48). -/
def Acc.isMem (a : Acc) : Bool :=
  match a.kind with
  | .load | .turn | .store | .flagStore | .atom _ _ | .red _ _ | .defer _ | .qtab _ _ _ | .fifoPop | .fifoPush => true
  | .rput _ | .xsend _ | .xrecv _ | .matrix | .zeroMask | .fence => false

/-- The access is one of the memory model, or a fence. -/
def Acc.isMemOrFence (a : Acc) : Bool := a.isMem || a.kind == .fence

/-- The access reads memory. -/
def Acc.isRead (a : Acc) : Bool :=
  match a.kind with
  | .load | .turn | .atom _ _ | .red _ _ | .qtab _ _ _ | .fifoPop => true
  | _ => false

/-- Two places in a slice's path history lie on sibling paths of one push (R53). -/
def siblings (p q : List (Nat × Bool)) : Bool := p.any fun (i, b) => q.any fun (j, c) => i == j && b != c

/-- An earlier access of the slice in program order (R53). -/
def Acc.precedes (x a : Acc) : Bool := x.ctl == a.ctl && x.stamp < a.stamp && !siblings x.path a.path

/-- A release or an acquire covers an earlier access of its slice; one of the control slice also the vector accesses that a vsync or
vget orders before it (R56, R57). -/
def Acc.coveredBy (x a : Acc) : Bool := x.isMem && if a.ctl && !x.ctl then x.epoch < a.epoch else x.precedes a

/-- The path of the control slice through its open pushes (R53, R146). -/
def Group.ctlPath (g : Group) : List (Nat × Bool) := g.levels.map fun l => (l.id, l.path2)

/-- An access for the next instruction of a slice, which gives what it covers. -/
def Group.probe (g : Group) (ctl : Bool) (sc : Scope) : Acc :=
  { stamp := g.accs.foldl (fun n a => max n (a.stamp + 1)) 0, ctl := ctl
    epoch := if ctl then g.epoch else (g.runnel.head?.map (·.epoch)).getD 0
    path := if ctl then g.ctlPath else g.paths, kind := .fence, w := 0, acq := false, rel := true, scope := sc, hint := .dflt
    lanes := [], dst := .none, mask := 0, wset := 0, fseq := 0
    clause := lo56 (if ctl then g.pos.hdr else g.vpos.hdr), index := if ctl then g.pos.idx else g.vpos.idx }

/-- A control register whose load or atomic has not returned (R141). -/
def Group.busy (g : Group) (r : XReg) : Bool :=
  r != 0 && g.accs.any fun a => match a.dst with | .x d _ _ => d == r | _ => false

/-! ## Grants and the advance of the control slice -/

/-- The group gives up its sequencer grant (R141). -/
def endGrant (s : State) : State :=
  { s with
    cores := smUpd Core.reset s.cores s.g.core fun c =>
      if smGet none c.seqGrant (s.g.slot % 2) = some s.g.slot then
        { c with seqGrant := smPut none c.seqGrant (s.g.slot % 2) none }
      else c }

/-- The group gives up its vector pipe (R203); its age counts from that grant (R424). -/
def endPipe (s : State) : State :=
  match s.g.vpos.pipe with
  | none => s
  | some p =>
    { s with
      g := { s.g with ageV := s.g.vpos.granted, vpos := { s.g.vpos with pipe := none, resumed := s.g.vpos.idx != 0 } }
      cores := smUpd Core.reset s.cores s.g.core fun c => { c with pipe := smPut none c.pipe p none } }

/-- The position after the current control instruction: the next instruction of the clause, or the following clause (R113). -/
def CPos.next (p : CPos) : CPos :=
  if p.idx < p.n then { p with idx := p.idx + 1 }
  else { hdr := p.hdr + 8 * (BitVec.ofNat 64 p.n + 2), n := 0, idx := 0, code := [] }

/-- The control instruction completes; the grant ends with the clause (R113, R141). -/
def ctlAdvance (s : State) : State :=
  let s' := { s with g := { s.g with pos := s.g.pos.next, block := .none } }
  if s.g.pos.idx < s.g.pos.n then s' else endGrant s'

/-- Control continues at a clause header; the clause ends (R113, R163). -/
def ctlJump (target : Word) (s : State) : State :=
  endGrant { s with g := { s.g with pos := { hdr := target, n := 0, idx := 0, code := [] }, block := .none } }

/-- The control slice blocks at the current instruction and gives up its grant (R141). -/
def ctlBlock (b : Block) (s : State) : State := endGrant { s with g := { s.g with block := b } }

/-- Replaces the group in focus. -/
def State.withG (s : State) (g : Group) : State := { s with g := g }

/-- The group of a core and slot comes into focus; none when no resident group stands there. -/
def focusOn (f : Option (Nat × Nat)) (s : State) : Option State :=
  match f with
  | none => some s
  | some (c, sl) =>
    if s.g.live && s.g.core == c && s.g.slot == sl then some s
    else match s.others.find? fun h => h.core == c && h.slot == sl with
      | none => none
      | some h =>
        let rest := s.others.filter fun o => !(o.core == c && o.slot == sl)
        some { s with g := h, others := if s.g.live then s.g :: rest else rest }

/-- Works on another group, and brings the present one back into focus. -/
def atGroup (core slot : Nat) (f : State → Option State) (s : State) : Option State :=
  ((focusOn (some (core, slot)) s).bind f).map fun u => (focusOn (some (s.g.core, s.g.slot)) u).getD u

/-- The resident group of a core and slot. -/
def State.groupAt (s : State) (core slot : Nat) : Option Group :=
  (s.g :: s.others).find? fun h => h.live && h.core == core && h.slot == slot

/-- An access of the group in focus leaves it. -/
def Group.dropAcc (g : Group) (stamp : Nat) : Group := { g with accs := g.accs.filter fun a => a.stamp != stamp }

/-! ## Taking a fault and resolving it (R73 to R81) -/

/-- The FIFO banks an access reaches, as (core, bank). -/
def Acc.fifos (a : Acc) : List (Nat × Nat) :=
  (a.lanes.filterMap fun l => match l.loc with | .fifo c b => some (c, b) | _ => none).eraseDups

/-- The rendezvous slot an access waits at (R246). -/
def Acc.rdvSlot (a : Acc) : Option Nat :=
  match a.kind with
  | .xsend k | .xrecv k => some k
  | _ => none

/-- The matrix entry belongs to a group: an entry of an earlier group in the same slot does not. -/
def MEntry.of (m : MEntry) (g : Group) : Bool := m.core == g.core && m.slot == g.slot && m.team == g.team

/-- The waiting halves of rendezvous, FIFO units and matrix entries of a halting group are withdrawn, for the accesses that `which` names
(Table 34, R79, R286, R317). -/
def withdraw (which : Acc → Bool) (s : State) : State :=
  let gone := (s.g.accs.filter which).map (·.stamp)
  let mine := fun (m : MEntry) => m.of s.g && gone.contains m.acc
  let others := fun (u : Nat × Nat × Nat) => !(u.1 == s.g.core && u.2.1 == s.g.slot && gone.contains u.2.2)
  let mates := fun (p : Nat × Nat) => !(p.1 == s.g.slot && gone.contains p.2)
  let bank := fun (m : SMap Core) (cb : Nat × Nat) =>
    smUpd Core.reset m cb.1 fun c => { c with units := smUpd [] c.units cb.2 fun l => l.filter others }
  let slot := fun (m : SMap Rdv) (k : Nat) =>
    smUpd Rdv.reset m k fun r => { send := r.send.filter mates, recv := r.recv.filter mates }
  let team := fun (t : Team) => { t with rdv := (s.g.accs.filterMap Acc.rdvSlot).foldl slot t.rdv }
  { s with
    g := { s.g with entries := s.g.entries ++ (smGet Quad.reset s.quads (quadOfCore s.g.core)).table.filter mine }
    cores := (s.g.accs.flatMap Acc.fifos).foldl bank s.cores
    teams := smUpd Team.reset s.teams s.g.team team
    quads := smUpd Quad.reset s.quads (quadOfCore s.g.core) fun k => { k with table := k.table.filter fun m => !mine m } }

/-- The record belongs to the slice: the control slice, or the vector slice. -/
def HaltRec.ofSlice (r : HaltRec) (ctl : Bool) : Bool := (r.fr.orig == 0) == ctl

/-- A slice that has no record of its own halts under Table 34: what it has waiting is withdrawn. In a slice that has faulted the earlier
instructions keep their full effect (R78, R79). -/
def Group.yields (g : Group) (a : Acc) : Bool := !g.recs.any (·.ofSlice a.ctl)

/-- The slice of a group is in a clause that runs: the control slice, or the vector slice. -/
def inClause (ctl : Bool) (s : State) : Bool :=
  if ctl then
    smGet none (smGet Core.reset s.cores s.g.core).seqGrant (s.g.slot % 2) == some s.g.slot && !s.g.exited && !s.g.pos.code.isEmpty
  else s.g.vpos.begun && s.g.vpos.pipe.isSome && !s.g.vpos.code.isEmpty

/-- The record of a fault joins those of the group in focus, which halts, giving up its grant and its pipe (R73, R79). The other slice
halts at its next instruction boundary: where it runs a clause it may still finish one instruction, which may meet a fault of its own. -/
def haltWith (r : HaltRec) (s : State) : State :=
  let other := r.fr.orig != 0
  let late := if !s.g.recs.isEmpty || s.g.preempted then none else if inClause other s then some (!other) else none
  let t := endPipe (endGrant { s with g := { s.g with recs := s.g.recs ++ [r], late := late } })
  withdraw t.g.yields t

/-- The slice that was to finish its instruction stands at a boundary (R79): its grant or pipe is given up again, and what the instruction
left waiting is withdrawn. -/
def lateStop (s : State) : State :=
  let t := endPipe (endGrant s)
  withdraw t.g.yields (t.withG { t.g with vpos := { t.g.vpos with resumed := t.g.vpos.idx != 0 } })

/-- A fault in either slice of the group in focus: its record is made, and the group halts (R73, R79). Every fault of every
instruction is taken here. -/
def takeFault (fr : FaultRec) (held : Option Nat) (s : State) : State :=
  haltWith { fr := fr, sent := false, held := held, act := none } s

/-- The record of a control-slice fault, precise at the current instruction (Table 30, R154). -/
def Group.ctlRec (g : Group) (code : BitVec 8) (acc : BitVec 4) (addr : BitVec 56) (info : Word) : FaultRec :=
  { code := code, orig := 0, imprec := false, index := BitVec.ofNat 4 g.pos.idx, slot := BitVec.ofNat 5 g.slot,
    core := BitVec.ofNat 10 g.core, lanes := 0, clause := lo56 g.pos.hdr, acc := acc, addr := addr, info := info }

/-- The record of a vector-slice fault, precise at the current vector instruction (Table 30). -/
def Group.vecRec (g : Group) (code : BitVec 8) (lanes : Mask) (acc : BitVec 4) (addr : BitVec 56) (info : Word) : FaultRec :=
  { code := code, orig := 1, imprec := false, index := BitVec.ofNat 4 g.vpos.idx, slot := BitVec.ofNat 5 g.slot,
    core := BitVec.ofNat 10 g.core, lanes := lanes, clause := lo56 g.vpos.hdr, acc := acc, addr := addr, info := info }

/-- A control-slice fault. -/
def ctlFault (code : BitVec 8) (acc : BitVec 4) (addr : BitVec 56) (info : Word) (s : State) : State :=
  takeFault (s.g.ctlRec code acc addr info) none s

/-- A vector-slice fault met by lanes. -/
def vecFault (code : BitVec 8) (lanes : Mask) (acc : BitVec 4) (addr : BitVec 56) (info : Word) (s : State) : State :=
  takeFault (s.g.vecRec code lanes acc addr info) none s

/-- The group is halted: a record is outstanding, or the core is pre-empted (R79, R86). -/
def Group.halted (g : Group) : Bool := !g.recs.isEmpty || g.preempted

/-- The top of the mask stack (R24). -/
def Group.top (g : Group) : Mask := g.masks.headD 0

/-- A held lane is given up: an atomic reads zero in it (R265). -/
def LaneAcc.giveUp (l : LaneAcc) : LaneAcc := if l.held.isSome then { l with done := true, held := none, data := 0 } else l

/-- Drops an access held at a home (R81, R265): the lanes a home holds are given up; an access that returns no value and has no lane
left goes, and its wait slot falls. -/
def dropHeld (stamp : Nat) (g : Group) : Group :=
  { g with
    accs := g.accs.filterMap fun a =>
      if a.stamp = stamp then
        let b := { a with lanes := a.lanes.map LaneAcc.giveUp }
        if b.dst == .none && b.lanes.all (·.done) then none else some b
      else some a }

/-- A held lane is presented again: its address is translated anew (R329). -/
def LaneAcc.present (l : LaneAcc) : LaneAcc := if l.held.isSome then { l with held := none, retry := true, came := none } else l

/-- Presents the held lanes of an access to their homes again (R80, replay). -/
def unhold (stamp : Nat) (g : Group) : Group :=
  { g with accs := g.accs.map fun a => if a.stamp = stamp then { a with lanes := a.lanes.map LaneAcc.present } else a }

/-- An acquire of cluster scope or wider empties the core's L1 (R321). -/
def invalidateL1 (sc : Scope) (s : State) : State :=
  if 2 ≤ scopeCode sc then { s with cores := smUpd Core.reset s.cores s.g.core fun c => { c with l1 := [] } } else s

/-- An acquire at a scope completes: L1 is emptied at cluster scope and wider, and the moment is kept (R61, R68, R321). -/
def acquire (sc : Scope) (s : State) : State :=
  let t := invalidateL1 sc s
  t.withG { t.g with acquired := t.stamp }

/-- Applies the action of one record to the slice its ORIG names (R78, R81). A continued wait acquires as a wait on a reached
future does (R76); continuing past a held operation leaves it unperformed. A continue of a clause that could not be fetched goes on at the
next clause in the control slice and at the end of the block in the vector slice (notes/assumptions/16.md). -/
def applyAction (r : HaltRec) (s : State) : State :=
  match r.act with
  | none => s
  | some .replay => match r.held with | some st => s.withG (unhold st s.g) | none => s
  | some .discard => match r.held with | some st => s.withG (dropHeld st s.g) | none => s
  | some .terminate => s
  | some .continue =>
    let t := match r.held with | some st => s.withG (dropHeld st s.g) | none => s
    if t.g.exited || r.past then t
    else if r.fr.orig = 0 then
      let u := { t with g := { t.g with pos := t.g.pos.next } }
      if r.wait then acquire .pkg u else u
    else t.withG t.g.landAll.vecNext

/-! ## Releases (R55, R56, R80, R321) -/

/-- An access stands as far as a release of a scope needs: performed at its home, or, at group and team scope, a store in the core's
write-through buffer (R321). -/
def Acc.settled (sc : Scope) (x : Acc) : Bool :=
  x.lanes.all fun l => l.done || (scopeCode sc ≤ 1 && l.buffered)

/-- Stores of other groups of the core that its write-through buffer took before a moment (R61). -/
def othersBuffered (s : State) (g : Group) (upto : Nat) : Bool :=
  (s.g :: s.others).any fun h => h.live && h.core == g.core && h.slot != g.slot && h.accs.any fun x =>
    x.lanes.any fun l => l.buffered && (l.sent.getD 0) < upto

/-- What a release of the group still waits for: an access it covers, or, at cluster scope and wider, a store of its core that an
earlier acquire of the group may have seen in the write-through buffer (R55, R56, R61, R321; notes/assumptions/57.md). -/
def releaseWaits (s : State) (g : Group) (a : Acc) : Bool :=
  (g.accs.any fun x => x.coveredBy a && !x.settled a.scope) || (2 ≤ scopeCode a.scope && othersBuffered s g g.acquired)

/-- The held lane a record names: the lowest code, and among those the lowest lane (R74). -/
def Acc.heldLane (a : Acc) : Option LaneAcc :=
  a.lanes.foldl (fun best l =>
    match l.done, l.held, best with
    | false, some h, none => some { l with held := some h }
    | false, some h, some b => if h.1.toNat < (b.held.getD (0, 0)).1.toNat then some l else best
    | _, _, _ => best) none

/-- The ACC code of a held access. -/
def Acc.accCode (a : Acc) : BitVec 4 :=
  match a.kind with
  | .store | .flagStore | .fifoPush => 2
  | .atom _ _ | .red _ _ | .defer _ => 3
  | _ => 1

/-- The record of a fault met by write-back, attributed to a release at this clause and index (R80). -/
def Group.heldRec (g : Group) (a : Acc) (l : LaneAcc) (index : Nat) (clause : BitVec 56) : FaultRec :=
  let hv := l.held.getD (0, 0)
  let lanes := a.lanes.foldl (fun (m : Mask) x =>
    if !x.done && x.held.map Prod.fst = some hv.1 then m ||| (1#32 <<< x.lane) else m) 0
  { code := hv.1, orig := if a.ctl then 0 else 1, imprec := true, index := BitVec.ofNat 4 index, slot := BitVec.ofNat 5 g.slot,
    core := BitVec.ofNat 10 g.core, lanes := if a.ctl then 0 else lanes, clause := clause, acc := a.accCode,
    addr := lo56 l.va, info := hv.2 }

/-- The issued release that the fault of a held access is attributed to: the first of its own slice after it (R80). -/
def Group.blamed (g : Group) (x : Acc) : Option Acc := g.accs.find? fun a => a.rel && a.ctl == x.ctl && x.coveredBy a

/-- A read that its home refuses after its issue has no release to wait for: it answers for itself (notes/assumptions/69.md). -/
def Acc.ownFault (a : Acc) : Bool :=
  match a.kind with
  | .load | .turn | .qtab _ _ _ | .fifoPop => true
  | _ => false

/-- A held access whose release has issued, or that is itself a read: the group halts at once, with the place of the release or of the read
in the record (R72, R80). -/
def dueFault (s : State) : State :=
  if s.g.halted then s
  else
    match s.g.accs.findSome? fun x =>
      if x.isHeld then (if x.ownFault then some x else s.g.blamed x).bind fun r => x.heldLane.map fun l => (x, r, l) else none with
    | some (x, r, l) =>
      haltWith { fr := s.g.heldRec x l r.index r.clause, sent := false, held := some x.stamp, act := none, past := true } s
    | none => s

/-- The first access a home holds that a release covers and that no issued release answers for, with the lane its record names. A release
answers for its own slice (R80); one at which the control slice waits (`waits`) also for the vector slice, once that slice has no token left
that could bring a release of its own (notes/assumptions/44.md). -/
def Group.firstHeld (g : Group) (a : Acc) (waits : Bool) : Option (Acc × LaneAcc) :=
  let mine := fun (x : Acc) => x.ctl == a.ctl || (waits && g.runnel.isEmpty)
  (g.accs.find? fun x => mine x && x.coveredBy a && x.isHeld && (g.blamed x).isNone).bind fun x => x.heldLane.map fun l => (x, l)

/-- A release begins: a covered access that a home holds halts the group at it (R80); otherwise it goes on. The record stands at the
release, which a replay or a discard presents again and a continue does not pass over (R81, notes/assumptions/56.md). -/
def relCheckAt (waits : Bool) (a : Acc) (s : State) (k : State → State) : State :=
  match s.g.firstHeld a waits with
  | some (x, l) =>
    haltWith { fr := s.g.heldRec x l a.index a.clause, sent := false, held := some x.stamp, act := none, past := true } s
  | none => k s

/-- A release that is issued and does not wait begins. -/
def relCheck (a : Acc) (s : State) (k : State → State) : State := relCheckAt false a s k

/-- An access that only another group or the firmware can end: it waits at a FIFO bank, or a home holds it. -/
def Acc.stands (y : Acc) : Bool := y.lanes.any fun l => !l.done && (l.held.isSome || match l.loc with | .fifo _ _ => true | _ => false)

/-- A release that a group issued before a moment and that counts before its control slice's barrier is incomplete: one of the control
slice, or a vector one that a vsync or vget orders before it. A release that waits for what only another group or the firmware can end does
not count (R56, R59, notes/assumptions/78.md). -/
def releaseOpen (s : State) (g : Group) (upto : Nat) : Bool :=
  g.accs.any fun x => x.rel && x.isMemOrFence && x.stamp < upto && (x.ctl || x.epoch < g.epoch) &&
    !x.stands && !(g.accs.any fun y => y.coveredBy x && y.stands) &&
    (releaseWaits s g x || (x.kind != .fence && !x.settled x.scope))

/-- A release that the control slice waits for, as the end of a group, a `publish` or a `handoff` (R72, R321). -/
def ctlRelease (sc : Scope) (s : State) (k : State → State) : State :=
  let a := s.g.probe true sc
  relCheckAt true a s fun t => if releaseWaits t t.g a then ctlBlock (.release sc) t else k t

/-- A fence of either kind may complete: its release half has nothing to wait for, and the reads that its acquire half orders before
what follows it have returned (R58, R60). -/
def fenceOpen (s : State) (g : Group) (a : Acc) : Bool :=
  (!a.rel || !releaseWaits s g a) && (!a.acq || !g.accs.any fun x => x.coveredBy a && x.isRead && x.outstanding)

/-! ## The return from a fault (R79 to R81) -/

/-- An outstanding half of a rendezvous that is withdrawn: not at its slot, and not paired. -/
def State.halfGone (s : State) (a : Acc) : Option (Bool × Nat) :=
  let at_ := fun (k : Nat) (recv : Bool) =>
    let r := smGet Rdv.reset (smGet Team.reset s.teams s.g.team).rdv k
    let me := (s.g.slot, a.stamp)
    let mates := (s.g :: s.others).filter fun h => h.live && h.team == s.g.team
    let paired := mates.any fun h => h.arrivals.any fun x =>
      if recv then h.slot == s.g.slot && x.dst == a.stamp else x.dst != 0 && x.src == (s.g.core, s.g.slot, a.stamp)
    if (if recv then r.recv else r.send).contains me || paired then none else some (recv, k)
  match a.kind with
  | .xsend k => at_ k false
  | .xrecv k => at_ k true
  | _ => none

/-- Joins a rendezvous slot of the team, as a sender or a receiver, in order of arrival (R246). -/
def joinSlot (recv : Bool) (k : Nat) (stamp : Nat) (s : State) : State :=
  let me := (s.g.slot, stamp)
  let add := fun (r : Rdv) => if recv then { r with recv := r.recv ++ [me] } else { r with send := r.send ++ [me] }
  let upd := fun (m : Team) => { m with rdv := smUpd Rdv.reset m.rdv k add }
  { s with teams := smUpd Team.reset s.teams s.g.team upd }

/-- The withdrawn entries of the group in focus join the quad's table again, newly accepted in their old order (R286). -/
def reenterEntries (s : State) : State :=
  s.g.entries.foldl (fun t m =>
    { t with
      stamp := t.stamp + 1
      quads := smUpd Quad.reset t.quads (quadOfCore t.g.core) fun q =>
        { q with table := q.table ++ [{ m with stamp := t.stamp, core := t.g.core, slot := t.g.slot, passed := 0 }] } })
    (s.withG { s.g with entries := [] })

/-- A group that is no longer halted replays what its halt withdrew, before it issues anything (Table 34, R286). -/
def reenter (s : State) : State :=
  if s.g.halted then s
  else s.g.accs.foldl (fun t a => match t.halfGone a with | some (recv, k) => joinSlot recv k a.stamp t | none => t)
    (reenterEntries s)

/-- The slices of the group in focus resume as the actions of its records say (R79, R81). -/
def resumeRecs (s : State) : State :=
  if !s.g.recs.isEmpty && s.g.recs.all fun r => r.act.isSome && r.act != some .terminate then
    dueFault (reenter (s.g.recs.foldl (fun t r => applyAction r t) { s with g := { s.g with recs := [], late := none } }))
  else s

/-- Return from a fault: an action is recorded for the oldest record of a slice that waits for one, and when every record of the
group has one the group resumes; a terminated one stays halted until its grid ends (R79, R81). -/
def resolveFault (vec : Bool) (a : Action) (s : State) : State :=
  let waits := fun (r : HaltRec) => (r.fr.orig == (if vec then 1 else 0)) && r.sent && r.act.isNone
  let recs := match s.g.recs.findIdx? waits with
    | some i => s.g.recs.modify i fun r => { r with act := some a }
    | none => s.g.recs
  resumeRecs { s with g := { s.g with recs := recs } }

/-! ## The shape of every control instruction -/

/-- A control instruction: a false guard completes with no effect (R156); a register it reads whose load or atomic has not returned
blocks it (R141); otherwise its own effect follows. -/
def ctlInstr (cg : CGuard) (regs : List XReg) (s : State) (k : State → State) : Out :=
  .next (if s.g.guard cg then
      match regs.find? fun r => s.g.busy r with
      | some r => ctlBlock (.reg r) s
      | none => k s
    else ctlAdvance s)

/-- Results that have not returned no longer go to a register: a later instruction has written it (notes/assumptions/61.md). -/
def Group.forget (g : Group) (r : XReg) : Group :=
  let off := fun (a : Acc) => match a.dst with | .x d _ _ => if d = r then { a with dst := .none } else a | _ => a
  { g with accs := g.accs.map off }

/-- An instruction writes a control register; a result that is still to come for it no longer does. -/
def Group.setX (g : Group) (r : XReg) (v : Word) : Group := if g.busy r then (g.forget r).writeX r v else g.writeX r v

/-- Writes a control register and completes. -/
def ctlWrite (d : XReg) (v : Word) (s : State) : State := ctlAdvance (s.withG (s.g.setX d v))

/-- Sets the effect bit of the spin record (R147). -/
def Group.effect (g : Group) : Group := { g with spin := g.spin.map fun r => { r with eff := true } }

end Sys2Proof.Machine
end

