-- ==== Sys2Proof/Machine/Control.lean ====
section
/-! DEFINITION. Control-slice arithmetic (R159 to R162): the operations of Table 66 and Table 67, and the meaning of each
instruction over them. -/
namespace Sys2Proof.Machine

/-! ## The operations of Table 66 -/

/-- `add` of Table 66. -/
def opAdd (a b : Word) : Word := a + b
/-- `sub` of Table 66. -/
def opSub (a b : Word) : Word := a - b
/-- `mul` of Table 66. -/
def opMul (a b : Word) : Word := a * b
/-- `mulhi.s64` of Table 66. -/
def opMulhiS64 (a b : Word) : Word := BitVec.ofInt 64 (a.toInt * b.toInt / 2 ^ 64)
/-- `mulhi.n64` of Table 66. -/
def opMulhiN64 (a b : Word) : Word := BitVec.ofNat 64 (a.toNat * b.toNat / 2 ^ 64)
/-- `and` of Table 66. -/
def opAnd (a b : Word) : Word := a &&& b
/-- `or` of Table 66. -/
def opOr (a b : Word) : Word := a ||| b
/-- `xor` of Table 66. -/
def opXor (a b : Word) : Word := a ^^^ b
/-- `shl` of Table 66. -/
def opShl (a b : Word) : Word := a <<< (b.toNat % 64)
/-- `shr.n64` of Table 66. -/
def opShrN64 (a b : Word) : Word := a >>> (b.toNat % 64)
/-- `shr.s64` of Table 66. -/
def opShrS64 (a b : Word) : Word := a.sshiftRight (b.toNat % 64)
/-- `min.s64` of Table 66. -/
def opMinS64 (a b : Word) : Word := if a.slt b then a else b
/-- `min.n64` of Table 66. -/
def opMinN64 (a b : Word) : Word := if a.ult b then a else b
/-- `max.s64` of Table 66. -/
def opMaxS64 (a b : Word) : Word := if a.slt b then b else a
/-- `max.n64` of Table 66. -/
def opMaxN64 (a b : Word) : Word := if a.ult b then b else a

/-- A condition of Table 67. -/
def condHolds (c : Cond) (a b : Word) : Bool :=
  match c with
  | .eq => a == b
  | .ne => a != b
  | .ltS => a.slt b
  | .geS => !a.slt b
  | .ltN => a.ult b
  | .geN => !a.ult b
  | .tst => a &&& b != 0
  | .ntst => a &&& b == 0

/-- Form CR: x(D) ← x(A) op x(B) (R159). -/
def aluCR (f : Word → Word → Word) (g : CGuard) (d a b : XReg) (s : State) : Out :=
  ctlInstr g [a, b] s fun t => ctlWrite d (f (t.g.readX a) (t.g.readX b)) t

/-- Form CI: x(D) ← x(A) op sext64(IMM32) (R159). -/
def aluCI (f : Word → Word → Word) (g : CGuard) (d a : XReg) (imm : BitVec 32) (s : State) : Out :=
  ctlInstr g [a] s fun t => ctlWrite d (f (t.g.readX a) (sext32 imm)) t

/-- Writes the outcome of a compare to a control predicate (R160). -/
def ctlSetC (p : BitVec 3) (b : Bool) (s : State) : State := ctlAdvance (s.withG (s.g.writeC p b))

/-! ## Meanings -/

/-- `add` in form CR (R159). -/
def execAddCr (g : CGuard) (d a b : XReg) (s : State) : Out := aluCR opAdd g d a b s
/-- `add` in form CI (R159). -/
def execAddCi (g : CGuard) (d a : XReg) (imm : BitVec 32) (s : State) : Out := aluCI opAdd g d a imm s
/-- `sub` in form CR (R159). -/
def execSubCr (g : CGuard) (d a b : XReg) (s : State) : Out := aluCR opSub g d a b s
/-- `sub` in form CI (R159). -/
def execSubCi (g : CGuard) (d a : XReg) (imm : BitVec 32) (s : State) : Out := aluCI opSub g d a imm s
/-- `mul` in form CR (R159). -/
def execMulCr (g : CGuard) (d a b : XReg) (s : State) : Out := aluCR opMul g d a b s
/-- `mul` in form CI (R159). -/
def execMulCi (g : CGuard) (d a : XReg) (imm : BitVec 32) (s : State) : Out := aluCI opMul g d a imm s
/-- `mulhi.s64` in form CR (R159). -/
def execMulhiS64Cr (g : CGuard) (d a b : XReg) (s : State) : Out := aluCR opMulhiS64 g d a b s
/-- `mulhi.s64` in form CI (R159). -/
def execMulhiS64Ci (g : CGuard) (d a : XReg) (imm : BitVec 32) (s : State) : Out := aluCI opMulhiS64 g d a imm s
/-- `mulhi.n64` in form CR (R159). -/
def execMulhiN64Cr (g : CGuard) (d a b : XReg) (s : State) : Out := aluCR opMulhiN64 g d a b s
/-- `mulhi.n64` in form CI (R159). -/
def execMulhiN64Ci (g : CGuard) (d a : XReg) (imm : BitVec 32) (s : State) : Out := aluCI opMulhiN64 g d a imm s
/-- `and` in form CR (R159). -/
def execAndCr (g : CGuard) (d a b : XReg) (s : State) : Out := aluCR opAnd g d a b s
/-- `and` in form CI (R159). -/
def execAndCi (g : CGuard) (d a : XReg) (imm : BitVec 32) (s : State) : Out := aluCI opAnd g d a imm s
/-- `or` in form CR (R159). -/
def execOrCr (g : CGuard) (d a b : XReg) (s : State) : Out := aluCR opOr g d a b s
/-- `or` in form CI (R159). -/
def execOrCi (g : CGuard) (d a : XReg) (imm : BitVec 32) (s : State) : Out := aluCI opOr g d a imm s
/-- `xor` in form CR (R159). -/
def execXorCr (g : CGuard) (d a b : XReg) (s : State) : Out := aluCR opXor g d a b s
/-- `xor` in form CI (R159). -/
def execXorCi (g : CGuard) (d a : XReg) (imm : BitVec 32) (s : State) : Out := aluCI opXor g d a imm s
/-- `shl` in form CR (R159). -/
def execShlCr (g : CGuard) (d a b : XReg) (s : State) : Out := aluCR opShl g d a b s
/-- `shl` in form CI (R159). -/
def execShlCi (g : CGuard) (d a : XReg) (imm : BitVec 32) (s : State) : Out := aluCI opShl g d a imm s
/-- `shr.n64` in form CR (R159). -/
def execShrN64Cr (g : CGuard) (d a b : XReg) (s : State) : Out := aluCR opShrN64 g d a b s
/-- `shr.n64` in form CI (R159). -/
def execShrN64Ci (g : CGuard) (d a : XReg) (imm : BitVec 32) (s : State) : Out := aluCI opShrN64 g d a imm s
/-- `shr.s64` in form CR (R159). -/
def execShrS64Cr (g : CGuard) (d a b : XReg) (s : State) : Out := aluCR opShrS64 g d a b s
/-- `shr.s64` in form CI (R159). -/
def execShrS64Ci (g : CGuard) (d a : XReg) (imm : BitVec 32) (s : State) : Out := aluCI opShrS64 g d a imm s
/-- `min.s64` in form CR (R159). -/
def execMinS64Cr (g : CGuard) (d a b : XReg) (s : State) : Out := aluCR opMinS64 g d a b s
/-- `min.s64` in form CI (R159). -/
def execMinS64Ci (g : CGuard) (d a : XReg) (imm : BitVec 32) (s : State) : Out := aluCI opMinS64 g d a imm s
/-- `min.n64` in form CR (R159). -/
def execMinN64Cr (g : CGuard) (d a b : XReg) (s : State) : Out := aluCR opMinN64 g d a b s
/-- `min.n64` in form CI (R159). -/
def execMinN64Ci (g : CGuard) (d a : XReg) (imm : BitVec 32) (s : State) : Out := aluCI opMinN64 g d a imm s
/-- `max.s64` in form CR (R159). -/
def execMaxS64Cr (g : CGuard) (d a b : XReg) (s : State) : Out := aluCR opMaxS64 g d a b s
/-- `max.s64` in form CI (R159). -/
def execMaxS64Ci (g : CGuard) (d a : XReg) (imm : BitVec 32) (s : State) : Out := aluCI opMaxS64 g d a imm s
/-- `max.n64` in form CR (R159). -/
def execMaxN64Cr (g : CGuard) (d a b : XReg) (s : State) : Out := aluCR opMaxN64 g d a b s
/-- `max.n64` in form CI (R159). -/
def execMaxN64Ci (g : CGuard) (d a : XReg) (imm : BitVec 32) (s : State) : Out := aluCI opMaxN64 g d a imm s

/-- `cmp` in form CR (R160). -/
def execCmpCr (g : CGuard) (cc : Cond) (pd : BitVec 3) (a b : XReg) (s : State) : Out :=
  ctlInstr g [a, b] s fun t => ctlSetC pd (condHolds cc (t.g.readX a) (t.g.readX b)) t

/-- `cmp` in form CI (R160). -/
def execCmpCi (g : CGuard) (cc : Cond) (pd : BitVec 3) (a : XReg) (imm : BitVec 32) (s : State) : Out :=
  ctlInstr g [a] s fun t => ctlSetC pd (condHolds cc (t.g.readX a) (sext32 imm)) t

/-- `lea`: base + (x(B) << SH) + sext64(DISP) (R161). -/
def execLea (g : CGuard) (d a b : XReg) (pcRel : Bool) (sh : BitVec 3) (disp : BitVec 28) (s : State) : Out :=
  ctlInstr g (if pcRel then [b] else [a, b]) s fun t =>
    ctlWrite d ((if pcRel then t.g.pc else t.g.readX a) + (t.g.readX b <<< sh.toNat) + disp.signExtend 64) t

/-- `movi`: sext64(IMM32) (R162). -/
def execMovi (g : CGuard) (d : XReg) (imm : BitVec 32) (s : State) : Out :=
  ctlInstr g [] s fun t => ctlWrite d (sext32 imm) t

/-- `movhi`: IMM32 above x(A)[31:0] (R162). -/
def execMovhi (g : CGuard) (d a : XReg) (imm : BitVec 32) (s : State) : Out :=
  ctlInstr g [a] s fun t => ctlWrite d (imm ++ (t.g.readX a).truncate 32) t

/-- `nop` has no effect (R196). -/
def execNop (g : CGuard) (s : State) : Out := ctlInstr g [] s ctlAdvance

/-- `trap` faults SOFTWARE with INFO the immediate (R196). -/
def execTrap (g : CGuard) (imm : BitVec 32) (s : State) : Out :=
  ctlInstr g [] s fun t => ctlFault cSoftware 0 0 (imm.zeroExtend 64) t

/-- `pause`: the group is paused for its count and gives up its grant; a count of zero has no effect (R41, R151, R172). -/
def execPause (g : CGuard) (n : BitVec 16) (s : State) : Out :=
  ctlInstr g [] s fun t =>
    if n = 0 then ctlAdvance t else endGrant (ctlAdvance { t with g := { t.g with pause := n.toNat } })

end Sys2Proof.Machine
end

