-- ==== Sys2Proof/Machine/Crypto.lean ====
section
/-! DEFINITION. The cryptographic functions that the manual names by their standards: AES-256 (FIPS 197) in XTS mode (IEEE 1619, R324),
SHA-256 (FIPS 180-4, R427, R433), HKDF with SHA-256 (RFC 5869) and the AES key wrap (RFC 3394) of R432, and ECDSA on P-256 (FIPS
186-4, R427, R431, R433). Numbers are naturals; bytes lists are in the order in which the standard writes them. -/
namespace Sys2Proof.Machine

/-! ## Bytes -/

/-- The big-endian number of bytes. -/
def beNat (bs : List Byte) : Nat := bs.foldl (fun n b => 256 * n + b.toNat) 0

/-- n bytes of a number, the highest first. -/
def beBytes (n v : Nat) : List Byte := (List.range n).map fun i => BitVec.ofNat 8 (v / 256 ^ (n - 1 - i))

/-! ## AES-256 -/

/-- The substitution box of FIPS 197 and its inverse, entry b in the bits from 8b. -/
def sboxTable : Nat :=
  0x16bb54b00f2d99416842e6bf0d89a18cdf2855cee9871e9b948ed9691198f8e19e1dc186b95735610ef6034866b53e708a8bbd4b1f74dde8c6b4a61c2e2578ba08ae7a65eaf4566ca94ed58d6d37c8e779e4959162acd3c25c2406490a3a32e0db0b5ede14b8ee4688902a22dc4f816073195d643d7ea7c41744975fec130ccdd2f3ff1021dab6bcf5389d928f40a351a89f3c507f02f94585334d43fbaaefd0cf584c4a39becb6a5bb1fc20ed00d153842fe329b3d63b52a05a6e1b1a2c830975b227ebe28012079a059618c323c7041531d871f1e5a534ccf73f362693fdb7c072a49cafa2d4adf04759fa7dc982ca76abd7fe2b670130c56f6bf27b777c63
def invSboxTable : Nat :=
  0x7d0c2155631469e126d677ba7e042b17619953833cbbebc8b0f52aae4d3be0a0ef9cc9939f7ae52d0d4ab519a97f51605fec8027591012b131c7078833a8dd1ff45acd78fec0db9a2079d2c64b3e56fc1bbe18aa0e62b76f89c5291d711af1476edf751ce837f9e28535ade72274ac9673e6b4f0cecff297eadc674f4111913a6b8a130103bdafc1020f3fca8f1e2cd00645b3b80558e4f70ad3bc8c00abd890849d8da75746155edab9edfd5048706c92b6655dcc5ca4d41698688664f6f87225d18b6d49a25b76b224d92866a12e084ec3fa420b954cee3d23c2a632947b54cbe9dec444438e3487ff2f9b8239e37cfbd7f3819ea340bf38a53630d56a0952
def subByte (b : Nat) : Nat := sboxTable / 256 ^ b % 256
def invSubByte (b : Nat) : Nat := invSboxTable / 256 ^ b % 256

/-- Multiplication by x in the field of FIPS 197. -/
def xtime (b : Nat) : Nat := if b < 128 then 2 * b else Nat.xor (2 * b) 0x11B

/-- Multiplication in that field; n counts the bits of a. -/
def gfMul : Nat → Nat → Nat → Nat
  | 0, _, _ => 0
  | n + 1, a, b => Nat.xor (if a % 2 = 1 then b else 0) (gfMul n (a / 2) (xtime b))

/-- Bytewise sum of two lists. -/
def xorBytes (a b : List Nat) : List Nat := List.zipWith Nat.xor a b

/-- Byte i of a block. -/
def byteAt (s : List Nat) (i : Nat) : Nat := s.getD i 0

/-- The key schedule as words of four bytes, the newest first: n more words are made (AES-256 starts from eight). -/
def expandKey : Nat → Nat → List (List Nat) → List (List Nat)
  | 0, _, ws => ws
  | n + 1, i, ws =>
    let t := ws.headD []
    let u :=
      if i % 8 = 0 then
        let r := (t.drop 1 ++ t.take 1).map subByte
        xorBytes r [2 ^ (i / 8 - 1), 0, 0, 0]
      else if i % 8 = 4 then t.map subByte
      else t
    expandKey n (i + 1) (xorBytes (ws.getD 7 []) u :: ws)

/-- The fifteen round keys of a 256-bit key given as 32 bytes. -/
def roundKeys (key : List Nat) : List (List Nat) :=
  let ws := (expandKey 52 8 ((List.range 8).map fun i => (key.drop (4 * i)).take 4).reverse).reverse
  (List.range 15).map fun r => ((ws.drop (4 * r)).take 4).flatten

/-- The row shift of a block held by columns, and its inverse. -/
def shiftRows (s : List Nat) : List Nat := (List.range 16).map fun i => byteAt s (i % 4 + 4 * ((i / 4 + i % 4) % 4))
def invShiftRows (s : List Nat) : List Nat := (List.range 16).map fun i => byteAt s (i % 4 + 4 * ((i / 4 + 4 - i % 4) % 4))

/-- The column mix with the first row of its matrix. -/
def mixWith (row : List Nat) (s : List Nat) : List Nat :=
  (List.range 16).map fun i =>
    (List.range 4).foldl (fun x j => Nat.xor x (gfMul 8 (byteAt row ((4 + j - i % 4) % 4)) (byteAt s (4 * (i / 4) + j)))) 0

/-- AES-256 of one block under its round keys. -/
def aesEncrypt (ks : List (List Nat)) (b : List Nat) : List Nat :=
  let s := (List.range 13).foldl (fun s r =>
    xorBytes (mixWith [2, 3, 1, 1] (shiftRows (s.map subByte))) (ks.getD (r + 1) [])) (xorBytes b (ks.getD 0 []))
  xorBytes (shiftRows (s.map subByte)) (ks.getD 14 [])

/-- Its inverse. -/
def aesDecrypt (ks : List (List Nat)) (b : List Nat) : List Nat :=
  let s := (List.range 13).foldl (fun s r =>
    mixWith [14, 11, 13, 9] (xorBytes ((invShiftRows s).map invSubByte) (ks.getD (13 - r) []))) (xorBytes b (ks.getD 14 []))
  xorBytes ((invShiftRows s).map invSubByte) (ks.getD 0 [])

/-! ## XTS (R324) -/

/-- The n low bytes of a number as naturals, lowest first. -/
def natList (n v : Nat) : List Nat := (leBytes n v).map (·.toNat)

/-- The little-endian number of such a list. -/
def listNat (l : List Nat) : Nat := leNat (l.map (BitVec.ofNat 8))

/-- The next tweak: multiplication by the primitive element of IEEE 1619. -/
def nextTweak (t : Nat) : Nat := if t < 2 ^ 127 then 2 * t else Nat.xor (2 * t % 2 ^ 128) 0x87

/-- n blocks of a data unit, each masked by its tweak before and after a cipher. -/
def xtsBlocks (f : List Nat → List Nat) : Nat → Nat → List Nat → List Nat
  | 0, _, _ => []
  | n + 1, t, bs =>
    let m := natList 16 t
    xorBytes (f (xorBytes (bs.take 16) m)) m ++ xtsBlocks f n (nextTweak t) (bs.drop 16)

/-- A 64-byte key as its two halves, data key first; bit 0 is the lowest bit of its first byte. -/
def xtsKeys (key : BitVec 512) : List (List Nat) × List (List Nat) :=
  let k := natList 64 key.toNat
  (roundKeys (k.take 32), roundKeys (k.drop 32))

/-- A 128-byte line under a key, with the line's number (PA[51:7]) as tweak. -/
def xtsLine (enc : Bool) (key : BitVec 512) (line : Nat) (bs : List Byte) : List Byte :=
  let ks := xtsKeys key
  let t := listNat (aesEncrypt ks.2 (natList 16 line))
  (xtsBlocks (if enc then aesEncrypt ks.1 else aesDecrypt ks.1) 8 t (bs.map (·.toNat))).map (BitVec.ofNat 8)

/-! ## SHA-256 -/

/-- The round constants of FIPS 180-4, number i in the bits from 32i, and the initial hash, word i in the bits from 32i. -/
def shaConst : Nat :=
  0xc67178f2bef9a3f7a4506ceb90befffa8cc7020884c8781478a5636f748f82ee682e6ff35b9cca4f4ed8aa4a391c0cb334b0bcb52748774c1e376c0819a4c116106aa070f40e3585d6990624d192e819c76c51a3c24b8b70a81a664ba2bfe8a192722c8581c2c92e766a0abb650a735453380d134d2c6dfc2e1b213827b70a851429296706ca6351d5a79147c6e00bf3bf597fc7b00327c8a831c66d983e515276f988da5cb0a9dc4a7484aa2de92c6f240ca1cc0fc19dc6efbe4786e49b69c1c19bf1749bdc06a780deb1fe72be5d74550c7dc3243185be12835b01d807aa98ab1c5ed5923f82a459f111f13956c25be9b5dba5b5c0fbcf71374491428a2f98
def shaInit : Nat := 0x5be0cd191f83d9ab9b05688c510e527fa54ff53a3c6ef372bb67ae856a09e667

/-- Sum of words. -/
def add32 (a b : Nat) : Nat := (a + b) % 2 ^ 32
/-- Rotation of a word to the right. -/
def rotr (n x : Nat) : Nat := x / 2 ^ n + x % 2 ^ n * 2 ^ (32 - n)
/-- Exclusive or of three words. -/
def xor3 (a b c : Nat) : Nat := Nat.xor (Nat.xor a b) c

/-- The message schedule, newest word first: n more words. -/
def shaExpand : Nat → List Nat → List Nat
  | 0, ws => ws
  | n + 1, ws =>
    let x := ws.getD 14 0
    let y := ws.getD 1 0
    let a := xor3 (rotr 7 x) (rotr 18 x) (x / 2 ^ 3)
    let b := xor3 (rotr 17 y) (rotr 19 y) (y / 2 ^ 10)
    shaExpand n (add32 (add32 (ws.getD 15 0) a) (add32 (ws.getD 6 0) b) :: ws)

/-- One round on the eight working words. -/
def shaRound (h : List Nat) (k w : Nat) : List Nat :=
  match h with
  | [a, b, c, d, e, f, g, x] =>
    let s1 := xor3 (rotr 6 e) (rotr 11 e) (rotr 25 e)
    let ch := Nat.xor (Nat.land e f) (Nat.land (2 ^ 32 - 1 - e) g)
    let t1 := add32 (add32 (add32 x s1) (add32 ch k)) w
    let s0 := xor3 (rotr 2 a) (rotr 13 a) (rotr 22 a)
    let mj := xor3 (Nat.land a b) (Nat.land a c) (Nat.land b c)
    [add32 t1 (add32 s0 mj), a, b, c, add32 d t1, e, f, g]
  | _ => h

/-- One block of sixteen words. -/
def shaBlock (h : List Nat) (block : List Nat) : List Nat :=
  let ws := (shaExpand 48 block.reverse).reverse
  List.zipWith add32 h (((List.range 64).zip ws).foldl (fun s p => shaRound s (shaConst / 2 ^ (32 * p.1) % 2 ^ 32) p.2) h)

/-- n blocks of 64 bytes. -/
def shaBlocks : Nat → List Nat → List Byte → List Nat
  | 0, h, _ => h
  | n + 1, h, bs => shaBlocks n (shaBlock h ((List.range 16).map fun i => beNat ((bs.drop (4 * i)).take 4))) (bs.drop 64)

/-- SHA-256 of a byte string, as the number its 32 bytes write highest first. -/
def sha256 (bs : List Byte) : BitVec 256 :=
  let z := (119 - bs.length % 64) % 64
  let msg := bs ++ [0x80] ++ List.replicate z 0 ++ beBytes 8 (8 * bs.length)
  let h := shaBlocks (msg.length / 64) ((List.range 8).map fun i => shaInit / 2 ^ (32 * i) % 2 ^ 32) msg
  BitVec.ofNat 256 (h.foldl (fun n w => 2 ^ 32 * n + w) 0)

/-- SHA-256 as its 32 bytes. -/
def shaBytes (bs : List Byte) : List Byte := beBytes 32 (sha256 bs).toNat

/-- HMAC with SHA-256 under a key of at most 64 bytes. -/
def hmac (key msg : List Byte) : List Byte :=
  let k := key ++ List.replicate (64 - key.length) 0
  shaBytes ((k.map (· ^^^ 0x5C)) ++ shaBytes ((k.map (· ^^^ 0x36)) ++ msg))

/-- 32 bytes of HKDF with no salt. -/
def hkdf (secret info : List Byte) : List Byte := hmac (hmac (List.replicate 32 0) secret) (info ++ [1])

/-! ## AES key wrap (RFC 3394) -/

/-- One step of the unwrap, numbered t from the last: the integrity word and the n key words. -/
def unwrapStep (ks : List (List Nat)) (n t : Nat) (a : Nat) (r : List Nat) : Nat × List Nat :=
  let i := (t - 1) % n
  let b := aesDecrypt ks ((beBytes 8 (Nat.xor a t) ++ beBytes 8 (r.getD i 0)).map (·.toNat))
  let bs := b.map (BitVec.ofNat 8)
  (beNat (bs.take 8), r.set i (beNat (bs.drop 8)))

/-- t steps. -/
def unwrapSteps (ks : List (List Nat)) (n : Nat) : Nat → Nat → List Nat → Nat × List Nat
  | 0, a, r => (a, r)
  | t + 1, a, r => let x := unwrapStep ks n (t + 1) a r; unwrapSteps ks n t x.1 x.2

/-- The 64-byte key that a 72-byte wrap holds, or none when its integrity check fails. -/
def aesUnwrap (kek wrap : List Byte) : Option (List Byte) :=
  let r := (List.range 8).map fun i => beNat ((wrap.drop (8 + 8 * i)).take 8)
  let x := unwrapSteps (roundKeys (kek.map (·.toNat))) 8 48 (beNat (wrap.take 8)) r
  if x.1 = 0xA6A6_A6A6_A6A6_A6A6 then some (x.2.flatMap (beBytes 8)) else none

/-! ## P-256 -/

/-- The prime, the coefficient b, the order, and the base point of P-256. -/
def p256 : Nat := 2 ^ 256 - 2 ^ 224 + 2 ^ 192 + 2 ^ 96 - 1
def p256b : Nat := 0x5AC635D8AA3A93E7B3EBBD55769886BC651D06B0CC53B0F63BCE3C3E27D2604B
def p256n : Nat := 0xFFFFFFFF00000000FFFFFFFFFFFFFFFFBCE6FAADA7179E84F3B9CAC2FC632551
def p256x : Nat := 0x6B17D1F2E12C4247F8BCE6E563A440F277037D812DEB33A0F4A13945D898C296
def p256y : Nat := 0x4FE342E2FE1A7F9B8EE7EB4A7C0F9E162BCE33576B315ECECBB6406837BF51F5

/-- A point in Jacobian coordinates; the third is zero at infinity. -/
structure JPoint where
  x : Nat
  y : Nat
  z : Nat
  deriving DecidableEq, Repr

/-- Difference modulo p. -/
def subP (a b : Nat) : Nat := (a + p256 - b) % p256

/-- Twice a point. -/
def JPoint.double (q : JPoint) : JPoint :=
  let d := q.z * q.z % p256
  let g := q.y * q.y % p256
  let b := q.x * g % p256
  let a := 3 * subP q.x d * ((q.x + d) % p256) % p256
  let x := subP (a * a % p256) (8 * b % p256)
  { x := x, y := subP (a * subP (4 * b % p256) x % p256) (8 * (g * g) % p256), z := 2 * q.y * q.z % p256 }

/-- The sum of two points. -/
def JPoint.add (q r : JPoint) : JPoint :=
  if q.z = 0 then r
  else if r.z = 0 then q
  else
    let q2 := q.z * q.z % p256
    let r2 := r.z * r.z % p256
    let u := q.x * r2 % p256
    let h := subP (r.x * q2 % p256) u
    let s := q.y * r2 * r.z % p256
    let d := subP (r.y * q2 * q.z % p256) s
    if h = 0 then if d = 0 then q.double else { x := 1, y := 1, z := 0 }
    else
      let h2 := h * h % p256
      let h3 := h2 * h % p256
      let v := u * h2 % p256
      let x := subP (subP (d * d % p256) h3) (2 * v % p256)
      { x := x, y := subP (d * subP v x % p256) (s * h3 % p256), z := h * q.z * r.z % p256 }

/-- k times a point; the n low bits of k count, highest first. -/
def scalarMul (k : Nat) (q : JPoint) : Nat → JPoint
  | 0 => { x := 1, y := 1, z := 0 }
  | n + 1 =>
    let r := (scalarMul (k / 2) q n).double
    if k % 2 = 1 then r.add q else r

/-- a to the power of the n low bits of e, modulo m. -/
def powMod (m a e : Nat) : Nat → Nat
  | 0 => 1
  | n + 1 => let r := powMod m a (e / 2) n; let s := r * r % m; if e % 2 = 1 then s * a % m else s

/-- The inverse modulo a prime. -/
def invMod (m a : Nat) : Nat := powMod m a (m - 2) 256

/-- The affine coordinates of a point. -/
def JPoint.affine (q : JPoint) : Nat × Nat :=
  let i := invMod p256 q.z
  let i2 := i * i % p256
  (q.x * i2 % p256, q.y * i2 * i % p256)

/-- The base point. -/
def basePoint : JPoint := { x := p256x, y := p256y, z := 1 }

/-- The point of affine coordinates lies on the curve. -/
def onCurve (x y : Nat) : Bool := x < p256 && y < p256 && y * y % p256 == (x * x * x + (p256 - 3) * x + p256b) % p256

/-- A public key as x then y. -/
def pubOf (d : Nat) : BitVec 512 :=
  let a := (scalarMul d basePoint 256).affine
  BitVec.ofNat 512 (a.1 * 2 ^ 256 + a.2)

/-- ECDSA on P-256: the signature (r, s) of a hash verifies under a public key. -/
def ecdsaVerify (pub : BitVec 512) (hash r s : Nat) : Bool :=
  let x := pub.toNat / 2 ^ 256
  let y := pub.toNat % 2 ^ 256
  0 < r && r < p256n && 0 < s && s < p256n && onCurve x y &&
    (let w := invMod p256n s
     let q := (scalarMul (hash * w % p256n) basePoint 256).add (scalarMul (r * w % p256n) { x := x, y := y, z := 1 } 256)
     q.z != 0 && q.affine.1 % p256n == r)

/-- The signature (r, s) of a hash by a private key with a secret number k. -/
def ecdsaAt (d hash k : Nat) : Nat × Nat :=
  let r := (scalarMul k basePoint 256).affine.1 % p256n
  (r, invMod p256n k * ((hash + r * d) % p256n) % p256n)

/-- The first signature whose r and s are not 0 for k and the numbers after it in 1 to n − 1, of which so many are tried. -/
def ecdsaFrom (d hash k : Nat) : Nat → Nat × Nat
  | 0 => ecdsaAt d hash k
  | f + 1 =>
    let x := ecdsaAt d hash k
    if x.1 = 0 ∨ x.2 = 0 then ecdsaFrom d hash (k % (p256n - 1) + 1) f else x

/-- The signature of a hash by a private key with a number drawn for it, brought to 1 to n − 1. At most eight of these give an r or s of 0: each
value of r belongs to at most four points, so that a try among sixteen gives a signature. -/
def ecdsaSign (d hash draw : Nat) : Nat × Nat := ecdsaFrom d hash (draw % (p256n - 1) + 1) 16

/-- The shared secret of ECDH with a public point, as its 32 bytes; none when the point is not on the curve. -/
def ecdh (d x y : Nat) : Option (List Byte) :=
  if onCurve x y then some (beBytes 32 (scalarMul d { x := x, y := y, z := 1 } 256).affine.1) else none

end Sys2Proof.Machine
end

