-- ==== Sys2Proof/Machine/Float.lean ====
section
/-! DEFINITION. Floating-point formats and exact arithmetic (R91 to R103): decoding to exact values, exact sums and products,
one rounding with the tininess, overflow and flush rules. -/
namespace Sys2Proof.Machine

/-- A format: exponent bits and fraction bits (Table 36). -/
structure Fmt where
  eb : Nat
  fb : Nat
  deriving DecidableEq, Repr

def fp64 : Fmt := { eb := 11, fb := 52 }
def fp32 : Fmt := { eb := 8, fb := 23 }
def fp16 : Fmt := { eb := 5, fb := 10 }
def bf16 : Fmt := { eb := 8, fb := 7 }

/-- Width in bits. -/
def Fmt.width (f : Fmt) : Nat := 1 + f.eb + f.fb
/-- Exponent bias. -/
def Fmt.bias (f : Fmt) : Nat := 2 ^ (f.eb - 1) - 1
/-- Canonical quiet NaN (Table 36). -/
def Fmt.nan (f : Fmt) : Nat := (2 ^ f.eb - 1) * 2 ^ f.fb + 2 ^ (f.fb - 1)
/-- Infinity of a sign. -/
def Fmt.inf (f : Fmt) (neg : Bool) : Nat := (if neg then 2 ^ (f.eb + f.fb) else 0) + (2 ^ f.eb - 1) * 2 ^ f.fb
/-- Largest finite value of a sign (Table 38). -/
def Fmt.maxFin (f : Fmt) (neg : Bool) : Nat := f.inf neg - 1
/-- Zero of a sign. -/
def Fmt.zero (f : Fmt) (neg : Bool) : Nat := if neg then 2 ^ (f.eb + f.fb) else 0

/-- The exact value of an encoding: a finite value is (-1)^neg × m × 2^e (Table 37). -/
inductive FVal where
  | nan (signalling : Bool)
  | inf (neg : Bool)
  | fin (neg : Bool) (m : Nat) (e : Int)
  deriving DecidableEq, Repr

/-- The sign bit of an encoding. -/
def Fmt.neg (f : Fmt) (b : Nat) : Bool := b / 2 ^ (f.eb + f.fb) % 2 == 1

/-- The value of an encoding (Table 37). -/
def Fmt.value (f : Fmt) (b : Nat) : FVal :=
  let e := b / 2 ^ f.fb % 2 ^ f.eb
  let m := b % 2 ^ f.fb
  if e = 2 ^ f.eb - 1 then
    if m = 0 then .inf (f.neg b) else .nan (m < 2 ^ (f.fb - 1))
  else if e = 0 then .fin (f.neg b) m (1 - (f.bias : Int) - f.fb)
  else .fin (f.neg b) (2 ^ f.fb + m) ((e : Int) - f.bias - f.fb)

/-- A subnormal encoding. -/
def Fmt.subnormal (f : Fmt) (b : Nat) : Bool := b / 2 ^ f.fb % 2 ^ f.eb == 0 && b % 2 ^ f.fb != 0

/-! ## Flags (Table 42) -/

/-- Exception bits, as in `flags`. -/
abbrev Flags := BitVec 8
def fNV : Flags := 0x01
def fDZ : Flags := 0x02
def fOF : Flags := 0x04
def fUF : Flags := 0x08
def fNX : Flags := 0x10
def fID : Flags := 0x20
def fRG : Flags := 0x40
def fSA : Flags := 0x80

/-- A flag when a condition holds. -/
def flagIf (b : Bool) (f : Flags) : Flags := if b then f else 0

/-- The four rounding modes (Table 40). -/
inductive Rnd where
  | rne | rz | ru | rd
  deriving DecidableEq, Repr

/-- The mode of fpm.RM (Table 41). -/
def Rnd.ofRM (rm : Nat) : Rnd := if rm = 2 then .rz else if rm = 3 then .ru else if rm = 4 then .rd else .rne

/-- The mode an instruction rounds in (Table 40). -/
def rndMode (r : RndSel) (fpm : Word) : Rnd :=
  match r with
  | .dyn => Rnd.ofRM (fpm.toNat % 8)
  | .rne => .rne | .rz => .rz | .ru => .ru | .rd => .rd

/-- The flush-input bit of a format's class (R99, Table 41). -/
def flushIn (fpm : Word) (f : Fmt) : Bool :=
  if f.fb = 52 then fpm.getLsbD 3 else if f.fb = 23 then fpm.getLsbD 5 else fpm.getLsbD 7
/-- The flush-result bit of a format's class (R99, Table 41). -/
def flushOut (fpm : Word) (f : Fmt) : Bool :=
  if f.fb = 52 then fpm.getLsbD 4 else if f.fb = 23 then fpm.getLsbD 6 else fpm.getLsbD 8

/-! ## Rounding (R97 to R99) -/

/-- Shift of a magnitude by an integer number of places. -/
def scale2 (m : Nat) (k : Int) : Nat := if 0 ≤ k then m * 2 ^ k.toNat else m / 2 ^ (-k).toNat

/-- Rounds m × 2^-k (k places dropped, plus a nonzero remainder below them when sticky) to an integer: the integer and whether
it is inexact. -/
def roundPlaces (mode : Rnd) (neg : Bool) (m : Nat) (k : Int) (sticky : Bool) : Nat × Bool :=
  if k ≤ 0 then (m * 2 ^ (-k).toNat, sticky)
  else
    let n := m / 2 ^ k.toNat
    let r := m % 2 ^ k.toNat
    let half := 2 ^ (k.toNat - 1)
    let inexact := r != 0 || sticky
    let up : Bool := match mode with
      | .rne => half < r || (r == half && (sticky || n % 2 == 1))
      | .rz => false
      | .ru => !neg && inexact
      | .rd => neg && inexact
    (if up then n + 1 else n, inexact)

/-- The result of an overflow (R97). -/
def Fmt.overflow (f : Fmt) (mode : Rnd) (neg : Bool) : Nat :=
  match mode with
  | .rne => f.inf neg
  | .rz => f.maxFin neg
  | .ru => if neg then f.maxFin true else f.inf false
  | .rd => if neg then f.inf true else f.maxFin false

/-- round(x, fmt, mode) for x = (-1)^neg × (m + s) × 2^e with m > 0, s = 0 unless sticky, when 0 < s < 1 and m has at least
f + 3 bits: the encoding and the flags (R97, R98, R99). -/
def Fmt.roundFin (f : Fmt) (mode : Rnd) (fo : Bool) (neg : Bool) (m : Nat) (e : Int) (sticky : Bool) : Nat × Flags :=
  if m = 0 then (f.zero neg, 0)
  else
    let lead : Int := e + (Nat.log2 m : Int)
    let emin : Int := 1 - (f.bias : Int)
    let qU : Int := lead - f.fb
    let u := roundPlaces mode neg m (qU - e) sticky
    let leadU : Int := if u.1 = 2 ^ (f.fb + 1) then lead + 1 else lead
    if (f.bias : Int) < leadU then (f.overflow mode neg, fOF ||| fNX)
    else
      let tiny := leadU < emin
      let q : Int := max qU (emin - f.fb)
      let g := roundPlaces mode neg m (q - e) sticky
      let bits := (q - (emin - f.fb)).toNat * 2 ^ f.fb + g.1
      if tiny && fo then (f.zero neg, fUF ||| fNX)
      else (bits + f.zero neg, flagIf g.2 fNX ||| flagIf (tiny && g.2) fUF)

/-- The sign of an exact zero that terms of these signs sum to (R97). -/
def zeroSign (mode : Rnd) (negs : List Bool) : Bool :=
  if negs.all id then !negs.isEmpty else if negs.any id then mode == .rd else false

/-- Exact sum of signed dyadic terms: an integer over a common power of two. -/
def exactSum (ts : List (Bool × Nat × Int)) : Int × Int :=
  let e := ts.foldl (fun (a : Int) t => min a t.2.2) ((ts.head?.map fun t => t.2.2).getD 0)
  (ts.foldl (fun (a : Int) t => a + (if t.1 then -1 else 1) * ((t.2.1 * 2 ^ (t.2.2 - e).toNat : Nat) : Int)) 0, e)

/-- The exact sum of values, rounded once (R97, R101): infinities of both signs are invalid, a NaN gives the canonical NaN, and sets no
flag even beside such infinities (notes/assumptions/65.md). -/
def Fmt.sum (f : Fmt) (mode : Rnd) (fo : Bool) (vs : List FVal) : Nat × Flags :=
  if vs.any fun v => match v with | .nan _ => true | _ => false then (f.nan, 0)
  else
    let pinf := vs.any fun v => match v with | .inf n => !n | _ => false
    let ninf := vs.any fun v => match v with | .inf n => n | _ => false
    if pinf && ninf then (f.nan, fNV)
    else if pinf then (f.inf false, 0)
    else if ninf then (f.inf true, 0)
    else
      let ts := vs.filterMap fun v => match v with | .fin n m e => some (n, m, e) | _ => none
      let s := exactSum ts
      if s.1 = 0 then (f.zero (zeroSign mode (ts.map fun t => t.1)), 0)
      else f.roundFin mode fo (s.1 < 0) s.1.natAbs s.2 false

/-- The exact product of two values; zero times infinity is invalid (R101). -/
def FVal.mul : FVal → FVal → FVal × Flags
  | .nan _, .nan _ => (.nan false, 0)
  | .nan _, _ => (.nan false, 0)
  | _, .nan _ => (.nan false, 0)
  | .inf a, .inf b => (.inf (a != b), 0)
  | .inf a, .fin b m _ => if m = 0 then (.nan false, fNV) else (.inf (a != b), 0)
  | .fin a m _, .inf b => if m = 0 then (.nan false, fNV) else (.inf (a != b), 0)
  | .fin a m e, .fin b n k => (.fin (a != b) (m * n) (e + k), 0)

/-- The negative of a value. -/
def FVal.negate : FVal → FVal
  | .nan s => .nan s
  | .inf n => .inf (!n)
  | .fin n m e => .fin (!n) m e

/-- A source as an operation sees it: flushed when its class says so, with ID for a flush and NV for a signalling NaN
(R99, R101). -/
def Fmt.source (f : Fmt) (fi : Bool) (b : Nat) : FVal × Flags :=
  if fi && f.subnormal b then (.fin (f.neg b) 0 0, fID)
  else match f.value b with
    | .nan s => (.nan s, flagIf s fNV)
    | v => (v, 0)

/-- Absolute value, then negation, of an encoding (R119). -/
def Fmt.modify (f : Fmt) (abs neg : Bool) (b : Nat) : Nat :=
  let m := b % 2 ^ (f.eb + f.fb)
  let s := if abs then false else f.neg b
  m + f.zero (s != neg)

/-- Exact comparison of two numbers, minus zero equal to plus zero: negative, zero or positive difference. -/
def FVal.cmp : FVal → FVal → Int
  | .inf a, .inf b => (if a then -1 else 1) - (if b then -1 else 1)
  | .inf a, _ => if a then -1 else 1
  | _, .inf b => if b then 1 else -1
  | .fin a m e, .fin b n k => (exactSum [(a, m, e), (!b, n, k)]).1
  | _, _ => 0

/-- A NaN. -/
def FVal.isNan : FVal → Bool
  | .nan _ => true
  | _ => false

/-- The sign of a value; a NaN counts as positive. -/
def FVal.sign : FVal → Bool
  | .nan _ => false
  | .inf n => n
  | .fin n _ _ => n

/-- Comparison with minus zero below plus zero (R220, R333). -/
def FVal.below (a b : FVal) : Bool :=
  let c := a.cmp b
  c < 0 || (c == 0 && a.sign && !b.sign)

/-- Conversion of a value to another format: exact when widening, one rounding when narrowing (R103); a NaN is canonical. -/
def Fmt.ofValue (f : Fmt) (mode : Rnd) (fo : Bool) : FVal → Nat × Flags
  | .nan _ => (f.nan, 0)
  | .inf n => (f.inf n, 0)
  | .fin n m e => f.roundFin mode fo n m e false

/-- An integer as an exact value. -/
def FVal.ofInt (i : Int) : FVal := .fin (i < 0) i.natAbs 0

/-! ## Integers -/

/-- The range of an integer format: lowest and highest. -/
def intRange (bits : Nat) (signed : Bool) : Int × Int :=
  if signed then (-(2 ^ (bits - 1) : Int), 2 ^ (bits - 1) - 1) else (0, 2 ^ bits - 1)

/-- sat(x, fmt) and whether it clamped (R95). -/
def satInt (bits : Nat) (signed : Bool) (x : Int) : Int × Bool :=
  let r := intRange bits signed
  if x < r.1 then (r.1, true) else if r.2 < x then (r.2, true) else (x, false)

/-- The number a field of bits stands for. -/
def toInt (bits : Nat) (signed : Bool) (v : Nat) : Int :=
  let u := v % 2 ^ bits
  if signed && 2 ^ (bits - 1) ≤ u then (u : Int) - 2 ^ bits else u

/-- The bits of a number modulo 2^bits (R95). -/
def ofInt (bits : Nat) (i : Int) : Nat := (i % 2 ^ bits).toNat

/-- Floating point to integer (R103): rounded in the mode, then saturated; NaN gives 0; NV and NX; an infinity sets NV alone
(notes/assumptions/64.md). -/
def cvtToInt (bits : Nat) (signed : Bool) (mode : Rnd) : FVal → Int × Flags
  | .nan _ => (0, fNV)
  | .inf n => (if n then (intRange bits signed).1 else (intRange bits signed).2, fNV)
  | .fin n m e =>
    let r := roundPlaces mode n m (-e) false
    let i : Int := if n then -(r.1 : Int) else r.1
    let s := satInt bits signed i
    (s.1, flagIf s.2 fNV ||| flagIf r.2 fNX)

end Sys2Proof.Machine
end

