-- ==== Sys2Proof/Machine/Memory.lean ====
section
/-! DEFINITION. Memory: the map of DRAM (Table 126), homes of rows with their deferred entries, derived rows, poison, ownership
and keys, the scratch and FIFO banks, page tables and access checks, and the fetch of a clause. -/
namespace Sys2Proof.Machine

/-! ## Where things are (Table 126) -/

/-- A group on a token die is on the token side (R384). -/
def tokenCore (c : Nat) : Bool := 640 ≤ c

/-- The row of a physical address, as a number of 2,048-byte rows. -/
def rowOf (pa : Nat) : Nat := pa / 2048

/-- The home basin of a physical address (Table 126). -/
def basinOf (pa : Nat) : Nat := 16 * (pa / 2 ^ 36) + Nat.xor (pa / 2 ^ 11 % 16) (pa / 2 ^ 20 % 16)

/-- The bank within the channel (Table 126). -/
def bankInChannel (pa : Nat) : Nat := Nat.xor (pa / 2 ^ 15 % 32) (pa / 2 ^ 24 % 32)

/-- The bank of a physical address, numbered 32 a basin. -/
def bankOf (pa : Nat) : Nat := 32 * basinOf pa + bankInChannel pa

/-- The row number within its bank (Table 126). -/
def rowInBank (pa : Nat) : Nat := pa / 2 ^ 20 % 2 ^ 16

/-- The row (as rowOf numbers it) that a bank holds at a row number: the inverse of Table 126. -/
def rowOfBank (bank row : Nat) : Nat :=
  let basin := bank / 32
  rowOf (basin / 16 * 2 ^ 36 + row * 2 ^ 20 + Nat.xor (bank % 32) (row / 16 % 32) * 2 ^ 15 + Nat.xor (basin % 16) (row % 16) * 2 ^ 11)

/-- A channel is present: neither it nor its die is absent (R435). -/
def basinPresent (s : State) (b : Nat) : Bool := !s.mgmt.absentBasins.contains b && !s.mgmt.absentDies.contains (dieOfBasin b)

/-- The die that offers reduced service: the lowest-numbered present prompt die (R428). -/
def reducedDie (s : State) : Nat := if s.mgmt.absentDies.contains 1 then 2 else 1

/-- A channel serves: in reduced service only those of the reduced die's stacks do (R428, R435). -/
def basinServes (s : State) (b : Nat) : Bool := basinPresent s b && (s.mgmt.state != 2 || dieOfBasin b == reducedDie s)

/-- The physical address names memory (R323, R435). -/
def isMemory (s : State) (pa : Nat) : Bool := pa < 0xC0_0000_0000 && basinServes s (basinOf pa)

/-- The handoff window a physical address lies in, as the die's window (R385). -/
def inWindow (s : State) (pa : Nat) : Bool :=
  let inW := fun (w : Nat × Nat) => w.1 ≤ pa && pa < w.1 + w.2
  inW s.mgmt.win0 || inW s.mgmt.win1

/-- A page's entry in its die's page-owner table (R386). -/
def ownerOf (s : State) (pa : Nat) : Owner := smGet Owner.reset s.owners (pa / 65536)

/-- The key of the copy of a page's entry that a basin holds. -/
def copyKey (page basin : Nat) : Nat := 256 * page + basin

/-- The entry of a page as the copy at the home of a physical address holds it (R386, R390). -/
def homeOwner (s : State) (pa : Nat) : Owner :=
  match smGet none s.lagging (copyKey (pa / 65536) (basinOf pa)) with
  | some l => l.old
  | none => ownerOf s pa

/-- Entries under way reach basin copies, each in its own time (R389, R390). -/
def ownersArrive (s : State) : State :=
  s.lagging.foldl (fun t e =>
    let m := if Config.freeBit t.fresh then smPut none t.lagging e.1 none else t.lagging
    { t with fresh := t.fresh + 1, lagging := m }) s

/-- The entries of one handoff or reclaim have reached every basin copy. -/
def ownersArrived (stamp : Nat) (s : State) : State :=
  { s with lagging := s.lagging.filter fun e => !e.2.any fun l => l.by_ == stamp }

/-- One event of the sluice order: every page takes this owner and generation; the copies of its homes follow (R389, R392). -/
def setOwners (s : State) (pages : List Nat) (o : Owner) (stamp : Nat) : State :=
  let lag := fun (m : SMap (Option Lag)) (p : Nat) =>
    (List.range 16).foldl (fun m c =>
      let l : Lag := { old := smGet Owner.reset s.owners p, by_ := stamp }
      smPut none m (copyKey p (16 * (p / 2 ^ 20) + c)) (some l)) m
  { s with
    owners := pages.foldl (fun m p => smPut Owner.reset m p o) s.owners
    lagging := pages.eraseDups.foldl lag s.lagging }

/-! ## Rows as their homes hold them -/

/-- A row's record at its home. -/
def rowAt (s : State) (r : Nat) : Row := smGet Row.reset s.rows r

/-- Changes a row's record. -/
def State.updRow (s : State) (r : Nat) (f : Row → Row) : State := { s with rows := smUpd Row.reset s.rows r f }

/-- Element width in bytes of a deferred type (R260). -/
def deferBytes : DTy → Nat
  | .f32 | .s32 => 4
  | .f16 | .bf16 | .s16 => 2
  | .s8 => 1

/-- One deferred addition: one rounding RNE for the floating types, modulo 2^w for the integers (R260, R349). -/
def deferAdd (t : DTy) (old v : Nat) : Nat :=
  let fl := fun (f : Fmt) => (f.sum .rne false [f.value old, f.value v]).1
  match t with
  | .f32 => fl fp32
  | .f16 => fl fp16
  | .bf16 => fl bf16
  | .s8 => (old + v) % 2 ^ 8
  | .s16 => (old + v) % 2 ^ 16
  | .s32 => (old + v) % 2 ^ 32

/-- The sector of a physical address is poisoned (R77). -/
def poisoned (s : State) (pa : Nat) : Bool := smGet false s.poison (pa / 32)

/-- Adds one deferred entry to memory; an entry in a poisoned sector is dropped (R349). -/
def mergeEntry (s : State) (e : Defer) : State :=
  if poisoned s e.pa then s
  else
    let n := deferBytes e.ty
    let old := leNat (smBytes s.dram e.pa n)
    { s with dram := smWrite s.dram e.pa (leBytes n (deferAdd e.ty old (e.val.toNat % 2 ^ (8 * n)))) }

/-- Marks every derived row that depends on a row, directly or through a chain (R368); a mark that reaches a row in the course of
a recompute is remembered (R369). -/
def markStale (s : State) (fuel : Nat) (r : Nat) : State :=
  match fuel with
  | 0 => s
  | f + 1 => (rowAt s r).deps.foldl (fun t d =>
      markStale (t.updRow d fun w =>
        { w with stale := true, okBefore := if w.stale then w.okBefore else 0
                 remark := if w.part.isEmpty then w.remark else some t.stamp }) f d) s

/-! ## Keys (R324, R325)

`State.dram` holds each line as it reads under the key slot that `State.lineKey` names for it; a line under slot 0 is held as DRAM
holds it. -/

/-- The key in a slot; slot 0 is no encryption, and so is a slot that has never been loaded (notes/assumptions/58.md). -/
def keyOf (s : State) (k : Nat) : Option (BitVec 512) := if k = 0 then none else smGet none s.mgmt.keySlots k

/-- A line as it reads under another key: encrypted under the old one, decrypted under the new (R324, R325). -/
def recrypt (old new : Option (BitVec 512)) (line : Nat) (bs : List Byte) : List Byte :=
  if old = new then bs
  else
    let c := match old with | some k => xtsLine true k line bs | none => bs
    match new with | some k => xtsLine false k line c | none => c

/-- Holds a line under a key slot. -/
def rekeyLine (s : State) (line key : Nat) : State :=
  let old := smGet 0 s.lineKey line
  if old = key then s
  else
    let bs := recrypt (keyOf s old) (keyOf s key) line (smBytes s.dram (128 * line) 128)
    { s with dram := smWrite s.dram (128 * line) bs, lineKey := smPut 0 s.lineKey line key }

/-- A row as DRAM holds it, which is what merges, turns, captures and recomputes work on (R324). -/
def rawRow (s : State) (r : Nat) : State :=
  if s.lineKey.isEmpty then s else (List.range 16).foldl (fun t i => rekeyLine t (16 * r + i) 0) s

/-! ## L2 slices (R322, R325) -/

/-- The home basin of a line, and its set there (notes/assumptions/59.md). -/
def l2Basin (line : Nat) : Nat := basinOf (128 * line)
def l2Set (line : Nat) : Nat := line % 16 + 16 * (line / 256 % 32) + 512 * (line / 8192 % 2)

/-- The places a line may take: 16 ways of its set. -/
def l2Places (line : Nat) : List Nat := (List.range 16).map fun w => (16 * l2Basin line + w) * 1024 + l2Set line

/-- The line where its slice holds it. -/
def l2Find (s : State) (line : Nat) : Option (Nat × L2Line) :=
  (l2Places line).findSome? fun i => match smGet none s.l2 i with
    | some l => if l.line = line then some (i, l) else none
    | none => none

/-- L2 lines of a row leave the slice. -/
def dropL2 (r : Nat) (s : State) : State := { s with l2 := s.l2.filter fun kv => !kv.2.any fun l => l.line / 16 == r }

/-- Merges a row's deferred entries in acceptance order and drops the row's L2 lines (R348). Entries accepted before a rule
existed mark its rows when they merge (R368). -/
def mergeRow (s : State) (r : Nat) : State :=
  let b := bankOf (r * 2048)
  let bank := smGet Bank.reset s.banks b
  let mine := bank.deferred.filter fun e => rowOf e.pa = r
  if mine.isEmpty then s
  else
    let s1 := mine.foldl mergeEntry (rawRow s r)
    markStale (dropL2 r { s1 with
      banks := smPut Bank.reset s1.banks b { bank with deferred := bank.deferred.filter fun e => rowOf e.pa != r } }) 4 r

/-! ## Derived rows (R365 to R369) -/

/-- The 2,048 bytes of a row as memory holds them. -/
def rowBytes (s : State) (r : Nat) : List Byte := smBytes s.dram (r * 2048) 2048

/-- The k-th little-endian field of n bytes. -/
def fieldAt (bs : List Byte) (n k : Nat) : Nat := leNat ((bs.drop (n * k)).take n)

/-- A derived row from its bases (Table 142). -/
def deriveBytes (rule : DRule) (bases : List (List Byte)) : List Byte :=
  let f := if rule.fmt = 2 then fp16 else bf16
  let base := fun (j : Nat) => bases.getD j []
  if rule.fn = 1 then
    (List.range 1024).flatMap fun m => leBytes 2 (fieldAt (base 0) 2 (32 * (m % 32) + m / 32))
  else if rule.fn = 2 then
    (List.range 1024).flatMap fun m =>
      leBytes 2 (f.ofValue .rne false (fp32.value (fieldAt (base (m / 512)) 4 (m % 512)))).1
  else
    (List.range 512).flatMap fun m =>
      leBytes 4 (fp32.sum .rne false ((List.range 32).map fun c => f.value (fieldAt (base (m / 32)) 2 (32 * (m % 32) + c)))).1

/-- The base sectors, as (base, first byte, bytes), that a byte of a derived row is computed from (R369). -/
def deriveSources (rule : DRule) (i : Nat) : List (Nat × Nat × Nat) :=
  if rule.fn = 1 then let m := i / 2; [(0, 2 * (32 * (m % 32) + m / 32), 2)]
  else if rule.fn = 2 then let m := i / 2; [(m / 512, 4 * (m % 512), 4)]
  else let m := i / 4; [(m / 32, 64 * (m % 32), 64)]

/-- The poisoned sectors of a row, numbered within it. -/
def badSectors (s : State) (r : Nat) : List Nat := (List.range 64).filter fun k => smGet false s.poison (64 * r + k)

/-- Poison of a derived row's sectors after a recompute: a sector computed from a base sector that was poisoned when its row was read is
poisoned, every other is cleared (R369). -/
def derivePoison (s : State) (r : Nat) (rule : DRule) (taint : List (List Nat)) : SMap Bool :=
  (List.range 64).foldl (fun m k =>
    let bad := (List.range 32).any fun i => (deriveSources rule (32 * k + i)).any fun (j, o, n) =>
      let ks := taint.getD j []
      ks.contains (o / 32) || ks.contains ((o + n - 1) / 32)
    smPut false m (64 * r + k) bad) s.poison

/-- Writes a recomputed derived row and clears its mark unless a new one has reached it (R369). -/
def finishRecompute (s : State) (r : Nat) (rule : DRule) (bases : List (List Byte)) (taint : List (List Nat)) : State :=
  let w := rowAt s r
  let t := rawRow s r
  { t with
    dram := smWrite t.dram (r * 2048) (deriveBytes rule bases)
    poison := derivePoison s r rule taint
    rows := smPut Row.reset s.rows r
      { w with stale := w.remark.isSome, part := [], taint := [], remark := none, okBefore := w.remark.getD 0 } }

/-- One step of a recompute: the next base row is read as one event at its home; after the last the row is computed (R369). A base
row that is itself stale is recomputed first. -/
def recomputeStep (s : State) (r : Nat) : State :=
  let w := rowAt s r
  match w.rule with
  | none => s
  | some rule =>
    if !w.stale then s
    else match rule.bases[w.part.length]? with
      | none => finishRecompute s r rule w.part w.taint
      | some b =>
        if (rowAt s b).stale then s
        else
          let s1 := rawRow (mergeRow s b) b
          let part := (rowAt s1 r).part ++ [rowBytes s1 b]
          let taint := (rowAt s1 r).taint ++ [badSectors s1 b]
          let s2 := s1.updRow r fun w => { w with part := part, taint := taint }
          if part.length = rule.bases.length then finishRecompute s2 r rule part taint else s2

/-- A whole recompute at once, bases first (R369), as a turn or a drop performs it. -/
def recomputeRow (s : State) (fuel : Nat) (r : Nat) : State :=
  match fuel with
  | 0 => s
  | f + 1 =>
    match (rowAt s r).rule with
    | none => s
    | some rule =>
      if !(rowAt s r).stale then s
      else
        let s1 := rule.bases.foldl (fun t b => rawRow (mergeRow (recomputeRow t f b) b) b) s
        finishRecompute (s1.updRow r fun w => { w with remark := none }) r rule (rule.bases.map (rowBytes s1))
          (rule.bases.map (badSectors s1))

/-- The byte a read at the home returns: deferred entries merged, a stale derived row recomputed (R62, R68). -/
def viewByte (s : State) (pa : Nat) : Byte :=
  let r := rowOf pa
  smGet 0 (mergeRow (recomputeRow s 4 r) r).dram pa

/-- The little-endian value of n bytes as reads at the home return them. -/
def viewNat (s : State) (pa n : Nat) : Nat :=
  if rowOf pa = rowOf (pa + n - 1) && !(rowAt s (rowOf pa)).stale &&
      (smGet Bank.reset s.banks (bankOf pa)).deferred.isEmpty then leNat (smBytes s.dram pa n)
  else leNat ((List.range n).map fun i => viewByte s (pa + i))

/-! ## Lines in L2 (R325) -/

/-- An access under a key slot that finds the line in L2 under another faults; a line the slice has meanwhile evicted does not
(R325). -/
def keyClash (s : State) (pa key : Nat) : Bool :=
  ((l2Find s (pa / 128)).any fun l => l.2.key != key) && !Config.freeBit s.stamp

/-- Brings a line into its slice under a key slot, in the place of a line that leaves when the set is full: a line that was last held
under another slot reads as its ciphertext decrypted under this one (R322, R325). -/
def touchLine (s : State) (line key : Nat) (write : Bool) : State :=
  let s1 := rekeyLine s line key
  let put := fun (i : Nat) (d : Bool) (t : State) => { t with l2 := smPut none t.l2 i (some { line := line, key := key, dirty := d }) }
  match l2Find s1 line with
  | some l => put l.1 (l.2.dirty || write) s1
  | none =>
    match (l2Places line).find? fun i => (smGet none s1.l2 i).isNone with
    | some i => put i write s1
    | none =>
      let i := (l2Places line).getD ((Config.freeWord s1.fresh).toNat % 16) 0
      put i write { s1 with fresh := s1.fresh + 1 }

/-! ## Reads and writes at homes -/

/-- What a home answers. -/
inductive Home (α : Type) where
  | wait
  | refuse (code : BitVec 8) (info : Word)
  | ok (a : α)

/-- The lines a range of bytes touches. -/
def linesOf (pa n : Nat) : List Nat := (List.range ((pa + n - 1) / 128 + 1 - pa / 128)).map fun i => pa / 128 + i

/-- The first poisoned sector of a range. -/
def firstPoison (s : State) (pa n : Nat) : Option Nat :=
  ((List.range ((pa + n - 1) / 32 + 1 - pa / 32)).map fun i => pa / 32 + i).find? fun k => smGet false s.poison k

/-- A read that a poisoned sector refuses at its instruction has come to its home, where the row's entries merge (R77, R348); the record's INFO
is the sector's address. -/
def refusedRow (code : BitVec 8) (info : Word) (s : State) : State :=
  if code = cMemUncorrectable then mergeRow s (rowOf info.toNat) else s

/-- A read of bytes of one row at its home: waits for the recompute of a stale derived row (R369), merges deferred entries
(R348), returns MEM_UNCORRECTABLE for a poisoned sector (R77). `came` is the moment at which the read came to its home: a mark that
follows it need not hold it (R369). -/
def homeRead (s : State) (pa n key came : Nat) : Home (State × List Byte) :=
  let r := rowOf pa
  if (rowAt s r).stale && !(came < (rowAt s r).okBefore) then .wait
  else
    let s1 := (linesOf pa n).foldl (fun t l => touchLine t l key false) (mergeRow s r)
    match firstPoison s1 pa n with
    | some k => .refuse cMemUncorrectable (BitVec.ofNat 64 (32 * k))
    | none => .ok (s1, smBytes s1.dram pa n)

/-- Bytes of a bucket's region that a write covers (R409). -/
def bucketBytes (b : Nat × Nat × Nat) (pa n : Nat) : Nat :=
  let off := pa % 2048
  min (off + n) (b.2.1 + b.2.2) - max off b.2.1

/-- A bucket counter of 40 bits counts bytes, and stays at its largest value rather than pass it (R408, notes/assumptions/73.md). -/
def countUp (n : Nat) (k : BitVec 40) : BitVec 40 := BitVec.ofNat 40 (min (2 ^ 40 - 1) (k.toNat + n))

/-- Counts a write in the buckets registered on its row (R409). -/
def countBuckets (s : State) (pa n : Nat) : State :=
  (rowAt s (rowOf pa)).buckets.foldl (fun t b =>
    { t with coll := { t.coll with counts := smUpd 0 t.coll.counts b.1 (countUp (bucketBytes b pa n)) } }) s

/-- Whether a home refuses a write of an agent of this side (none: of neither side), in the order of the codes (R387, R370,
R77). -/
def refusal (s : State) (side : Option Bool) (pa n : Nat) : Option (BitVec 8 × Word) :=
  if inWindow s pa && side != some (homeOwner s pa).token then some (cNotOwner, (homeOwner s pa).gen)
  else if (rowAt s (rowOf pa)).rule.isSome then some (cDerivedWrite, BitVec.ofNat 64 (rowOf pa * 2048))
  else
    let ks := (List.range ((pa + n - 1) / 32 + 1 - pa / 32)).map fun i => pa / 32 + i
    match ks.find? fun k => smGet false s.poison k && !(pa ≤ 32 * k && 32 * k + 32 ≤ pa + n) with
    | some k => some (cMemUncorrectable, BitVec.ofNat 64 (32 * k))
    | none => none

/-- The bytes of a basin's own write: deferred entries are merged first (R348), dependents are marked (R368), whole sectors lose their
poison (R77). -/
def placeBytes (s : State) (pa key : Nat) (bs : List Byte) : State :=
  let n := bs.length
  let r := rowOf pa
  let s1 := (linesOf pa n).foldl (fun t l => touchLine t l key true) (mergeRow s r)
  let s2 := markStale s1 4 r
  let ks := (List.range ((pa + n - 1) / 32 + 1 - pa / 32)).map fun i => pa / 32 + i
  { s2 with
    dram := smWrite s2.dram pa bs
    poison := ks.foldl (fun m k => if pa ≤ 32 * k && 32 * k + 32 ≤ pa + n then smPut false m k false else m) s2.poison }

/-- The bytes of a write of an agent that no home refuses, which the buckets of its row count (R409). -/
def putBytes (s : State) (pa key : Nat) (bs : List Byte) : State := countBuckets (placeBytes s pa key bs) pa bs.length

/-- The writes of a mapping, 256 bytes at a time at most. -/
def Mapping.parts (m : Mapping) : List MapWrite :=
  m.writes.flatMap fun w => (List.range ((w.pa % 256 + w.bytes.length + 255) / 256)).map fun i =>
    let lo := max w.pa ((w.pa / 256 + i) * 256)
    { pa := lo, key := w.key, bytes := (w.bytes.drop (lo - w.pa)).take ((w.pa / 256 + i + 1) * 256 - lo) }

/-- The next mapping to come is made, if it is of this kind: none while a pending copyout holds one of its rows (R308, R329, R375). -/
def mapNext (changes : Bool) (s : State) : Option State :=
  match s.mgmt.mappings with
  | m :: ms =>
    if m.changes != changes then some s
    else if m.parts.any fun w => (rowAt s (rowOf w.pa)).copyout.isSome then none
    else some (m.parts.foldl (fun t w => placeBytes t w.pa w.key w.bytes) { s with mgmt := { s.mgmt with mappings := ms } })
  | [] => some s

/-- A write of bytes of one row at its home (R50, R64): refused, held until a pending copyout is captured (R375), or
performed. -/
def homeWrite (s : State) (side : Option Bool) (pa key : Nat) (bs : List Byte) : Home State :=
  match refusal s side pa bs.length with
  | some (c, i) => .refuse c i
  | none => if (rowAt s (rowOf pa)).copyout.isSome then .wait else .ok (putBytes s pa key bs)

/-! ## Page tables (R326, R327) -/

/-- Result of an access check: a place, or a fault's code and INFO. -/
inductive XRes where
  | ok (l : Loc)
  | bad (code : BitVec 8) (info : Word)
  deriving DecidableEq, Repr

/-- The bits of a virtual address a level indexes, the shift of a leaf there, the alignment of what its entry names (Table 128). -/
def levelShift : Nat → Nat
  | 0 => 48 | 1 => 39 | 2 => 30 | 3 => 21 | _ => 16
def levelEntries : Nat → Nat
  | 0 => 256 | 4 => 32 | _ => 512
def tableAlign : Nat → Nat
  | 0 => 2048 | 4 => 256 | _ => 4096

/-- An entry is valid at a level (R327). -/
def pteValid (s : State) (level : Nat) (e : Word) : Bool :=
  let leaf := e.getLsbD 1
  let addr := e.toNat / 256 % 2 ^ 44 * 256
  let align := if leaf then 2 ^ levelShift level else tableAlign (level + 1)
  e.getLsbD 0 && e.toNat / 2 ^ 52 % 256 == 0 && e.toNat / 16 % 16 == 0 &&
    (if leaf then 2 ≤ level else level < 4 && !e.getLsbD 2 && !e.getLsbD 3 && e.toNat / 2 ^ 60 == 0) &&
    addr % align == 0 && isMemory s addr

/-- The entry a walk reads at a level; the walk reads it as its home holds it, whatever the slot of its line and whether or not its
sector is poisoned (notes/assumptions/60.md). A table that begins in a present channel may hold the entry in an absent one, where the walk
reads what is stored there (notes/assumptions/55.md). -/
def entryAt (va table level : Nat) : Nat := table + 8 * (va / 2 ^ levelShift level % levelEntries level)

/-- A walk from a level down (fuel bounds it by the five levels): the leaf, or the level of the invalid entry. -/
def walk (s : State) (va : Nat) (table level : Nat) : Nat → Except Nat Leaf
  | 0 => .error 4
  | f + 1 =>
    let e := BitVec.ofNat 64 (viewNat s (entryAt va table level) 8)
    if !pteValid s level e then .error level
    else if e.getLsbD 1 then .ok { pte := e, level := level }
    else walk s va (e.toNat / 256 % 2 ^ 44 * 256) (level + 1) f

/-- The walk of an address space; an address space without a root has no valid entry at level 0. -/
def walkSpace (s : State) (asid va : Nat) : Except Nat Leaf :=
  match smGet none s.mgmt.spaces asid with
  | none => .error 0
  | some root => walk s va root 0 5

/-- A read of a line's row at its home by a walk or a fetch: entries are merged, a stale row is recomputed, the line comes into L2
(R322, R348, R369). -/
def arriveAt (s : State) (pa key : Nat) : State :=
  let r := rowOf pa
  touchLine (mergeRow (recomputeRow s 4 r) r) (pa / 128) key false

/-- What the entries of a walk do at their homes (R326). -/
def walkReads (s : State) (va : Nat) (table level : Nat) : Nat → State
  | 0 => s
  | f + 1 =>
    let pa := entryAt va table level
    let t := arriveAt s pa (smGet 0 s.lineKey (pa / 128))
    let e := BitVec.ofNat 64 (viewNat t pa 8)
    if !pteValid t level e || e.getLsbD 1 then t else walkReads t va (e.toNat / 256 % 2 ^ 44 * 256) (level + 1) f

/-! ## TLBs (R328, R329) -/

/-- Who translates: a group of a core, a copy engine of a quad, another engine of a die. -/
inductive Agent where
  | core (c : Nat)
  | quad (q : Nat)
  | die (d : Nat)
  deriving DecidableEq, Repr

/-- The die of a package quad. -/
def dieOfQuad (q : Nat) : Nat := if q < 80 then 1 else if q < 160 then 2 else if q < 208 then 3 else 4

/-- The die whose last-level TLB an agent uses. -/
def Agent.die_ : Agent → Nat
  | .core c => dieOfCore c
  | .quad q => dieOfQuad q
  | .die d => d

/-- The key of a page of a level in an address space. -/
def pageKey (asid level va : Nat) : Nat := (8 * asid + level) * 2 ^ 40 + va / 2 ^ levelShift level

/-- The keys under which the pages of a die's TLB lie. -/
def dieKey (die k : Nat) : Nat := die * 2 ^ 60 + k

/-- The page of an address that a TLB holds, whatever its size. -/
def tlbFind (m : SMap (Option Leaf)) (key : Nat → Nat) (asid va : Nat) : Option Leaf :=
  [4, 3, 2].findSome? fun l => smGet none m (key (pageKey asid l va))

/-- The agent's own TLB. -/
def ownTlb (s : State) : Agent → SMap (Option Leaf)
  | .core c => (smGet Core.reset s.cores c).tlb
  | .quad q => (smGet Quad.reset s.quads q).tlb
  | .die _ => []

/-- The translation the TLBs of an agent hold for an address. -/
def cached (s : State) (ag : Agent) (asid va : Nat) : Option Leaf :=
  (tlbFind (ownTlb s ag) id asid va).orElse fun _ => tlbFind s.tlb (dieKey ag.die_) asid va

/-- The leaf in use for an address: the walk's, or, while a changed mapping is not yet invalidated, either (R328, R329). -/
def leafOf (s : State) (ag : Agent) (asid va : Nat) : Except Nat Leaf :=
  match cached s ag asid va with
  | some old =>
    match walkSpace s asid va with
    | .ok new => if old = new then .ok new else if Config.freeBit s.stamp then .ok old else .ok new
    | .error l => if Config.freeBit s.stamp then .ok old else .error l
  | none => walkSpace s asid va

/-- The physical address at which a leaf places a virtual one. -/
def Leaf.place (l : Leaf) (va : Nat) : Nat := l.pte.toNat / 256 % 2 ^ 44 * 256 + va % 2 ^ levelShift l.level

/-- The translation an access uses: a leaf that places the address in an absent channel names no memory (R323, R327, R435). -/
def lookup (s : State) (ag : Agent) (asid va : Nat) : Except Nat Leaf :=
  match leafOf s ag asid va with
  | .ok l => if isMemory s (l.place va) then .ok l else .error l.level
  | .error l => .error l

/-- Adds a page to a TLB of n entries among those that count, in the place of a victim when it is full (R328). -/
def tlbAdd (n free : Nat) (counts : Nat → Bool) (k : Nat) (l : Leaf) (m : SMap (Option Leaf)) : SMap (Option Leaf) :=
  let ks := (m.map (·.1)).filter counts
  if ks.contains k || ks.length < n then smPut none m k (some l)
  else smPut none (smDel m (ks.getD ((Config.freeWord free).toNat % n) 0)) k (some l)

/-- The entries of a die's last-level TLB that share the capacity of a level: 1,024 of 1 GiB pages, 16,384 of the others (R328). -/
def dieShare (die level k : Nat) : Bool := k / 2 ^ 60 == die && ((k / 2 ^ 40 % 8 == 2) == (level == 2))

/-- An access's translation is kept in its agent's TLBs; one they did not hold was walked (R326, R328). -/
def fillTlb (s : State) (ag : Agent) (asid va : Nat) : State :=
  match leafOf s ag asid va with
  | .error _ => s
  | .ok l =>
    let walked := (cached s ag asid va).isNone
    let s1 := if walked then (match smGet none s.mgmt.spaces asid with | some root => walkReads s va root 0 5 | none => s) else s
    let k := pageKey asid l.level va
    let d := dieKey ag.die_ k
    let s2 := { s1 with
      fresh := s1.fresh + 2
      tlb := tlbAdd (if l.level = 2 then 1024 else 16384) s1.fresh (dieShare ag.die_ l.level) d l s1.tlb }
    match ag with
    | .core c => { s2 with cores := smUpd Core.reset s2.cores c fun x => { x with tlb := tlbAdd 64 (s1.fresh + 1) (fun _ => true) k l x.tlb } }
    | .quad q => { s2 with quads := smUpd Quad.reset s2.quads q fun x => { x with tlb := tlbAdd 32 (s1.fresh + 1) (fun _ => true) k l x.tlb } }
    | .die _ => s2

/-! ## Access checks -/

/-- Code of Table 130 for the level of an invalid entry. -/
def absentInfo (level : Nat) : Word := BitVec.ofNat 64 (4 - level)

/-- Translation of a global address (R326, R327): ACC 1 read, 2 write, 3 atomic, 4 fetch. The capability block is readable at the
address the CSR capa holds and denies every write (R434). -/
def translate (s : State) (ag : Agent) (asid va : Nat) (acc : BitVec 4) : XRes :=
  let cb := (smGet 0 s.mgmt.capaMap asid).toNat
  if cb != 0 && cb ≤ va && va < cb + 256 then
    if acc = 1 then .ok (.capa (va - cb)) else .bad cXlatePerm 3
  else match lookup s ag asid va with
    | .error l => .bad cXlateAbsent (absentInfo l)
    | .ok leaf =>
      let pa := leaf.place va
      let key := leaf.pte.toNat / 2 ^ 60
      let denied := ((acc == 2 || acc == 3) && !leaf.pte.getLsbD 2) || (acc == 4 && !leaf.pte.getLsbD 3)
      if denied || keyClash s pa key then .bad cXlatePerm (BitVec.ofNat 64 (leaf.pte.toNat % 16))
      else .ok (.dram pa key)

/-- First address of the local window (Table 97). -/
def localBase : Nat := 0x00FF_FF00_0000_0000

/-- What an access may address: FIFO banks by the plain loads and stores of R315, the local window at all. -/
structure Reach where
  fifo : Bool
  window : Bool
  deriving DecidableEq, Repr

/-- A team has groups that have not ended. -/
def Team.alive (t : Team) : Bool := t.ended.length < t.slots.length

/-- The address check of R158 with Table 97: absent, then misaligned, then the local window or the page tables. -/
def accessCheck (s : State) (g : Group) (va : Word) (w : Nat) (acc : BitVec 4) (reach : Reach) : XRes :=
  if high8 va then .bad cXlateAbsent 5
  else if va.toNat % w != 0 then .bad cAlign 0
  else if va.toNat < localBase then translate s (.core g.core) g.asid va.toNat acc
  else
    let cl := smGet Cluster.reset s.clusters (smGet Team.reset s.teams g.team).cluster
    let o := va.toNat - localBase
    if cl.cw * cl.ch * 2 ^ 18 ≤ o then .bad cXlateAbsent 5
    else if acc = 4 || !reach.window then .bad cTargetBad va
    else
      let tm := smGet Team.reset s.teams (cl.teams.getD (o / 2 ^ 18) 0)
      let bank := o / 2 ^ 15 % 8
      let mode := (smGet 0 (smGet Core.reset s.cores tm.core).bankMode bank).toNat
      if mode % 4 = 0 || mode / 8 != tm.slots.headD 0 || !tm.alive then .bad cTargetBad va
      else if mode % 4 = 1 then .ok (.sram (tm.core * 2 ^ 18 + o % 2 ^ 18))
      else if reach.fifo then .ok (.fifo tm.core bank)
      else .bad cTargetBad va

/-! ## The write-through buffer -/

/-- The core's write-through buffer holds a store to a line (R320). -/
def lineBuffered (s : State) (core line : Nat) : Bool :=
  (s.g :: s.others).any fun h => h.live && h.core == core && h.accs.any fun x => x.lanes.any fun l =>
    l.buffered && match l.loc with | .dram pa _ => pa / 128 == line | _ => false

/-! ## Fetch (R84, R85, R113, R173) -/

/-- What a fetch answers: it waits for a store of its core (R320), it meets a fault at an address (ACC 4), or the words it has read. -/
inductive Fetch where
  | wait
  | fault (code : BitVec 8) (info va : Word) (s : State)
  | ok (s : State) (words : List Word)

/-- The physical place of the word at a virtual address, with its slot, or the fault of its fetch (R75, Table 97). -/
def fetchPlace (s : State) (g : Group) (va : Word) : Except (BitVec 8 × Word) (Nat × Nat) :=
  match accessCheck s g va 8 4 { fifo := false, window := true } with
  | .bad c i => .error (c, i)
  | .ok (.dram pa key) => .ok (pa, key)
  | .ok _ => .error (cXlateAbsent, 5)

/-- The words from an address on as their homes hold them now; a word whose line the core's buffer holds makes the fetch wait. A fetch that
a poisoned sector refuses has arrived at its home too (R77, R348). -/
def fetchFrom (s : State) (g : Group) (va : Word) : Nat → Fetch
  | 0 => .ok s []
  | n + 1 =>
    match fetchPlace s g va with
    | .error (c, i) => .fault c i va s
    | .ok (pa, key) =>
      if lineBuffered s g.core (pa / 128) then .wait
      else
        let t := arriveAt (fillTlb s (.core g.core) g.asid va.toNat) pa key
        match firstPoison t pa 8 with
        | some k => .fault cMemUncorrectable (BitVec.ofNat 64 (32 * k)) va t
        | none =>
        match fetchFrom t g (va + 8) n with
        | .ok u ws => .ok u (BitVec.ofNat 64 (viewNat t pa 8) :: ws)
        | r => r

/-- The header at an address, read at its home. -/
def fetchHeader (s : State) (g : Group) (va : Word) : Fetch := fetchFrom s g va 1

/-- Whether the header that a fetch has read is followed by n + 1 words; none when the clause has no more to fetch. -/
abbrev ClauseLen := Word → Option Nat

/-- A clause is fetched whole, header first: entirely as its homes hold it now, or entirely as the instruction cache holds it under the
address of its header (R84, R85). -/
def fetchClause (s : State) (g : Group) (va : Word) (len : ClauseLen) : Fetch :=
  let now := match fetchHeader s g va with
    | .ok t [h] => match len h with
      | some n => (match fetchFrom t g (va + 8) (n + 1) with | .ok u ws => .ok u (h :: ws) | r => r)
      | none => .ok t [h]
    | r => r
  match fetchPlace s g va with
  | .error _ => now
  | .ok (pa, _) =>
    let keep := fun (ws : List Word) (t : State) =>
      { t with cores := smUpd Core.reset t.cores g.core fun c => { c with icache := smPut [] c.icache pa ws } }
    match smGet [] (smGet Core.reset s.cores g.core).icache pa, now with
    | [], .ok u ws => .ok (keep ws u) ws
    | old, .ok u ws => if old = ws then .ok u ws else if Config.freeBit s.stamp then .ok u old else .ok (keep ws u) ws
    | [], r => r
    | old, .wait => if Config.freeBit s.stamp then .ok s old else .wait
    | _, r => r

end Sys2Proof.Machine
end

