-- ==== Sys2Proof/Machine/Csr.lean ====
section
/-! DEFINITION. Control and status registers (R138 to R140, R195), barriers and arrival counters (R186 to R188), matrix ownership
and tile configuration (R191 to R194). -/
namespace Sys2Proof.Machine

/-! ## Reading CSRs -/

/-- The value of a listed CSR other than `flags`; none for a selector not listed (Table 58, Table 14). -/
def Group.csr (g : Group) (sel : Nat) : Option Word :=
  let n := fun (k : Nat) => some (BitVec.ofNat 64 k)
  let i := g.id
  match sel with
  | 0x000 => some g.mode.fpm
  | 0x002 => some g.mode.qtab
  | 0x003 => some g.mode.chk
  | 0x004 => some g.mode.part
  | 0x005 => n (g.levels.length + 1)
  | 0x020 => n (i.grp % 32)
  | 0x021 => n (i.ngrp % 64)
  | 0x022 => n (i.nlane % 2048)
  | 0x023 => n (i.row % 256 * 256 + i.col % 256)
  | 0x024 => n (i.ch % 256 * 256 + i.cw % 256)
  | 0x025 => n (i.cluX % 65536)
  | 0x026 => n (i.cluY % 65536)
  | 0x027 => n (i.cluZ % 65536)
  | 0x028 => n (i.gX % 65536)
  | 0x029 => n (i.gY % 65536)
  | 0x02A => n (i.gZ % 65536)
  | 0x02B => n (i.core % 1024)
  | 0x02C => some (i.parm.zeroExtend 64)
  | 0x02D => some (i.capa.zeroExtend 64)
  | _ => if 8 ≤ sel ∧ sel ≤ 15 then some ((smGet 0 g.a (sel - 8)).zeroExtend 64) else none

/-- `csrr` (R195). `flags` reads as the bits that count for certain and any subset of the later ones (R105). -/
def execCsrr (g : CGuard) (d : XReg) (sel : BitVec 12) (s : State) : Out :=
  ctlInstr g [] s fun t =>
    if sel = 1 then
      ctlWrite d (t.g.flagsDone ||| (t.g.flagsLate &&& Config.freeWord t.fresh)) { t with fresh := t.fresh + 1 }
    else match t.g.csr sel.toNat with
      | some v => ctlWrite d v t
      | none => ctlFault cTargetBad 0 0 (sel.zeroExtend 64) t

/-! ## Writing CSRs -/

/-- A CSR write: TARGET_BAD with INFO the value when it is not allowed, else the change (R139, R140, R100, R110). -/
def csrWrite (g : CGuard) (a : XReg) (ok : Word → Bool) (f : Word → Group → Group) (s : State) : Out :=
  ctlInstr g [a] s fun t =>
    let v := t.g.readX a
    if ok v then ctlAdvance (t.withG (f v t.g)) else ctlFault cTargetBad 0 0 v t

/-- `fpm` accepts RM 1 to 4 and no reserved bit (R100). -/
def fpmOk (v : Word) : Bool := v.toNat < 512 && 1 ≤ v.toNat % 8 && v.toNat % 8 ≤ 4
/-- `qtab` accepts bits [17:10] only (R110). -/
def qtabOk (v : Word) : Bool := v &&& ~~~ 0x3_FC00#64 == 0
/-- `chk` accepts bits [1:0] only (R140). -/
def chkOk (v : Word) : Bool := v.toNat < 4
/-- `part` accepts TW 1 to 5 (R140). -/
def partOk (v : Word) : Bool := 1 ≤ v.toNat && v.toNat ≤ 5
/-- `flags` accepts bits [7:0] only (Table 42). -/
def flagsOk (v : Word) : Bool := v.toNat < 256
/-- An arrival counter accepts 32 bits (R139). -/
def counterOk (v : Word) : Bool := v.toNat < 2 ^ 32

/-- `csrw fpm`. -/
def execCsrwFpm (g : CGuard) (a : XReg) (s : State) : Out :=
  csrWrite g a fpmOk (fun v h => { h with mode := { h.mode with fpm := v } }) s
/-- `csrw qtab`. -/
def execCsrwQtab (g : CGuard) (a : XReg) (s : State) : Out :=
  csrWrite g a qtabOk (fun v h => { h with mode := { h.mode with qtab := v } }) s
/-- `csrw chk`. -/
def execCsrwChk (g : CGuard) (a : XReg) (s : State) : Out :=
  csrWrite g a chkOk (fun v h => { h with mode := { h.mode with chk := v } }) s
/-- `csrw part`. -/
def execCsrwPart (g : CGuard) (a : XReg) (s : State) : Out :=
  csrWrite g a partOk (fun v h => { h with mode := { h.mode with part := v } }) s
/-- `csrw flags`: the bits of every token sent before are replaced (R105). -/
def execCsrwFlags (g : CGuard) (a : XReg) (s : State) : Out :=
  csrWrite g a flagsOk (fun v h => { h with flagsDone := v, flagsLate := 0, fseq := h.fseq + 1 }) s
/-- `csrw` of an arrival counter (R138). -/
def execCsrwArrivalCounter (g : CGuard) (a : XReg) (n : BitVec 3) (s : State) : Out :=
  csrWrite g a counterOk (fun v h => { h with a := smPut 0 h.a n.toNat (v.truncate 32) }) s
/-- `csrw` of any other selector, read-only or not listed, faults TARGET_BAD with INFO the selector (R139, R26). -/
def execCsrw (g : CGuard) (a : XReg) (sel : BitVec 12) (s : State) : Out :=
  ctlInstr g [a] s fun t => ctlFault cTargetBad 0 0 (sel.zeroExtend 64) t

/-- ORs a vector instruction's flags into `flags` (R104, R105): dropped when a `csrw flags` followed its token, certain when its
token was sent before the last completed vsync or vget. -/
def Group.addFlags (g : Group) (fseq epoch : Nat) (f : BitVec 8) : Group :=
  if fseq != g.fseq then g
  else if epoch < g.epoch then { g with flagsDone := g.flagsDone ||| f.zeroExtend 64 }
  else { g with flagsLate := g.flagsLate ||| f.zeroExtend 64 }

/-! ## Barriers and counters -/

/-- The team of the group in focus. -/
def State.team (s : State) : Team := smGet Team.reset s.teams s.g.team

/-- `bar`: arrives once the releases before it are complete, then waits until the phase it joined completes (R59, R186). -/
def execBar (g : CGuard) (b : BitVec 4) (s : State) : Out :=
  ctlInstr g [] s fun t =>
    let bar := smGet Barrier.reset t.team.bars b.toNat
    match t.g.block with
    | .bar k ph =>
      if (smGet Barrier.reset t.team.bars k).phase = ph then ctlBlock (.bar k ph) t else ctlAdvance t
    | _ => if releaseOpen t t.g t.stamp then ctlBlock .fences t else ctlBlock (.bar b.toNat bar.phase) { t with
        teams := smUpd Team.reset t.teams t.g.team fun m =>
          { m with bars := smPut Barrier.reset m.bars b.toNat { bar with arrived := t.g.id.grp :: bar.arrived } } }

/-- The cluster barrier: completed phases and arrivals of the open phase. -/
def State.cbar (s : State) (b : Nat) : Nat × List (Nat × Nat) :=
  smGet (0, []) (smGet Cluster.reset s.clusters s.team.cluster).cbar b

/-- `cbar.arr`: arrives and writes the number of the phase; only a group already arrived in the open phase blocks (R187). The moment of the
arrival is kept for the completion of the phase (R59). -/
def execCbarArr (g : CGuard) (d : XReg) (b : BitVec 2) (s : State) : Out :=
  ctlInstr g [] s fun t =>
    let cb := t.cbar b.toNat
    let me := (t.g.team, t.g.id.grp)
    if cb.2.contains me then ctlBlock (.cbarArr b.toNat cb.1) t
    else ctlWrite d (BitVec.ofNat 64 (cb.1 % 2 ^ 32)) { t with
      g := { t.g with cbarAt := smPut 0 t.g.cbarAt b.toNat t.stamp }
      clusters := smUpd Cluster.reset t.clusters t.team.cluster fun c =>
        { c with cbar := smPut (0, []) c.cbar b.toNat (cb.1, me :: cb.2) } }

/-- Serial-number order of 32-bit counts: (k − v) mod 2^32 is below 2^31 (R138, R187). -/
def reached32 (k v : BitVec 32) : Bool := (k - v).toNat < 2 ^ 31

/-- `cbar.wait`: continues when the phase named has completed (R187). -/
def execCbarWait (g : CGuard) (a : XReg) (b : BitVec 2) (s : State) : Out :=
  ctlInstr g [a] s fun t =>
    let v := (t.g.readX a).truncate 32 + 1
    if reached32 (BitVec.ofNat 32 (t.cbar b.toNat).1) v then ctlAdvance t else ctlBlock (.cbarWait b.toNat v) t

/-- `await`: continues when the arrival counter has reached the value (R138, R188). -/
def execAwait (g : CGuard) (ctr : BitVec 3) (a : XReg) (imm : BitVec 32) (s : State) : Out :=
  ctlInstr g [a] s fun t =>
    let v := (t.g.readX a).truncate 32 + imm
    if reached32 (smGet 0 t.g.a ctr.toNat) v then ctlAdvance t else ctlBlock (.awaitCtr ctr.toNat v) t

/-! ## Matrix ownership and tile configuration -/

/-- The package quad of the group in focus. -/
def State.quadNo (s : State) : Nat := quadOfCore s.g.core

/-- Changes the quad of the group in focus. -/
def State.updQuad (s : State) (f : Quad → Quad) : State := { s with quads := smUpd Quad.reset s.quads s.quadNo f }

/-- The quad of the group in focus. -/
def State.quad (s : State) : Quad := smGet Quad.reset s.quads s.quadNo

/-- The place of the group in focus, as ownership names it. -/
def Group.place (g : Group) : Nat × Nat := (g.core, g.slot)

/-- The request at the head of a quad's queue; one that a halt has withdrawn keeps its place but is passed by (R86, R191). -/
def mxHead (s : State) (q : Quad) : Option (Nat × Nat) := q.queue.find? fun p => (s.groupAt p.1 p.2).any fun h => !h.halted

/-- Gives ownership to a group, whose request leaves the queue. -/
def Quad.give (p : Nat × Nat) (q : Quad) : Quad := { q with owner := some p, queue := q.queue.filter (· != p) }

/-- Ends ownership and grants the next queued request (R192). -/
def Quad.release (s : State) (q : Quad) : Quad :=
  match mxHead s q with
  | some p => q.give p
  | none => { q with owner := none }

/-- Nobody owns the engine, and no other request is before the group's (R191). -/
def mxOpen (s : State) : Bool := s.quad.owner.isNone && (mxHead s s.quad).all (· == s.g.place)

/-- `mxacq`: no effect for the owner; otherwise granted when nobody owns, or queued (R191). -/
def execMxacq (g : CGuard) (s : State) : Out :=
  ctlInstr g [] s fun t =>
    if t.quad.owner = some t.g.place then ctlAdvance t
    else if mxOpen t then ctlAdvance (t.updQuad (Quad.give t.g.place))
    else if t.quad.queue.contains t.g.place then ctlBlock .mx t
    else ctlBlock .mx (t.updQuad fun q => { q with queue := q.queue ++ [t.g.place] })

/-- `mxrel`: the owner gives up and the next request is granted; TARGET_BAD for any other group (R192). -/
def execMxrel (g : CGuard) (s : State) : Out :=
  ctlInstr g [] s fun t =>
    if t.quad.owner = some t.g.place then ctlAdvance (t.updQuad (Quad.release t)) else ctlFault cTargetBad 0 0 0 t

/-- Bits of an element of a tile type (R193); none for a code Table 79 does not list. -/
def tileBits (ty : Nat) : Option Nat :=
  match ty with
  | 0x00 => some 64
  | 0x01 | 0x0A => some 32
  | 0x02 | 0x03 => some 16
  | 0x08 | 0x19 => some 8
  | 0x18 => some 4
  | _ => none

/-- Fields of a tile control register (Table 79). -/
def tcType (v : Word) : Nat := v.toNat % 32
def tcRows (v : Word) : Nat := v.toNat / 2 ^ 16 % 2 ^ 10
def tcCols (v : Word) : Nat := v.toNat / 2 ^ 32 % 2 ^ 10
def tcGs (v : Word) : Nat := v.toNat / 2 ^ 48 % 4
def tcBits (v : Word) : Nat := (tileBits (tcType v)).getD 32

/-- A value that `tcfg` accepts (R193). -/
def tcOk (v : Word) : Bool :=
  v &&& 0xFFFC_FC00_FC00_FFE0 == 0 && (tileBits (tcType v)).isSome &&
    1 ≤ tcRows v && tcRows v ≤ 512 && 1 ≤ tcCols v && tcCols v ≤ 512 &&
    (tcGs v == 0 || tcType v == 0x18 || tcType v == 0x19) && tcGs v != 3 &&
    tcRows v * tcCols v * tcBits v ≤ 131072

/-- The tile register of the quad that a team-relative number names (R269). -/
def State.tileReg (s : State) (t : TileNo) : Option Nat := s.team.tiles[t.toNat]?

/-- `tcfg`: the new value is seen by the group's tokens sent afterwards and by passes of other groups that issue after it, whose own
earlier values it replaces (R193, R194); a kept operand is dropped (R275). -/
def execTcfg (g : CGuard) (a : XReg) (tn : TileNo) (s : State) : Out :=
  ctlInstr g [a] s fun t =>
    match t.tileReg tn with
    | none => ctlFault cTargetBad 0 0 (tn.zeroExtend 64) t
    | some k =>
      let v := t.g.readX a
      if !tcOk v then ctlFault cTargetBad 0 0 v t
      else
        let old := (smGet Tile.reset t.quad.tiles k).ctl
        let u := t.updQuad fun q =>
          { q with tiles := smUpd Tile.reset q.tiles k fun x => { x with ctl := v }
                   keepA := if q.keepA = some k then none else q.keepA
                   keepB := if q.keepB = some k then none else q.keepB }
        let seen := fun (h : Group) =>
          if h.live && h.team == t.g.team && h.core == t.g.core then { h with tlog := h.tlog.filter fun e => e.1 != k } else h
        let u := { u with others := u.others.map seen }
        ctlAdvance (u.withG { u.g with tseq := u.g.tseq + 1, tlog := u.g.tlog ++ [(k, u.g.tseq + 1, old)] })

/-- The control register of a tile as a token of the group in focus reads it: the value before the first of its own `tcfg` that
followed the token's sending (R194). -/
def State.tileCtl (s : State) (k tseq : Nat) : Word :=
  match s.g.tlog.find? fun e => e.1 == k && tseq < e.2.1 with
  | some e => e.2.2
  | none => (smGet Tile.reset s.quad.tiles k).ctl

end Sys2Proof.Machine
end

