-- ==== Sys2Proof/Machine/CtlMem.lean ====
section
/-! DEFINITION. Memory access of the control slice (R168 to R173): loads, stores, atomics, fences, icinv; and the issue of an
outstanding access, which the vector slice shares. -/
namespace Sys2Proof.Machine

/-! ## L1 (R318 to R321) -/

/-- The ways of a core's L1: its banks in cache mode (R318). -/
def l1Ways (c : Core) : List Nat := (List.range 8).filter fun b => (smGet 0 c.bankMode b).toNat % 4 == 0

/-- A core has an L1 when one of its banks is in cache mode (R318). -/
def hasL1 (c : Core) : Bool := !(l1Ways c).isEmpty

/-- The place of a line in a way: its set is PA[14:7] (R318). -/
def l1Key (way line : Nat) : Nat := 256 * way + line % 256

/-- A line where the core's L1 holds it. -/
def l1Find (c : Core) (line : Nat) : Option (Nat × Lanes) :=
  (l1Ways c).findSome? fun w => match smGet none c.l1 (l1Key w line) with
    | some l => if l.line = line then some (l1Key w line, l.data) else none
    | none => none

/-- A line leaves a core's L1. -/
def Core.dropLine (line : Nat) (c : Core) : Core :=
  match l1Find c line with
  | some l => { c with l1 := smPut none c.l1 l.1 none }
  | none => c

/-- A line comes into L1: where it is, into a free way, or in the place of the line in a way that `free` picks. -/
def Core.putLine (free : Nat) (line : Nat) (data : Lanes) (c : Core) : Core :=
  let ws := l1Ways c
  let k := match l1Find c line with
    | some l => l.1
    | none => match ws.find? fun w => (smGet none c.l1 (l1Key w line)).isNone with
      | some w => l1Key w line
      | none => l1Key (ws.getD (free % ws.length) 0) line
  if ws.isEmpty then c else { c with l1 := smPut none c.l1 k (some { line := line, data := data }) }

/-- Puts bytes into a line at a byte offset. -/
def lineWrite (l : Lanes) (off : Nat) (bs : List Byte) : Lanes :=
  let n := 8 * bs.length
  let m : Lanes := BitVec.ofNat 1024 ((2 ^ n - 1) * 2 ^ (8 * off))
  (l &&& ~~~ m) ||| BitVec.ofNat 1024 (leNat bs * 2 ^ (8 * off))

/-- A line is dropped from a core's L1 (R319). -/
def dropLine (core line : Nat) (s : State) : State := { s with cores := smUpd Core.reset s.cores core (Core.dropLine line) }

/-- The line of a DRAM place leaves the L1 of the core in focus. -/
def dropLoc (l : Loc) (s : State) : State :=
  match l with
  | .dram pa _ => dropLine s.g.core (pa / 128) s
  | _ => s

/-- A store enters the write-through buffer: it updates its line when it is present; a `.nol1` store invalidates it (R319). -/
def storeL1 (hint : Hint) (w : Nat) (l : LaneAcc) (s : State) : State :=
  match l.loc with
  | .dram pa _ =>
    if hint = .nol1 then dropLine s.g.core (pa / 128) s
    else
      let c := smGet Core.reset s.cores s.g.core
      match l1Find c (pa / 128) with
      | none => s
      | some ln =>
        let new : L1Line := { line := pa / 128, data := lineWrite ln.2 (pa % 128) (leBytes w l.data.toNat) }
        { s with cores := smPut Core.reset s.cores s.g.core { c with l1 := smPut none c.l1 ln.1 (some new) } }
  | _ => s

/-- An access that bypasses L1 and invalidates its line (R319). -/
def AccKind.bypasses : AccKind → Bool
  | .atom _ _ | .red _ _ | .defer _ | .turn => true
  | _ => false

/-- What an access does to L1 when it issues (R319). -/
def issueL1 (a : Acc) (s : State) : State :=
  if a.kind.bypasses then a.lanes.foldl (fun t l => dropLoc l.loc t) s else s

/-! ## Order (R55, R56, R68, R263) -/

/-- Two places overlap in an access of these widths. -/
def overlap (p : Loc) (n : Nat) (q : Loc) (k : Nat) : Bool :=
  match p, q with
  | .dram a _, .dram b _ => a < b + k && b < a + n
  | .sram a, .sram b => a < b + k && b < a + n
  | .capa a, .capa b => a < b + k && b < a + n
  | _, _ => false

/-- The lane writes a base row of some derived row. -/
def onBase (s : State) (l : LaneAcc) : Bool :=
  match l.loc with
  | .dram pa _ => !(rowAt s (rowOf pa)).deps.isEmpty
  | _ => false

/-- The rows a derived row is computed from, through chains of rules (R68). -/
def baseRows (s : State) : Nat → Nat → List Nat
  | 0, _ => []
  | f + 1, r => match (rowAt s r).rule with
    | some x => x.bases.flatMap fun b => b :: baseRows s f b
    | none => []

/-- The stores that an acquire orders before a load of a derived row have been performed: the slice's own, and those of its core that
the acquire may have seen in the write-through buffer (R61, R68). -/
def basesStand (s : State) (g : Group) (a : Acc) (l : LaneAcc) : Bool :=
  match l.loc with
  | .dram pa _ =>
    let rs := baseRows s 4 (rowOf pa)
    let hits := fun (k : LaneAcc) => match k.loc with | .dram q _ => rs.contains (rowOf q) | _ => false
    rs.isEmpty || !(s.g :: s.others).any fun h => h.live && h.core == g.core && h.accs.any fun x =>
      x.kind.isStore && x.lanes.any fun k => hits k &&
        (if h.slot == g.slot then x.precedes a && k.open_ && x.stamp < g.acquired
         else k.buffered && k.sent.getD 0 < g.acquired)
  | _ => true

/-- A table read of a pre-empted group: its instruction has passed its mode check, so that it completes into the saved state, whatever
acquire before it the pre-emption withdraws (R237, R313, notes/assumptions/80.md). -/
def Acc.readsTable (a : Acc) (g : Group) : Bool := g.preempted && match a.kind with | .qtab _ _ _ => true | _ => false

/-- Earlier fences and acquires of the slice are complete (R55 cases 2 and 4, R72), so are the other slice's accesses that a vsync or
vget orders before (R56), the stores to base rows that a `fence.d` holds a load for (R263), and what the access itself waits for as a
release (R55 case 3). -/
def accEnabled (s : State) (g : Group) (a : Acc) : Bool :=
  a.readsTable g || (g.accs.all fun x =>
    !(x.precedes a && (x.kind == .fence || (x.acq && x.outstanding))) &&
    !(x.ctl != a.ctl && x.isMem && x.epoch < a.epoch && x.outstanding) &&
    !(!a.ctl && (a.kind == .load || a.kind == .turn) && !x.ctl && x.kind.isStore &&
      (g.fenceD.any fun f => x.stamp < f && f ≤ a.stamp) && x.lanes.any fun l => l.open_ && onBase s l)) &&
  (!a.rel || !releaseWaits s g a)

/-- Earlier accesses of the slice to a common location are performed (R55 case 1); before a store, an earlier store need only stand in
the write-through buffer, which keeps their order (R320). -/
def laneEnabled (s : State) (g : Group) (a : Acc) (l : LaneAcc) : Bool :=
  (g.accs.all fun x => !(x.isMem && x.precedes a && x.lanes.any fun k =>
    k.open_ && overlap k.loc x.w l.loc a.w && !(a.kind.isStore && k.buffered))) &&
  (!a.isRead || basesStand s g a l)

/-! ## Issue -/

/-- The lanes of an access in a FIFO bank that have not taken effect, ascending. -/
def Acc.unit (a : Acc) (core bank : Nat) : List LaneAcc := a.lanes.filter fun l => l.loc == .fifo core bank && !l.done

/-- A unit that stands at its bank. -/
def atBank (s : State) (core bank : Nat) (h : Group) (a : Acc) : Bool :=
  (smGet [] (smGet Core.reset s.cores core).units bank).contains (h.core, h.slot, a.stamp)

/-- An access's unit may reach a bank: it is there not yet, the orders of its slice let it, and the slice's earlier units are there
(R55, R316, R317). -/
def reaches (s : State) (core bank : Nat) (h : Group) (a : Acc) : Bool :=
  !(a.unit core bank).isEmpty && !atBank s core bank h a && !h.halted && accEnabled s h a &&
    h.accs.all fun x => !(x.ctl == a.ctl && x.stamp < a.stamp && !(x.unit core bank).isEmpty && !atBank s core bank h x)

/-- Units that may reach a bank reach it, in the order of their issue (R316). -/
def reachBank (core bank : Nat) (s : State) : State :=
  let here := (s.g :: s.others).filter fun h => h.live && h.accs.any fun a => !(a.unit core bank).isEmpty
  let all := here.flatMap fun h => h.accs.map fun a => (h, a)
  let order := fun (x y : Group × Acc) => decide (x.2.stamp ≤ y.2.stamp)
  (all.mergeSort order).foldl (fun t ha =>
    if reaches t core bank ha.1 ha.2 then
      { t with cores := smUpd Core.reset t.cores core fun k =>
          { k with units := smPut [] k.units bank (smGet [] k.units bank ++ [(ha.1.core, ha.1.slot, ha.2.stamp)]) } }
    else t) s

/-- The pages of an access's DRAM lanes, each once (R330). -/
def Acc.pages (a : Acc) : List Nat :=
  (a.lanes.filterMap fun l => match l.loc with | .dram _ _ => some (l.va.toNat / 65536) | _ => none).eraseDups

/-- The translations of an access are kept in the TLBs of its core and die (R328). -/
def keepTlbs (a : Acc) (s : State) : State :=
  a.pages.foldl (fun t p => fillTlb t (.core t.g.core) t.g.asid (65536 * p)) s

/-- Issues an access: it joins the group's outstanding accesses, acts on L1 and the TLBs, and may reach its FIFO banks. -/
def issueAcc (a : Acc) (s : State) : State :=
  let s1 := issueL1 a (keepTlbs a s)
  a.fifos.foldl (fun t cb => reachBank cb.1 cb.2 t) { s1 with stamp := s.stamp + 1, g := { s1.g with accs := s1.g.accs ++ [a] } }

/-- A new control access of one lane at the current instruction. -/
def Group.ctlAcc (g : Group) (stamp : Nat) (kind : AccKind) (w : Nat) (va : Word) (l : Loc) (data cmp : Word) (dst : ADest)
    (acq rel : Bool) (sc : Scope) (h : Hint) : Acc :=
  { stamp := stamp, ctl := true, epoch := g.epoch, path := g.ctlPath, kind := kind, w := w, acq := acq, rel := rel, scope := sc,
    hint := h, lanes := [{ lane := 0, va := va, loc := l, data := data, cmp := cmp, done := false, held := none }], dst := dst,
    mask := 1, wset := 0, fseq := g.fseq, clause := lo56 g.pos.hdr, index := g.pos.idx }

/-- An access issues, its destination no longer written by an earlier result; a release first answers for what its slice's homes hold, and
then nothing of it has taken effect (R5, R80). -/
def issueRel (a : Acc) (s : State) (k : State → State) : State :=
  let go := fun (t : State) => k (issueAcc a (match a.dst with | .x d _ _ => t.withG (t.g.forget d) | _ => t))
  if a.rel then relCheck a s go else go s

/-! ## Loads and stores (Table 72) -/

/-- A read of a poisoned sector faults at the instruction (Table 31, R77). -/
def poisonedLoc (s : State) (l : Loc) (w : Nat) : Option Word :=
  match l with
  | .dram pa _ => (firstPoison s pa w).map fun k => BitVec.ofNat 64 (32 * k)
  | _ => none

/-- A control load of w bytes: checked, issued, its result pending (R168, R169). -/
def ctlLoad (g : CGuard) (d a : XReg) (imm : BitVec 32) (w : Nat) (signed fifo acq : Bool) (sc : Scope) (h : Hint) (s : State) :
    Out :=
  ctlInstr g [a] s fun t =>
    let va := t.g.readX a + sext32 imm
    match accessCheck t t.g va w 1 { fifo := fifo, window := true } with
    | .bad c i => ctlFault c 1 (lo56 va) i t
    | .ok l =>
      match poisonedLoc t l w with
      | some i => ctlFault cMemUncorrectable 1 (lo56 va) i (refusedRow cMemUncorrectable i t)
      | none =>
        let kind : AccKind := match l with | .fifo _ _ => .fifoPop | _ => .load
        let acq' := match l with | .fifo _ _ => true | _ => acq
        let sc' := match l with | .fifo _ _ => Scope.clu | _ => sc
        let u := t.withG (t.g.forget d)
        ctlAdvance (issueAcc (u.g.ctlAcc u.stamp kind w va l 0 0 (.x d (8 * w) signed) acq' false sc' h) u)

/-- A control store of w bytes, which completes at issue (R169); a release store is performed after what it covers (R55, R80), and a
push to a FIFO bank is a release at cluster scope (R317). -/
def ctlStore (g : CGuard) (d a : XReg) (imm : BitVec 32) (w : Nat) (fifo rel : Bool) (sc : Scope) (h : Hint) (s : State) : Out :=
  ctlInstr g [a, d] s fun t =>
    let va := t.g.readX a + sext32 imm
    match accessCheck t t.g va w 2 { fifo := fifo, window := true } with
    | .bad c i => ctlFault c 2 (lo56 va) i t
    | .ok l =>
      let push := match l with | .fifo _ _ => true | _ => false
      let kind : AccKind := if push then .fifoPush else .store
      issueRel (t.g.ctlAcc t.stamp kind w va l (t.g.readX d) 0 .none false (rel || push) (if push then .clu else sc) h) t
        fun u => ctlAdvance (u.withG u.g.effect)

/-- `ld.s8`. -/
def execLdS8 (g : CGuard) (d a : XReg) (h : Hint) (imm : BitVec 32) (s : State) : Out := ctlLoad g d a imm 1 true false false .grp h s
/-- `ld.n8`. -/
def execLdN8 (g : CGuard) (d a : XReg) (h : Hint) (imm : BitVec 32) (s : State) : Out := ctlLoad g d a imm 1 false false false .grp h s
/-- `ld.s16`. -/
def execLdS16 (g : CGuard) (d a : XReg) (h : Hint) (imm : BitVec 32) (s : State) : Out := ctlLoad g d a imm 2 true false false .grp h s
/-- `ld.n16`. -/
def execLdN16 (g : CGuard) (d a : XReg) (h : Hint) (imm : BitVec 32) (s : State) : Out := ctlLoad g d a imm 2 false false false .grp h s
/-- `ld.s32`; it may pop a FIFO bank (R315). -/
def execLdS32 (g : CGuard) (d a : XReg) (h : Hint) (imm : BitVec 32) (s : State) : Out := ctlLoad g d a imm 4 true true false .grp h s
/-- `ld.n32`; it may pop a FIFO bank (R315). -/
def execLdN32 (g : CGuard) (d a : XReg) (h : Hint) (imm : BitVec 32) (s : State) : Out := ctlLoad g d a imm 4 false true false .grp h s
/-- `ld.b64`; it may pop a FIFO bank (R315). -/
def execLdB64 (g : CGuard) (d a : XReg) (h : Hint) (imm : BitVec 32) (s : State) : Out := ctlLoad g d a imm 8 false true false .grp h s
/-- `ld.acq.n32`. -/
def execLdAcqN32 (g : CGuard) (d a : XReg) (sc : Scope) (h : Hint) (imm : BitVec 32) (s : State) : Out :=
  ctlLoad g d a imm 4 false false true sc h s
/-- `ld.acq.b64`. -/
def execLdAcqB64 (g : CGuard) (d a : XReg) (sc : Scope) (h : Hint) (imm : BitVec 32) (s : State) : Out :=
  ctlLoad g d a imm 8 false false true sc h s
/-- `st.b8`. -/
def execStB8 (g : CGuard) (d a : XReg) (h : Hint) (imm : BitVec 32) (s : State) : Out := ctlStore g d a imm 1 false false .grp h s
/-- `st.b16`. -/
def execStB16 (g : CGuard) (d a : XReg) (h : Hint) (imm : BitVec 32) (s : State) : Out := ctlStore g d a imm 2 false false .grp h s
/-- `st.b32`; it may push to a FIFO bank (R315). -/
def execStB32 (g : CGuard) (d a : XReg) (h : Hint) (imm : BitVec 32) (s : State) : Out := ctlStore g d a imm 4 true false .grp h s
/-- `st.b64`; it may push to a FIFO bank (R315). -/
def execStB64 (g : CGuard) (d a : XReg) (h : Hint) (imm : BitVec 32) (s : State) : Out := ctlStore g d a imm 8 true false .grp h s
/-- `st.rel.b32`. -/
def execStRelB32 (g : CGuard) (d a : XReg) (sc : Scope) (h : Hint) (imm : BitVec 32) (s : State) : Out :=
  ctlStore g d a imm 4 false true sc h s
/-- `st.rel.b64`. -/
def execStRelB64 (g : CGuard) (d a : XReg) (sc : Scope) (h : Hint) (imm : BitVec 32) (s : State) : Out :=
  ctlStore g d a imm 8 false true sc h s

/-! ## Atomics (R170) -/

/-- Width in bytes and signedness of an atomic's type (Table 73). -/
def atyBytes : ATy → Nat
  | .s32 | .n32 => 4
  | .s64 | .n64 => 8
def atySigned : ATy → Bool
  | .s32 | .s64 => true
  | .n32 | .n64 => false

/-- The order code has an acquire half, a release half. -/
def ordAcq : Order → Bool
  | .acq | .ar => true
  | .rlx | .rel => false
def ordRel : Order → Bool
  | .rel | .ar => true
  | .rlx | .acq => false

/-- A control atomic: checked as a write, then performed at its home in the order its ORD says (R170). -/
def ctlAtom (op : AOp) (g : CGuard) (d a b tr : XReg) (o : Order) (sc : Scope) (ty : ATy) (h : Hint) (s : State) : Out :=
  ctlInstr g [a, b, tr] s fun t =>
    let va := t.g.readX a
    let w := atyBytes ty
    match accessCheck t t.g va w 3 { fifo := false, window := true } with
    | .bad c i => ctlFault c 3 (lo56 va) i t
    | .ok l =>
      issueRel (t.g.ctlAcc t.stamp (.atom op (atySigned ty)) w va l (t.g.readX b) (t.g.readX tr) (.x d (8 * w) (atySigned ty))
        (ordAcq o) (ordRel o) sc h) t fun v => ctlAdvance (v.withG v.g.effect)

/-- `atom.add`. -/
def execControlAtomAdd (g : CGuard) (d a b : XReg) (o : Order) (sc : Scope) (ty : ATy) (h : Hint) (s : State) : Out :=
  ctlAtom .add g d a b 0 o sc ty h s
/-- `atom.min`. -/
def execControlAtomMin (g : CGuard) (d a b : XReg) (o : Order) (sc : Scope) (ty : ATy) (h : Hint) (s : State) : Out :=
  ctlAtom .min g d a b 0 o sc ty h s
/-- `atom.max`. -/
def execControlAtomMax (g : CGuard) (d a b : XReg) (o : Order) (sc : Scope) (ty : ATy) (h : Hint) (s : State) : Out :=
  ctlAtom .max g d a b 0 o sc ty h s
/-- `atom.and`. -/
def execControlAtomAnd (g : CGuard) (d a b : XReg) (o : Order) (sc : Scope) (ty : ATy) (h : Hint) (s : State) : Out :=
  ctlAtom .and g d a b 0 o sc ty h s
/-- `atom.or`. -/
def execControlAtomOr (g : CGuard) (d a b : XReg) (o : Order) (sc : Scope) (ty : ATy) (h : Hint) (s : State) : Out :=
  ctlAtom .or g d a b 0 o sc ty h s
/-- `atom.xor`. -/
def execControlAtomXor (g : CGuard) (d a b : XReg) (o : Order) (sc : Scope) (ty : ATy) (h : Hint) (s : State) : Out :=
  ctlAtom .xor g d a b 0 o sc ty h s
/-- `atom.exch`. -/
def execControlAtomExch (g : CGuard) (d a b : XReg) (o : Order) (sc : Scope) (ty : ATy) (h : Hint) (s : State) : Out :=
  ctlAtom .exch g d a b 0 o sc ty h s
/-- `atom.cas`. -/
def execControlAtomCas (g : CGuard) (d a b tr : XReg) (o : Order) (sc : Scope) (ty : ATy) (h : Hint) (s : State) : Out :=
  ctlAtom .cas g d a b tr o sc ty h s

/-! ## Instruction caches (R84, R173) -/

/-- The core lies in the scope instance whose instruction caches `icinv` empties (R173). -/
def inIcScope (s : State) (sc : Scope) (core : Nat) : Bool :=
  match sc with
  | .grp | .team => core == s.g.core
  | .clu => core == s.g.core || ((smGet Cluster.reset s.clusters (smGet Team.reset s.teams s.g.team).cluster).teams.any fun t =>
      (smGet Team.reset s.teams t).core == core)
  | .die => dieOfCore core == dieOfCore s.g.core
  | .pkg | .sys => true

/-- Empties the instruction caches of a scope instance. A block buffer lives only as long as its token, which finishes with the code
it holds (R85). -/
def clearIcaches (sc : Scope) (s : State) : State :=
  let clear := fun (kv : Nat × Core) => if inIcScope s sc kv.1 then (kv.1, { kv.2 with icache := [] }) else kv
  { s with cores := (s.cores.map clear).filter fun kv => kv.2 != Core.reset }

/-- `icinv`: waits until every token in the group's runnel has finished, then empties the instruction caches, which stay to be
emptied again by the release fence of its scope or wider that follows (R84, R173). -/
def execIcinv (g : CGuard) (sc : Scope) (s : State) : Out :=
  ctlInstr g [] s fun t =>
    if t.g.runnel.isEmpty then
      let u := clearIcaches sc t
      ctlAdvance (u.withG { u.g with icPending := u.g.icPending ++ [sc] })
    else ctlBlock (.icinv t.g.runnel.length) t

/-- A release fence completes: for each earlier `icinv` of its scope or narrower no fetch after it returns the old code (R84). -/
def icDone (sc : Scope) (s : State) : State :=
  let due := s.g.icPending.filter fun i => scopeCode i ≤ scopeCode sc
  let t := due.foldl (fun t i => clearIcaches i t) s
  t.withG { t.g with icPending := t.g.icPending.filter fun i => scopeCode sc < scopeCode i }

/-! ## Fences (R58, R60, R72, R171, R262) -/

/-- A fence completes: its acquire half takes effect. -/
def completeFence (a : Acc) (s : State) : State :=
  let t := if a.acq then acquire a.scope s else s
  let u := if a.ctl && a.rel then icDone a.scope t else t
  u.withG (u.g.dropAcc a.stamp)

/-- Earlier fences of the slice are complete. -/
def fencesDone (g : Group) (a : Acc) : Bool := !g.accs.any fun x => x.kind == .fence && x.precedes a

/-- A fence issues: it completes at once when nothing keeps it, and otherwise is outstanding, holding the later accesses of its slice
(R72, R171, R262). -/
def issueFence (a : Acc) (s : State) : State :=
  let t := { s with stamp := s.stamp + 1 }
  if fencesDone s.g a && fenceOpen s s.g a then completeFence a t else t.withG { t.g with accs := t.g.accs ++ [a] }

/-- A fence of the control slice, by its halves. -/
def ctlFence (g : CGuard) (acq rel : Bool) (sc : Scope) (s : State) : Out :=
  ctlInstr g [] s fun t =>
    let a : Acc := { t.g.probe true sc with stamp := t.stamp, acq := acq, rel := rel }
    let go := fun (u : State) => ctlAdvance (issueFence a u)
    if rel then relCheck a t go else go t

/-- `fence`: a release of everything covered, then an acquire (R58, R171). -/
def execFence (g : CGuard) (sc : Scope) (s : State) : Out := ctlFence g true true sc s
/-- `fence.acq`: earlier reads before what follows, then an acquire (R60, R171). -/
def execFenceAcq (g : CGuard) (sc : Scope) (s : State) : Out := ctlFence g true false sc s
/-- `fence.rel`: a release of everything covered (R171). -/
def execFenceRel (g : CGuard) (sc : Scope) (s : State) : Out := ctlFence g false true sc s

end Sys2Proof.Machine
end

