-- ==== Sys2Proof/Machine/Engine.lean ====
section
/-! DEFINITION. Futures over timeline counters (R15 to R18), engine contexts and the acceptance of commands by their queues
(R180, R289 to R306, R351 to R362, R402, R416), and the control instructions that push, wait, test and cancel (R180 to R185). -/
namespace Sys2Proof.Machine

/-! ## Contexts -/

/-- The context an engine reference names. -/
def State.ctx (s : State) : EngineRef → EngCtx
  | .copy q c => smGet EngCtx.reset (smGet Quad.reset s.quads q).copy c
  | .basin b c => smGet EngCtx.reset (smGet Basin.reset s.basins b).ctx c
  | .coll c => smGet EngCtx.reset s.coll.ctx c
  | .launch c => smGet EngCtx.reset s.mgmt.launch c

/-- Replaces a context. -/
def State.setCtx (s : State) (e : EngineRef) (x : EngCtx) : State :=
  match e with
  | .copy q c => { s with quads := smUpd Quad.reset s.quads q fun k => { k with copy := smPut EngCtx.reset k.copy c x } }
  | .basin b c => { s with basins := smUpd Basin.reset s.basins b fun k => { k with ctx := smPut EngCtx.reset k.ctx c x } }
  | .coll c => { s with coll := { s.coll with ctx := smPut EngCtx.reset s.coll.ctx c x } }
  | .launch c => { s with mgmt := { s.mgmt with launch := smPut EngCtx.reset s.mgmt.launch c x } }

/-- The handle of a sequence number of a context (Tables 10 and 11). -/
def handleOf (e : EngineRef) (seq : Nat) : Word :=
  let kc : Nat × Nat := match e with
    | .copy q c => (0x40 + c, q)
    | .basin b c => (0x20 + c, b)
    | .coll c => (0x10, c)
    | .launch c => (0x08 + c, 0)
  BitVec.ofNat 64 (kc.1 * 2 ^ 56 + kc.2 * 2 ^ 48 + seq % 2 ^ 48)

/-- What a handle names: the context and SEQ; none for a reserved kind or a CTX out of its range (R17). -/
def handleRef (h : Word) : Option (EngineRef × Nat) :=
  let kind := h.toNat / 2 ^ 56
  let c := h.toNat / 2 ^ 48 % 256
  let seq := h.toNat % 2 ^ 48
  if 8 ≤ kind && kind ≤ 15 && c == 0 then some (.launch (kind - 8), seq)
  else if kind == 16 && c ≤ 15 then some (.coll c, seq)
  else if 32 ≤ kind && kind ≤ 35 && c ≤ 191 then some (.basin c (kind - 32), seq)
  else if 64 ≤ kind && kind ≤ 71 then some (.copy c (kind - 64), seq)
  else none

/-- A future with this SEQ is reached (R18). -/
def EngCtx.reached (x : EngCtx) (seq : Nat) : Bool := (x.counter.toNat % 2 ^ 48 + 2 ^ 48 - seq) % 2 ^ 48 < 2 ^ 47

/-- How the command of a reached future ended; a sequence more than 65,535 below the counter reports completed (R183). -/
def EngCtx.endStat (x : EngCtx) (seq : Nat) : EndStat :=
  let back := (x.counter.toNat % 2 ^ 48 + 2 ^ 48 - seq) % 2 ^ 48
  if 65535 < back || x.counter.toNat < back then .completed else smGet .completed x.ends (x.counter.toNat - back)

/-- The accepted command with this SEQ that has not left the context. -/
def EngCtx.cmd (x : EngCtx) (seq : Nat) : Option ECmd := x.cmds.find? fun k => k.seq % 2 ^ 48 = seq

/-- Changes one command of a context. -/
def EngCtx.updCmd (x : EngCtx) (seq : Nat) (f : ECmd → ECmd) : EngCtx :=
  { x with cmds := x.cmds.map fun k => if k.seq = seq then f k else k }

/-- Commands that have ended at the head of the context leave it, and the counter passes them (R15, R183). -/
def EngCtx.pop (x : EngCtx) : List ECmd → EngCtx
  | [] => { x with cmds := [] }
  | k :: ks =>
    match k.fin with
    | some f =>
      EngCtx.pop { x with
        counter := BitVec.ofNat 64 k.seq
        ends := smPut .completed x.ends k.seq f
        past := k :: x.past.filter fun p => k.seq ≤ p.seq + 65535 } ks
    | none => { x with cmds := k :: ks }

/-- Ends a command of a context. -/
def EngCtx.finish (x : EngCtx) (seq : Nat) (f : EndStat) : EngCtx :=
  let y := x.updCmd seq fun k => { k with fin := some f, susp := none, waiting := none, olds := [] }
  y.pop y.cmds

/-- The tile's state when a `tfill` or `tdrain` of it ends (Table 12, R299). -/
def endTile (k : ECmd) (f : EndStat) (s : State) : State :=
  match k.tile with
  | none => s
  | some t =>
    let st : TileSt := if k.w.cmd = 6 && f != .completed then .empty else .ready
    { s with quads := smUpd Quad.reset s.quads k.quad fun q =>
        { q with tiles := smUpd Tile.reset q.tiles t fun x => { x with st := st } } }

/-- The status a launch's completion reply carries (R415). -/
def EndStat.status : EndStat → Word
  | .completed => 0
  | .error c => c.zeroExtend 64
  | .cancelled => 0x13

/-- A code whose resolution POL fixes. -/
def polCode (c : BitVec 8) : Bool := c == cNotOwner || c == cDerivedWrite

/-- The codes that the firmware as shipped takes to the host; NOT_OWNER and DERIVED_WRITE only under POL 2 (R425). -/
def asksHost (pol : Nat) (c : BitVec 8) : Bool :=
  if polCode c then pol == 2
  else c == cXlateAbsent || c == cXlatePerm || c == cFutureCancelled || c == cMemUncorrectable || c == cSoftware

/-- A record of a command that the fault queue has not taken yet stays to be taken when its suspension ends, with the notification that
goes out with it (R73, R82, R425). -/
def keepRecord (k : ECmd) (s : State) : State :=
  match k.waiting with
  | some fr =>
    let d : DueRec := { fr := fr, ask := if asksHost k.pol fr.code then some (k.ep, k.tag) else none }
    { s with mgmt := { s.mgmt with recsDue := s.mgmt.recsDue ++ [d] } }
  | none => s

/-- The command whose start phase is next in a context: the first that has not ended and whose start phase has not (R353). -/
def startPhase (x : EngCtx) : Option ECmd := x.cmds.find? fun k => k.fin.isNone && !k.regDone

/-- The start phase of a context's next command begins now (R353, R436). -/
def EngCtx.open_ (n : Nat) (x : EngCtx) : EngCtx :=
  match startPhase x with
  | some k => x.updCmd k.seq fun q => { q with place := n }
  | none => x

/-- A start phase of a context of a basin has ended, and the next begins (R353). -/
def nextStart (e : EngineRef) (s : State) : State :=
  { s.setCtx e ((s.ctx e).open_ s.stamp) with stamp := s.stamp + 1 }

/-- The end of a command ends the start phase in progress of a basin's context. -/
def endsStart (e : EngineRef) (k : ECmd) (s : State) : Bool :=
  match e with
  | .basin _ _ => (startPhase (s.ctx e)).any (·.seq == k.seq)
  | _ => false

/-- A command leaves its context as ended; in a basin the next start phase may begin (R15, R353). -/
def finishIn (e : EngineRef) (k : ECmd) (f : EndStat) (s : State) : State :=
  let t := s.setCtx e ((s.ctx e).finish k.seq f)
  if endsStart e k s then nextStart e t else t

/-- Ends a command: its context, its tile, and the host's reply when a host message launched it (R415). -/
def endCmd (e : EngineRef) (k : ECmd) (f : EndStat) (s : State) : State :=
  let s1 := endTile k f (keepRecord k (finishIn e k f s))
  if k.host then
    { s1 with mgmt := { s1.mgmt with outbox := s1.mgmt.outbox ++ [.reply k.ep 0x81 k.tag f.status] } }
  else s1

/-! ## Acceptance -/

/-- The commands of a context that have not ended. -/
def EngCtx.load (x : EngCtx) : Nat := (x.cmds.filter fun k => k.fin.isNone).length

/-- Fields of a word: bits [hi:lo]. -/
def bits (w : Word) (hi lo : Nat) : Nat := w.toNat / 2 ^ lo % 2 ^ (hi + 1 - lo)

/-- The notification endpoint, the TAG and the POL of the grid of the group in focus (R425). -/
def gridNotify (s : State) : Nat × BitVec 32 × Nat :=
  match smGet none s.grids s.team.grid with
  | some g => (g.ep, g.tag, bits g.w.w7 1 0)
  | none => (0, 0, 0)

/-- A command as its queue accepts it from the group in focus. -/
def newCmd (w : Cmd) (bad : Bool) (tile : Option Nat) (cfg : Word) (seq : Nat) (s : State) : ECmd :=
  let nt := gridNotify s
  { seq := seq, w := w, bad := bad, asid := s.g.asid, grid := s.team.grid, tokenSide := tokenCore s.g.core, quad := s.quadNo,
    tile := tile, cfg := cfg, before := s.stamp, started := false, fin := none, elem := 0, susp := none, waiting := none,
    cancel := false, block := [], entry := none, rows := [], res := [], registered := [], regDone := false, turned := [],
    peers := [], sigma := 0, barNo := 0, forced := false, host := false, ep := nt.1, tag := nt.2.1, pol := nt.2.2,
    olds := [], holds := none }

/-- A queue's answer to a command: none when the context is full (R38), else the state after acceptance and the handle. -/
def accept (e : EngineRef) (w : Cmd) (bad : Bool) (tile : Option Nat) (cfg : Word) (s : State) : Option (State × Word) :=
  let x := s.ctx e
  if 64 ≤ x.load then none
  else
    let seq := x.seq + 1
    let k := { newCmd w bad tile cfg seq s with place := s.stamp }
    some ({ s.setCtx e { x with seq := seq, cmds := x.cmds ++ [k] } with stamp := s.stamp + 1 }, handleOf e seq)

/-- The word is zero. -/
def zeros (ws : List Word) : Bool := ws.all (· == 0)

/-- The context of the quad's copy engine that word 0 names (Table 113). -/
def copyRef (w : Cmd) (s : State) : EngineRef := .copy s.quadNo (bits w.w0 55 53)

/-- A strided command's extents and strides above ND are zero (R294). -/
def dimsOk (w : Cmd) (fill : Bool) : Bool :=
  let nd := bits w.w0 47 44
  let d := fun (k : Nat) (st : Word) =>
    (k ≤ nd || (bits w.w3 (16 * k + 15) (16 * k) == 0 && st == 0)) && (!fill || bits st 31 0 == 0)
  nd ≤ 3 && d 0 w.w4 && d 1 w.w5 && d 2 w.w6 && d 3 w.w7

/-- Checks of `copy` that the queue makes (R293, Table 114). -/
def copyOk (w : Cmd) : Bool := bits w.w0 43 0 == 0 && !high8 w.w1 && !high8 w.w2 && dimsOk w false
/-- Checks of `fill` (Table 114). -/
def fillOk (w : Cmd) : Bool :=
  bits w.w0 43 0 == 0 && bits w.w0 52 50 ≤ 3 && w.w1.toNat < 2 ^ (8 * 2 ^ bits w.w0 52 50) && !high8 w.w2 && dimsOk w true
/-- Checks of `copyx` (R296). -/
def copyxOk (w : Cmd) : Bool :=
  bits w.w0 43 0 == 0 && !high8 w.w1 && !high8 w.w2 && !high8 w.w3 && bits w.w3 3 0 == 0 && zeros [w.w4, w.w5, w.w6, w.w7]
/-- Checks of `gather` and `scatter` (Table 116). -/
def gatherOk (w : Cmd) : Bool :=
  let iw := bits w.w0 37 36
  bits w.w0 52 50 == 0 && bits w.w0 47 38 == 0 && iw ≤ 2 && bits w.w0 35 0 == 0 && !high8 w.w1 && !high8 w.w2 && !high8 w.w3 &&
    w.w3.toNat % (if iw = 2 then 8 else 4) == 0 && bits w.w4 63 32 == 0 && bits w.w5 63 17 == 0 && 1 ≤ w.w5.toNat &&
    w.w5.toNat ≤ 65536 && bits w.w6 63 48 == 0 && bits w.w7 63 48 == 0
/-- Checks of the fields of `tfill` and `tdrain` (R298). -/
def tileFieldsOk (w : Cmd) : Bool :=
  bits w.w0 52 50 == 0 && bits w.w0 47 44 == 0 && bits w.w0 37 0 == 0 && !high8 w.w1 && bits w.w2 63 48 == 0 &&
    zeros [w.w3, w.w4, w.w5, w.w6, w.w7]
/-- Checks of `clist` (R300). -/
def clistOk (w : Cmd) : Bool :=
  bits w.w0 52 50 == 0 && bits w.w0 47 0 == 0 && !high8 w.w1 && bits w.w1 5 0 == 0 && bits w.w2 63 16 == 0 && 1 ≤ w.w2.toNat &&
    zeros [w.w3, w.w4, w.w5, w.w6, w.w7]

/-- Acceptance of a `tfill` or `tdrain` (R298, R299): the control register is sampled, the tile moves to filling or
draining, and a kept operand of it is dropped (R275). -/
def acceptTile (drain : Bool) (w : Cmd) (s : State) : Option (State × Word) :=
  match s.tileReg (BitVec.ofNat 6 (bits w.w0 43 38)) with
  | none => accept (copyRef w s) w true none 0 s
  | some k =>
    let t := smGet Tile.reset s.quad.tiles k
    let ok := tileFieldsOk w && tcCols t.ctl * tcBits t.ctl % 8 == 0 && t.st != .filling && t.st != .draining &&
      !(drain && t.st == .empty)
    if !ok then accept (copyRef w s) w true none 0 s
    else (accept (copyRef w s) w false (some k) t.ctl s).map fun r =>
      (r.1.updQuad fun q =>
        { q with
          tiles := smUpd Tile.reset q.tiles k fun x => { x with st := if drain then .draining else .filling }
          keepA := if !drain && q.keepA = some k then none else q.keepA
          keepB := if !drain && q.keepB = some k then none else q.keepB }, r.2)

/-- A suspended command restarts at its recorded element (R83). -/
def restart (e : EngineRef) (k : ECmd) (s : State) : State :=
  keepRecord k (s.setCtx e ((s.ctx e).updCmd k.seq fun c => { c with susp := none, waiting := none }))

/-- A `resume`: restarts the suspended command its handle names, takes no sequence number, and answers the null future (R306,
R362, R407). The commands of a pre-empted context are saved, and it names none of them (R89, R307, notes/assumptions/70.md). -/
def resumeAt (e : EngineRef) (ok : Bool) (h : Word) (s : State) : Option (State × Word) :=
  let x := s.ctx e
  match x.cmds.find? fun k => handleOf e k.seq == h && k.susp.isSome && k.fin.isNone with
  | some k => if ok && !x.preempted then some (restart e k s, 0) else some (s, 0)
  | none => some (s, 0)

/-- Words 2 to 7 of a `resume` are zero and its word 0 carries CMD and a context only. -/
def resumeOk (w : Cmd) (low : Nat) : Bool := bits w.w0 low 0 == 0 && zeros [w.w2, w.w3, w.w4, w.w5, w.w6, w.w7]

/-! ## Basin commands (R351 to R373) -/

/-- The basin and context that accept a command of q1, and whether its BASIN is beyond the die's count or absent (R352). -/
def basinRef (w : Cmd) (s : State) : EngineRef × Bool :=
  let d := dieOfCore s.g.core
  let n := bits w.w0 53 48
  let b := dieFirstBasin d + n
  if n < dieBasins d && !s.mgmt.absentBasins.contains b then (.basin b (bits w.w0 55 54), false)
  else
    let low := ((List.range (dieBasins d)).map (dieFirstBasin d + ·)).find? fun k => !s.mgmt.absentBasins.contains k
    (.basin (low.getD (dieFirstBasin d)) (bits w.w0 55 54), true)

/-- Acceptance of a basin command with the outcome of its own checks. -/
def acceptBasin (ok : Bool) (w : Cmd) (s : State) : Option (State × Word) :=
  let r := basinRef w s
  accept r.1 w (r.2 || !ok) none 0 s

/-- The format of a weir element: its width in bytes and its floating format, if any (R332). -/
def weirFmt (code : Nat) : Option (Nat × Option Fmt) :=
  match code with
  | 0x01 => some (4, some fp32)
  | 0x02 => some (2, some fp16)
  | 0x03 => some (2, some bf16)
  | 0x08 => some (1, none)
  | 0x09 => some (2, none)
  | 0x0A => some (4, none)
  | _ => none

/-- Parameters that Table 131 allows. -/
def weirParamsOk (fn fmt : Nat) (p0 p1 : BitVec 32) : Bool :=
  match weirFmt fmt with
  | none => false
  | some (n, f) =>
    match fn with
    | 1 => p1 == 0
    | 2 => true
    | 3 => match f with
      | some _ =>
        let lo := fp32.value p0.toNat
        let hi := fp32.value p1.toNat
        !lo.isNan && !hi.isNan && lo.cmp hi ≤ 0
      | none => p0.toInt ≤ p1.toInt
    | 4 => p0.toNat < 2 ^ (8 * n) && p1 == 0
    | 5 | 6 => p0 == 0 && p1 == 0
    | _ => false

/-- A function that reads the row and changes nothing (Table 131). -/
def weirReads (fn : Nat) : Bool := fn == 5 || fn == 6

/-- Checks of `sweep` that depend on no memory (R332, Table 134, Table 139). -/
def sweepOk (w : Cmd) : Bool :=
  let fn := bits w.w0 47 44
  let n := bits w.w2 24 0
  let v := w.w1.toNat
  bits w.w0 38 0 == 0 && weirParamsOk fn (bits w.w0 43 39) (w.w3.truncate 32) ((w.w3 >>> 32).truncate 32) && !high8 w.w1 &&
    bits w.w1 10 0 == 0 && bits w.w2 63 25 == 0 && 1 ≤ n && n ≤ 16777216 && zeros [w.w5, w.w6, w.w7] &&
    (if weirReads fn then bits w.w4 2 0 == 0 && (w.w4.toNat + 8 * n ≤ v || v + 2048 * n ≤ w.w4.toNat) else w.w4 == 0)

/-- Word 0 of a basin command with neither FN nor FMT. -/
def plainWord0 (w : Cmd) : Bool := bits w.w0 47 0 == 0

/-- Checks of `sweep.force` and `snap.abort` (R355, R377). -/
def forceOk (w : Cmd) : Bool := plainWord0 w && zeros [w.w2, w.w3, w.w4, w.w5, w.w6, w.w7]
/-- Checks of `sweep.status` (R356). -/
def statusOk (w : Cmd) : Bool :=
  plainWord0 w && bits w.w2 63 25 == 0 && bits w.w3 3 0 == 0 && !high8 w.w3 && zeros [w.w4, w.w5, w.w6, w.w7]
/-- A row address: a multiple of 2,048 with bits [63:56] zero. -/
def rowAddrOk (a : Word) : Bool := !high8 a && bits a 10 0 == 0
/-- Checks of `row.copy` and `row.zero` (R358). -/
def rowCmdOk (zero : Bool) (w : Cmd) : Bool :=
  plainWord0 w && (if zero then w.w1 == 0 else rowAddrOk w.w1) && rowAddrOk w.w2 && 1 ≤ w.w3.toNat && w.w3.toNat ≤ 16777216 &&
    zeros [w.w4, w.w5, w.w6, w.w7]
/-- Checks of `derive.reg` (R364). -/
def deriveOk (w : Cmd) : Bool :=
  let fmt := bits w.w0 43 39
  bits w.w0 38 0 == 0 && (fmt == 2 || fmt == 3 || (bits w.w0 47 44 == 1 && fmt == 0x15)) && rowAddrOk w.w1 && rowAddrOk w.w2 &&
    bits w.w3 63 16 == 0 && zeros [w.w4, w.w5, w.w6, w.w7]
/-- Checks of `derive.drop` and `derive.flush` (R371, R372). -/
def dropOk (w : Cmd) : Bool :=
  plainWord0 w && w.w1 == 0 && rowAddrOk w.w2 && bits w.w3 63 16 == 0 && zeros [w.w4, w.w5, w.w6, w.w7]
/-- Checks of `snap.arm` that depend on no memory (Table 147). -/
def snapOk (w : Cmd) : Bool :=
  plainWord0 w && rowAddrOk w.w1 && 1 ≤ w.w2.toNat && w.w2.toNat ≤ 402653184 && bits w.w4 63 4 == 0 && zeros [w.w5, w.w6, w.w7]

/-! ## Collective commands (R402, R403) -/

/-- The collective context of word 0 (Table 170). -/
def collRef (w : Cmd) : EngineRef := .coll (bits w.w0 55 52)

/-- Bytes of an element of a reduction type (Table 170). -/
def collBytes (ty : Nat) : Option Nat :=
  match ty with
  | 0x00 | 0x0B => some 8
  | 0x01 | 0x0A | 0x0E => some 4
  | 0x02 | 0x03 => some 2
  | _ => none

/-- The communicator a command names. -/
def State.comm (s : State) (n : Nat) : Option Comm := smGet none s.coll.comms n

/-- Checks of a reduction: type, operation, communicator, addresses a multiple of the element size (R403). -/
def reduceOk (w : Cmd) (s : State) : Bool :=
  let op := bits w.w0 43 40
  let ty := bits w.w0 39 35
  bits w.w0 33 0 == 0 && op ≤ 2 && (s.comm (bits w.w0 51 44)).isSome && !high8 w.w1 && !high8 w.w2 && bits w.w3 63 40 == 0 &&
    zeros [w.w4, w.w5, w.w6, w.w7] &&
    (match collBytes ty with
      | some n => w.w1.toNat % n == 0 && w.w2.toNat % n == 0
      | none => false)
/-- Checks of `allgather` (Table 171). -/
def gatherAllOk (w : Cmd) (s : State) : Bool :=
  bits w.w0 43 35 == 0 && bits w.w0 33 0 == 0 && (s.comm (bits w.w0 51 44)).isSome && !high8 w.w1 && !high8 w.w2 &&
    bits w.w3 63 40 == 0 && zeros [w.w4, w.w5, w.w6, w.w7]
/-- Checks of `send` and `recv` (Table 171, R403). -/
def sendOk (recv : Bool) (w : Cmd) (s : State) : Bool :=
  bits w.w0 43 35 == 0 && bits w.w0 33 0 == 0 && !high8 w.w1 && !high8 w.w2 && (if recv then w.w1 == 0 else w.w2 == 0) &&
    bits w.w3 63 40 == 0 && bits w.w4 63 48 == 0 && zeros [w.w5, w.w6, w.w7] &&
    (match s.comm (bits w.w0 51 44) with | some c => bits w.w4 15 0 < c.eps.length | none => false)
/-- Checks of `bucket.arm` (Table 171, R403): an already armed bucket is refused. -/
def bucketOk (w : Cmd) (s : State) : Bool :=
  let b := bits w.w0 51 44
  bits w.w0 43 0 == 0 && b < 64 && (smGet none s.coll.buckets b).isNone && !high8 w.w1 &&
    bits w.w1 5 0 == 0 && rowAddrOk w.w2 && bits w.w3 63 40 == 0 && bits w.w3 10 0 == 0 && bits w.w4 63 40 == 0 &&
    1 ≤ w.w4.toNat && !high8 w.w5 && bits w.w5 2 0 == 0 && zeros [w.w6, w.w7]
/-- Checks of `step` (Table 171): a barriered step names a configured communicator, and another uses neither COMM nor DLV (R403). -/
def stepOk (w : Cmd) (s : State) : Bool :=
  bits w.w0 43 35 == 0 && bits w.w0 33 0 == 0 && bits w.w1 63 1 == 0 && !high8 w.w2 && bits w.w2 2 0 == 0 &&
    zeros [w.w3, w.w4, w.w5, w.w6, w.w7] && (if w.w1 == 1 then (s.comm (bits w.w0 51 44)).isSome else bits w.w0 51 34 == 0)

/-! ## One acceptance for each command -/

/-- The answer of a queue, as the meaning of the command: acceptance, or no change where the context is full. -/
def received (r : Option (State × Word)) (s : State) : Out := .next ((r.map Prod.fst).getD s)

def takeCopy (w : Cmd) (s : State) : Option (State × Word) := accept (copyRef w s) w (!copyOk w) none 0 s
def takeCopyx (w : Cmd) (s : State) : Option (State × Word) := accept (copyRef w s) w (!copyxOk w) none 0 s
def takeGather (w : Cmd) (s : State) : Option (State × Word) := accept (copyRef w s) w (!gatherOk w) none 0 s
def takeFill (w : Cmd) (s : State) : Option (State × Word) := accept (copyRef w s) w (!fillOk w) none 0 s
def takeClist (w : Cmd) (s : State) : Option (State × Word) := accept (copyRef w s) w (!clistOk w) none 0 s
def takeCopyResume (w : Cmd) (s : State) : Option (State × Word) := resumeAt (copyRef w s) (resumeOk w 52) w.w1 s
def takeSweep (w : Cmd) (s : State) : Option (State × Word) := acceptBasin (sweepOk w) w s
def takeBasinResume (w : Cmd) (s : State) : Option (State × Word) :=
  resumeAt (basinRef w s).1 (resumeOk w 47 && !(basinRef w s).2) w.w1 s
def takeColl (ok : Bool) (w : Cmd) (s : State) : Option (State × Word) := accept (collRef w) w (!ok) none 0 s
def takeCollResume (w : Cmd) (s : State) : Option (State × Word) := resumeAt (collRef w) (resumeOk w 51) w.w1 s
def takeLaunch (w : Cmd) (s : State) : Option (State × Word) := accept (.launch (bits w.w0 55 53)) w false none 0 s

/-- `copy` received by q0 (R294). -/
def execCopy (w : Cmd) (s : State) : Out := received (takeCopy w s) s
/-- `copyx` received by q0 (R296). -/
def execCopyx (w : Cmd) (s : State) : Out := received (takeCopyx w s) s
/-- `gather` received by q0 (R297). -/
def execGather (w : Cmd) (s : State) : Out := received (takeGather w s) s
/-- `scatter` received by q0 (R297). -/
def execScatter (w : Cmd) (s : State) : Out := received (takeGather w s) s
/-- `fill` received by q0 (R294). -/
def execFill (w : Cmd) (s : State) : Out := received (takeFill w s) s
/-- `tfill` received by q0 (R298). -/
def execTfill (w : Cmd) (s : State) : Out := received (acceptTile false w s) s
/-- `tdrain` received by q0 (R298). -/
def execTdrain (w : Cmd) (s : State) : Out := received (acceptTile true w s) s
/-- `clist` received by q0 (R300). -/
def execClist (w : Cmd) (s : State) : Out := received (takeClist w s) s
/-- Copy-engine `resume` (R306). -/
def execCopyResume (w : Cmd) (s : State) : Out := received (takeCopyResume w s) s
/-- `sweep` with `scale` received by q1 (R354). -/
def execSweepScale (w : Cmd) (s : State) : Out := received (takeSweep w s) s
/-- `sweep` with `affine` received by q1 (R354). -/
def execSweepAffine (w : Cmd) (s : State) : Out := received (takeSweep w s) s
/-- `sweep` with `clamp` received by q1 (R354). -/
def execSweepClamp (w : Cmd) (s : State) : Out := received (takeSweep w s) s
/-- `sweep` with `fill` received by q1 (R354). -/
def execSweepFill (w : Cmd) (s : State) : Out := received (takeSweep w s) s
/-- `sweep` with `absmax` received by q1 (R354). -/
def execSweepAbsmax (w : Cmd) (s : State) : Out := received (takeSweep w s) s
/-- `sweep` with `sum` received by q1 (R354). -/
def execSweepSum (w : Cmd) (s : State) : Out := received (takeSweep w s) s
/-- `sweep.force` received by q1 (R355). -/
def execSweepForce (w : Cmd) (s : State) : Out := received (acceptBasin (forceOk w) w s) s
/-- `sweep.status` received by q1 (R356). -/
def execSweepStatus (w : Cmd) (s : State) : Out := received (acceptBasin (statusOk w) w s) s
/-- `row.copy` received by q1 (R358). -/
def execRowCopy (w : Cmd) (s : State) : Out := received (acceptBasin (rowCmdOk false w) w s) s
/-- `row.zero` received by q1 (R358). -/
def execRowZero (w : Cmd) (s : State) : Out := received (acceptBasin (rowCmdOk true w) w s) s
/-- `derive.reg` with TRANSPOSE received by q1 (R364). -/
def execDeriveRegTranspose (w : Cmd) (s : State) : Out := received (acceptBasin (deriveOk w) w s) s
/-- `derive.reg` with CAST received by q1 (R364). -/
def execDeriveRegCast (w : Cmd) (s : State) : Out := received (acceptBasin (deriveOk w) w s) s
/-- `derive.reg` with ROWSUM received by q1 (R364). -/
def execDeriveRegRowsum (w : Cmd) (s : State) : Out := received (acceptBasin (deriveOk w) w s) s
/-- `derive.drop` received by q1 (R371). -/
def execDeriveDrop (w : Cmd) (s : State) : Out := received (acceptBasin (dropOk w) w s) s
/-- `derive.flush` received by q1 (R372). -/
def execDeriveFlush (w : Cmd) (s : State) : Out := received (acceptBasin (dropOk w) w s) s
/-- `snap.arm` received by q1 (R373). -/
def execSnapArm (w : Cmd) (s : State) : Out := received (acceptBasin (snapOk w) w s) s
/-- `snap.abort` received by q1 (R377). -/
def execSnapAbort (w : Cmd) (s : State) : Out := received (acceptBasin (forceOk w) w s) s
/-- Basin `resume` (R362). -/
def execBasinResume (w : Cmd) (s : State) : Out := received (takeBasinResume w s) s
/-- `allreduce` received by q2 (R405). -/
def execAllreduce (w : Cmd) (s : State) : Out := received (takeColl (reduceOk w s) w s) s
/-- `reducescatter` received by q2 (R405). -/
def execReducescatter (w : Cmd) (s : State) : Out := received (takeColl (reduceOk w s) w s) s
/-- `allgather` received by q2 (R405). -/
def execAllgather (w : Cmd) (s : State) : Out := received (takeColl (gatherAllOk w s) w s) s
/-- `send` received by q2 (R405). -/
def execSendCmd (w : Cmd) (s : State) : Out := received (takeColl (sendOk false w s) w s) s
/-- `recv` received by q2 (R405). -/
def execRecvCmd (w : Cmd) (s : State) : Out := received (takeColl (sendOk true w s) w s) s
/-- `bucket.arm` received by q2 (R408). -/
def execBucketArm (w : Cmd) (s : State) : Out := received (takeColl (bucketOk w s) w s) s
/-- `step` received by q2 (R411). -/
def execStepCmd (w : Cmd) (s : State) : Out := received (takeColl (stepOk w s) w s) s
/-- Collective `resume` (R407). -/
def execCollectiveResume (w : Cmd) (s : State) : Out := received (takeCollResume w s) s
/-- `launch` received by q3 (R416, R418). -/
def execLaunch (w : Cmd) (s : State) : Out := received (takeLaunch w s) s
/-- `reclaim` received by q3 (R421). -/
def execReclaim (w : Cmd) (s : State) : Out := received (takeLaunch w s) s

/-- A queue's answer to any eight words: the command its CMD and FN name, or a malformed one that it accepts and ends in error
(R180). -/
def offer (q : Nat) (w : Cmd) (s : State) : Option (State × Word) :=
  match q, w.cmd.toNat with
  | 0, 1 => takeCopy w s
  | 0, 2 => takeCopyx w s
  | 0, 3 => takeGather w s
  | 0, 4 => takeGather w s
  | 0, 5 => takeFill w s
  | 0, 6 => acceptTile false w s
  | 0, 7 => acceptTile true w s
  | 0, 8 => takeClist w s
  | 0, 9 => takeCopyResume w s
  | 0, _ => accept (copyRef w s) w true none 0 s
  | 1, 1 => takeSweep w s
  | 1, 2 => acceptBasin (forceOk w) w s
  | 1, 3 => acceptBasin (statusOk w) w s
  | 1, 4 => acceptBasin (rowCmdOk false w) w s
  | 1, 5 => acceptBasin (rowCmdOk true w) w s
  | 1, 6 => acceptBasin (deriveOk w && 1 ≤ w.fn.toNat && w.fn.toNat ≤ 3) w s
  | 1, 7 => acceptBasin (dropOk w) w s
  | 1, 8 => acceptBasin (dropOk w) w s
  | 1, 9 => acceptBasin (snapOk w) w s
  | 1, 10 => acceptBasin (forceOk w) w s
  | 1, 11 => takeBasinResume w s
  | 1, _ => acceptBasin false w s
  | 2, 1 => takeColl (reduceOk w s) w s
  | 2, 2 => takeColl (reduceOk w s) w s
  | 2, 3 => takeColl (gatherAllOk w s) w s
  | 2, 4 => takeColl (sendOk false w s) w s
  | 2, 5 => takeColl (sendOk true w s) w s
  | 2, 6 => takeColl (bucketOk w s) w s
  | 2, 7 => takeColl (stepOk w s) w s
  | 2, 8 => takeCollResume w s
  | 2, _ => takeColl false w s
  | _, 1 => takeLaunch w s
  | _, 2 => takeLaunch w s
  | _, _ => accept (.launch (bits w.w0 55 53)) w true none 0 s

/-! ## push (R180, R321) -/

/-- An access that the push edge orders before the command has not been performed, or a write-through that the core's buffer held when
the push issued (Table 22, R321). An access that its home holds does not keep a push (notes/assumptions/22.md). -/
def pushWaits (s : State) (upto : Nat) : Bool :=
  (s.g.accs.any fun x => x.coveredBy (s.g.probe true .sys) && x.outstanding) ||
    (s.g :: s.others).any fun h => h.live && h.core == s.g.core && h.accs.any fun a => a.lanes.any fun l =>
      l.buffered && l.sent.getD 0 < upto

/-- The eight registers of a command. -/
def Group.cmdAt (g : Group) (a : XReg) : Cmd :=
  { w0 := g.readX a, w1 := g.readX (a + 1), w2 := g.readX (a + 2), w3 := g.readX (a + 3), w4 := g.readX (a + 4),
    w5 := g.readX (a + 5), w6 := g.readX (a + 6), w7 := g.readX (a + 7) }

/-- What `push` writes: the handle and a false predicate, or the null future and a true one (R38). -/
def pushDone (d : XReg) (full : BitVec 3) (h : Word) (b : Bool) (s : State) : State :=
  ctlAdvance (s.withG ((s.g.setX d h).writeC full b))

/-- `push` (R180). -/
def execPush (g : CGuard) (d a : XReg) (q : BitVec 2) (full : BitVec 3) (s : State) : Out :=
  ctlInstr g [a, a + 1, a + 2, a + 3, a + 4, a + 5, a + 6, a + 7] s fun t =>
    let upto := match t.g.block with | .push u => u | _ => t.stamp
    if pushWaits t upto then ctlBlock (.push upto) t
    else match offer q.toNat (t.g.cmdAt a) t with
      | some (u, h) => pushDone d full h false (u.withG u.g.effect)
      | none => pushDone d full 0 true t

/-! ## Waiting, testing, cancelling -/

/-- A wait on an ended command traps with its code; the record is continued or terminated, whatever the code (R76). -/
def waitTrap (c : BitVec 8) (h : Word) (s : State) : State :=
  haltWith { fr := s.g.ctlRec c 0 0 h, sent := false, held := none, act := none, wait := true } s

/-- A wait on a handle (R39, R40, R76, R181). -/
def waitOn (h : Word) (s : State) : State :=
  if h = 0 then ctlAdvance s
  else match handleRef h with
    | none => ctlFault cTargetBad 0 0 h s
    | some (e, seq) =>
      let x := s.ctx e
      if !x.reached seq then ctlBlock (.future h) s
      else match x.endStat seq with
        | .completed => ctlAdvance (acquire .pkg s)
        | .error c => waitTrap c h s
        | .cancelled => waitTrap cFutureCancelled h s

/-- `fwait` (R181). -/
def execFwait (g : CGuard) (a : XReg) (s : State) : Out := ctlInstr g [a] s fun t => waitOn (t.g.readX a) t

/-- `tlwait`: as `fwait` on the handle put together from two registers (R185); of two bad operands INFO names the sequence number
(notes/assumptions/62.md). -/
def execTlwait (g : CGuard) (a b : XReg) (s : State) : Out :=
  ctlInstr g [a, b] s fun t =>
    let y := t.g.readX b
    if y >>> 48 ≠ 0 then ctlFault cTargetBad 0 0 y t
    else waitOn ((t.g.readX a &&& 0xFFFF_0000_0000_0000) ||| y) t

/-- The value `ftest` writes (Table 78). -/
def testStatus (x : EngCtx) (seq : Nat) : Word :=
  match (x.cmd seq).bind (·.susp) with
  | some c => (c.zeroExtend 64 <<< 8) ||| 2
  | none =>
    if !x.reached seq then 0
    else match x.endStat seq with
      | .completed => 1
      | .error c => (c.zeroExtend 64 <<< 8) ||| 2
      | .cancelled => 3

/-- `ftest` (R182). -/
def execFtest (g : CGuard) (d a : XReg) (s : State) : Out :=
  ctlInstr g [a] s fun t =>
    let h := t.g.readX a
    if h = 0 then ctlWrite d 1 t
    else match handleRef h with
      | none => ctlFault cTargetBad 0 0 h t
      | some (e, seq) => ctlWrite d (testStatus (t.ctx e) seq) t

/-- A command whose cancel is carried out at its homes: a sweep (R346) or a snapshot (R377) that has started, row by row, and a
`derive.reg` that has, which ends cancelled once its registration, its one element, is whole (R366, notes/assumptions/71.md). -/
def cancelsByRow (e : EngineRef) (k : ECmd) : Bool :=
  match e with
  | .basin _ _ => k.started && (k.w.cmd = 1 || k.w.cmd = 6 || k.w.cmd = 9)
  | _ => false

/-- The bucket that an arm of this context holds armed. -/
def armedBucket (c : Nat) (k : ECmd) (s : State) : Option Bucket :=
  if k.w.cmd = 6 then (smGet none s.coll.buckets (bits k.w.w0 51 44)).filter fun b => b.ctx == c && b.seq == k.seq else none

/-- Takes a bucket's registrations from its rows and leaves it unarmed. -/
def clearBucket (n : Nat) (s : State) : State :=
  let rows := s.rows.map (·.1)
  let t := rows.foldl (fun t r => t.updRow r fun w => { w with buckets := w.buckets.filter fun b => b.1 != n }) s
  { t with coll := { t.coll with buckets := smPut none t.coll.buckets n none } }

/-- Disarms the bucket of an arm that has not fired (R410). -/
def disarm (c : Nat) (k : ECmd) (s : State) : State :=
  if (armedBucket c k s).isSome then clearBucket (bits k.w.w0 51 44) s else s

/-- Cancels a command that has not ended (R40, R184, R305): it stops at its element boundary, that is, here. A launch that runs
has its grid terminated. A reclaim that has flipped its pages ends when their entries have reached every basin copy (R392). -/
def cancelCmd (e : EngineRef) (k : ECmd) (s : State) : State :=
  if cancelsByRow e k then s.setCtx e ((s.ctx e).updCmd k.seq fun c => { c with cancel := true })
  else match e with
    | .launch c =>
      if k.started && k.w.cmd = 1 then
        let key := c * 2 ^ 48 + k.seq
        { s with grids := smUpd none s.grids key fun o => o.map fun gr => { gr with term := true, cancelled := true } }
      else if k.started && k.w.cmd = 2 then s.setCtx e ((s.ctx e).updCmd k.seq fun c => { c with cancel := true })
      else endCmd e k .cancelled s
    | .coll c => endCmd e k .cancelled (disarm c k s)
    | _ => endCmd e k .cancelled s

/-- `fcancel` (R184). -/
def execFcancel (g : CGuard) (a : XReg) (s : State) : Out :=
  ctlInstr g [a] s fun t =>
    let h := t.g.readX a
    if h = 0 then ctlAdvance t
    else match handleRef h with
      | none => ctlFault cTargetBad 0 0 h t
      | some (e, seq) =>
        match (t.ctx e).cmd seq with
        | some k => ctlAdvance (if k.fin.isSome then t else cancelCmd e k t)
        | none => ctlAdvance t

end Sys2Proof.Machine
end

