-- ==== Sys2Proof/Machine/Vreg.lean ====
section
/-! DEFINITION. Storage of vector registers in the pool and the uniform store: binding, floors, expansion and compression
(R204 to R212), and wait-slot counts (R127). -/
namespace Sys2Proof.Machine

/-- Expanded names of a bank. -/
def expandedIn (v : SMap (Option VName)) (b : Nat) : Nat :=
  (v.filter fun kv => kv.1 % 4 == b && match kv.2 with | some n => !n.comp | none => false).length

/-- A register that no expanded name holds under its binding and to which a write is outstanding: that of a freed name, or of one that has
moved to the uniform store (R207, notes/assumptions/63.md). -/
def Group.heldLoose (g : Group) (n : VReg × Nat) : Bool :=
  g.loose.contains n && g.awaits n && !(g.name n.1).any fun x => !x.comp && x.bind == n.2

/-- Physical registers of a bank that a group holds: expanded names, and the registers that outstanding writes hold, each once (R207). -/
def Group.usedIn (g : Group) (b : Nat) : Nat :=
  expandedIn g.v b + (g.loose.filter fun n => n.1.toNat % 4 == b && g.heldLoose n).length

/-- The groups resident on a core. -/
def State.coreGroups (s : State) (core : Nat) : List Group := (s.g :: s.others).filter fun h => h.live && h.core == core

/-- The teams placed on a core that have not ended, with their numbers, whether or not their groups have started. -/
def coreTeams (s : State) (core : Nat) : List (Nat × Team) := s.teams.filter fun t => t.2.core == core && t.2.alive

/-- Physical registers of a bank that a team holds on its core: those of its groups, and those its ended groups left bound (R34). -/
def teamUsed (s : State) (core team b : Nat) : Nat :=
  ((s.coreGroups core).filter fun h => h.team == team).foldl (fun n h => n + h.usedIn b) 0 +
    (smGet Team.reset s.teams team).kept.foldl (fun n v => n + expandedIn v b) 0

/-- Registers of a bank that no name holds: 1,024 less those in use (R204). -/
def freeRegs (s : State) (core b : Nat) : Nat :=
  1024 - (s.coreGroups core).foldl (fun n h => n + h.usedIn b) 0 -
    (coreTeams s core).foldl (fun n t => n + t.2.kept.foldl (fun k v => k + expandedIn v b) 0) 0

/-- A team's floor in each bank: ⌈N / 4⌉ (R208). -/
def teamFloor (s : State) (team : Nat) : Nat := ((smGet Team.reset s.teams team).floor + 3) / 4

/-- A bind in a bank by a team succeeds at once (R208). -/
def canBind (s : State) (core team b : Nat) : Bool :=
  let others := ((coreTeams s core).map (·.1)).filter (· != team)
  let short := others.foldl (fun k u => k + (teamFloor s u - teamUsed s core u b)) 0
  teamUsed s core team b < teamFloor s team || short < freeRegs s core b

/-- A stalled instruction or a waiting arrival of the core is older, needs the bank, and would itself succeed: it is served first
(R208, R437). One that needs two banks of which one has no room is passed over in the other (notes/assumptions/82.md). -/
def olderWaits (s : State) (born b : Nat) : Bool :=
  let fits := fun (h : Group) (w : Nat × List Nat) => w.1 < born && w.2.contains b && w.2.all fun k => canBind s h.core h.team k
  (s.coreGroups s.g.core).any fun h =>
    (!h.halted && (match h.stall with | some w => fits h w | none => false)) || h.arrivals.any fun a => fits h (a.born, a.banks)

/-- Entries of the core's uniform store in use (R211). -/
def uniformUsed (s : State) (core : Nat) : Nat :=
  let comp := fun (v : SMap (Option VName)) => (v.filter fun kv => match kv.2 with | some x => x.comp | none => false).length
  (s.coreGroups core).foldl (fun n h => n + comp h.v) 0 +
    (coreTeams s core).foldl (fun n t => n + t.2.kept.foldl (fun k v => k + comp v) 0) 0

/-- What a write of a name needs of the pool. -/
inductive Alloc where
  /-- the name keeps its register -/
  | keep
  /-- the value goes to the uniform store -/
  | compress
  /-- a register is bound and cleared, or cleared and filled from the uniform value -/
  | bind
  deriving DecidableEq, Repr

/-- Where a write of a value under a mask is stored (R205, R211, R212); `val` is none when the value is not known at issue. -/
def allocFor (s : State) (g : Group) (r : VReg) (m : Mask) (val : Option Lanes) : Alloc :=
  let eq := m == 0xFFFF_FFFF && match val with | some v => uniform v | none => false
  match g.name r with
  | none => if eq && uniformUsed s g.core < 256 then .compress else .bind
  | some n =>
    if n.comp then if eq then .compress else if g.heldLoose (r, n.bind) then .keep else .bind
    else if eq && uniformUsed s g.core < 256 then .compress else .keep

/-- A partial write expands a name that the uniform store holds, at 2 cycles (R122, R212). -/
def expands (g : Group) (r : VReg) (m : Mask) : Bool := m != 0 && m != 0xFFFF_FFFF && (g.name r).any fun n => n.comp

/-- Gives a name its storage at the issue of a write; `k` numbers a new binding. A register to which a write is outstanding stays held when
its name moves to the uniform store (notes/assumptions/63.md). -/
def Group.store (g : Group) (r : VReg) (al : Alloc) (k : Nat) : Group :=
  match al, g.name r with
  | .keep, _ => g
  | .compress, none => g.setName r (some { val := 0, comp := true, bind := k })
  | .compress, some n =>
    let h := g.setName r (some { n with comp := true })
    if !n.comp && g.awaits (r, n.bind) then { h with loose := (r, n.bind) :: h.loose.filter (· != (r, n.bind)) } else h
  | .bind, none => g.setName r (some { val := 0, comp := false, bind := k })
  | .bind, some n => g.setName r (some { n with comp := false })

/-- A write the pool is asked to store: the name, the lanes, the value when it is known. -/
abbrev NameWrite := VReg × Mask × Option Lanes

/-- Binds what one write needs: at once below the team's floor, else in the order of the bank, in which an older one that would have
succeeded in the state `before`, whose registers the instruction's own last reads have not yet freed, goes first; none when it must stall
(R208, R212). -/
def bindOne (before : State) (born : Nat) (w : NameWrite) (s : State) : Option State :=
  let al := allocFor s s.g w.1 w.2.1 w.2.2
  let b := w.1.toNat % 4
  let below := teamUsed s s.g.core s.g.team b < teamFloor s s.g.team
  if al == .bind && !below && !(canBind s s.g.core s.g.team b && !olderWaits before born b) then none
  else some (s.withG (s.g.store w.1 al s.stamp))

/-- Binds what every write of an instruction needs, or nothing. -/
def bindAll (before : State) (born : Nat) (ws : List NameWrite) (s : State) : Option State :=
  ws.foldl (fun o w => o.bind (bindOne before born w)) (some s)

/-- The banks in which writes need a register. -/
def needBanks (ws : List NameWrite) (s : State) : List Nat :=
  ((ws.filter fun w => allocFor s s.g w.1 w.2.1 w.2.2 == .bind).map fun w => w.1.toNat % 4).eraseDups

/-- A variable-latency result lands in the group in focus; a full-mask uniform one is kept in the uniform store when it has room
(R207, R211). -/
def landArrival (r : VReg) (bind : Nat) (m : Mask) (v : Lanes) (s : State) : State :=
  let g := s.g.land r bind m v
  if m = 0xFFFF_FFFF ∧ uniform v ∧ g.bindOf r = some bind ∧ uniformUsed s g.core < 256 then
    s.withG (g.setName r ((g.name r).map fun n => { n with comp := true }))
  else s.withG g

/-- Outstanding instructions of a wait slot (R127): WSET value 1 to 6. -/
def Group.slotCount (g : Group) (ws : Nat) : Nat := (g.accs.filter fun a => a.wset == ws).length

end Sys2Proof.Machine
end

