-- ==== Sys2Proof/Machine/Operands.lean ====
section
/-! DEFINITION. Operand delivery and issue of vector instructions: latches, bank penalty, issue cycle, execute mask, checking,
last reads, binding, fixed-latency results, wait slots and zero masks (R116 to R127, R203 to R214). -/
namespace Sys2Proof.Machine

/-! ## Operands -/

/-- A source operand and whether it is a 64-bit pair (R93, R116, R217). -/
structure Opnd where
  src : VSrc
  wide : Bool
  deriving DecidableEq, Repr

/-- The value of an operand: low registers and, for a pair, high registers. -/
structure VVal where
  lo : Lanes
  hi : Lanes
  deriving DecidableEq, Repr

/-- Lane n of an operand as a number; a 32-bit operand has a zero high part. -/
def VVal.nat (v : VVal) (n : Nat) : Nat := (lane v.lo n).toNat + 2 ^ 32 * (lane v.hi n).toNat

/-- The vector registers an operand names. -/
def Opnd.regs (o : Opnd) : List VReg :=
  match o.src with
  | .v n => if o.wide then [n, n + 1] else [n]
  | .k _ | .i _ => []

/-- What instruction i - d of the clause left in its latch for the register that this operand names (R125). -/
def Group.latchHit (g : Group) (o : Opnd) (d : Nat) : Option Latch :=
  match o.src, smGet none g.latch ((g.vpos.idx - d) % 3) with
  | .v n, some l => if l.idx + d = g.vpos.idx ∧ l.reg = n then some l else none
  | _, _ => none

/-- The latch an operand reads instead of a bank, and for the second register of a pair the one that holds the pair (R125). -/
def Group.latched (g : Group) (o : Opnd) : Option Latch := (g.latchHit o 1).orElse fun _ => g.latchHit o 2
def Group.latchedPair (g : Group) (o : Opnd) : Option Latch :=
  ((g.latchHit o 1).filter (·.wide)).orElse fun _ => (g.latchHit o 2).filter (·.wide)

/-- A uniform i register (R199). -/
def Group.readI (g : Group) (n : BitVec 2) : BitVec 32 :=
  if n = 0 then g.i0 else if n = 1 then g.i1 else if n = 2 then g.i2 else g.i3

/-- A uniform k register (R143). -/
def Group.readK (g : Group) (n : BitVec 6) : BitVec 32 := smGet 0 g.k n.toNat

/-- The registers an operand reads from the banks: a latch of one register leaves the second of a pair to be read there
(notes/assumptions/14.md). -/
def Group.bankRegs (g : Group) (o : Opnd) : List VReg :=
  if (g.latched o).isNone then o.regs else if (g.latchedPair o).isSome then [] else o.regs.tail

/-- The value an operand reads (R116, R123, R125, R199). -/
def Group.operand (g : Group) (o : Opnd) : VVal :=
  match g.latched o, o.src with
  | some l, .v n => { lo := l.lo, hi := if !o.wide then 0 else ((g.latchedPair o).map (·.hi)).getD (g.seenV (n + 1)) }
  | _, src =>
    match src with
    | .v n => { lo := g.seenV n, hi := if o.wide then g.seenV (n + 1) else 0 }
    | .k n => { lo := splat (g.readK n), hi := if o.wide then splat (g.readK (n + 1)) else 0 }
    | .i n => { lo := splat (g.readI n), hi := 0 }

/-! ## Checking (R75, R123, R127, Table 59) -/

/-- The producer, by its index in its clause, of a result that has not arrived in a name. -/
def Group.producer (g : Group) (r : VReg) : Option Nat :=
  match g.pendFor r with
  | some w => some w.idx
  | none => (g.accs.find? fun a =>
      (a.dst.names.any fun n => n.1 == r && g.bindOf r == some n.2) ||
        (match a.dst with | .recv d wide => d == r || (wide && d + 1 == r) | _ => false)).map (·.index)

/-- A fault of a vector instruction: code, lanes, ACC, ADDR, INFO. -/
structure VFault where
  code : BitVec 8
  lanes : Mask
  acc : BitVec 4
  addr : BitVec 56
  info : Word
  deriving DecidableEq, Repr

/-- The lowest code among faults; the first among equals (R74). -/
def lowest (fs : List VFault) : Option VFault :=
  fs.foldl (fun best f => match best with | none => some f | some b => if f.code.toNat < b.code.toNat then some f else best) none

/-- Faults that reading registers and predicates meets while checking is on. -/
def Group.sourceFaults (g : Group) (chk : Word) (ops : List Opnd) (ps : List (BitVec 3)) (m : Mask) : List VFault :=
  let regs := ops.flatMap g.bankRegs
  let short := regs.filterMap g.producer ++ (ps.filterMap fun p => (g.pendP p).map (·.idx))
  let uninit := regs.filter fun r => (g.name r).isNone
  (if chk.getLsbD 0 then short.map fun i => ⟨cStallShort, m, 0, 0, BitVec.ofNat 64 i⟩ else []) ++
    (if chk.getLsbD 1 then uninit.map fun r => ⟨cReadUninit, m, 0, 0, r.zeroExtend 64⟩ else [])

/-! ## The form of a vector instruction -/

/-- What every vector instruction presents at issue: its control fields, its operands by slot (a store's data is in slot e), the
predicates it reads beside its guards, the names it writes. -/
structure VForm where
  c : VCtl
  a : Option Opnd
  b : Option Opnd
  x : Option Opnd
  e : Option Opnd
  preds : List (BitVec 3)
  dests : List VReg
  deriving DecidableEq, Repr

/-- The operands present. -/
def VForm.ops (v : VForm) : List Opnd := [v.a, v.b, v.x, v.e].filterMap id

/-- The penalty of R124: the largest number of distinct bank-read registers in one bank, less one. -/
def VForm.penalty (v : VForm) (g : Group) : Nat :=
  let regs := (v.ops.flatMap g.bankRegs).eraseDups
  ((List.range 4).map fun b => (regs.filter fun r => r.toNat % 4 == b).length).foldl max 0 - 1

/-- The guards present. -/
def VForm.guards (v : VForm) : List (BitVec 3) := [v.c.g0, v.c.g1].filter (· != 7)

/-- The execute mask: the top of the mask stack and each guard present (R118). -/
def VForm.mask (v : VForm) (g : Group) : Mask :=
  let one := fun (p : BitVec 3) (n : Bool) => if n then ~~~ g.seenP p else g.seenP p
  g.top &&& one v.c.g0 v.c.g0n &&& one v.c.g1 v.c.g1n

/-- The registers of an operand, when LAST names it. -/
def lastRegs (last : Bool) (o : Option Opnd) : List VReg := if last then (o.map (·.regs)).getD [] else []

/-- Frees the names whose last read this is (R126). -/
def VForm.freeLast (v : VForm) (g : Group) : Group :=
  (lastRegs v.c.lastA v.a ++ lastRegs v.c.lastB v.b ++ lastRegs v.c.lastC v.x).foldl Group.free g

/-- Copies the source that HOLD names into the latch of this instruction (R125). -/
def VForm.load (v : VForm) (g : Group) (into : Group) : Group :=
  let o := match v.c.hold with | .none => none | .a => v.a | .b => v.b | .c => v.x
  match o with
  | some o =>
    match o.src with
    | .v n =>
      let r := g.operand o
      let l : Latch := { reg := n, wide := o.wide, idx := g.vpos.idx, lo := r.lo, hi := r.hi }
      { into with latch := smPut none into.latch (g.vpos.idx % 3) (some l) }
    | _ => into
  | none => into

/-- What an instruction works on: its issue cycle, execute mask, operands, the token's modes, the fault its sources meet, the state
before it, the moment that ranks it among stalled instructions. -/
structure VEnv where
  c : VCtl
  t : Nat
  m : Mask
  a : VVal
  b : VVal
  x : VVal
  e : VVal
  mode : VMode
  bad : List VFault
  base : State
  born : Nat
  deriving DecidableEq, Repr

/-- The issue cycle: the earliest cycle after the bank penalty, and two more for a partial write of a uniform name (R122, R124,
R212). -/
def VForm.cycle (v : VForm) (s : State) : Nat :=
  let t0 := s.g.vnow + v.penalty s.g
  let g0 := s.g.landBy t0
  if v.dests.any fun r => expands (v.freeLast g0) r (v.mask g0) then t0 + 2 else t0

/-- What the instruction works on when it issues in a state: results due by its cycle have landed, and its operands are read
(R122 to R125). -/
def VForm.env (v : VForm) (s : State) : VEnv :=
  let t := v.cycle s
  let g := s.g.landBy t
  let val := fun (o : Option Opnd) => match o with | some o => g.operand o | none => { lo := 0, hi := 0 }
  let m := v.mask g
  { c := v.c, t := t, m := m, a := val v.a, b := val v.b, x := val v.x, e := val v.e, mode := g.tokMode
    bad := g.sourceFaults g.tokMode.chk v.ops (v.guards ++ v.preds) m
    base := s.withG g, born := (g.stall.map (·.1)).getD s.stamp }

/-- The state its effect starts from: latches are loaded and last reads freed (R125, R126). -/
def VForm.start (v : VForm) (s : State) : State :=
  let g := s.g.landBy (v.cycle s)
  s.withG (v.load g (v.freeLast g))

/-- Issue of a vector instruction: its own effect follows on what it works on. -/
def vissue (v : VForm) (s : State) (k : VEnv → State → State) : Out := .next (k (v.env s) (v.start s))

/-- The instruction has issued: the earliest cycle of the next one, and the position after it; at the end of its clause the pipe is
given up (R122, R203). -/
def vdone (e : VEnv) (s : State) : State :=
  let g := { s.g with vnow := e.t + 2 + e.c.stall.toNat, stall := none }
  let s1 := { s with stamp := s.stamp + 1, g := g }
  if g.vpos.idx < g.vpos.n then s1.withG g.vecNext
  else
    let s2 := endPipe s1
    s2.withG s2.g.vecNext

/-- Faults of the instruction's own and those of its sources: the lowest code is taken, with nothing done (R5, R74, R78). -/
def VEnv.check (e : VEnv) (own : List VFault) (go : State) : State :=
  match lowest (own ++ e.bad) with
  | some f => vecFault f.code f.lanes f.acc f.addr f.info (refusedRow f.code f.info e.base)
  | none => go

/-- An allocation stall: nothing is done, and the group gives up its pipe and keeps its age (R203, R208, R424). -/
def allocStall (e : VEnv) (ws : List NameWrite) (s : State) : State :=
  let b := e.base
  let t := endPipe (b.withG { b.g.landAll with stall := some (e.born, needBanks ws s) })
  t.withG { t.g with ageV := b.g.ageV }

/-- The instruction cannot issue in this cycle: nothing is done, and it tries again in the next, by which more results have landed
(R29, R122, R127). -/
def vwait (e : VEnv) : State := e.base.withG { e.base.g with vnow := e.base.g.vnow + 1 }

/-- Binds the names that writes need and goes on, or stalls. -/
def vbind (e : VEnv) (ws : List NameWrite) (s : State) (go : State → State) : State :=
  match bindAll e.base e.born ws s with
  | some u => go u
  | none => allocStall e ws s

/-! ## Fixed-latency instructions -/

/-- Results of a fixed-latency instruction. -/
structure VRes where
  regs : List (VReg × Lanes)
  preds : List (BitVec 3 × Mask)
  flags : BitVec 8
  deriving DecidableEq, Repr

/-- A pending register result. -/
def pendReg (e : VEnv) (lat : Nat) (g : Group) (w : VReg × Lanes) : Group :=
  let p : PendWrite :=
    { ready := e.t + lat, dest := .reg w.1 ((g.bindOf w.1).getD 0), mask := e.m, val := w.2, old := g.seenV w.1
      idx := g.vpos.idx }
  { g with pend := insertPend p g.pend }

/-- A pending predicate result; p7 discards it (R198). -/
def pendPred (e : VEnv) (lat : Nat) (g : Group) (w : BitVec 3 × Mask) : Group :=
  if w.1 = 7 then g
  else
    let p : PendWrite :=
      { ready := e.t + lat, dest := .pred w.1, mask := e.m, val := w.2.zeroExtend 1024
        old := (g.seenP w.1).zeroExtend 1024, idx := g.vpos.idx }
    { g with pend := insertPend p g.pend }

/-- The `flags` bits of the issuing token (R104, R105). -/
def Group.tokenFlags (g : Group) (f : BitVec 8) : Group :=
  match g.runnel.head? with
  | some t => g.addFlags t.fseq t.epoch f
  | none => g.addFlags g.fseq g.epoch f

/-- A fixed-latency instruction: under a zero mask it writes nothing (R214); otherwise it binds its destinations, and its results
land after its latency (R122, R205, R211, R212). -/
def vfixed (v : VForm) (lat : Nat) (f : VEnv → VRes) (s : State) : Out :=
  vissue v s fun e u =>
    e.check [] (if e.m = 0 then vdone e u
      else
        let r := f e
        vbind e (r.regs.map fun w => (w.1, e.m, some w.2)) u fun w =>
          let g := r.preds.foldl (pendPred e lat) (r.regs.foldl (pendReg e lat) (w.g.tokenFlags r.flags))
          vdone e (w.withG g))

/-! ## Variable-latency instructions -/

/-- An outstanding access of the vector slice at the current instruction. -/
def VEnv.acc (e : VEnv) (s : State) (kind : AccKind) (w : Nat) (lanes : List LaneAcc) (dst : ADest) (acq rel : Bool)
    (sc : Scope) : Acc :=
  let t := s.g.runnel.head?
  { stamp := s.stamp, ctl := false, epoch := (t.map (·.epoch)).getD 0, path := s.g.paths, kind := kind, w := w, acq := acq
    rel := rel, scope := sc, hint := e.c.hint, lanes := lanes, dst := dst, mask := e.m, wset := e.c.wset.toNat
    fseq := (t.map (·.fseq)).getD s.g.fseq, clause := lo56 s.g.vpos.hdr, index := s.g.vpos.idx }

/-- Under a zero mask only the wait slot counts the instruction, for 4 cycles (R214). -/
def vzero (e : VEnv) (s : State) : State :=
  if e.c.wset = 0 then vdone e s
  else vdone e (issueAcc (e.acc s .zeroMask 0 [] .none false false .grp) s)

/-- The wait slot of the instruction is full (R127). -/
def VEnv.slotFull (e : VEnv) : Bool := e.c.wset != 0 && 63 ≤ e.base.g.slotCount e.c.wset.toNat

/-- A release half of an earlier fence of the vector slice is incomplete (R262). -/
def Group.fenced (g : Group) : Bool := g.accs.any fun a => a.kind == .fence && a.rel && !a.ctl

/-- A variable-latency instruction: a full wait slot holds it at issue (R127); then its faults, and its effect. -/
def vvar (v : VForm) (own : VEnv → List VFault) (s : State) (k : VEnv → State → State) : Out :=
  vissue v s fun e u => if e.slotFull then vwait e else e.check (own e) (k e u)

/-- A memory instruction: it issues after the release half of an earlier fence is complete (R262), and not into a full wait slot. -/
def vmem (v : VForm) (own : VEnv → List VFault) (s : State) (k : VEnv → State → State) : Out :=
  vissue v s fun e u => if e.base.g.fenced || e.slotFull then vwait e else e.check (own e) (k e u)

/-- A release of the vector slice: what its slice's homes hold halts the group at it, with nothing done (R80); otherwise it goes on, and is
performed after what it covers. -/
def VEnv.release (e : VEnv) (a : Acc) (go : State) : State := if a.rel then relCheck a e.base fun _ => go else go

/-- The destination of an access in the names it has bound. -/
def Group.vdest (g : Group) (d : VReg) (wide : Bool) (bits : Nat) (signed : Bool) : ADest :=
  .v d ((g.bindOf d).getD 0) ((g.bindOf (d + 1)).getD 0) wide bits signed

/-- The names a 32-bit or 64-bit result writes. -/
def destRegs (d : VReg) (wide : Bool) : List VReg := if wide then [d, d + 1] else [d]

end Sys2Proof.Machine
end

