-- ==== Sys2Proof/Machine/Flags.lean ====
section
/-! DEFINITION. Results and flags of lane-wise instructions: the flags of active lanes (R104), results of one or two registers
(R93), elements of packed types (R92, R217). -/
namespace Sys2Proof.Machine

/-- Results of the 32 lanes, and the flags of the active ones (R104, R214). -/
def laneRes (d : VReg) (wide : Bool) (m : Mask) (f : Nat → Nat × Flags) : VRes :=
  let rs := (List.range 32).map f
  let at_ := fun n => (rs.getD n (0, 0)).1
  let lo := mkLanes fun n => BitVec.ofNat 32 (at_ n)
  let hi := mkLanes fun n => BitVec.ofNat 32 (at_ n / 2 ^ 32)
  { regs := if wide then [(d, lo), (d + 1, hi)] else [(d, lo)]
    preds := []
    flags := (List.range 32).foldl (fun a n => if m.getLsbD n then a ||| (rs.getD n (0, 0)).2 else a) 0 }

/-- Outcomes of the 32 lanes for a predicate, and the flags of the active ones. -/
def predRes (p : BitVec 3) (m : Mask) (f : Nat → Bool × Flags) : VRes :=
  let rs := (List.range 32).map f
  { regs := []
    preds := [(p, mkMask fun n => (rs.getD n (false, 0)).1)]
    flags := (List.range 32).foldl (fun a n => if m.getLsbD n then a ||| (rs.getD n (false, 0)).2 else a) 0 }

/-- Element e of a lane of a packed type; the whole lane otherwise (R92). -/
def elem (packed : Bool) (w v e : Nat) : Nat := if packed then v / 2 ^ (16 * e) % 2 ^ 16 else v % 2 ^ w

/-- The two elements of a packed type computed independently, or the one element (R217). -/
def eachElem (packed : Bool) (f : Nat → Nat × Flags) : Nat × Flags :=
  if packed then
    let r0 := f 0
    let r1 := f 1
    (r0.1 + 65536 * r1.1, r0.2 ||| r1.2)
  else f 0

end Sys2Proof.Machine
end

