-- ==== Sys2Proof/Machine/VMem.lean ====
section
/-! DEFINITION. Memory instructions of the vector slice: loads, stores, turned loads, atomics, reductions, deferred reductions,
prefetch and fences (R250 to R266), and the table reads of Q8T (R235 to R237). -/
namespace Sys2Proof.Machine

/-! ## Addresses and checks (R251) -/

/-- The address of lane n: the pair A names plus the offset. -/
def VEnv.addr (e : VEnv) (off : BitVec 18) (n : Nat) : Word := BitVec.ofNat 64 (e.a.nat n) + off.signExtend 64

/-- The active lanes. -/
def VEnv.active (e : VEnv) : List Nat := (List.range 32).filter fun n => e.m.getLsbD n

/-- The check of one lane's access; a read of a poisoned sector counts as a fault of its lane (R77). -/
def laneCheck (s : State) (va : Word) (w : Nat) (acc : BitVec 4) (reach : Reach) : XRes :=
  match accessCheck s s.g va w acc reach with
  | .ok l =>
    if acc = 1 then
      match poisonedLoc s l w with
      | some i => .bad cMemUncorrectable i
      | none => .ok l
    else .ok l
  | r => r

/-- The outcome of the checks of every active lane: lane, address, place or fault. -/
def VEnv.checks (e : VEnv) (off : BitVec 18) (w : Nat) (acc : BitVec 4) (reach : Reach) : List (Nat × Word × XRes) :=
  e.active.map fun n => (n, e.addr off n, laneCheck e.base (e.addr off n) w acc reach)

/-- Faults among the checks: one for each lane met, with every lane that met the same code, the lowest lane's address first (R74). -/
def checkFaults (acc : BitVec 4) (rs : List (Nat × Word × XRes)) : List VFault :=
  let met := fun (c : BitVec 8) => rs.foldl (fun (m : Mask) r =>
    match r.2.2 with | .bad d _ => if d = c then m ||| (1#32 <<< r.1) else m | .ok _ => m) 0
  rs.filterMap fun r => match r.2.2 with
    | .bad c i => some { code := c, lanes := met c, acc := acc, addr := lo56 r.2.1, info := i }
    | .ok _ => none

/-- The lanes of an access from its checks, with their data and compare values. -/
def accLanes (rs : List (Nat × Word × XRes)) (data cmp : Nat → Word) : List LaneAcc :=
  rs.filterMap fun r => match r.2.2 with
    | .ok l => some { lane := r.1, va := r.2.1, loc := l, data := data r.1, cmp := cmp r.1, done := false, held := none }
    | .bad _ _ => none

/-- A lane lies in a FIFO bank. -/
def anyFifo (rs : List (Nat × Word × XRes)) : Bool :=
  rs.any fun r => match r.2.2 with | .ok (.fifo _ _) => true | _ => false

/-- Lane n of an operand as a 64-bit word. -/
def VVal.word (v : VVal) (n : Nat) : Word := BitVec.ofNat 64 (v.nat n)

/-! ## Loads (R253, R255, R256) -/

/-- A form with an address pair and up to two more sources. -/
def mForm (c : VCtl) (a : VSrc) (b x e : Option Opnd) (dests : List VReg) : VForm :=
  { c := c, a := some ⟨a, true⟩, b := b, x := x, e := e, preds := [], dests := dests }

/-- A load of w bytes: every lane checked, the destination bound, the access issued (R251, R253). -/
def vload (kind : AccKind) (c : VCtl) (dests : List VReg) (dst : Group → ADest) (a : VSrc) (off : BitVec 18) (w : Nat)
    (reach : Reach) (acq : Bool) (sc : Scope) (s : State) : Out :=
  vmem (mForm c a none none none dests) (fun e => checkFaults 1 (e.checks off w 1 reach)) s fun e u =>
    if e.m = 0 then vzero e u
    else vbind e (dests.map fun r => (r, e.m, none)) u fun t =>
      let rs := e.checks off w 1 reach
      let pop := anyFifo rs
      let k : AccKind := if pop then .fifoPop else kind
      let acc := e.acc t k w (accLanes rs (fun _ => 0) (fun _ => 0)) (dst t.g) (acq || pop) false
        (if pop then .clu else sc)
      vdone e (issueAcc acc t)

/-- Width in bytes and signedness of a load type (Table 98). -/
def ldBytes : LdTy → Nat
  | .s8 | .n8 => 1
  | .s16 | .n16 => 2
  | .b32 => 4
  | .b64 => 8
def ldSigned : LdTy → Bool
  | .s8 | .s16 => true
  | .n8 | .n16 | .b32 | .b64 => false

/-- Any place, FIFO banks included when the width is that of an entry or two (R315). -/
def reachFifo (b : Bool) : Reach := { fifo := b, window := true }
/-- DRAM only (R250). -/
def reachDram : Reach := { fifo := false, window := false }

/-- `ld` (R253). -/
def execLd (c : VCtl) (ty : LdTy) (d : VReg) (a : VSrc) (off : BitVec 18) (s : State) : Out :=
  let wide := ty == .b64
  vload .load c (destRegs d wide) (fun g => g.vdest d wide (8 * ldBytes ty) (ldSigned ty)) a off (ldBytes ty)
    (reachFifo (ty == .b32 || wide)) false .grp s

/-- `ld.turn`: the data and the turned bit in the register after it (R256). -/
def execLdTurn (c : VCtl) (wide : Bool) (d : VReg) (a : VSrc) (off : BitVec 18) (s : State) : Out :=
  let bit : VReg := if wide then d + 2 else d + 1
  let dst := fun (g : Group) =>
    ADest.vturn d ((g.bindOf d).getD 0) ((g.bindOf (d + 1)).getD 0) ((g.bindOf bit).getD 0) wide
  vload .turn c (destRegs d wide ++ [bit]) dst a off (if wide then 8 else 4) reachDram false .grp s

/-- `ld.acq` (R255). -/
def execLdAcq (c : VCtl) (wide : Bool) (sc : Scope) (d : VReg) (a : VSrc) (off : BitVec 18) (s : State) : Out :=
  vload .load c (destRegs d wide) (fun g => g.vdest d wide (if wide then 64 else 32) false) a off (if wide then 8 else 4)
    (reachFifo false) true sc s

/-! ## Stores (R254, R255) -/

/-- A store of w bytes: it completes at issue; a release store and a FIFO push are performed after what they cover (R254, R255,
R317). -/
def vstore (c : VCtl) (wide : Bool) (d a : VSrc) (off : BitVec 18) (w : Nat) (fifo rel : Bool) (sc : Scope) (s : State) : Out :=
  vmem (mForm c a none none (some ⟨d, wide⟩) []) (fun e => checkFaults 2 (e.checks off w 2 (reachFifo fifo))) s fun e u =>
    if e.m = 0 then vzero e u
    else
      let rs := e.checks off w 2 (reachFifo fifo)
      let push := anyFifo rs
      let k : AccKind := if push then .fifoPush else .store
      let at_ := if push && !(rel && 2 ≤ scopeCode sc) then .clu else sc
      let acc := e.acc u k w (accLanes rs e.e.word (fun _ => 0)) .none false (rel || push) at_
      e.release acc (vdone e (issueAcc acc u))

/-- Width in bytes of a store (Table 98). -/
def stBytes : StW → Nat
  | .b8 => 1
  | .b16 => 2
  | .b32 => 4
  | .b64 => 8

/-- `st` (R254). -/
def execSt (c : VCtl) (w : StW) (d a : VSrc) (off : BitVec 18) (s : State) : Out :=
  vstore c (w == .b64) d a off (stBytes w) (w == .b32 || w == .b64) false .grp s

/-- `st.rel` (R255). -/
def execStRel (c : VCtl) (wide : Bool) (sc : Scope) (d a : VSrc) (off : BitVec 18) (s : State) : Out :=
  vstore c wide d a off (if wide then 8 else 4) false true sc s

/-! ## Prefetch (R261) -/

/-- A line as its home holds it comes into the L1 of the core in focus, or takes the place of an older copy there; one with a poisoned
sector leaves (R77, R318). -/
def fillLine (line : Nat) (s : State) : State :=
  if (firstPoison s (128 * line) 128).isSome then dropLine s.g.core line s
  else
    let data : Lanes := BitVec.ofNat 1024 (viewNat s (128 * line) 128)
    let t := { s with fresh := s.fresh + 1 }
    { t with cores := smUpd Core.reset t.cores t.g.core (Core.putLine (Config.freeWord s.fresh).toNat line data) }

/-- A load or a prefetch with this hint allocates in L1 (Table 99). -/
def fillsL1 (h : Hint) : Bool := h == .dflt || h == .keep

/-- The core's L1 holds a line. -/
def inL1 (s : State) (core line : Nat) : Bool := (l1Find (smGet Core.reset s.cores core) line).isSome

/-- The line of one lane brought into L2 and, unless the hint says otherwise, into L1; a stale derived row is left alone, and so is a
line that L1 or the write-through buffer holds. -/
def prefetchLine (h : Hint) (s : State) (l : Loc) : State :=
  match l with
  | .dram pa key =>
    let line := pa / 128
    if (rowAt s (rowOf pa)).stale then s
    else
      let t := arriveAt s pa key
      if fillsL1 h && !inL1 t t.g.core line && !lineBuffered t t.g.core line then fillLine line t else t
  | _ => s

/-- `prefetch` raises no fault and makes no access of the memory model; a lane whose address would fault is ignored (R261). -/
def execPrefetch (c : VCtl) (a : VSrc) (off : BitVec 18) (s : State) : Out :=
  vissue (mForm c a none none none []) s fun e u =>
    if e.base.g.fenced then vwait e
    else vdone e ((e.checks off 1 1 reachDram).foldl (fun t r =>
      match r.2.2 with | .ok l => prefetchLine c.hint t l | .bad _ _ => t) u)

/-! ## Atomics and reductions (R257 to R260) -/

/-- An atomic whose old value returns: checked as an atomic, performed at its home in the order it names (R257). -/
def vatom (op : AOp) (signed : Bool) (w : Nat) (c : VCtl) (o : Order) (sc : Scope) (d : VReg) (a b : VSrc) (x : Option VSrc)
    (s : State) : Out :=
  let wide := w == 8
  let v := mForm c a (some ⟨b, wide⟩) (x.map fun y => ⟨y, wide⟩) none (destRegs d wide)
  vmem v (fun e => checkFaults 3 (e.checks 0 w 3 (reachFifo false))) s fun e u =>
    if e.m = 0 then vzero e u
    else vbind e ((destRegs d wide).map fun r => (r, e.m, none)) u fun t =>
      let ls := accLanes (e.checks 0 w 3 (reachFifo false)) e.b.word e.x.word
      let acc := e.acc t (.atom op signed) w ls (t.g.vdest d wide (8 * w) signed) (ordAcq o) (ordRel o) sc
      e.release acc (vdone e (issueAcc acc t))

/-- `atom.add`. -/
def execAtomAdd (c : VCtl) (o : Order) (sc : Scope) (ty : ATy) (d : VReg) (a b : VSrc) (s : State) : Out :=
  vatom .add (atySigned ty) (atyBytes ty) c o sc d a b none s
/-- `atom.min`. -/
def execAtomMin (c : VCtl) (o : Order) (sc : Scope) (ty : ATy) (d : VReg) (a b : VSrc) (s : State) : Out :=
  vatom .min (atySigned ty) (atyBytes ty) c o sc d a b none s
/-- `atom.max`. -/
def execAtomMax (c : VCtl) (o : Order) (sc : Scope) (ty : ATy) (d : VReg) (a b : VSrc) (s : State) : Out :=
  vatom .max (atySigned ty) (atyBytes ty) c o sc d a b none s
/-- `atom.and`. -/
def execAtomAnd (c : VCtl) (o : Order) (sc : Scope) (ty : ATy) (d : VReg) (a b : VSrc) (s : State) : Out :=
  vatom .and (atySigned ty) (atyBytes ty) c o sc d a b none s
/-- `atom.or`. -/
def execAtomOr (c : VCtl) (o : Order) (sc : Scope) (ty : ATy) (d : VReg) (a b : VSrc) (s : State) : Out :=
  vatom .or (atySigned ty) (atyBytes ty) c o sc d a b none s
/-- `atom.xor`. -/
def execAtomXor (c : VCtl) (o : Order) (sc : Scope) (ty : ATy) (d : VReg) (a b : VSrc) (s : State) : Out :=
  vatom .xor (atySigned ty) (atyBytes ty) c o sc d a b none s
/-- `atom.exch`. -/
def execAtomExch (c : VCtl) (o : Order) (sc : Scope) (ty : ATy) (d : VReg) (a b : VSrc) (s : State) : Out :=
  vatom .exch (atySigned ty) (atyBytes ty) c o sc d a b none s
/-- `atom.cas`. -/
def execAtomCas (c : VCtl) (o : Order) (sc : Scope) (ty : ATy) (d : VReg) (a b cc : VSrc) (s : State) : Out :=
  vatom .cas (atySigned ty) (atyBytes ty) c o sc d a b (some cc) s
/-- `atom.add.f32` (R258). -/
def execAtomAddF32 (c : VCtl) (o : Order) (sc : Scope) (d : VReg) (a b : VSrc) (s : State) : Out :=
  vatom .addF32 false 4 c o sc d a b none s

/-- An access that returns nothing: a reduction (R259) or a deferred addition (R260). -/
def vred (kind : AccKind) (w : Nat) (reach : Reach) (c : VCtl) (rel : Bool) (sc : Scope) (a b : VSrc) (s : State) : Out :=
  vmem (mForm c a (some ⟨b, w == 8⟩) none none []) (fun e => checkFaults 3 (e.checks 0 w 3 reach)) s fun e u =>
    if e.m = 0 then vzero e u
    else
      let acc := e.acc u kind w (accLanes (e.checks 0 w 3 reach) e.b.word (fun _ => 0)) .none false rel sc
      e.release acc (vdone e (issueAcc acc u))

/-- `red.add`. -/
def execRedAdd (c : VCtl) (rel : Bool) (sc : Scope) (ty : ATy) (a b : VSrc) (s : State) : Out :=
  vred (.red .add (atySigned ty)) (atyBytes ty) (reachFifo false) c rel sc a b s
/-- `red.min`. -/
def execRedMin (c : VCtl) (rel : Bool) (sc : Scope) (ty : ATy) (a b : VSrc) (s : State) : Out :=
  vred (.red .min (atySigned ty)) (atyBytes ty) (reachFifo false) c rel sc a b s
/-- `red.max`. -/
def execRedMax (c : VCtl) (rel : Bool) (sc : Scope) (ty : ATy) (a b : VSrc) (s : State) : Out :=
  vred (.red .max (atySigned ty)) (atyBytes ty) (reachFifo false) c rel sc a b s
/-- `red.and`. -/
def execRedAnd (c : VCtl) (rel : Bool) (sc : Scope) (ty : ATy) (a b : VSrc) (s : State) : Out :=
  vred (.red .and (atySigned ty)) (atyBytes ty) (reachFifo false) c rel sc a b s
/-- `red.or`. -/
def execRedOr (c : VCtl) (rel : Bool) (sc : Scope) (ty : ATy) (a b : VSrc) (s : State) : Out :=
  vred (.red .or (atySigned ty)) (atyBytes ty) (reachFifo false) c rel sc a b s
/-- `red.xor`. -/
def execRedXor (c : VCtl) (rel : Bool) (sc : Scope) (ty : ATy) (a b : VSrc) (s : State) : Out :=
  vred (.red .xor (atySigned ty)) (atyBytes ty) (reachFifo false) c rel sc a b s
/-- `red.add.f32` (R258). -/
def execRedAddF32 (c : VCtl) (rel : Bool) (sc : Scope) (a b : VSrc) (s : State) : Out :=
  vred (.red .addF32 false) 4 (reachFifo false) c rel sc a b s
/-- `red.defer`: relaxed, at package scope, never in the local window (R250, R260). -/
def execRedDefer (c : VCtl) (ty : DTy) (a b : VSrc) (s : State) : Out :=
  vred (.defer ty) (deferBytes ty) reachDram c false .pkg a b s

/-! ## Fences (R262, R263) -/

/-- A form with no operand. -/
def zForm (c : VCtl) : VForm := { c := c, a := none, b := none, x := none, e := none, preds := [], dests := [] }

/-- A fence of the vector slice by its halves, whatever the execute mask (R58, R60, R262, R266). -/
def vfence (c : VCtl) (acq rel : Bool) (sc : Scope) (s : State) : Out :=
  vmem (zForm c) (fun _ => []) s fun e u =>
    let a := e.acc u .fence 0 [] .none acq rel sc
    e.release a (vdone e (issueFence a u))

/-- `fence`: a release, then an acquire. -/
def execVectorFence (c : VCtl) (sc : Scope) (s : State) : Out := vfence c true true sc s
/-- `fence.acq`: earlier reads of the slice, then an acquire. -/
def execVectorFenceAcq (c : VCtl) (sc : Scope) (s : State) : Out := vfence c true false sc s
/-- `fence.rel`: a release. -/
def execVectorFenceRel (c : VCtl) (sc : Scope) (s : State) : Out := vfence c false true sc s
/-- `fence.d`: later vector loads of the slice wait for earlier stores to base rows (R263). -/
def execFenceD (c : VCtl) (s : State) : Out :=
  vmem (zForm c) (fun _ => []) s fun e u => vdone e (u.withG { u.g with fenceD := u.g.fenceD ++ [u.stamp] })

/-- `nop` takes its issue slot and its STALL, and does nothing else (R129). -/
def execVectorNop (stall : BitVec 3) (s : State) : Out :=
  let c : VCtl :=
    { g0 := 7, g0n := false, g1 := 7, g1n := false, hint := .dflt, stall := stall, hold := .none, lastA := false, lastB := false
      lastC := false, wset := 0 }
  vissue (zForm c) s fun e u => e.check [] (vdone e u)

/-! ## Q8T (R108 to R110, R235 to R237) -/

/-- The byte of the core's local SRAM at which the token's table begins, and the bank that holds it (Table 43). -/
def tableAt (mode : VMode) : Nat := mode.qtab.toNat / 1024 % 256 * 1024

/-- TARGET_BAD unless the table's bank is in scratch mode and belongs to the group's team, whatever the execute mask (R237). -/
def tableFault (e : VEnv) : List VFault :=
  let s := e.base
  let mode := (smGet 0 (smGet Core.reset s.cores s.g.core).bankMode (tableAt e.mode / 2 ^ 15)).toNat
  if mode % 4 = 1 ∧ mode / 8 = s.team.slots.headD 0 then []
  else [{ code := cTargetBad, lanes := e.m, acc := 0, addr := 0, info := e.mode.qtab }]

/-- A Q8T instruction: its table reads are vector loads of the scratch location (R237); the 256 of a `q8e` lane are one event, which no store
falls into (notes/assumptions/86.md). -/
def q8 (v : VForm) (enc : Bool) (h : BitVec 2) (d : VReg) (w : Nat) (off : VEnv → Nat → Nat) (data cmp : VEnv → Nat → Word)
    (s : State) : Out :=
  vvar v tableFault s fun e u =>
    if e.m = 0 then vzero e u
    else vbind e [(d, e.m, none)] u fun t =>
      let lanes := e.active.map fun n =>
        let a := tableAt e.mode + off e n
        { lane := n, va := BitVec.ofNat 64 a, loc := Loc.sram (t.g.core * 2 ^ 18 + a), data := data e n, cmp := cmp e n
          done := false, held := none : LaneAcc }
      vdone e (issueAcc (e.acc t (.qtab enc h.toNat e.mode.fpm) w lanes (t.g.vdest d false 32 false) false false .grp) t)

/-- `q8t`: the entry of byte h of A, times B (R235). -/
def execQ8t (c : VCtl) (h : BitVec 2) (d : VReg) (a b : VSrc) (s : State) : Out :=
  q8 (iForm8 c d a b none) false h d 4 (fun e n => 4 * (e.a.nat n / 2 ^ (8 * h.toNat) % 256)) (fun e n => e.b.word n)
    (fun _ _ => 0) s
where
  iForm8 (c : VCtl) (d : VReg) (a b : VSrc) (x : Option VSrc) : VForm :=
    { c := c, a := some ⟨a, false⟩, b := some ⟨b, false⟩, x := x.map fun y => ⟨y, false⟩, e := none, preds := [], dests := [d] }

/-- `q8e`: the nearest entry's index for A against B, into byte h of C (R236); data holds A below C, cmp holds B. -/
def execQ8e (c : VCtl) (h : BitVec 2) (d : VReg) (a b cc : VSrc) (s : State) : Out :=
  q8 { c := c, a := some ⟨a, false⟩, b := some ⟨b, false⟩, x := some ⟨cc, false⟩, e := none, preds := [], dests := [d] } true h d
    1024 (fun _ _ => 0) (fun e n => BitVec.ofNat 64 (e.a.nat n + 2 ^ 32 * e.x.nat n)) (fun e n => e.b.word n) s

/-- The decoded value of `q8t` (R108, R235). -/
def q8tValue (fpm : Word) (t m : Nat) : Nat × Flags :=
  let x := fp32.source (flushIn fpm fp32) t
  let y := fp32.source (flushIn fpm fp32) m
  let p := x.1.mul y.1
  let r := fp32.ofValue .rne (flushOut fpm fp32) p.1
  (r.1, r.2 ||| p.2 ||| x.2 ||| y.2)

/-- The exact distance |x − T·m| of an entry, which orders entries as |x/m − T| does (R109). -/
def q8Dist (x m t : FVal) : FVal :=
  match x, (t.mul m).1 with
  | .fin a p e, .fin b q k =>
    let d := exactSum [(a, p, e), (!b, q, k)]
    .fin false d.1.natAbs d.2
  | _, _ => .inf false

/-- The index chosen by `q8e` and its flags (R109, R236). -/
def q8eIndex (fpm : Word) (table : List Nat) (x m : Nat) : Nat × Flags :=
  let a := fp32.source (flushIn fpm fp32) x
  let b := fp32.source (flushIn fpm fp32) m
  let ok := !a.1.isNan && match b.1 with | .fin _ k _ => k != 0 | _ => false
  let fin := fun (v : FVal) => match v with | .fin _ _ _ => true | _ => false
  let best := ((List.range 256).zip table).foldl (fun (o : Option (Nat × FVal)) it =>
    let t := fp32.value it.2
    if !fin t then o
    else
      let d := q8Dist a.1 b.1 t
      match o with
      | none => some (it.1, d)
      | some k => if d.cmp k.2 < 0 then some (it.1, d) else o) none
  ((if ok then (best.map (·.1)).getD 0 else 0), a.2 ||| b.2)

end Sys2Proof.Machine
end

