-- ==== Sys2Proof/Machine/Matrix.lean ====
section
/-! DEFINITION. The matrix engine of a quad: checks and acceptance of its instructions, the arbiter, and the effects of entries on
tiles (R19 to R21, R107, R111, R269 to R287). -/
namespace Sys2Proof.Machine

/-! ## Tiles -/

/-- Element (r, c) of a tile of `cols` columns of `bits`-bit elements (R270). -/
def tileGet (b : SMap Byte) (cols bits r c : Nat) : Nat :=
  let o := (r * cols + c) * bits
  leNat (smBytes b (o / 8) ((bits + 7) / 8)) / 2 ^ (o % 8) % 2 ^ bits

/-- Writes element (r, c) of a tile whose elements are whole bytes. -/
def tilePut (b : SMap Byte) (cols bits r c v : Nat) : SMap Byte :=
  smWrite b ((r * cols + c) * bits / 8) (leBytes (bits / 8) v)

/-- Type codes of Table 79 for the operands and the accumulator of `mma` (Table 104). -/
def mtyOperand : MTy → Nat
  | .f64 => 0x00 | .f32 => 0x01 | .f16 => 0x02 | .bf16 => 0x03 | .s8 => 0x08
def mtyAcc : MTy → Nat
  | .f64 => 0x00 | .f32 | .f16 | .bf16 => 0x01 | .s8 => 0x0A

/-- A tile has this type and exactly 32 rows. -/
def is32 (v : Word) (ty : Nat) : Bool := tcType v == ty && tcRows v == 32

/-- The first failing field of Table 106, in the order D, A, B, C; tile numbers and control registers in that order. -/
def firstFail (oks : List Bool) : Option Nat := oks.findIdx? (!·)

/-- Table 106 for `mma`. -/
def mmaFields (ty : MTy) (k : Nat) (ns : List TileNo) (v : List Word) : List Bool :=
  let d := v.getD 0 0
  let a := v.getD 1 0
  let b := v.getD 2 0
  [is32 d (mtyAcc ty) && !(ns.drop 1).contains (ns.getD 0 0),
   is32 a (mtyOperand ty) && k ≤ tcCols a,
   tcType b == mtyOperand ty && k ≤ tcRows b && tcCols b == tcCols d]

/-- Table 106 for `mmaz`; ng is K / G when K is a multiple of G, and N is C's columns over ng. -/
def mmazFields (q4 : Bool) (ns : List TileNo) (v : List Word) : List Bool :=
  let d := v.getD 0 0
  let a := v.getD 1 0
  let b := v.getD 2 0
  let z := v.getD 3 0
  let ty := if q4 then 0x18 else 0x19
  let k := tcCols a
  let g := 32 * 2 ^ tcGs a
  let ng := k / g
  let okA := is32 a ty && k % g == 0 && 1 ≤ ng
  let n := tcCols d / ng
  [is32 d 0x0A && !(ns.drop 1).contains (ns.getD 0 0) && (!okA || tcCols d % ng == 0),
   okA,
   tcType b == ty && tcGs b == tcGs a && tcRows b == k && tcCols b == n,
   tcType z == ty && 32 + ng ≤ tcRows z && n ≤ tcCols z && ng ≤ tcCols z]

/-- Table 106 for `sacc`. -/
def saccFields (ns : List TileNo) (v : List Word) : List Bool :=
  let f := v.getD 0 0
  let p := v.getD 1 0
  let sa := v.getD 2 0
  let sb := v.getD 3 0
  let n := tcCols f
  let ng := tcCols p / n
  [is32 f 0x01 && !(ns.drop 1).contains (ns.getD 0 0),
   is32 p 0x0A && tcCols p % n == 0 && 1 ≤ ng,
   is32 sa 0x02 && ng ≤ tcCols sa,
   tcType sb == 0x02 && ng ≤ tcRows sb && tcCols sb == n]

/-- The conditions of a `tmov` of word j in row block rb (R283). -/
def tmovFields (j rb : Nat) (v : List Word) : List Bool :=
  let t := v.getD 0 0
  [32 * (rb + 1) ≤ tcRows t && tcCols t * tcBits t % 32 == 0 && j < tcCols t * tcBits t / 32]

/-! ## Issue (R271, R272, R276, R287) -/

/-- Faults of a matrix instruction that names these tiles, whatever its execute mask: tile numbers, configurations, states,
ownership. -/
def matrixFaults (ns : List TileNo) (fields : List Word → List Bool) (stateBad : TileSt → Bool) (e : VEnv) : List VFault :=
  let s := e.base
  let tseq := (s.g.runnel.head?.map (·.tseq)).getD s.g.tseq
  let f := fun (c : BitVec 8) (i : Word) => ({ code := c, lanes := e.m, acc := 0, addr := 0, info := i } : VFault)
  let owner := match s.quad.owner with
    | some p => if p = s.g.place then [] else [f cMatrixOwner (BitVec.ofNat 64 p.2)]
    | none => []
  let nums := (ns.filter fun n => (s.tileReg n).isNone).map fun n => f cTargetBad (n.zeroExtend 64)
  if !nums.isEmpty then nums
  else
    let ks := ns.filterMap s.tileReg
    let cfg := match firstFail (fields (ks.map fun k => s.tileCtl k tseq)) with
      | some i => [f cTargetBad ((ns.getD i 0).zeroExtend 64)]
      | none => []
    let st := (ns.zip ks).filterMap fun nk =>
      if stateBad (smGet Tile.reset s.quad.tiles nk.2).st then some (f cTileState (nk.1.zeroExtend 64)) else none
    cfg ++ st ++ owner

/-- A tile that is not ready (R20). -/
def notReady (t : TileSt) : Bool := t != .ready
/-- A tile that a `tzero` cannot name: filling or draining (R282). -/
def moving (t : TileSt) : Bool := t == .filling || t == .draining

/-- The entry of an instruction that names these tiles. -/
def newEntry (e : VEnv) (op : MOp) (ns : List TileNo) (data : Lanes) (s : State) : MEntry :=
  let t := s.g.runnel.head?
  let ks := ns.filterMap s.tileReg
  { stamp := s.stamp, core := s.g.core, slot := s.g.slot, team := s.g.team, op := op, tiles := ks
    cfg := ks.map fun k => s.tileCtl k ((t.map (·.tseq)).getD s.g.tseq), mask := e.m, fpm := e.mode.fpm
    fseq := (t.map (·.fseq)).getD s.g.fseq, data := data, acc := s.stamp, passed := 0 }

/-- The entry joins the quad's table in acceptance order. -/
def State.enter (s : State) (n : MEntry) : State := s.updQuad fun q => { q with table := q.table ++ [n] }

/-- A matrix instruction (R271, R272): its checks; under a zero mask no entry; with a full table it waits, its group keeping its
pipe; else the entry is accepted, with the access that its wait slot counts. -/
def matrixInstr (v : VForm) (op : MOp) (ns : List TileNo) (fields : List Word → List Bool) (d : Option VReg) (s : State) : Out :=
  vvar v (matrixFaults ns fields notReady) s fun e u =>
    if e.m = 0 then vzero e u
    else if 32 ≤ u.quad.table.length then vwait e
    else vbind e ((d.toList).map fun r => (r, e.m, none)) u fun t =>
      let dst := match d with | some r => t.g.vdest r false 32 false | none => .none
      vdone e (issueAcc (e.acc t .matrix 0 [] dst false false .grp) (t.enter (newEntry e op ns e.a.lo t)))

/-- `mma` (R279). -/
def execMma (c : VCtl) (ty : MTy) (r : RndSel) (ra rb : Bool) (d a b : TileNo) (k : BitVec 9) (s : State) : Out :=
  matrixInstr (zForm c) (.mma ty r ra rb k.toNat) [d, a, b] (mmaFields ty k.toNat [d, a, b]) none s

/-- `mmaz` (R280). -/
def execMmaz (c : VCtl) (q4 ra rb : Bool) (d a b z : TileNo) (s : State) : Out :=
  matrixInstr (zForm c) (.mmaz q4 ra rb) [d, a, b, z] (mmazFields q4 [d, a, b, z]) none s

/-- `sacc` (R281). -/
def execSacc (c : VCtl) (r : RndSel) (d a b cc : TileNo) (s : State) : Out :=
  matrixInstr (zForm c) (.sacc r) [d, a, b, cc] (saccFields [d, a, b, cc]) none s

/-- `tmov`, tile to vector (R283). -/
def execTmovToVector (c : VCtl) (d : VReg) (t : TileNo) (j : BitVec 7) (rb : BitVec 4) (s : State) : Out :=
  matrixInstr { zForm c with dests := [d] } (.toVector j.toNat rb.toNat) [t] (tmovFields j.toNat rb.toNat) (some d) s

/-- `tmov`, vector to tile (R283). -/
def execTmovToTile (c : VCtl) (t : TileNo) (a : VSrc) (j : BitVec 7) (rb : BitVec 4) (s : State) : Out :=
  matrixInstr { zForm c with a := some ⟨a, false⟩ } (.toTile j.toNat rb.toNat) [t] (tmovFields j.toNat rb.toNat) none s

/-- Sets the state of a tile register of the quad in focus. -/
def State.setTile (s : State) (k : Nat) (st : TileSt) : State :=
  s.updQuad fun q => { q with tiles := smUpd Tile.reset q.tiles k fun x => { x with st := st } }

/-- `tzero`: the tile is ready at issue, its zeros are written at the entry's effect (R19, R282). -/
def execTzero (c : VCtl) (d : TileNo) (s : State) : Out :=
  vissue (zForm c) s fun e u =>
    e.check (matrixFaults [d] (fun _ => [true]) moving e)
      (if e.m = 0 then vdone e u
       else if 32 ≤ u.quad.table.length then vwait e
       else vdone e (((u.tileReg d).elim u fun k => u.setTile k .ready).enter (newEntry e .tzero [d] 0 u)))

/-! ## The arbiter (R273 to R276) -/

/-- The tiles an entry writes (Table 105). -/
def MEntry.writes (n : MEntry) : List Nat :=
  match n.op with
  | .toVector _ _ => []
  | _ => n.tiles.take 1

/-- Two entries conflict: one writes a tile the other names (R273). -/
def conflict (a b : MEntry) : Bool := (a.writes.any fun t => b.tiles.contains t) || b.writes.any fun t => a.tiles.contains t

/-- Every older conflicting entry has completed. -/
def Quad.ready (q : Quad) (n : MEntry) : Bool := !(q.running ++ q.table).any fun m => m.stamp < n.stamp && conflict m n

/-- High priority (R273). -/
def Quad.high (q : Quad) (n : MEntry) : Bool := q.owner == some (n.core, n.slot) || 64 ≤ n.passed

/-- The entry the arbiter grants next. -/
def Quad.pick (q : Quad) : Option MEntry :=
  let rs := q.table.filter q.ready
  match rs.find? q.high with
  | some n => some n
  | none => rs.head?

/-- The operands an entry keeps in the collector (R275). -/
def MEntry.keeps (n : MEntry) : Bool × Bool :=
  match n.op with
  | .mma _ _ ra rb _ => (ra, rb)
  | .mmaz _ ra rb => (ra, rb)
  | _ => (false, false)

/-- Grants an entry: it leaves the table for the array, ready entries count the grant that passes them, and the collector keeps
what the entry says. -/
def Quad.grant (q : Quad) (n : MEntry) : Quad :=
  let rest := (q.table.filter fun m => m.stamp != n.stamp).map fun m =>
    if q.ready m then { m with passed := m.passed + 1 } else m
  { q with
    table := rest
    running := q.running ++ [n]
    keepA := if n.keeps.1 then n.tiles[1]? else none
    keepB := if n.keeps.2 then n.tiles[2]? else none }

/-- MATRIX_GRANT: the quad's arbiter grants its next entry (R273). -/
def execMatrixGrant (quad : Nat) (s : State) : Out :=
  let q := smGet Quad.reset s.quads quad
  match q.pick with
  | some n => .next { s with quads := smPut Quad.reset s.quads quad (q.grant n) }
  | none => .next s

/-! ## Effects (R111, R279 to R283) -/

/-- Folds over the active lanes and the columns of the written tile, gathering flags. -/
def eachRow (m : Mask) (cols : Nat) (f : Nat → Nat → SMap Byte → SMap Byte × Flags) (b : SMap Byte) : SMap Byte × Flags :=
  (List.range 32).foldl (fun (x : SMap Byte × Flags) n =>
    if m.getLsbD n then (List.range cols).foldl (fun y j => let r := f n j y.1; (r.1, y.2 ||| r.2)) x else x) (b, 0)

/-- Consecutive chunks of a list. -/
def chunks (fuel n : Nat) (l : List FVal) : List (List FVal) :=
  match fuel with
  | 0 => []
  | f + 1 => if l.isEmpty then [] else l.take n :: chunks f n (l.drop n)

/-- One element of a floating pass: sums over chunks of the exact products, each rounded once into the accumulator (R111). -/
def passElem (fa fc : Fmt) (step : Nat) (mode : Rnd) (fpm : Word) (c : Nat) (ab : List (Nat × Nat)) : Nat × Flags :=
  let ps := ab.map fun p =>
    let x := fa.source (flushIn fpm fa) p.1
    let y := fa.source (flushIn fpm fa) p.2
    let r := x.1.mul y.1
    (r.1, r.2 ||| x.2 ||| y.2)
  let f0 := ps.foldl (fun (f : Flags) p => f ||| p.2) 0
  (chunks (ps.length + 1) step (ps.map (·.1))).foldl (fun (acc : Nat × Flags) ch =>
    let v := fc.source false acc.1
    let r := fc.sum mode (flushOut fpm fc) (v.1 :: ch)
    (r.1, acc.2 ||| r.2 ||| v.2)) (c, f0)

/-- Bytes of the operand tiles of an entry. -/
def opTile (q : Quad) (n : MEntry) (i : Nat) : SMap Byte := (smGet Tile.reset q.tiles (n.tiles.getD i 0)).bytes

/-- The floating formats of a pass: operands, accumulator, chunk length for depth K. -/
def passFmts : MTy → Nat → Fmt × Fmt × Nat
  | .f64, k => (fp64, fp64, k)
  | .f32, k => (fp32, fp32, k)
  | .f16, _ => (fp16, fp32, 32)
  | .bf16, _ => (bf16, fp32, 32)
  | .s8, k => (fp32, fp32, k)

/-- A saturating sum into an `.s32` element, with SA when it clamps (R111). -/
def satPut (b : SMap Byte) (cols n j : Nat) (p : Int) : SMap Byte × Flags :=
  let r := satInt 32 true (toInt 32 true (tileGet b cols 32 n j) + p)
  (tilePut b cols 32 n j (ofInt 32 r.1), flagIf r.2 fSA)

/-- `mma` (R279). -/
def mmaEffect (ty : MTy) (r : RndSel) (k : Nat) (q : Quad) (n : MEntry) (b : SMap Byte) : SMap Byte × Flags :=
  let cd := tcCols (n.cfg.getD 0 0)
  let ca := tcCols (n.cfg.getD 1 0)
  let ta := opTile q n 1
  let tb := opTile q n 2
  let eb := (tileBits (mtyOperand ty)).getD 32
  if k = 0 then (b, 0)
  else if ty = .s8 then
    eachRow n.mask cd (fun r j m => satPut m cd r j
      ((List.range k).foldl (fun (z : Int) i => z + toInt 8 true (tileGet ta ca 8 r i) * toInt 8 true (tileGet tb cd 8 i j)) 0)) b
  else
    let f := passFmts ty k
    eachRow n.mask cd (fun row j m =>
      let ab := (List.range k).map fun i => (tileGet ta ca eb row i, tileGet tb cd eb i j)
      let w := f.2.1.width
      let v := passElem f.1 f.2.1 f.2.2 (rndMode r n.fpm) n.fpm (tileGet m cd w row j) ab
      (tilePut m cd w row j v.1, v.2)) b

/-- `mmaz` (R280). -/
def mmazEffect (q4 : Bool) (q : Quad) (n : MEntry) (b : SMap Byte) : SMap Byte × Flags :=
  let eb := if q4 then 4 else 8
  let a := n.cfg.getD 1 0
  let k := tcCols a
  let g := 32 * 2 ^ tcGs a
  let cd := tcCols (n.cfg.getD 0 0)
  let cb := tcCols (n.cfg.getD 2 0)
  let cz := tcCols (n.cfg.getD 3 0)
  let ta := opTile q n 1
  let tb := opTile q n 2
  let tz := opTile q n 3
  let int := fun (t : SMap Byte) (cols r c : Nat) => (tileGet t cols eb r c : Int)
  eachRow n.mask cd (fun row c m =>
    let gi := c / cb
    let j := c % cb
    satPut m cd row c ((List.range g).foldl (fun (z : Int) i =>
      z + (int ta k row (gi * g + i) - int tz cz row gi) * (int tb cb (gi * g + i) j - int tz cz (32 + gi) j)) 0)) b

/-- `sacc` (R281); an integer partial sum of zero counts as +0 (notes/assumptions/66.md). -/
def saccEffect (r : RndSel) (q : Quad) (n : MEntry) (b : SMap Byte) : SMap Byte × Flags :=
  let cf := tcCols (n.cfg.getD 0 0)
  let cp := tcCols (n.cfg.getD 1 0)
  let ca := tcCols (n.cfg.getD 2 0)
  let cb := tcCols (n.cfg.getD 3 0)
  let tp := opTile q n 1
  let ta := opTile q n 2
  let tb := opTile q n 3
  eachRow n.mask cf (fun row j m =>
    let v := (List.range (cp / cf)).foldl (fun (acc : Nat × Flags) g =>
      let p := FVal.ofInt (toInt 32 true (tileGet tp cp 32 row (g * cf + j)))
      let x := fp16.source (flushIn n.fpm fp16) (tileGet ta ca 16 row g)
      let y := fp16.source (flushIn n.fpm fp16) (tileGet tb cb 16 g j)
      let u := p.mul x.1
      let w := u.1.mul y.1
      let c := fp32.source false acc.1
      let z := fp32.sum (rndMode r n.fpm) (flushOut n.fpm fp32) [c.1, w.1]
      (z.1, acc.2 ||| z.2 ||| c.2 ||| u.2 ||| w.2 ||| x.2 ||| y.2)) (tileGet m cf 32 row j, 0)
    (tilePut m cf 32 row j v.1, v.2)) b

/-- Byte offset of word j of tile row 32·rb + lane (R283). -/
def tmovOffset (ctl : Word) (j rb lane : Nat) : Nat := (32 * rb + lane) * tcCols ctl * tcBits ctl / 8 + 4 * j

/-- What a completed entry leaves in the tile it writes, its flags, and the register it carries to a vector. -/
def effect (q : Quad) (n : MEntry) : SMap Byte × Flags × Lanes :=
  let b := opTile q n 0
  let cfg := n.cfg.getD 0 0
  match n.op with
  | .mma ty r _ _ k => let x := mmaEffect ty r k q n b; (x.1, x.2, 0)
  | .mmaz q4 _ _ => let x := mmazEffect q4 q n b; (x.1, x.2, 0)
  | .sacc r => let x := saccEffect r q n b; (x.1, x.2, 0)
  | .tzero => ([], 0, 0)
  | .toVector j rb => (b, 0, mkLanes fun i => BitVec.ofNat 32 (leNat (smBytes b (tmovOffset cfg j rb i) 4)))
  | .toTile j rb =>
    ((List.range 32).foldl (fun m i =>
      if n.mask.getLsbD i then smWrite m (tmovOffset cfg j rb i) (leBytes 4 (lane n.data i).toNat) else m) b, 0, 0)

/-- The group's side of a completion: its flags (R104), its register, its wait slot. -/
def reportEntry (n : MEntry) (f : Flags) (v : Lanes) (s : State) : State :=
  match s.g.accs.find? fun a => a.stamp == n.acc && a.kind == .matrix with
  | none => s
  | some a =>
    let t := s.withG (s.g.addFlags n.fseq a.epoch f)
    let u := match a.dst with
      | .v r b0 _ _ _ _ => landArrival r b0 a.mask v t
      | _ => t
    u.withG (u.g.dropAcc n.acc)

/-- MATRIX_COMPLETION: the oldest granted entry takes effect on its tile, and its group counts it (R274, R284). -/
def execMatrixCompletion (quad : Nat) (s : State) : Out :=
  let q := smGet Quad.reset s.quads quad
  match q.running with
  | [] => .next s
  | n :: rest =>
    let r := effect q n
    let tiles := match n.writes.head? with
      | some k => smUpd Tile.reset q.tiles k fun x => { x with bytes := r.1 }
      | none => q.tiles
    let t := { s with quads := smPut Quad.reset s.quads quad { q with running := rest, tiles := tiles } }
    .next ((atGroup n.core n.slot (fun u => some (reportEntry n r.2.1 r.2.2 u)) t).getD t)

end Sys2Proof.Machine
end

