-- ==== Sys2Proof/Machine/Home.lean ====
section
/-! DEFINITION. Service of outstanding accesses at their homes: when an access may be performed (R55, R56, R320), loads and
atomics, stores, deferred additions, FIFO units, and the arrival of results (R62, R64, R127, R214, R316, R347). -/
namespace Sys2Proof.Machine

/-! ## The capability block (Table 183) -/

/-- n bits as bytes, bit k set when f k holds. -/
def bitBytes (n : Nat) (f : Nat → Bool) : List Byte :=
  (List.range n).map fun i => (List.range 8).foldl (fun (b : Byte) k => if f (8 * i + k) then b ||| (1#8 <<< k) else b) 0

/-- A core is present (R419, R435). -/
def corePresent (s : State) (c : Nat) : Bool := !s.mgmt.absentCores.contains c && !s.mgmt.absentDies.contains (dieOfCore c)
/-- A die of Table 5 numbering is present; bit 0 of DIES is P0. -/
def diePresent (s : State) (d : Nat) : Bool := !s.mgmt.absentDies.contains d
/-- The 256 bytes of the capability block. -/
def capabilityBlock (s : State) : List Byte :=
  let m := s.mgmt
  [m.state] ++ bitBytes 1 (fun d => d < 4 && diePresent s (d + 1)) ++ bitBytes 1 (fun p => !m.absentPorts.contains p) ++ [0] ++
    leBytes 4 ((m.image.map fun i => i.ver.toNat).getD 0) ++ bitBytes 128 (corePresent s) ++
    bitBytes 32 (fun q => !m.absentQuads.contains q && diePresent s (dieOfQuad q)) ++
    bitBytes 24 (basinPresent s) ++ leBytes 8 m.win0.1 ++ leBytes 8 m.win0.2 ++ leBytes 8 m.win1.1 ++
    leBytes 8 m.win1.2 ++ leBytes 8 m.cmdEp.toNat ++ leBytes 8 m.attEp.toNat ++ leBytes 8 m.softErrors.toNat ++
    List.replicate 8 0

/-! ## When a home may serve a lane (R55, R56, R320) -/

/-- The core's write-through buffer holds a store to a place, which it took before a moment when one is given (R320). -/
def locBuffered (s : State) (core : Nat) (p : Loc) (w : Nat) (before : Option Nat) : Bool :=
  (s.g :: s.others).any fun h => h.live && h.core == core && h.accs.any fun x => x.lanes.any fun k =>
    k.buffered && overlap k.loc x.w p w && match before with | some b => k.sent.getD 0 < b | none => true

/-- The lane may be performed at its home: the orders of its slice let it, a load finds no write-through of its core to its line in the
buffer, and another access none to its location. -/
def homeReady (s : State) (a : Acc) (l : LaneAcc) : Bool :=
  l.open_ && accEnabled s s.g a && laneEnabled s s.g a l &&
    match l.loc, a.kind with
    | .dram pa _, .load | .dram pa _, .turn | .dram pa _, .fifoPop => !lineBuffered s s.g.core (pa / 128)
    | .dram _ _, _ => !locBuffered s s.g.core l.loc a.w none
    | _, _ => true

/-- A lane as its home sees it: one that is presented again, or that lies in the local window, is checked anew (R80, R314, R329). A table
read names its own core's bank and is never translated; its bank is its team's as long as the team is resident (R237, R313). -/
def renewLane (s : State) (a : Acc) (l : LaneAcc) : LaneAcc :=
  let table := match a.kind with | .qtab _ _ _ => true | _ => false
  let window := match l.loc with
    | .sram _ => !table
    | .fifo _ _ => true
    | .dram _ _ | .capa _ => false
  if table || (!l.retry && !window) then l
  else
    let reach : Reach := match a.kind with
      | .fifoPop | .fifoPush => { fifo := true, window := true }
      | .turn | .defer _ => { fifo := false, window := false }
      | _ => { fifo := false, window := true }
    match accessCheck s s.g l.va a.w a.accCode reach with
    | .ok p => { l with loc := p, retry := false, came := if p == l.loc then l.came else none }
    | .bad c i => { l with held := some (c, i), retry := false, sent := none, came := none }

/-! ## Reads -/

/-- The bytes of a line. -/
def lineBytes (v : Lanes) (off n : Nat) : Nat := v.toNat / 2 ^ (8 * off) % 2 ^ (8 * n)

/-- An acquire that empties L1 before what it orders (R321). -/
def Acc.empties (a : Acc) : Bool := a.acq && decide (2 ≤ scopeCode a.scope)

/-- The present L1 line that may serve a plain load (R64, R318): not a `.nol1` load, an `ld.turn` or an acquire of cluster scope. -/
def l1Line (s : State) (a : Acc) (l : LaneAcc) : Option (Lanes × Nat) :=
  match l.loc with
  | .dram pa _ =>
    if a.kind = .load ∧ a.hint ≠ .nol1 ∧ a.empties = false then
      (l1Find (smGet Core.reset s.cores s.g.core) (pa / 128)).map fun v => (v.2, pa % 128)
    else none
  | _ => none

/-- What a load served at its home leaves in L1: its line as the home holds it, where its hint allocates or an older copy stands; a
`.nol1` load leaves L1 alone, an `ld.turn` or an atomic takes the line away, and the line of an acquire that empties L1 comes when it has
(R255, R319, Table 99). -/
def fillL1 (a : Acc) (l : LaneAcc) (s : State) : State :=
  match l.loc with
  | .dram pa _ =>
    if a.kind = .fifoPop then s
    else if a.kind ≠ .load then dropLoc l.loc s
    else if a.hint = .nol1 ∨ a.empties = true then s
    else if fillsL1 a.hint || inL1 s s.g.core (pa / 128) then fillLine (pa / 128) s
    else s
  | _ => s

/-- The lines that an `ld.acq` allocates in the L1 it has emptied (R255, R264, Table 99). -/
def fillAcquired (a : Acc) (s : State) : State :=
  if a.kind = .load ∧ fillsL1 a.hint = true ∧ a.empties = true then
    a.lanes.foldl (fun t l => match l.loc with
      | .dram pa key => (match homeRead t pa a.w key t.stamp with | .ok (u, _) => fillLine (pa / 128) u | _ => t)
      | _ => t) s
  else s

/-- The bytes a lane reads at its home: none while it waits, a refusal, or the bytes. -/
def readHome (s : State) (l : LaneAcc) (n : Nat) : Home (State × List Byte) :=
  match l.loc with
  | .dram pa key => homeRead s pa n key (l.came.getD s.stamp)
  | .sram p => .ok (s, smBytes s.sram p n)
  | .capa o => .ok (s, (capabilityBlock s).drop o |>.take n)
  | .fifo _ _ => .wait

/-- The turned bit: no function of a sweep is pending on the row (R256). -/
def turnedBit (s : State) (l : Loc) : Word :=
  match l with
  | .dram pa _ => if (rowAt s (rowOf pa)).pending.isNone then 1 else 0
  | _ => 1

/-- What a lane of a Q8T instruction computes from its table bytes: the result and the flags (R235, R236). A `q8e` lane reads all 256 entries
of its table in one event (notes/assumptions/86.md). -/
def q8Result (enc : Bool) (h : Nat) (fpm : Word) (l : LaneAcc) (bs : List Byte) : Word × Word :=
  if enc then
    let x := l.data.toNat % 2 ^ 32
    let c := l.data.toNat / 2 ^ 32
    let r := q8eIndex fpm ((List.range 256).map fun i => fieldAt bs 4 i) x (l.cmp.toNat % 2 ^ 32)
    let keep := c - c / 2 ^ (8 * h) % 256 * 2 ^ (8 * h)
    (BitVec.ofNat 64 (keep + r.1 * 2 ^ (8 * h)), r.2.zeroExtend 64)
  else
    let r := q8tValue fpm (leNat bs) (l.data.toNat % 2 ^ 32)
    (BitVec.ofNat 64 r.1, r.2.zeroExtend 64)

/-- The result of an atomic and whether it writes (R170, R257, R258). -/
def atomNew (op : AOp) (signed : Bool) (w old b c : Nat) : Nat × Bool :=
  let lt := fun (x y : Nat) => toInt (8 * w) signed x < toInt (8 * w) signed y
  match op with
  | .add => ((old + b) % 2 ^ (8 * w), true)
  | .min => (if lt b old then b else old, true)
  | .max => (if lt old b then b else old, true)
  | .and => (old &&& b, true)
  | .or => (old ||| b, true)
  | .xor => (Nat.xor old b, true)
  | .exch => (b, true)
  | .cas => (b, old == c)
  | .addF32 => ((fp32.sum .rne false [fp32.value old, fp32.value b]).1, true)

/-- An atomic at the home of its lane (R62): refused as a write is, whatever its outcome; the value before it. -/
def atomHome (s : State) (a : Acc) (op : AOp) (signed : Bool) (l : LaneAcc) : Home (State × Nat) :=
  let b := l.data.toNat % 2 ^ (8 * a.w)
  let c := l.cmp.toNat % 2 ^ (8 * a.w)
  match l.loc with
  | .dram pa key =>
    match refusal s (some (tokenCore s.g.core)) pa a.w with
    | some (e, i) => .refuse e i
    | none =>
      if (rowAt s (rowOf pa)).copyout.isSome then .wait
      else match homeRead s pa a.w key (l.came.getD s.stamp) with
        | .wait => .wait
        | .refuse e i => .refuse e i
        | .ok (t, bs) =>
          let r := atomNew op signed a.w (leNat bs) b c
          .ok (if r.2 then putBytes t pa key (leBytes a.w r.1) else t, leNat bs)
  | .sram p =>
    let old := leNat (smBytes s.sram p a.w)
    let r := atomNew op signed a.w old b c
    .ok (if r.2 then { s with sram := smWrite s.sram p (leBytes a.w r.1) } else s, old)
  | _ => .wait

/-- The rows derived from a row, through chains of rules (R368). -/
def derivedFrom (s : State) : Nat → Nat → List Nat
  | 0, _ => []
  | f + 1, r => (rowAt s r).deps.flatMap fun d => d :: derivedFrom s f d

/-- After a write to a base row is performed, no older line of a row derived from it stays in the L1 of its core (R68, Table 145). -/
def written (l : LaneAcc) (s : State) : State :=
  match l.loc with
  | .dram pa _ =>
    let ds := derivedFrom s 4 (rowOf pa)
    let keep := fun (kv : Nat × Option L1Line) => !kv.2.any fun x => ds.contains (x.line / 16)
    if ds.isEmpty then s
    else { s with cores := smUpd Core.reset s.cores s.g.core fun c => { c with l1 := c.l1.filter keep } }
  | _ => s

/-- Replaces a lane of an access of the group in focus. -/
def setLane (stamp : Nat) (l : LaneAcc) (s : State) : State :=
  let upd := fun (a : Acc) =>
    if a.stamp = stamp then { a with lanes := a.lanes.map fun k => if k.lane = l.lane then l else k } else a
  s.withG { s.g with accs := s.g.accs.map upd }

/-- A home refuses a lane: the row's entries are merged as at every access (R348), the lane is held there, out of the write-through buffer
and of L1 (R80, R265). -/
def holdLane (a : Acc) (l : LaneAcc) (c : BitVec 8) (i : Word) (s : State) : State :=
  let t := match l.loc with | .dram pa _ => mergeRow s (rowOf pa) | _ => s
  setLane a.stamp { l with held := some (c, i), sent := none } (dropLoc l.loc t)

/-- A read comes to its home and waits there for the recompute of its row: the moment is kept (R369). -/
def arriveLane (a : Acc) (l : LaneAcc) (s : State) : State :=
  if l.came.isSome || !l.loc.isDram then s
  else setLane a.stamp { l with came := some s.stamp } { s with stamp := s.stamp + 1 }

/-- Serves one lane of an access that returns a value. -/
def serveLane (a : Acc) (fromL1 : Bool) (s : State) (l0 : LaneAcc) : State :=
  let l := renewLane s a l0
  if !l0.open_ || !accEnabled s s.g a || !laneEnabled s s.g a l then s
  else if l.held.isSome then setLane a.stamp l s
  else match (if fromL1 then l1Line s a l else none) with
  | some (v, off) => setLane a.stamp { l with data := BitVec.ofNat 64 (lineBytes v off a.w), done := true } s
  | none =>
    if !homeReady s a l then s
    else match a.kind with
      | .atom op signed =>
        match atomHome s a op signed l with
        | .wait => arriveLane a l s
        | .refuse c i => holdLane a l c i s
        | .ok (t, old) => setLane a.stamp { l with data := BitVec.ofNat 64 old, done := true } (written l (fillL1 a l t))
      | .load | .turn | .qtab _ _ _ | .fifoPop =>
        match readHome s l a.w with
        | .wait => arriveLane a l s
        | .refuse c i => holdLane a l c i s
        | .ok (t, bs) =>
          let v : Word × Word := match a.kind with
            | .qtab enc h fpm => q8Result enc h fpm l bs
            | _ => (BitVec.ofNat 64 (leNat bs), turnedBit t l.loc)
          setLane a.stamp { l with data := v.1, cmp := v.2, done := true } (fillL1 a l t)
      | _ => s

/-! ## Arrival -/

/-- A value of this many bits, extended to 64. -/
def extendTo (bits : Nat) (signed : Bool) (v : Word) : Word := BitVec.ofInt 64 (toInt bits signed v.toNat)

/-- The values of the lanes of an access. -/
def Acc.values (a : Acc) (f : LaneAcc → Lane) : Lanes :=
  mkLanes fun n => match a.lanes.find? fun l => l.lane == n with | some l => f l | none => 0

/-- The result of a completed access is written where it goes. -/
def writeResult (a : Acc) (s : State) : State :=
  match a.dst with
  | .none | .recv _ _ => s
  | .x r bits signed => s.withG (s.g.writeX r (extendTo bits signed ((a.lanes.head?.map (·.data)).getD 0)))
  | .v r b0 b1 wide bits signed =>
    let t := landArrival r b0 a.mask (a.values fun l => (extendTo bits signed l.data).truncate 32) s
    if wide then landArrival (r + 1) b1 a.mask (a.values fun l => l.data.extractLsb' 32 32) t else t
  | .vturn r b0 b1 bt wide =>
    let bit := a.values fun l => l.cmp.truncate 32
    let t := landArrival r b0 a.mask (a.values fun l => l.data.truncate 32) s
    if wide then
      landArrival (r + 2) bt a.mask bit (landArrival (r + 1) b1 a.mask (a.values fun l => l.data.extractLsb' 32 32) t)
    else landArrival (r + 1) bt a.mask bit t

/-- The flags of a completed access: those of Q8T lanes (R104). -/
def Acc.flags (a : Acc) : BitVec 8 :=
  match a.kind with
  | .qtab _ _ _ => a.lanes.foldl (fun (f : BitVec 8) l => f ||| l.cmp.truncate 8) 0
  | _ => 0

/-- An access whose every lane is done leaves its group: its result and flags are written, an acquire takes effect, its wait slot
falls (R127, R321). An acquire of which homes hold the lanes still to be performed takes effect too, since what it orders may go on
(notes/assumptions/81.md). -/
def finishAcc (stamp : Nat) (s : State) : State :=
  match s.g.accs.find? fun a => a.stamp == stamp with
  | none => s
  | some a =>
    if a.kind != .fence && a.lanes.all (·.done) then
      let t := writeResult a (s.withG (s.g.addFlags a.fseq a.epoch a.flags))
      let u := if a.acq then fillAcquired a (acquire a.scope t) else t
      u.withG (u.g.dropAcc stamp)
    else if a.acq && a.isHeld then acquire a.scope s
    else s

/-- RESULT_ARRIVAL: the lanes named of an access that returns a value are served at their homes, or from L1 where the mask says
so; the result arrives when the last lane is done (R64, R127). For a fence that waits, it is its completion (R72). -/
def execResultArrival (stamp : Nat) (lanes l1 : BitVec 32) (s0 : State) : Out :=
  let s := ownersArrive s0
  match s.g.accs.find? fun a => a.stamp == stamp with
  | none => .next s
  | some a =>
    if a.kind = .fence then .next (if fencesDone s.g a && fenceOpen s s.g a then completeFence a s else s)
    else if !a.isRead || (match a.kind with | .red _ _ => true | _ => false) then .next s
    else .next (dueFault (finishAcc stamp ((a.lanes.filter fun l => lanes.getLsbD l.lane).foldl
      (fun t l => serveLane a (l1.getLsbD l.lane) t l) s)))

/-- ZERO_MASK_SLOT_FALL: the wait slot of an instruction issued under a zero mask falls (R214). -/
def execZeroMaskSlotFall (stamp : Nat) (s : State) : Out :=
  match s.g.accs.find? fun a => a.stamp == stamp with
  | some a => if a.kind = .zeroMask then .next (s.withG (s.g.dropAcc stamp)) else .next s
  | none => .next s

/-! ## Writes -/

/-- The lanes of an access together cover a sector (R77). -/
def coversSector (a : Acc) (k : Nat) : Bool :=
  (List.range 32).all fun i => a.lanes.any fun l => match l.loc with
    | .dram pa _ => pa ≤ 32 * k + i && 32 * k + i < pa + a.w
    | _ => false

/-- A store lane at its home; where the lanes of the instruction together cover a poisoned sector, no lane of it is a partial write, and
the sector's poison goes with the last of them (R77). -/
def storeHome (a : Acc) (l : LaneAcc) (pa key : Nat) (s : State) : Home State :=
  let k := pa / 32
  let go := fun (t : State) => homeWrite t (some (tokenCore s.g.core)) pa key (leBytes a.w l.data.toNat)
  if poisoned s pa && coversSector a k then
    let rest := a.lanes.any fun x => x.lane != l.lane && !x.done && match x.loc with | .dram q _ => q / 32 == k | _ => false
    match go { s with poison := smPut false s.poison k false } with
    | .ok t => .ok (if rest then { t with poison := smPut false t.poison k true } else t)
    | r => r
  else go s

/-- Performs one lane of a store or reduction at its home; a flag store finds the entries of its handoff at every home (R389). -/
def performLane (a : Acc) (l : LaneAcc) (s0 : State) : State :=
  let s := if a.kind = .flagStore then ownersArrived a.stamp s0 else s0
  match a.kind with
  | .red op signed =>
    match atomHome s a op signed l with
    | .wait => s
    | .refuse c i => holdLane a l c i s
    | .ok (t, _) => setLane a.stamp { l with done := true } (written l (dropLoc l.loc t))
  | .store | .flagStore | .fifoPush =>
    match l.loc with
    | .dram pa key =>
      match storeHome a l pa key s with
      | .wait => s
      | .refuse c i => holdLane a l c i s
      | .ok t => setLane a.stamp { l with done := true } (written l t)
    | .sram p => setLane a.stamp { l with done := true } { s with sram := smWrite s.sram p (leBytes a.w l.data.toNat) }
    | _ => s
  | _ => s

/-- One lane of an access of the group in focus, when the orders of its slice let it go on; then the end of the access, and the fault of a
refusal whose release has issued. -/
def withLane (stamp lane : Nat) (f : Acc → LaneAcc → State → State) (s : State) : State :=
  match s.g.accs.find? fun a => a.stamp == stamp with
  | none => s
  | some a =>
    match a.lanes.find? fun l => l.lane == lane with
    | none => s
    | some l0 =>
      let l := renewLane s a l0
      if !l0.open_ || !accEnabled s s.g a || !laneEnabled s s.g a l then s
      else dueFault (finishAcc stamp (if l.held.isSome then setLane stamp l s else f a l (setLane stamp l s)))

/-- A store lane enters the write-through buffer of its core, and L1 with it (R319, R320). -/
def sendLane (a : Acc) (l : LaneAcc) (s : State) : State × LaneAcc :=
  if l.sent.isSome || !l.loc.isDram then (s, l)
  else
    let k := { l with sent := some s.stamp }
    (storeL1 a.hint a.w k (setLane a.stamp k { s with stamp := s.stamp + 1 }), k)

/-- A write goes on: a store enters its core's buffer, and, unless it is early, is performed at its home after the buffer's earlier stores
to its location (R320); a reduction is performed at its home. -/
def writeLane (early : Bool) (a : Acc) (l : LaneAcc) (s : State) : State :=
  if a.kind.isStore then
    let x := sendLane a l s
    if early || locBuffered x.1 x.1.g.core x.2.loc a.w x.2.sent then x.1 else performLane a x.2 x.1
  else if !early && homeReady s a l then performLane a l s
  else s

/-- WRITE_PERFORMED: a write enters its core's write-through buffer (early), or reaches its home and is performed there, or is refused
and held (R64, R80, R265, R320). -/
def execWritePerformed (stamp : Nat) (lane : LaneWrite) (s : State) : Out :=
  .next (withLane stamp lane.lane (writeLane lane.early) (ownersArrive s))

/-- A lane's addition joins the bank's queue; a full queue merges the row of its oldest entry first (R347). An encrypted line takes
it at once in L2 (R260). -/
def acceptDefer (pa key : Nat) (ty : DTy) (v : Word) (s : State) : State :=
  let n := deferBytes ty
  if key ≠ 0 then
    let t := touchLine (mergeRow s (rowOf pa)) (pa / 128) key true
    putBytes t pa key (leBytes n (deferAdd ty (leNat (smBytes t.dram pa n)) (v.toNat % 2 ^ (8 * n))))
  else
    let b := bankOf pa
    let t := match (smGet Bank.reset s.banks b).deferred with
      | e :: es => if 64 ≤ es.length + 1 then mergeRow s (rowOf e.pa) else s
      | [] => s
    let u := { t with
      banks := smUpd Bank.reset t.banks b fun k => { k with deferred := k.deferred ++ [{ pa := pa, ty := ty, val := v }] } }
    countBuckets (markStale u 4 (rowOf pa)) pa n

/-- Accepts one lane of a `red.defer` at its home. -/
def deferLane (a : Acc) (l : LaneAcc) (s : State) : State :=
  match a.kind, l.loc with
  | .defer ty, .dram pa key =>
    match refusal s (some (tokenCore s.g.core)) pa a.w with
    | some (c, i) => holdLane a l c i s
    | none =>
      if (rowAt s (rowOf pa)).copyout.isSome then s
      else setLane a.stamp { l with done := true } (written l (dropLoc l.loc (acceptDefer pa key ty l.data s)))
  | _, _ => s

/-- DEFERRED_ACCEPT: a home accepts a `red.defer` lane into its bank's queue (R347). -/
def execDeferredAccept (stamp lane : Nat) (s : State) : Out :=
  .next (withLane stamp lane (fun a l t => if homeReady t a l then deferLane a l t else t) (ownersArrive s))

/-! ## FIFO banks (R315 to R317) -/

/-- The entries a store lane pushes: the low word first. -/
def pushEntries (w : Nat) (l : LaneAcc) : List (BitVec 32) :=
  if w = 8 then [l.data.truncate 32, l.data.extractLsb' 32 32] else [l.data.truncate 32]

/-- The lanes of a unit whose bank is no longer theirs to reach are held, with TARGET_BAD (R314). -/
def refuseUnit (core bank stamp : Nat) (s : State) : State :=
  match s.g.accs.find? fun a => a.stamp == stamp with
  | none => s
  | some a => (a.unit core bank).foldl (fun t l =>
      let k := renewLane s a l
      if k.held.isSome then setLane stamp k t else t) s

/-- The unit at the head of a bank takes effect for the group in focus: the bank's new entries, or none while it waits for room or
for entries. -/
def runUnit (core bank stamp : Nat) (s : State) : Option State :=
  match s.g.accs.find? fun a => a.stamp == stamp with
  | none => none
  | some a =>
    let ls := a.unit core bank
    let k := a.w / 4
    let held := smGet [] (smGet Core.reset s.cores core).fifo bank
    let put := fun (es : List (BitVec 32)) (t : State) =>
      { t with cores := smUpd Core.reset t.cores core fun c => { c with fifo := smPut [] c.fifo bank es } }
    if a.kind = .fifoPush then
      let new := ls.flatMap (pushEntries a.w)
      if 8192 < held.length + new.length then none
      else some (finishAcc stamp (put (held ++ new) (ls.foldl (fun t l => setLane stamp { l with done := true } t) s)))
    else
      if held.length < k * ls.length then none
      else
        let val := fun (i : Nat) => (held.getD (k * i) 0).zeroExtend 64 |||
          (if k = 2 then (held.getD (2 * i + 1) 0).zeroExtend 64 <<< 32 else (0 : Word))
        let done := (List.range ls.length).zip ls
        some (finishAcc stamp (put (held.drop (k * ls.length))
          (done.foldl (fun t il => setLane stamp { il.2 with data := val il.1, done := true } t) s)))

/-- FIFO_UNIT: units that may reach a bank reach it, and the first of those waiting there takes effect when the bank has room or entries
for it (R316). -/
def execFifoUnit (core bank : Nat) (s0 : State) : Out :=
  let s := reachBank core bank s0
  match smGet [] (smGet Core.reset s.cores core).units bank with
  | [] => .next s
  | u :: _ =>
    let unit := fun (t : State) =>
      let r := refuseUnit core bank u.2.2 t
      if r.g.accs == t.g.accs then runUnit core bank u.2.2 t else some (dueFault r)
    match atGroup u.1 u.2.1 unit s with
    | none => .next s
    | some t => .next { t with
        cores := smUpd Core.reset t.cores core fun c => { c with units := smUpd [] c.units bank fun l => l.erase u } }

/-! ## TLBs (R328, R329) -/

/-- An access that has used a translation is still to be performed: a lane that its home does not hold, or the rows of a derivation rule whose
registration has not reached every home (R329, R367); a held lane is translated again when it is presented (R80), and the rows of a sweep
or snapshot are fixed (R335, R373). -/
def translated (s : State) : Bool :=
  ((s.g :: s.others).any fun h => h.live && h.accs.any fun a => a.lanes.any fun l => l.open_ && !l.retry && l.loc.isDram) ||
    s.basins.any fun b => b.2.ctx.any fun c => c.2.cmds.any fun k =>
      k.w.cmd == 6 && k.started && k.fin.isNone && !k.regDone

/-- No TLB holds a translation. -/
def emptyTlbs (s : State) : State :=
  let core := fun (c : Nat × Core) => (c.1, { c.2 with tlb := [] })
  let quad := fun (q : Nat × Quad) => (q.1, { q.2 with tlb := [] })
  { s with
    tlb := []
    cores := (s.cores.map core).filter fun c => c.2 != Core.reset
    quads := (s.quads.map quad).filter fun q => q.2 != Quad.reset
    mgmt := { s.mgmt with changing := false } }

/-- TLB_INVALIDATION: it begins with the change of a mapping that it goes with, and completes once every access that used an old translation
has been performed; afterwards no TLB holds one (R329). -/
def execTlbInvalidation (s : State) : Out :=
  match (if s.mgmt.changing then some s else mapNext true s) with
  | none => .next s
  | some t => .next (if translated t then { t with mgmt := { t.mgmt with changing := true } } else emptyTlbs t)

end Sys2Proof.Machine
end

