-- ==== Sys2Proof/Machine/Rows.lean ====
section
/-! DEFINITION. Rows at their homes: weir functions, row turns, captures, forced activations, recomputes, and the drain of snapshots
(R331 to R350, R369, R374 to R377, R412). -/
namespace Sys2Proof.Machine

/-! ## Commands of the basins -/

/-- Every command a basin holds, with its context. -/
def basinCmds (s : State) : List (EngineRef × ECmd) :=
  s.basins.flatMap fun b => b.2.ctx.flatMap fun c => c.2.cmds.map fun k => (EngineRef.basin b.1 c.1, k)

/-- A command that has started and not ended. -/
def ECmd.active (k : ECmd) : Bool := k.started && k.fin.isNone

/-- The command a reference names. -/
def cmdOf (s : State) (r : CmdRef) : Option ECmd :=
  (s.ctx (.basin r.basin r.ctx)).cmds.find? fun k => k.seq == r.seq

/-- Changes the command a reference names. -/
def updRef (r : CmdRef) (f : ECmd → ECmd) (s : State) : State :=
  s.setCtx (.basin r.basin r.ctx) ((s.ctx (.basin r.basin r.ctx)).updCmd r.seq f)

/-! ## Weir functions (R332 to R334) -/

/-- min(max(x, lo), hi) with minus zero below plus zero (R333). -/
def clampVal (x lo hi : FVal) : FVal :=
  let y := if x.below lo then lo else x
  if hi.below y then hi else y

/-- A transform of one element (R333). -/
def weirElem (w : WeirFn) (n : Nat) (f : Option Fmt) (x : Nat) : Nat :=
  let fill := w.p0.toNat % 2 ^ (8 * n)
  match f with
  | some f =>
    let v := f.value x
    let a := fp32.value w.p0.toNat
    let b := fp32.value w.p1.toNat
    match w.fn with
    | 1 => (f.ofValue .rne false (a.mul v).1).1
    | 2 => (f.sum .rne false [(a.mul v).1, b]).1
    | 3 => if v.isNan then f.nan else (f.ofValue .rne false (clampVal v a b)).1
    | _ => fill
  | none =>
    let v := toInt (8 * n) true x
    let a := w.p0.toInt
    let b := w.p1.toInt
    let out := fun (i : Int) => ofInt (8 * n) (satInt (8 * n) true i).1
    match w.fn with
    | 1 => out (a * v)
    | 2 => out (a * v + b)
    | 3 => out (min (max v a) b)
    | _ => fill

/-- The result of a read-only function over elements: VALUE and SAT (R334, Table 132). -/
def weirResult (fn n : Nat) (f : Option Fmt) (xs : List Nat) : Nat × Bool :=
  match f with
  | some f =>
    let vs := xs.map f.value
    if fn = 5 then
      if vs.any FVal.isNan then (fp32.nan, false)
      else
        let top := vs.foldl (fun (m : FVal) v =>
          let a : FVal := match v with | .fin _ k e => .fin false k e | .inf _ => .inf false | v => v
          if m.cmp a < 0 then a else m) (.fin false 0 0)
        ((fp32.ofValue .rne false top).1, false)
    else ((fp32.sum .rne false vs).1, false)
  | none =>
    let vs := xs.map (toInt (8 * n) true)
    if fn = 5 then ((vs.map Int.natAbs).foldl max 0, false)
    else
      let r := satInt 32 true (vs.foldl (· + ·) 0)
      (ofInt 32 r.1, r.2)

/-- A sector of a row is poisoned. -/
def sectorBad (s : State) (r k : Nat) : Bool := smGet false s.poison (64 * r + k)

/-- A transformed row: poisoned sectors stay as they are (R343). -/
def transformRow (s : State) (r : Nat) (w : WeirFn) : List Byte :=
  match weirFmt w.fmt with
  | none => rowBytes s r
  | some (n, f) =>
    let bs := rowBytes s r
    (List.range (2048 / n)).flatMap fun i =>
      if sectorBad s r (n * i / 32) then (bs.drop (n * i)).take n else leBytes n (weirElem w n f (fieldAt bs n i))

/-- The result slot of a read-only turn (Table 132). -/
def resultSlot (s : State) (r : Nat) (w : WeirFn) : Nat :=
  match weirFmt w.fmt with
  | none => 0
  | some (n, f) =>
    let bs := rowBytes s r
    let xs := ((List.range (2048 / n)).filter fun i => !sectorBad s r (n * i / 32)).map (fieldAt bs n)
    let v := weirResult w.fn n f xs
    let bad := (List.range 64).any (sectorBad s r)
    v.1 + (if bad then 2 ^ 32 else 0) + (if v.2 then 2 ^ 33 else 0) + 2 ^ 34

/-! ## Captures (R340 step 3, R375) -/

/-- A basin's drain queue has room. -/
def drainRoom (s : State) (b : Nat) : Bool := (smGet Basin.reset s.basins b).drain.length < s.mgmt.drainCap

/-- The indices of a region that name a row. -/
def indicesOf (k : ECmd) (r : Nat) : List Nat := (List.range k.rows.length).filter fun i => k.rows[i]? == some r

/-- A byte of the free values from a place on. -/
def freeByte (f i : Nat) : Byte := (Config.freeWord (f + i / 8)).extractLsb' (8 * (i % 8)) 8

/-- The row as a record holds it: what a poisoned sector holds is not captured, and the record's bytes there are free (R343). -/
def captured (s : State) (r : Nat) : List Byte :=
  if (List.range 64).any (sectorBad s r) then
    ((rowBytes s r).zip (List.range 2048)).map fun b => if sectorBad s r (b.2 / 32) then freeByte s.fresh b.2 else b.1
  else rowBytes s r

/-- A sweep whose rows have all turned after registration ended, with every result slot written, is completed (R344), unless a cancel of it
came first (R346). -/
def sweepDone (ref : CmdRef) (s : State) : State :=
  match cmdOf s ref with
  | some k =>
    if k.fin.isNone && k.regDone && !k.cancel && k.slots.isEmpty && k.rows.all k.turned.contains then
      endCmd (.basin ref.basin ref.ctx) k .completed s
    else s
  | none => s

/-- A result slot is written, which is no write of an agent: whoever owns its page (R387), whether or not its sector is poisoned, since a
turn never faults (R343), in a derived row too (notes/assumptions/25.md), and counted in no bucket (R409). -/
def writeSlot (s : State) (p : Nat × Word) : State := placeBytes s p.1 0 (leBytes 8 p.2.toNat)

/-- A result slot that lies in this row. -/
def slotIn (r : Nat) (p : Nat × Word) : Bool := rowOf p.1 == r

/-- The sweeps with a result slot that a copyout of this row holds. -/
def slotHolders (s : State) (r : Nat) : List (CmdRef × ECmd) :=
  (basinCmds s).filterMap fun p => match p.1 with
    | .basin b c => if p.2.slots.any (slotIn r) then some ({ basin := b, ctx := c, seq := p.2.seq }, p.2) else none
    | _ => none

/-- A copyout leaves a row: the result slots that it held there are written. -/
def clearCopyout (r : Nat) (s : State) : State :=
  (slotHolders s r).foldl (fun t x =>
    sweepDone x.1 (updRef x.1 (fun k => { k with slots := k.slots.filter fun p => !slotIn r p })
      ((x.2.slots.filter (slotIn r)).foldl writeSlot t))) (s.updRow r fun w => { w with copyout := none })

/-- Captures a row for the snapshot drain, its deferred entries merged and a stale derived row recomputed first. -/
def captureRow (r : Nat) (s : State) : State :=
  match (rowAt s r).copyout with
  | none => s
  | some ref =>
    let t := dropL2 r (rawRow (mergeRow (recomputeRow s 4 r) r) r)
    match cmdOf t ref with
    | none => clearCopyout r t
    | some k =>
      let c : Captured :=
        { snap := ref, target := bits k.w.w4 3 0, s := k.w.w3, indices := indicesOf k r, data := captured t r }
      let b := basinOf (r * 2048)
      let u := { t with fresh := t.fresh + 256, basins := smUpd Basin.reset t.basins b fun x => { x with drain := x.drain ++ [c] } }
      clearCopyout r (updRef ref (fun k => { k with turned := k.turned ++ [r] }) u)

/-- The row's pending copyout may be captured now: the drain queue has room. -/
def mayCapture (s : State) (r : Nat) : Bool := drainRoom s (basinOf (r * 2048))

/-- An access that writes at a home of DRAM. -/
def AccKind.writes : AccKind → Bool
  | .store | .flagStore | .fifoPush | .atom _ _ | .red _ _ | .defer _ => true
  | _ => false

/-- The group in focus has a write at the row's home. -/
def groupWrites (s : State) (r : Nat) : Bool :=
  s.g.accs.any fun a => a.kind.writes && a.lanes.any fun l =>
    (match l.loc with | .dram pa _ => rowOf pa == r | _ => false) &&
      if a.kind.isStore then l.buffered && !locBuffered s s.g.core l.loc a.w l.sent else homeReady s a l

/-- Some context's next write waits at the row. -/
def cmdHeld (x : SMap EngCtx) (r : Nat) : Bool := x.any fun c => c.2.cmds.any fun k => k.holds == some r && k.fin.isNone

/-- A registration of rules in progress has still to reach the row, whose every location it writes (R367). -/
def ruleComes (s : State) (r : Nat) : Bool :=
  (basinCmds s).any fun p => p.2.active && p.2.w.cmd == 6 && p.2.rows.contains r && !p.2.registered.contains r

/-- A write is held at the row: that of a group, of an engine command, of a registration of rules, or of a sweep's result slot (R374, R375). -/
def writeWaits (s : State) (r : Nat) : Bool :=
  ((s.g :: s.others).any fun h => h.live && ((focusOn (some (h.core, h.slot)) s).any fun t => groupWrites t r)) ||
    (s.quads.any fun q => cmdHeld q.2.copy r) || (s.basins.any fun b => cmdHeld b.2.ctx r) || cmdHeld s.coll.ctx r ||
    cmdHeld s.mgmt.launch r || ruleComes s r || !(slotHolders s r).isEmpty

/-- DEMAND_CAPTURE: a row whose pending copyout holds a write is captured by one extra activation when the drain has room (R375). -/
def execDemandCapture (row : Nat) (s : State) : Out :=
  if mayCapture s row && writeWaits s row then .next (captureRow row s) else .next s

/-! ## Turns (R338 to R343) -/

/-- The result slots a read-only turn of a row writes. -/
def slotsOf (k : ECmd) (r : Nat) : List Nat := (indicesOf k r).filterMap fun i => k.res[i]?

/-- Applies the pending function of a row (R340 steps 4 to 6) and counts the row's turn. A result slot in a row whose copyout is pending is
written once that row has been captured, so that a snapshot holds no slot of a sweep that came after its cut (R374,
notes/assumptions/25.md). -/
def applyWeir (r : Nat) (ref : CmdRef) (w : WeirFn) (s : State) : State :=
  match cmdOf s ref with
  | none => s.updRow r fun x => { x with pending := none }
  | some k =>
    let t :=
      if weirReads w.fn then
        let all := (slotsOf k r).map fun pa => (pa, BitVec.ofNat 64 (resultSlot s r w))
        let now := all.filter fun p => (rowAt s (rowOf p.1)).copyout.isNone
        let later := all.filter fun p => (rowAt s (rowOf p.1)).copyout.isSome
        updRef ref (fun k => { k with slots := k.slots ++ later }) (now.foldl writeSlot (dropL2 r s))
      else markStale (dropL2 r { s with dram := smWrite s.dram (r * 2048) (transformRow s r w) }) 4 r
    sweepDone ref (updRef ref (fun k => { k with turned := k.turned ++ [r] }) (t.updRow r fun x => { x with pending := none }))

/-- The turn of a row, as one event at its home; an event whose capture finds no room passes the row by (R338, R340). -/
def turnRow (r : Nat) (s : State) : State :=
  let w := rowAt s r
  if w.pending.isNone && w.copyout.isNone then s
  else if w.copyout.isSome && !mayCapture s r then s
  else
    let reads := match w.pending with | some (_, f) => weirReads f.fn | none => false
    let t := captureRow r (rawRow (mergeRow (if reads then recomputeRow s 4 r else s) r) r)
    match w.pending with
    | none => t
    | some (ref, f) => applyWeir r ref f t

/-- REFRESH_RESTORE: the bank restores the row at its pointer, which turns it, and advances the pointer (R11, R331). -/
def execRefreshRestore (bank : Nat) (s : State) : Out :=
  let b := smGet Bank.reset s.banks bank
  let t := turnRow (rowOfBank bank b.ptr) s
  .next { t with banks := smUpd Bank.reset t.banks bank fun k => { k with ptr := (b.ptr + 1) % 65536 } }

/-- A row of a forced sweep that waits in a bank. -/
def forcedRow (s : State) (bank r : Nat) : Bool :=
  bankOf (r * 2048) == bank && match (rowAt s r).pending with
    | some (ref, _) => (cmdOf s ref).any (·.forced)
    | none => false

/-- Distance of a row from the bank's refresh pointer, in the order of R339. -/
def turnDistance (s : State) (bank r : Nat) : Nat :=
  (rowInBank (r * 2048) + 65536 - (smGet Bank.reset s.banks bank).ptr) % 65536

/-- FORCED_ACTIVATION: the bank turns its next unturned row of a forced sweep; one that the activation would pass by, its copyout finding no
room, does not keep the others (R338, R345). -/
def execForcedActivation (bank : Nat) (s : State) : Out :=
  let rs := (s.rows.map (·.1)).filter fun r => forcedRow s bank r && ((rowAt s r).copyout.isNone || mayCapture s r)
  match rs.foldl (fun (o : Option Nat) r =>
      match o with
      | none => some r
      | some b => if turnDistance s bank r < turnDistance s bank b then some r else some b) none with
  | some r => .next (turnRow r s)
  | none => .next s

/-- RECOMPUTE: the next event of the recompute of a stale derived row (R369). -/
def execRecompute (row : Nat) (s : State) : Out := .next (recomputeStep s row)

/-! ## The snapshot drain (R412) -/

/-- A record of the drain: S, an index, 2,048 bytes. -/
def drainRecord (sv : Word) (i : Nat) (body : List Byte) : List Byte :=
  leBytes 8 sv.toNat ++ leBytes 8 i ++ body ++ List.replicate (2048 - body.length) 0

/-- Sends one RMA write to a drain target. -/
def drainSend (target offset : Nat) (bs : List Byte) (s : State) : State :=
  { s with mgmt := { s.mgmt with outbox := s.mgmt.outbox ++ [.drain target offset bs] } }

/-- Records of a snapshot that a basin still holds. -/
def undrained (s : State) (ref : CmdRef) : Bool := s.basins.any fun b => b.2.drain.any fun c => c.snap == ref

/-- The next snapshot of an accepting basin whose end or abort record is due; `elem` counts the end record as sent. An abort that comes
before the target has acknowledged the end record has its own record sent (R377, R412). -/
def recordDue (s : State) (basin : Nat) : Option (CmdRef × ECmd) :=
  (basinCmds s).findSome? fun p =>
    match p.1 with
    | .basin b c =>
      let ref : CmdRef := { basin := b, ctx := c, seq := p.2.seq }
      let k := p.2
      let clear := k.rows.all fun r => (rowAt s r).copyout != some ref
      if b = basin ∧ k.active ∧ k.w.cmd = 9 ∧ undrained s ref = false ∧ k.regDone ∧
          (if k.cancel then clear && !k.res.isEmpty else k.elem == 0 && k.rows.all k.turned.contains) then some (ref, k) else none
    | _ => none

/-- SNAPSHOT_DRAIN_RECORD: the drain sends the next record of the oldest captured row of the basin; with none held, the end or abort
record of a snapshot the basin accepted (R377, R412). -/
def execSnapshotDrainRecord (basin : Nat) (s : State) : Out :=
  let b := smGet Basin.reset s.basins basin
  let put := fun (d : List Captured) (t : State) =>
    { t with basins := smUpd Basin.reset t.basins basin fun x => { x with drain := d } }
  match b.drain with
  | c :: cs =>
    match c.indices with
    | i :: is =>
      .next (drainSend c.target (2064 * i) (drainRecord c.s i c.data)
        (put (if is.isEmpty then cs else { c with indices := is } :: cs) s))
    | [] => .next (put cs s)
  | [] =>
    match recordDue s basin with
    | none => .next s
    | some (ref, k) =>
      let n := k.rows.length
      let idx := if k.cancel then 2 ^ 64 - 1 else 2 ^ 64 - 2
      let t := drainSend (bits k.w.w4 3 0) (2064 * n) (drainRecord k.w.w3 idx (if k.cancel then [] else leBytes 8 n)) s
      .next (if k.cancel then endCmd (.basin ref.basin ref.ctx) k .cancelled t
        else updRef ref (fun x => { x with elem := 1 }) t)

/-- DRAIN_ACKNOWLEDGEMENT: the target acknowledges an end record, and its snapshot's future is reached (R376, R412). -/
def execDrainAcknowledgement (slot : Nat) (s : State) : Out :=
  match (basinCmds s).find? fun p => p.2.active && !p.2.cancel && p.2.w.cmd == 9 && p.2.elem == 1 && bits p.2.w.w4 3 0 == slot with
  | some (e, k) => .next (endCmd e k .completed s)
  | none => .next s

end Sys2Proof.Machine
end

