-- ==== Sys2Proof/Machine/Deliver.lean ====
section
/-! DEFINITION. What an engine command does element by element: engine accesses at homes, suspension, and the commands of the copy
engine (R82, R290 to R304). -/
namespace Sys2Proof.Machine

/-! ## Accesses of engines (R291, R303) -/

/-- What an access of an engine answers: it waits at a home, for the capture of a row when it is a write that a pending copyout holds
there (R375), it meets a fault (code, ACC, address, and the state with what other homes accepted), or it is done. -/
inductive EngAns (α : Type) where
  | wait (row : Option Nat)
  | fault (code : BitVec 8) (acc : BitVec 4) (va : Word) (s : State)
  | ok (a : α)

/-- An answer passed on. -/
def EngAns.andThen {α β : Type} (x : EngAns α) (f : α → EngAns β) : EngAns β :=
  match x with
  | .wait r => .wait r
  | .fault c a v s => .fault c a v s
  | .ok a => f a

/-- The translation of an engine access of n bytes within a page: only the global space (R291); every line it touches is checked for its
key slot (R325). -/
def engTranslate (s : State) (ag : Agent) (asid : Nat) (va : Word) (n : Nat) (acc : BitVec 4) : XRes :=
  if localBase ≤ va.toNat then .bad cXlateAbsent 5
  else match translate s ag asid va.toNat acc with
    | .ok (.dram pa key) => if (linesOf pa n).any fun l => keyClash s (128 * l) key then .bad cXlatePerm 0 else .ok (.dram pa key)
    | r => r

/-- An access split where a new aligned 256 bytes begin, so that each piece lies in one row and one page. -/
def pieces (va : Word) (n : Nat) : List (Word × Nat) :=
  let a := va.toNat
  (List.range ((a % 256 + n + 255) / 256)).map fun i =>
    let lo := max a ((a / 256 + i) * 256)
    (BitVec.ofNat 64 lo, min (a + n) ((a / 256 + i + 1) * 256) - lo)

/-- Reads one piece at its home. -/
def readPiece (ag : Agent) (asid : Nat) (va : Word) (n : Nat) (s : State) : EngAns (State × List Byte) :=
  match engTranslate s ag asid va n 1 with
  | .bad c _ => .fault c 1 va s
  | .ok (.dram pa key) =>
    match homeRead s pa n key s.stamp with
    | .wait => .wait none
    | .refuse c _ => .fault c 1 va (mergeRow s (rowOf pa))
    | .ok (t, bs) => .ok (fillTlb t ag asid va.toNat, bs)
  | .ok (.capa o) => .ok (s, (capabilityBlock s).drop o |>.take n)
  | .ok _ => .fault cXlateAbsent 1 va s

/-- An engine reads n bytes; the fault is that of the first piece in address order that meets one. -/
def engRead (ag : Agent) (asid : Nat) (va : Word) (n : Nat) (s : State) : EngAns (State × List Byte) :=
  (pieces va n).foldl (fun x p => x.andThen fun sb =>
    (readPiece ag asid p.1 p.2 sb.1).andThen fun tb => .ok (tb.1, sb.2 ++ tb.2)) (.ok (s, []))

/-- The translation and permission checks of every page a write touches (R302). -/
def checkWrite (ag : Agent) (asid : Nat) (va : Word) (n : Nat) (s : State) : Option (BitVec 8 × Word) :=
  (pieces va n).findSome? fun p => match engTranslate s ag asid p.1 p.2 2 with
    | .bad c _ => some (c, p.1)
    | .ok (.dram _ _) => none
    | .ok _ => some (cXlatePerm, p.1)

/-- A piece of a write with its place. -/
structure WPiece where
  va : Word
  pa : Nat
  key : Nat
  bytes : List Byte

/-- The pieces of a write whose translations exist. -/
def writePieces (ag : Agent) (asid : Nat) (va : Word) (bs : List Byte) (s : State) : List WPiece :=
  (pieces va bs.length).filterMap fun p => match engTranslate s ag asid p.1 p.2 2 with
    | .ok (.dram pa key) => some { va := p.1, pa := pa, key := key, bytes := (bs.drop (p.1 - va).toNat).take p.2 }
    | _ => none

/-- Writes those pieces of an element refused at a place that other homes happen to accept; the home that refuses it writes none (R303). -/
def writeSome (side : Bool) (at_ : Nat) (ps : List WPiece) (s : State) : State :=
  ps.foldl (fun t p =>
    let u := { t with fresh := t.fresh + 1 }
    if basinOf p.pa ≠ basinOf at_ ∧ Config.freeBit t.fresh = true then
      match homeWrite u (some side) p.pa p.key p.bytes with | .ok v => v | _ => u
    else u) s

/-- The first row of a write that a pending copyout holds (R375). -/
def heldRow (ps : List WPiece) (s : State) : Option Nat :=
  (ps.map fun p => rowOf p.pa).find? fun r => (rowAt s r).copyout.isSome

/-- An engine writes bytes on the side of its pushing group (R384): it waits while a home holds one of the rows for a snapshot,
suspends at the first piece that a home refuses, whose row's entries are merged as at every access (R348), and otherwise every home accepts
its piece. -/
def engWrite (side : Bool) (ag : Agent) (asid : Nat) (va : Word) (bs : List Byte) (s : State) : EngAns State :=
  match checkWrite ag asid va bs.length s with
  | some (c, a) => .fault c 2 a s
  | none =>
    let ps := writePieces ag asid va bs s
    match ps.findSome? fun p => (refusal s (some side) p.pa p.bytes.length).map fun r => (r.1, p) with
    | some (c, p) => .fault c 2 p.va (writeSome side p.pa ps (mergeRow s (rowOf p.pa)))
    | none =>
      match heldRow ps s with
      | some r => .wait (some r)
      | none => .ok (ps.foldl (fun t p => fillTlb (putBytes t p.pa p.key p.bytes) ag asid p.va.toNat) s)

/-! ## Suspension and the place of a command -/

/-- The context suspends before an element, with its record (R82, R303). -/
def suspend (e : EngineRef) (k : ECmd) (elem : Nat) (code : BitVec 8) (acc : BitVec 4) (va : Word) (s : State) : State :=
  let fr : FaultRec :=
    { code := code, orig := 2, imprec := false, index := 0, slot := 0, core := 0, lanes := 0, clause := BitVec.ofNat 56 elem,
      acc := acc, addr := lo56 va, info := handleOf e k.seq }
  s.setCtx e ((s.ctx e).updCmd k.seq fun c => { c with susp := some code, elem := elem, waiting := some fr, holds := none })

/-- Changes a command in its context. -/
def updCmdAt (e : EngineRef) (seq : Nat) (f : ECmd → ECmd) (s : State) : State := s.setCtx e ((s.ctx e).updCmd seq f)

/-- The command's next write is held at a row, or at none (R375). -/
def holdAt (e : EngineRef) (seq : Nat) (row : Option Nat) (s : State) : State := updCmdAt e seq (fun c => { c with holds := row }) s

/-- Applies an answer: a home makes the element wait, a suspension at a fault, else what follows. -/
def settle (e : EngineRef) (k : ECmd) (elem : Nat) (s : State) (x : EngAns State) : State :=
  match x with
  | .wait r => holdAt e k.seq r s
  | .fault c a v t => suspend e k elem c a v t
  | .ok t => holdAt e k.seq none t

/-! ## Elements of one command that overlap (R295)

The accesses of one command are unordered among themselves: where an earlier element has written, each aligned 8-byte unit is read as
it stood before the command or as it stands, and a later write of it stays or is superseded. The choice is free (R295). -/

/-- Some byte of a range has been written by an earlier element. -/
def wasWritten (olds : SMap (Option (List Byte))) (pa n : Nat) : Bool := (List.range n).any fun i => (smGet none olds (pa + i)).isSome

/-- Bytes from an address on, with another choice in the units written before that the free values from f on select. -/
def mixUnits (olds : SMap (Option (List Byte))) (f pa : Nat) (bs : List Byte) (other : Nat → Byte) : List Byte :=
  (List.range bs.length).map fun i =>
    let pick := (Config.freeWord (f + ((pa + i) / 512 - pa / 512))).getLsbD ((pa + i) / 8 % 64)
    if (smGet none olds (pa + i)).isSome && pick then other i else bs.getD i 0

/-- What an element's read finds. -/
def oldReads (olds : SMap (Option (List Byte))) (ag : Agent) (asid : Nat) (va : Word) (bs : List Byte) (s : State) : State × List Byte :=
  if olds.isEmpty then (s, bs)
  else (pieces va bs.length).foldl (fun x p =>
    let c := (bs.drop (p.1 - va).toNat).take p.2
    match engTranslate x.1 ag asid p.1 p.2 1 with
    | .ok (.dram pa _) =>
      if wasWritten olds pa p.2 then
        ({ x.1 with fresh := x.1.fresh + p.2 / 512 + 2 },
          x.2 ++ mixUnits olds x.1.fresh pa c fun i => ((smGet none olds (pa + i)).getD []).headD 0)
      else (x.1, x.2 ++ c)
    | _ => (x.1, x.2 ++ c)) (s, [])

/-- What the home of a piece holds. -/
def nowBytes (s : State) (p : WPiece) : List Byte :=
  match homeRead s p.pa p.bytes.length p.key s.stamp with
  | .ok r => r.2
  | _ => smBytes s.dram p.pa p.bytes.length

/-- What an element's write leaves. -/
def oldWrites (olds : SMap (Option (List Byte))) (ps : List WPiece) (bs : List Byte) (s : State) : State × List Byte :=
  if (ps.any fun p => wasWritten olds p.pa p.bytes.length) && (ps.foldl (fun n p => n + p.bytes.length) 0 == bs.length) then
    let stride := bs.length / 512 + 2
    ({ s with fresh := s.fresh + ps.length * stride },
      (ps.zip (List.range ps.length)).flatMap fun q =>
        let now := nowBytes s q.1
        mixUnits olds (s.fresh + q.2 * stride) q.1.pa q.1.bytes fun i => now.getD i 0)
  else (s, bs)

/-- Notes the bytes a piece overwrites for the first time. -/
def noteOld (s : State) (m : SMap (Option (List Byte))) (p : WPiece) : SMap (Option (List Byte)) :=
  ((nowBytes s p).zip (List.range p.bytes.length)).foldl (fun m b =>
    if (smGet none m (p.pa + b.2)).isSome then m else smPut none m (p.pa + b.2) (some [b.1])) m

/-- A read of an element of a command. -/
def elemRead (k : ECmd) (ag : Agent) (va : Word) (n : Nat) (s : State) : EngAns (State × List Byte) :=
  (engRead ag k.asid va n s).andThen fun r => .ok (oldReads k.olds ag k.asid va r.2 r.1)

/-- A write of an element of a command. -/
def elemWrite (e : EngineRef) (k : ECmd) (ag : Agent) (va : Word) (bs : List Byte) (s : State) : EngAns State :=
  let ps := writePieces ag k.asid va bs s
  let x := oldWrites k.olds ps bs s
  (engWrite k.tokenSide ag k.asid va x.2 x.1).andThen fun t =>
    .ok (updCmdAt e k.seq (fun c => { c with olds := ps.foldl (noteOld s) c.olds }) t)

/-- The first command of a context that has not ended. -/
def EngCtx.head (x : EngCtx) : Option ECmd := x.cmds.find? fun k => k.fin.isNone

/-! ## Elements of the copy engine -/

/-- A dimension of a strided command (R294, Table 115). -/
structure Dim where
  ext : Nat
  ss : Int
  ds : Int

/-- The dimensions of `copy` and `fill`. -/
def cmdDims (w : Cmd) : List Dim :=
  (([w.w4, w.w5, w.w6, w.w7].zip (List.range 4)).take (bits w.w0 47 44 + 1)).map fun p =>
    { ext := bits w.w3 (16 * p.2 + 15) (16 * p.2), ss := toInt 32 true (bits p.1 31 0), ds := toInt 32 true (bits p.1 63 32) }

/-- The dimensions of a `copyx` block, given as its 8-byte words. -/
def blockDims : List Word → List Dim
  | a :: b :: ws => { ext := bits a 63 48, ss := toInt 48 true (bits a 47 0), ds := toInt 48 true (bits b 47 0) } :: blockDims ws
  | _ => []

/-- Reserved bits of a block are zero (Table 115). -/
def blockOk : List Word → Bool
  | _ :: b :: ws => bits b 63 48 == 0 && blockOk ws
  | _ => true

/-- Offsets of an element on the source and destination sides (R294). -/
def offsets : List Dim → Nat → Int × Int
  | [], _ => (0, 0)
  | d :: ds, e =>
    let i : Int := (e % d.ext : Nat)
    let r := offsets ds (e / d.ext)
    (i * d.ss + r.1, i * d.ds + r.2)

/-- The dimensions of a strided command. -/
def dimsOf (w : Cmd) (block : List Word) : List Dim := if w.cmd = 2 then blockDims block else cmdDims w

/-- Number of elements of a command (R294 to R298). -/
def elemCount (w : Cmd) (block : List Word) (cfg : Word) : Nat :=
  match w.cmd.toNat with
  | 3 | 4 => bits w.w4 31 0
  | 6 | 7 => tcRows cfg
  | _ => (dimsOf w block).foldl (fun n d => n * d.ext) 1

/-- An address moved by a signed offset, modulo 2^64. -/
def moved (a : Word) (i : Int) : Word := a + BitVec.ofInt 64 i

/-- Words of a byte string. -/
def toWords (bs : List Byte) : List Word := (List.range (bs.length / 8)).map fun i => BitVec.ofNat 64 (fieldAt bs 8 i)

/-- The first n elements of a `fill` together cover the sector at this virtual place. -/
def fillCovers (w : Cmd) (n v : Nat) : Bool :=
  (List.range 32).all fun b => (List.range n).any fun e =>
    (BitVec.ofNat 64 (32 * v + b) - moved w.w2 (offsets (cmdDims w) e).2).toNat < 2 ^ bits w.w0 52 50

/-- The poisoned sectors of an element's place, with the virtual ones, that a `fill` covers whole: no element of it is a partial write
there (R77). -/
def fillSectors (ag : Agent) (asid : Nat) (w : Cmd) (va : Word) (n : Nat) (s : State) : List (Nat × Nat) :=
  (writePieces ag asid va (List.replicate n 0) s).flatMap fun p =>
    ((List.range ((p.pa + p.bytes.length - 1) / 32 + 1 - p.pa / 32)).map fun i => (p.pa / 32 + i, p.va.toNat / 32 + i)).filter
      fun k => smGet false s.poison k.1 && fillCovers w (elemCount w [] 0) k.2

/-- Sets the poison of sectors. -/
def setPoison (ks : List (Nat × Nat)) (b : Bool) (s : State) : State :=
  { s with poison := ks.foldl (fun m k => smPut false m k.1 b) s.poison }

/-- Element i of a `fill`: a sector that the whole fill covers loses its poison with the last element that covers it, and keeps it where the
element meets a fault (R77, R303). -/
def fillElem (e : EngineRef) (k : ECmd) (w : Cmd) (ag : Agent) (va : Word) (n i : Nat) (s : State) : EngAns State :=
  let ks := fillSectors ag k.asid w va n s
  match elemWrite e k ag va (leBytes n w.w1.toNat) (setPoison ks false s) with
  | .wait r => .wait r
  | .fault c a v t => .fault c a v (setPoison ks true t)
  | .ok t => .ok (setPoison (ks.filter fun x => !fillCovers w (i + 1) x.2) true t)

/-- The index of a gather or scatter element, read when the element starts (R297). -/
def readIndex (k : ECmd) (ag : Agent) (w : Cmd) (e : Nat) (s : State) : EngAns (State × Int) :=
  let iw := bits w.w0 37 36
  let n := if iw = 2 then 8 else 4
  (elemRead k ag (w.w3 + BitVec.ofNat 64 (n * e)) n s).andThen fun r => .ok (r.1, toInt (8 * n) (iw != 0) (leNat r.2))

/-- Bytes of a tile row: RB and where it lies (R298). -/
def rowBytesOf (cfg : Word) : Nat := tcCols cfg * tcBits cfg / 8

/-- A memory-to-memory element: the read, then the checks of the destination, then the write. -/
def moveElem (e : EngineRef) (k : ECmd) (ag : Agent) (src dst : Word) (n : Nat) (s : State) : EngAns State :=
  (elemRead k ag src n s).andThen fun r => elemWrite e k ag dst r.2 r.1

/-- Element i of a command of the copy engine (R294 to R298). -/
def copyElem (e : EngineRef) (k : ECmd) (w : Cmd) (block : List Word) (i : Nat) (s : State) : EngAns State :=
  let ag := Agent.quad k.quad
  let o := offsets (dimsOf w block) i
  let ls := toInt 48 true (bits w.w7 47 0)
  let is := toInt 48 true (bits w.w6 47 0)
  let len := bits w.w5 16 0
  let rb := rowBytesOf k.cfg
  let rowVa := moved w.w1 (i * toInt 48 true (bits w.w2 47 0))
  let tile := smGet Tile.reset (smGet Quad.reset s.quads k.quad).tiles (k.tile.getD 0)
  match w.cmd.toNat with
  | 3 => (readIndex k ag w i s).andThen fun x =>
      moveElem e k ag (moved w.w1 (x.2 * is)) (moved w.w2 (i * ls)) len x.1
  | 4 => (readIndex k ag w i s).andThen fun x =>
      moveElem e k ag (moved w.w1 (i * ls)) (moved w.w2 (x.2 * is)) len x.1
  | 5 =>
    let n := 2 ^ bits w.w0 52 50
    fillElem e k w ag (moved w.w2 o.2) n i s
  | 6 => (engRead ag k.asid rowVa rb s).andThen fun r =>
      .ok { r.1 with quads := smUpd Quad.reset r.1.quads k.quad fun q =>
        { q with tiles := smUpd Tile.reset q.tiles (k.tile.getD 0) fun t => { t with bytes := smWrite t.bytes (i * rb) r.2 } } }
  | 7 => elemWrite e k ag rowVa (smBytes tile.bytes (i * rb) rb) s
  | _ => moveElem e k ag (moved w.w1 o.1) (moved w.w2 o.2) (2 ^ bits w.w0 52 50) s

/-- The dimension block of a `copyx` (R296). -/
def readBlock (k : ECmd) (w : Cmd) (s : State) : EngAns (State × List Word) :=
  if w.cmd = 2 then
    (engRead (.quad k.quad) k.asid w.w3 (16 * (bits w.w0 47 44 + 1)) s).andThen fun r => .ok (r.1, toWords r.2)
  else .ok (s, [])

/-- What a block must meet (R296). -/
def blockFits (w : Cmd) (block : List Word) : Bool :=
  w.cmd != 2 || (blockOk block && elemCount w block 0 < 2 ^ 48)

/-- The matrix entries that name a tile of a quad and have not completed: waiting, running, and those withdrawn while their group is halted
or, for a tile that has stayed with its command, while its team is saved (R89, R272, R286). -/
def tileEntries (s : State) (q t : Nat) : List MEntry :=
  let k := smGet Quad.reset s.quads q
  let here := (s.g :: s.others).filter fun h => h.live && quadOfCore h.core == q
  let mine := fun (a : SavedTeam) => quadOfCore a.team.core == q && (smGet Tile.reset k.tiles t).team == some a.id
  let away := (s.mgmt.saved.flatMap (·.teams)).filter mine
  (k.table ++ k.running ++ here.flatMap (·.entries) ++ away.flatMap fun a => a.entries ++ a.groups.flatMap (·.entries)).filter
    fun m => m.tiles.contains t

/-- A matrix pass that issued before the command was accepted and names its tile has not completed (R21). -/
def tileWaits (k : ECmd) (s : State) : Bool :=
  match k.tile with
  | none => false
  | some t => (tileEntries s k.quad t).any fun m => m.acc < k.before

/-- Starts a command of the copy engine (R293, R296). -/
def startCopy (e : EngineRef) (k : ECmd) (s : State) : State :=
  if k.bad then endCmd e k (.error cEngineCommand) s
  else if tileWaits k s then s
  else settle e k 0 s ((readBlock k k.w s).andThen fun r =>
    if !blockFits k.w r.2 then .ok (endCmd e k (.error cEngineCommand) r.1)
    else if k.w.cmd ≠ 8 ∧ elemCount k.w r.2 k.cfg = 0 then .ok (endCmd e k .completed r.1)
    else .ok (updCmdAt e k.seq (fun c => { c with started := true, block := r.2 }) r.1))

/-- A command list entry passes the checks of R293 and R301. -/
def entryOk (w : Cmd) : Bool :=
  bits w.w0 55 53 == 0 &&
    match w.cmd.toNat with
    | 1 => copyOk w
    | 2 => copyxOk w
    | 3 | 4 => gatherOk w
    | 5 => fillOk w
    | _ => false

/-- Eight words as a command. -/
def cmdOfWords (ws : List Word) : Cmd :=
  let g := fun (i : Nat) => ws.getD i 0
  { w0 := g 0, w1 := g 1, w2 := g 2, w3 := g 3, w4 := g 4, w5 := g 5, w6 := g 6, w7 := g 7 }

/-- After the last element of entry j, the list goes on or is completed (R300). -/
def nextEntry (e : EngineRef) (k : ECmd) (j : Nat) (s : State) : State :=
  if j + 1 = bits k.w.w2 15 0 then endCmd e k .completed s
  else updCmdAt e k.seq (fun c => { c with elem := (j + 1) * 2 ^ 40, entry := none, block := [], olds := [] }) s

/-- Reads entry j of a list and checks it (R301). -/
def openEntry (e : EngineRef) (k : ECmd) (j : Nat) (s : State) : State :=
  settle e k (j * 2 ^ 40) s ((engRead (.quad k.quad) k.asid (k.w.w1 + BitVec.ofNat 64 (64 * j)) 64 s).andThen fun r =>
    let w := cmdOfWords (toWords r.2)
    if !entryOk w then .ok (endCmd e k (.error cEngineCommand) r.1)
    else (readBlock k w r.1).andThen fun b =>
      if !blockFits w b.2 || 2 ^ 40 ≤ elemCount w b.2 0 then .ok (endCmd e k (.error cEngineCommand) b.1)
      else if elemCount w b.2 0 = 0 then .ok (nextEntry e k j b.1)
      else .ok (updCmdAt e k.seq (fun c => { c with entry := some w, block := b.2 }) b.1))

/-- Delivers the next element of a running command, and ends the command after the last (R302). -/
def copyNext (e : EngineRef) (k : ECmd) (s : State) : State :=
  if k.w.cmd = 8 then
    let j := k.elem / 2 ^ 40
    match k.entry with
    | none => openEntry e k j s
    | some w =>
      let i := k.elem % 2 ^ 40
      settle e k k.elem s ((copyElem e k w k.block i s).andThen fun t =>
        .ok (if i + 1 = elemCount w k.block 0 then nextEntry e k j t
          else updCmdAt e k.seq (fun c => { c with elem := k.elem + 1 }) t))
  else
    settle e k k.elem s ((copyElem e k k.w k.block k.elem s).andThen fun t =>
      .ok (if k.elem + 1 = elemCount k.w k.block k.cfg then endCmd e k .completed t
        else updCmdAt e k.seq (fun c => { c with elem := k.elem + 1 }) t))

/-- The next step of a context of a copy engine: its head command starts, or its next element is delivered (R290, R302). A pre-empted
context does nothing (R89, R307). -/
def deliverCopy (e : EngineRef) (s : State) : State :=
  let x := s.ctx e
  match x.head with
  | none => s
  | some k =>
    if k.susp.isSome || x.preempted then s
    else if k.started then copyNext e k s
    else startCopy e k s

end Sys2Proof.Machine
end

