-- ==== Sys2Proof/Machine/BasinCmd.lean ====
section
/-! DEFINITION. The commands of the basins: start phases and their checks, registrations row by row, row copies, derived tensors,
snapshots, forces, aborts and status records (R335 to R346, R353 to R378, R436). -/
namespace Sys2Proof.Machine

/-! ## Rows a command names -/

/-- A range of an address space touches its capability block (R434). -/
def overCapa (s : State) (asid : Nat) (va : Word) (n : Nat) : Bool :=
  let cb := (smGet 0 s.mgmt.capaMap asid).toNat
  cb != 0 && va.toNat < cb + 256 && cb < va.toNat + n

/-- The translation of n bytes of a row for a registration or a row command: their physical address and key slot, or the code met. The
capability block denies every write and holds no row (R434). -/
def rowPlace (s : State) (ag : Agent) (asid : Nat) (va : Word) (n : Nat) (write : Bool) : Except (BitVec 8) (Nat × Nat) :=
  if localBase ≤ va.toNat then .error cXlateAbsent
  else if overCapa s asid va n then .error (if write then cXlatePerm else cXlateAbsent)
  else match lookup s ag asid va.toNat with
    | .error _ => .error cXlateAbsent
    | .ok leaf =>
      if write && !leaf.pte.getLsbD 2 then .error cXlatePerm
      else .ok (leaf.place va.toNat, leaf.pte.toNat / 2 ^ 60)

/-- The command, its reference, and its die. -/
structure BCmd where
  ref : CmdRef
  k : ECmd

/-- The engine reference of a basin command. -/
def BCmd.e (c : BCmd) : EngineRef := .basin c.ref.basin c.ref.ctx
/-- Who translates the command's rows: the die's last-level TLB (R328). -/
def BCmd.ag (c : BCmd) : Agent := .die (dieOfBasin c.ref.basin)

/-- Row i of a range of virtual rows. -/
def vrow (v : Word) (i : Nat) : Word := v + BitVec.ofNat 64 (2048 * i)

/-- The places of n rows from an address. -/
def rowPlaces (s : State) (c : BCmd) (v : Word) (n : Nat) (write : Bool) : List (Except (BitVec 8) (Nat × Nat)) :=
  (List.range n).map fun i => rowPlace s c.ag c.k.asid (vrow v i) 2048 write

/-- The places that exist. -/
def goodPlaces (rs : List (Except (BitVec 8) (Nat × Nat))) : List (Nat × Nat) :=
  rs.filterMap fun r => match r with | .ok p => some p | .error _ => none

/-- The codes met. -/
def badCodes (rs : List (Except (BitVec 8) (Nat × Nat))) : List (BitVec 8) :=
  rs.filterMap fun r => match r with | .ok _ => none | .error c => some c

/-- The lowest code of a list. -/
def lowestCode (cs : List (BitVec 8)) : Option (BitVec 8) :=
  cs.foldl (fun o c => match o with | none => some c | some b => if c.toNat < b.toNat then some c else some b) none

/-- Codes for the places that meet a condition. -/
def codeIf (c : BitVec 8) (ps : List (Nat × Nat)) (f : Nat × Nat → Bool) : List (BitVec 8) := if ps.any f then [c] else []

/-- A place in a handoff window whose owner, as its home holds it, is the other side (R387). -/
def foreign (s : State) (side : Bool) (pa : Nat) : Bool := inWindow s pa && side != (homeOwner s pa).token

/-! ## What earlier registrations have made of rows (R436) -/

/-- Every basin command that has started and not ended, by reference. -/
def activeCmds (s : State) : List BCmd :=
  (basinCmds s).filterMap fun p => match p.1 with
    | .basin b c => if p.2.active then some { ref := { basin := b, ctx := c, seq := p.2.seq }, k := p.2 } else none
    | _ => none

/-- Registrations whose checks have succeeded and that have not reached every home. -/
def registering (s : State) : List BCmd := (activeCmds s).filter fun c => !c.k.regDone && (!c.k.cancel || c.k.w.cmd = 6)

/-- Bases in each derived row of a registration of this rule: k of Table 142. -/
def ruleBases (fn : Nat) : Nat := if fn = 1 then 1 else if fn = 2 then 2 else 16

/-- The rule a `derive.reg` gives a derived row of its list. -/
def newRule (k : ECmd) (r : Nat) : Option DRule :=
  match k.rows.findIdx? (· == r) with
  | some i =>
    let n := ruleBases (bits k.w.w0 47 44)
    some { fn := bits k.w.w0 47 44, fmt := bits k.w.w0 43 39, bases := (k.res.drop (n * i)).take n }
  | none => none

/-- The rule of a row as a check sees it: registered, or to be placed by an earlier registration that has succeeded. -/
def ruleView (s : State) (r : Nat) : Option DRule :=
  match (rowAt s r).rule with
  | some x => some x
  | none => (registering s).findSome? fun c => if c.k.w.cmd = 6 then newRule c.k r else none

/-- Rows that have or will have a rule. -/
def derivedRows (s : State) : List Nat :=
  (s.rows.filterMap fun p => if p.2.rule.isSome then some p.1 else none) ++
    (registering s).flatMap fun c => if c.k.w.cmd = 6 then c.k.rows else []

/-- A transform or read-only function of a sweep is or will be pending on the row. -/
def pendingView (s : State) (r : Nat) : Bool :=
  (rowAt s r).pending.isSome || (registering s).any fun c => c.k.w.cmd = 1 && c.k.rows.contains r

/-- The row lies in the region of a snapshot that is armed or not fully drained. -/
def snapView (s : State) (r : Nat) : Bool :=
  (activeCmds s).any fun c => c.k.w.cmd = 9 && c.k.rows.contains r

/-- Rows of a `derive.drop` in progress that it has not yet passed. -/
def dropRows (s : State) (c : BCmd) : List Nat :=
  let n := bits c.k.w.w3 15 0 + 1
  ((List.range n).drop c.k.elem).filterMap fun i => match rowPlace s c.ag c.k.asid (vrow c.k.w.w2 i) 2048 false with
    | .ok p => some (rowOf p.1)
    | .error _ => none

/-- The rows at n addresses that have a translation. -/
def rowsAt (s : State) (c : BCmd) (v : Word) (n : Nat) : List Nat := (goodPlaces (rowPlaces s c v n false)).map fun p => rowOf p.1

/-- The rows that a registration names: those of its region, or derived and base rows, or what a `derive.drop` has still to pass. -/
def namedRows (s : State) (c : BCmd) : List Nat :=
  let w := c.k.w
  let m := bits w.w3 15 0 + 1
  match w.cmd.toNat with
  | 1 => rowsAt s c w.w1 (bits w.w2 24 0)
  | 6 => rowsAt s c w.w2 m ++ rowsAt s c w.w1 (ruleBases (bits w.w0 47 44) * m)
  | 7 => dropRows s c
  | 9 => rowsAt s c w.w1 (bits w.w2 28 0)
  | _ => []

/-- A row is a base of another, directly or through rules. -/
def isBaseOf (rule : Nat → Option DRule) (d : Nat) : Nat → Nat → Bool
  | 0, _ => false
  | f + 1, r => match rule r with
    | none => false
    | some x => x.bases.any fun b => b == d || isBaseOf rule d f b

/-- Two rows are the same, or one is a base of the other through rules. -/
def chained (s : State) (a b : Nat) : Bool := a == b || isBaseOf (ruleView s) a 4 b || isBaseOf (ruleView s) b 4 a

/-- The registrations whose start phase has begun and whose outcome is open: those that have not been checked, and `derive.drop`s in
progress (R436). -/
def unsettled (s : State) : List BCmd :=
  s.basins.flatMap fun b => b.2.ctx.filterMap fun x =>
    if x.2.preempted then none
    else (startPhase x.2).bind fun k =>
      let open_ := !k.bad && !k.cancel && (k.w.cmd == 7 || (!k.started && (k.w.cmd == 1 || k.w.cmd == 6 || k.w.cmd == 9)))
      if open_ then some { ref := { basin := b.1, ctx := x.1, seq := k.seq }, k := k } else none

/-- A check of these rows waits for a registration that has its place earlier in the registration order and names one of them; the chains of
a `derive.reg` count through the rules that it would extend (R436). -/
def earlierFirst (s : State) (c : BCmd) (rs : List Nat) : Bool :=
  (unsettled s).any fun x => x.ref != c.ref && x.k.place < c.k.place &&
    (namedRows s x).any fun a => rs.any fun b => if c.k.w.cmd = 6 ∨ c.k.w.cmd = 7 then chained s a b else a == b

/-! ## Start phases -/

/-- Registration checked: the rows by index, and either result slots or base rows. -/
abbrev Checked := Except (BitVec 8) (List Nat × List Nat)

/-- The checks of a sweep (Table 134). -/
def checkSweep (s : State) (c : BCmd) : Checked :=
  let w := c.k.w
  let n := bits w.w2 24 0
  let reads := weirReads (bits w.w0 47 44)
  let rs := rowPlaces s c w.w1 n (!reads)
  let ss := if reads then (List.range n).map fun i => rowPlace s c.ag c.k.asid (w.w4 + BitVec.ofNat 64 (8 * i)) 8 true else []
  let ps := goodPlaces rs
  let qs := goodPlaces ss
  let codes := badCodes rs ++ badCodes ss ++ codeIf cNotOwner (ps ++ qs) (fun p => foreign s c.k.tokenSide p.1) ++
    codeIf cDerivedWrite ps (fun p => !reads && (ruleView s (rowOf p.1)).isSome) ++
    codeIf cSweepEncrypted (ps ++ qs) (fun p => p.2 != 0) ++ codeIf cSweepOverlap ps (fun p => pendingView s (rowOf p.1))
  match lowestCode codes with
  | some code => .error code
  | none => .ok (ps.map fun p => rowOf p.1, qs.map (·.1))

/-- Depth of a row under rules (R367), bounded by the fuel. -/
def depthOf (rule : Nat → Option DRule) : Nat → Nat → Nat
  | 0, _ => 4
  | f + 1, r => match rule r with
    | none => 0
    | some x => 1 + (x.bases.map (depthOf rule f)).foldl max 0

/-- Entries of a basin's dependence table in use (R365). -/
def tableUsed (s : State) (b : Nat) : Nat :=
  s.rows.foldl (fun n p => if basinOf (p.1 * 2048) = b then n + (if p.2.rule.isSome then 1 else 0) + p.2.deps.length else n) 0

/-- Entries that a registration takes in a basin for the derived rows it has still to reach (R365). -/
def tableNew (b : Nat) (rows res reached : List Nat) (n : Nat) : Nat :=
  let here := fun (r : Nat) => basinOf (r * 2048) == b
  (rows.zip (List.range rows.length)).foldl (fun k p =>
    if reached.contains p.1 then k
    else k + (if here p.1 then 1 else 0) + ((((res.drop (n * p.2)).take n).eraseDups).filter here).length) 0

/-- The checks of `derive.reg` (Table 143). -/
def checkDerive (s : State) (c : BCmd) : Checked :=
  let w := c.k.w
  let m := bits w.w3 15 0 + 1
  let fn := bits w.w0 47 44
  let n := ruleBases fn
  let ds := rowPlaces s c w.w2 m true
  let bs := rowPlaces s c w.w1 (n * m) false
  let dp := goodPlaces ds
  let bp := goodPlaces bs
  let rows := dp.map fun p => rowOf p.1
  let res := bp.map fun p => rowOf p.1
  let mine : ECmd := { c.k with rows := rows, res := res }
  let rule := fun (r : Nat) => match newRule mine r with | some x => some x | none => ruleView s r
  let all := dp.length = m ∧ bp.length = n * m
  let cyclic := rows.any fun d => res.contains d ||
    (match newRule mine d with | some x => x.bases.any fun b => isBaseOf (ruleView s) d 4 b | none => false)
  let deep := (rows ++ derivedRows s).any fun r => 4 ≤ depthOf rule 5 r
  let full := (rows ++ res).any fun r =>
    let b := basinOf (r * 2048)
    65536 < tableUsed s b + tableNew b rows res [] n +
      (registering s).foldl (fun k x =>
        if x.k.w.cmd = 6 then k + tableNew b x.k.rows x.k.res x.k.registered (ruleBases (bits x.k.w.w0 47 44)) else k) 0
  let codes := badCodes ds ++ badCodes bs ++ codeIf cNotOwner dp (fun p => foreign s c.k.tokenSide p.1) ++
    (if (rows.any fun r => (ruleView s r).isSome) || rows.eraseDups.length != rows.length then [cDerivedWrite] else []) ++
    (if all && cyclic then [cDeriveCycle] else []) ++ (if all && deep then [cDeriveDepth] else []) ++
    codeIf cSweepEncrypted (dp ++ bp) (fun p => p.2 != 0) ++ codeIf cSweepOverlap dp (fun p => pendingView s (rowOf p.1)) ++
    (if full then [cEngineCommand] else [])
  match lowestCode codes with
  | some code => .error code
  | none => .ok (rows, res)

/-- The checks of `snap.arm` (R373, R412). -/
def checkSnap (s : State) (c : BCmd) : Checked :=
  let w := c.k.w
  let n := bits w.w2 28 0
  let rs := rowPlaces s c w.w1 n false
  let ps := goodPlaces rs
  let room := match smGet none s.coll.targets (bits w.w4 3 0) with
    | some t => decide ((n + 1) * 2064 ≤ t.len)
    | none => false
  let codes := badCodes rs ++ codeIf cSweepEncrypted ps (fun p => p.2 != 0) ++
    codeIf cSweepOverlap ps (fun p => snapView s (rowOf p.1)) ++ (if room then [] else [cEngineCommand])
  match lowestCode codes with
  | some code => .error code
  | none => .ok (ps.map fun p => rowOf p.1, [])

/-- An entry of the page-owner table is under way to the home of one of these rows (R389). -/
def lags (s : State) (rs : List Nat) : Bool :=
  rs.any fun r => (smGet none s.lagging (copyKey (r / 32) (basinOf (r * 2048)))).isSome

/-- A registration is checked and begins, or ends in error with the lowest code (R336, R366, R373). Its checks wait for the registrations
before it in the registration order (R436), and for an entry under way to one of their homes (R389). -/
def beginReg (c : BCmd) (ck : Checked) (s : State) : State :=
  let rs := namedRows s c
  if earlierFirst s c rs || (c.k.w.cmd != 9 && lags s rs) then s
  else match ck with
    | .error code => endCmd c.e c.k (.error code) s
    | .ok (rows, res) => updRef c.ref (fun k => { k with started := true, rows := rows, res := res }) s

/-! ## Commands that name another command (R355 to R357, R377) -/

/-- The command a handle of a basin context names: recorded there, ended or not (R183). -/
def namedCmd (s : State) (h : Word) : Option (CmdRef × ECmd) :=
  match handleRef h with
  | some (.basin b c, seq) =>
    let x := s.ctx (.basin b c)
    ((x.cmds ++ x.past).find? fun k => k.seq % 2 ^ 48 == seq).map fun k => ({ basin := b, ctx := c, seq := k.seq }, k)
  | _ => none

/-- `sweep.force` (R345, R355): the named sweep is forced from now on; of an ended one nothing is done. -/
def runForce (c : BCmd) (s : State) : State :=
  match namedCmd s c.k.w.w1 with
  | some (r, k) =>
    if k.w.cmd = 1 then endCmd c.e c.k .completed (updRef r (fun x => { x with forced := true }) s)
    else endCmd c.e c.k (.error cEngineCommand) s
  | none => endCmd c.e c.k (.error cEngineCommand) s

/-- A snapshot still holds a copyout that has not been captured. -/
def holdsCopyout (s : State) (r : CmdRef) (k : ECmd) : Bool := k.rows.any fun x => (rowAt s x).copyout == some r

/-- `snap.abort` (R377): the named snapshot is cancelled, and the command ends when every home has received it. -/
def runAbort (c : BCmd) (s : State) : State :=
  match namedCmd s c.k.w.w1 with
  | some (r, k) =>
    if k.w.cmd ≠ 9 then endCmd c.e c.k (.error cEngineCommand) s
    else if k.fin.isSome then endCmd c.e c.k .completed s
    else if !k.started then endCmd c.e c.k .completed (endCmd (.basin r.basin r.ctx) k .cancelled s)
    else if !k.cancel then updRef c.ref (fun x => { x with started := true }) (updRef r (fun x => { x with cancel := true }) s)
    else if holdsCopyout s r k then s
    else endCmd c.e c.k .completed s
  | none => if c.k.started then endCmd c.e c.k .completed s else endCmd c.e c.k (.error cEngineCommand) s

/-- STATE and CODE of a sweep (Table 140). -/
def sweepState (x : EngCtx) (k : ECmd) : Nat × Nat :=
  if k.seq ≤ x.counter.toNat then
    match k.fin with
    | some (.error code) => (3, code.toNat)
    | some .cancelled => (4, 0)
    | _ => (2, 0)
  else if k.regDone || k.fin.isSome then (1, 0) else (0, 0)

/-- Row i of a sweep has turned, as its home shows it. -/
def rowTurned (k : ECmd) (i : Nat) : Bool := match k.rows[i]? with | some r => k.turned.contains r | none => false

/-- What a `sweep.status` has still to read of a sweep of n rows: rows by index, and STATE as item n. `registered` holds the rows it has
read, `turned` those it has read as turned, `block` the high part of word 1 once it has read STATE. -/
def unread (k : ECmd) (n : Nat) : List Nat :=
  ((List.range n).filter fun i => !k.registered.contains i) ++ if k.block.isEmpty then [n] else []

/-- The record of a sweep from row F on (Table 140). -/
def statusRecord (k : ECmd) (f : Nat) : List Byte :=
  let mask := (List.range 64).foldl (fun n j => if k.turned.contains (f + j) then n + 2 ^ j else n) 0
  leBytes 8 mask ++ leBytes 8 (k.turned.length + (k.block.headD 0).toNat)

/-- A `sweep.status` reads one thing more: a row at its home, or STATE. -/
def readItem (c : BCmd) (x : EngCtx) (k : ECmd) (n i : Nat) (s : State) : State :=
  let st := sweepState x k
  updRef c.ref (fun q =>
    if i = n then { q with started := true, block := [BitVec.ofNat 64 (st.1 * 2 ^ 48 + st.2 * 2 ^ 56)] }
    else { q with started := true, registered := i :: q.registered, turned := if rowTurned k i then i :: q.turned else q.turned }) s

/-- `sweep.status` (R356): rows and STATE are read at different moments in a free order, and the record is written when all have been
(R357). -/
def runStatus (c : BCmd) (s : State) : State :=
  let f := bits c.k.w.w2 24 0
  match namedCmd s c.k.w.w1 with
  | some (r, k) =>
    let n := bits k.w.w2 24 0
    if k.w.cmd ≠ 1 ∨ n ≤ f then endCmd c.e c.k (.error cEngineCommand) s
    else match unread c.k n with
      | [] => settle c.e c.k 0 s ((engWrite c.k.tokenSide c.ag c.k.asid c.k.w.w3 (statusRecord c.k f) s).andThen fun t =>
          .ok (endCmd c.e c.k .completed t))
      | i :: is =>
        let x := s.ctx (.basin r.basin r.ctx)
        if is.isEmpty then readItem c x k n i s
        else readItem c x k n ((i :: is).getD ((Config.freeWord s.fresh).toNat % (is.length + 1)) i) { s with fresh := s.fresh + 1 }
  | none => endCmd c.e c.k (.error cEngineCommand) s

/-! ## Elements of row commands (R358 to R363, R371, R372) -/

/-- A row command ends after its last element. -/
def rowDone (c : BCmd) (n : Nat) (s : State) : State :=
  if c.k.elem + 1 = n then endCmd c.e c.k .completed s
  else updRef c.ref (fun k => { k with started := true, elem := c.k.elem + 1, block := [], holds := none }) s

/-- The bytes of a whole row under its key slot, deferred entries merged; none while a stale row waits to be recomputed. -/
def wholeRow (s : State) (pa key : Nat) : Home (State × List Byte) := homeRead s pa 2048 key s.stamp

/-- The write event of a row: it replaces every byte, and the row's L2 lines leave the slice (R359). -/
def putRow (pa key : Nat) (bs : List Byte) (s : State) : State := dropL2 (rowOf pa) (putBytes s pa key bs)

/-- The source row of an element: where an earlier element of the command has written it, as it stood before or as it stands (R363). -/
def oldRow (olds : SMap (Option (List Byte))) (r : Nat) (bs : List Byte) (s : State) : State × List Byte :=
  match smGet none olds r with
  | some b => ({ s with fresh := s.fresh + 1 }, if Config.freeBit s.fresh then b else bs)
  | none => (s, bs)

/-- The write event of an element: a row that an earlier element has written keeps the bytes of one of them, and a row written for the
first time is noted as it stood (R363). -/
def copyRow (c : BCmd) (pa key : Nat) (bs : List Byte) (s : State) : State :=
  let r := rowOf pa
  let now := match wholeRow s pa key with | .ok x => x.2 | _ => rowBytes s r
  match smGet none c.k.olds r with
  | some _ => putRow pa key (if Config.freeBit s.fresh then now else bs) { s with fresh := s.fresh + 1 }
  | none => updRef c.ref (fun k => { k with olds := smPut none k.olds r (some now) }) (putRow pa key bs s)

/-- A row command's access to a row under a slot that finds a line of it in L2 under another (R325). -/
def rowClash (s : State) (p : Nat × Nat) : Bool := (linesOf p.1 2048).any fun l => keyClash s (128 * l) p.2

/-- Two rows lie in one subarray of one bank, so that a copy between them is one event (Table 126, R359). -/
def sameArray (a b : Nat) : Bool := bankOf a == bankOf b && rowInBank a / 512 == rowInBank b / 512

/-- The write event of an element of a row command; a pending copyout of the row holds it (R375). -/
def writeRow (c : BCmd) (n : Nat) (p : Nat × Nat) (s : State) (go : State → State) : State :=
  if (rowAt s (rowOf p.1)).copyout.isSome then updRef c.ref (fun k => { k with started := true, holds := some (rowOf p.1) }) s
  else rowDone c n (go s)

/-- One element of `row.copy` or `row.zero`: the checks of R361 in their order, then the row. A copy is a read event at the source's home
and a write event at the destination's, between which the row read stands in `block`, or one event within a subarray (R359). -/
def runRow (zero : Bool) (c : BCmd) (s : State) : State :=
  let w := c.k.w
  let i := c.k.elem
  let n := bits w.w3 24 0
  let sv := vrow w.w1 i
  let dv := vrow w.w2 i
  let stopAt := fun (t : State) (code : BitVec 8) (acc : BitVec 4) (va : Word) =>
    suspend c.e c.k i code acc va (updRef c.ref (fun k => { k with started := true, block := [] }) t)
  let stop := stopAt s
  let src : Except (BitVec 8) (Nat × Nat) := if zero then .ok (0, 0) else rowPlace s c.ag c.k.asid sv 2048 false
  match src, rowPlace s c.ag c.k.asid dv 2048 true with
  | .error code, _ => stop code 1 sv
  | .ok _, .error code => stop code 2 dv
  | .ok sp, .ok dp =>
    if !zero && rowClash s sp then stop cXlatePerm 1 sv
    else if rowClash s dp then stop cXlatePerm 2 dv
    else if foreign s c.k.tokenSide dp.1 then stop cNotOwner 2 dv
    else if (rowAt s (rowOf dp.1)).rule.isSome then stop cDerivedWrite 2 dv
    else if zero then writeRow c n dp s (putRow dp.1 dp.2 (List.replicate 2048 0))
    else if !c.k.block.isEmpty then writeRow c n dp s (copyRow c dp.1 dp.2 (c.k.block.flatMap fun x => leBytes 8 x.toNat))
    else match wholeRow s sp.1 sp.2 with
      | .wait => s
      | .refuse code _ => stopAt (mergeRow s (rowOf sp.1)) code 1 sv
      | .ok (t, bs) =>
        let o := oldRow c.k.olds (rowOf sp.1) bs t
        if sameArray sp.1 dp.1 then writeRow c n dp s fun _ => copyRow c dp.1 dp.2 o.2 o.1
        else updRef c.ref (fun k => { k with started := true, block := toWords o.2 }) o.1

/-- A row leaves its rule and keeps its contents (R371). -/
def dropRule (r : Nat) (s : State) : State :=
  let w := rowAt s r
  match w.rule with
  | none => s
  | some x =>
    x.bases.eraseDups.foldl (fun t b => t.updRow b fun y => { y with deps := y.deps.filter (· != r) })
      (s.updRow r fun y => { y with rule := none, stale := false, part := [], taint := [], remark := none })

/-- One element of `derive.drop` or `derive.flush`; a drop waits for the registrations before it in the registration order that name the row
or a row chained with it (R436). -/
def runDrop (flush : Bool) (c : BCmd) (s0 : State) : State :=
  let va := vrow c.k.w.w2 c.k.elem
  let s := if c.k.started then s0 else updRef c.ref (fun k => { k with started := true }) s0
  match rowPlace s c.ag c.k.asid va 2048 false with
  | .error code => suspend c.e c.k c.k.elem code 1 va s
  | .ok p =>
    let r := rowOf p.1
    if ((registering s).any fun x => x.k.w.cmd = 6 && (x.k.rows ++ x.k.res).contains r) || (!flush && earlierFirst s c [r]) then s
    else
      let t := recomputeRow s 4 r
      rowDone c (bits c.k.w.w3 15 0 + 1) (if flush then t else dropRule r t)

/-! ## Cancels, row by row (R346, R377) -/

/-- The rows of one home among rows: that of the first. -/
def firstHome (rs : List Nat) : List Nat := rs.filter fun r => basinOf (r * 2048) == basinOf (rs.headD 0 * 2048)

/-- A sweep's or snapshot's entries leave the rows of the next home that has one, in one event there; with none left the command ends, or its
abort record is due. A result slot of a turned row is written first (R346, R377). -/
def cancelNext (c : BCmd) (s : State) : State :=
  if c.k.w.cmd = 1 then
    let mine := c.k.rows.eraseDups.filter fun r => match (rowAt s r).pending with | some (x, _) => x == c.ref | none => false
    if !mine.isEmpty then (firstHome mine).foldl (fun t r => t.updRow r fun w => { w with pending := none }) s
    else if c.k.slots.isEmpty then endCmd c.e c.k .cancelled s
    else s
  else
    let mine := c.k.rows.eraseDups.filter fun r => (rowAt s r).copyout == some c.ref
    if !mine.isEmpty then (firstHome mine).foldl (fun t r => clearCopyout r t) s
    else if c.k.res.isEmpty then endCmd c.e c.k .cancelled s
    else s

/-! ## A context's next step -/

/-- A command of a basin goes on by one step of its start phase. -/
def basinNext (c : BCmd) (s : State) : State :=
  let w := c.k.w
  if c.k.bad then endCmd c.e c.k (.error cEngineCommand) s
  else match w.cmd.toNat with
    | 1 => if c.k.started then s else beginReg c (checkSweep s c) s
    | 2 => runForce c s
    | 3 => runStatus c s
    | 4 => runRow false c s
    | 5 => runRow true c s
    | 6 => if c.k.started then s else beginReg c (checkDerive s c) s
    | 7 => runDrop false c s
    | 8 => runDrop true c s
    | 9 => if c.k.started then s else beginReg c (checkSnap s c) s
    | 10 => runAbort c s
    | _ => endCmd c.e c.k (.error cEngineCommand) s

/-- The next step of a context of a basin: a cancel reaches the next home, or the start phase in progress goes on (R346, R353). -/
def deliverBasin (b x : Nat) (s : State) : State :=
  let ctx := s.ctx (.basin b x)
  let at_ := fun (k : ECmd) => ({ ref := { basin := b, ctx := x, seq := k.seq }, k := k } : BCmd)
  let goes := fun (k : ECmd) =>
    k.w.cmd == 1 || (k.w.cmd == 9 && (holdsCopyout s { basin := b, ctx := x, seq := k.seq } k || k.res.isEmpty))
  match ctx.cmds.find? fun k => k.active && k.cancel && goes k with
  | some k => cancelNext (at_ k) s
  | none =>
    match startPhase ctx with
    | none => s
    | some k => if k.susp.isSome || k.cancel || ctx.preempted then s else basinNext (at_ k) s

/-! ## REGISTRATION (R336, R366, R373, R374) -/

/-- The weir function of a sweep. -/
def sweepFn (w : Cmd) : WeirFn :=
  { fn := bits w.w0 47 44, fmt := bits w.w0 43 39, p0 := w.w3.truncate 32, p1 := (w.w3 >>> 32).truncate 32 }

/-- The registration of a command has reached the row; at the last row its start phase ends, and that of the next command begins (R353). -/
def reached (c : BCmd) (row : Nat) (s : State) : State :=
  let all := c.k.rows.all fun r => r == row || c.k.registered.contains r
  let t := updRef c.ref (fun k => { k with registered := row :: k.registered, regDone := all }) s
  if all then nextStart c.e t else t

/-- A sweep reaches the home of a row (R335). -/
def registerSweep (c : BCmd) (row : Nat) (s : State) : State :=
  sweepDone c.ref (reached c row (s.updRow row fun w => { w with pending := some (c.ref, sweepFn c.k.w) }))

/-- A rule reaches the homes of its derived row and bases: the row becomes stale, and its deferred entries and L2 lines are dropped
(R365, R367). -/
def registerRule (c : BCmd) (row : Nat) (s : State) : State :=
  match newRule c.k row with
  | none => s
  | some rule =>
    if (rowAt s row).copyout.isSome then s
    else
      let b := bankOf (row * 2048)
      let t := dropL2 row { s with
        banks := smUpd Bank.reset s.banks b fun k => { k with deferred := k.deferred.filter fun e => rowOf e.pa != row } }
      let u := t.updRow row fun w => { w with rule := some rule, stale := true, part := [], taint := [], remark := none, okBefore := 0 }
      let v := rule.bases.eraseDups.foldl (fun a x => a.updRow x fun w => { w with deps := w.deps ++ [row] }) u
      let z := reached c row (markStale v 4 row)
      match cmdOf z c.ref with
      | some k => if k.regDone then endCmd c.e k (if k.cancel then .cancelled else .completed) z else z
      | none => z

/-- The collective step number has reached the cut of a snapshot (R374). -/
def cutReached (s : State) (k : ECmd) : Bool := (s.coll.sigma - k.w.w3).toNat < 2 ^ 63

/-- A snapshot is armed at the home of a row, or, once σ has reached its S, places its copyouts: those of all its rows in one event, so that
the captured writes are closed under happens-before (R374, notes/assumptions/72.md). -/
def registerSnap (c : BCmd) (row : Nat) (s : State) : State :=
  if !c.k.registered.contains row then reached c row s
  else if c.k.regDone && cutReached s c.k && !c.k.res.contains row then
    updRef c.ref (fun k => { k with res := k.rows }) (c.k.rows.foldl (fun t r => t.updRow r fun w => { w with copyout := some c.ref }) s)
  else s

/-- A registration of a context that this row still waits for. -/
def wantsRow (s : State) (k : ECmd) (row : Nat) : Bool :=
  k.active && (!k.cancel || k.w.cmd = 6) && k.rows.contains row && (k.w.cmd = 1 || k.w.cmd = 6 || k.w.cmd = 9) &&
    (!k.registered.contains row || (k.w.cmd = 9 && k.regDone && cutReached s k && !k.res.contains row))

/-- REGISTRATION: a registration in progress reaches the home of one of its rows (R336, R366, R373, R374). -/
def execRegistration (basin ctx row : Nat) (s : State) : Out :=
  match (s.ctx (.basin basin ctx)).cmds.find? fun k => wantsRow s k row with
  | none => .next s
  | some k =>
    let c : BCmd := { ref := { basin := basin, ctx := ctx, seq := k.seq }, k := k }
    .next (match k.w.cmd.toNat with
      | 1 => registerSweep c row s
      | 6 => registerRule c row s
      | _ => registerSnap c row s)

/-- Every snapshot whose cut is at this step has placed its copyouts at every home (R374). -/
def cutsPlaced (s : State) (sv : Word) : Bool :=
  (activeCmds s).all fun c => !(c.k.w.cmd = 9 && !c.k.cancel && c.k.w.w3 == sv) || c.k.rows.all c.k.res.contains

/-- Pages that a registration in progress has checked: a handoff of one waits (R336, R366). -/
def registeringPages (s : State) (pages : List Nat) : Bool :=
  (registering s).any fun c => (c.k.w.cmd = 1 || c.k.w.cmd = 6) &&
    (c.k.rows.any (fun r => pages.contains (r / 32)) || (c.k.w.cmd = 1 && c.k.res.any fun p => pages.contains (p / 65536)) ||
      (c.k.w.cmd = 6 && c.k.res.any fun r => pages.contains (r / 32)))

end Sys2Proof.Machine
end

