-- ==== Sys2Proof/Machine/VFloat.lean ====
section
/-! DEFINITION. Floating-point vector arithmetic: add, subtract, multiply, fused multiply-add, minimum, maximum, compare and classify
(R219 to R222). -/
namespace Sys2Proof.Machine

/-- The format of an element (R129). -/
def ftyFmt : FTy → Fmt
  | .f64 => fp64
  | .f32 => fp32
  | .f16 | .f16x2 => fp16
  | .bf16 | .bf16x2 => bf16

/-- Latency of the formula opcodes 0x08 to 0x47 (Table 51). -/
def ftyLat : FTy → Nat
  | .f64 => 8
  | .f32 | .f16 | .bf16 | .f16x2 | .bf16x2 => 6

/-- Absolute value, then negation (R119). -/
def FVal.modified (v : FVal) (abs neg : Bool) : FVal :=
  let u := if abs && v.sign then v.negate else v
  if neg then u.negate else u

/-- mod(fin(b)): flushed, then modified, with ID and NV (R216). -/
def modFin (f : Fmt) (fpm : Word) (neg abs : Bool) (b : Nat) : FVal × Flags :=
  let r := f.source (flushIn fpm f) b
  (r.1.modified abs neg, r.2)

/-- A two-source floating-point instruction. -/
def fForm (c : VCtl) (t : FTy) (d : VReg) (a b : VSrc) : VForm :=
  { c := c, a := some ⟨a, t.wide⟩, b := some ⟨b, t.wide⟩, x := none, e := none, preds := [], dests := destRegs d t.wide }

/-- A floating-point instruction on the modified sources of each element (R219). -/
def fBinary (c : VCtl) (t : FTy) (sm : SMods) (d : VReg) (a b : VSrc) (op : Word → FVal → FVal → Nat × Flags) (s : State) : Out :=
  let f := ftyFmt t
  vfixed (fForm c t d a b) (ftyLat t) (fun e => laneRes d t.wide e.m fun n => eachElem t.packed fun k =>
    let x := modFin f e.mode.fpm sm.negA sm.absA (elem t.packed f.width (e.a.nat n) k)
    let y := modFin f e.mode.fpm sm.negB sm.absB (elem t.packed f.width (e.b.nat n) k)
    let r := op e.mode.fpm x.1 y.1
    (r.1, r.2 ||| x.2 ||| y.2)) s

/-- `fadd` (R219). -/
def execFadd (c : VCtl) (t : FTy) (m : FMods) (d : VReg) (a b : VSrc) (s : State) : Out :=
  let f := ftyFmt t
  fBinary c t m.src d a b (fun fpm x y => f.sum (rndMode m.rnd fpm) (flushOut fpm f) [x, y]) s

/-- `fsub` (R219). -/
def execFsub (c : VCtl) (t : FTy) (m : FMods) (d : VReg) (a b : VSrc) (s : State) : Out :=
  let f := ftyFmt t
  fBinary c t m.src d a b (fun fpm x y => f.sum (rndMode m.rnd fpm) (flushOut fpm f) [x, y.negate]) s

/-- `fmul` (R219). -/
def execFmul (c : VCtl) (t : FTy) (m : FMods) (d : VReg) (a b : VSrc) (s : State) : Out :=
  let f := ftyFmt t
  fBinary c t m.src d a b (fun fpm x y =>
    let p := x.mul y
    let r := f.ofValue (rndMode m.rnd fpm) (flushOut fpm f) p.1
    (r.1, r.2 ||| p.2)) s

/-- `ffma`: one rounding of a·b + c; C carries no modifier (R219). -/
def execFfma (c : VCtl) (t : FTy) (m : FMods) (d : VReg) (a b cc : VSrc) (s : State) : Out :=
  let f := ftyFmt t
  vfixed { fForm c t d a b with x := some ⟨cc, t.wide⟩ } (ftyLat t) (fun e => laneRes d t.wide e.m fun n =>
    eachElem t.packed fun k =>
      let x := modFin f e.mode.fpm m.src.negA m.src.absA (elem t.packed f.width (e.a.nat n) k)
      let y := modFin f e.mode.fpm m.src.negB m.src.absB (elem t.packed f.width (e.b.nat n) k)
      let z := modFin f e.mode.fpm false false (elem t.packed f.width (e.x.nat n) k)
      let p := x.1.mul y.1
      let r := f.sum (rndMode m.rnd e.mode.fpm) (flushOut e.mode.fpm f) [p.1, z.1]
      (r.1, r.2 ||| p.2 ||| x.2 ||| y.2 ||| z.2)) s

/-- The smaller or larger of two values, minus zero below plus zero; a lone NaN gives the other (R220). -/
def FVal.pick (max : Bool) (x y : FVal) : FVal :=
  if x.isNan then y else if y.isNan then x else if y.below x != max then y else x

/-- A result that is one of the sources, under the flush-result bit (R99, R220). -/
def pickRes (f : Fmt) (max : Bool) (fpm : Word) (x y : FVal) : Nat × Flags :=
  f.ofValue .rne (flushOut fpm f) (FVal.pick max x y)

/-- `fmin` (R220). -/
def execFmin (c : VCtl) (t : FTy) (m : SMods) (d : VReg) (a b : VSrc) (s : State) : Out :=
  fBinary c t m d a b (pickRes (ftyFmt t) false) s

/-- `fmax` (R220). -/
def execFmax (c : VCtl) (t : FTy) (m : SMods) (d : VReg) (a b : VSrc) (s : State) : Out :=
  fBinary c t m d a b (pickRes (ftyFmt t) true) s

/-- Outcome and flags of a condition of Table 84. -/
def fcondHolds (cond : FCond) (x y : FVal) : Bool × Flags :=
  let nan := x.isNan || y.isNan
  let d := x.cmp y
  match cond with
  | .eq => (!nan && d == 0, 0)
  | .ne => (nan || d != 0, 0)
  | .lt => (!nan && decide (d < 0), flagIf nan fNV)
  | .le => (!nan && decide (d ≤ 0), flagIf nan fNV)
  | .gt => (!nan && decide (0 < d), flagIf nan fNV)
  | .ge => (!nan && decide (0 ≤ d), flagIf nan fNV)
  | .ord => (!nan, 0)
  | .uno => (nan, 0)

/-- `fcmp` (R221). -/
def execFcmp (c : VCtl) (t : FTy) (m : SMods) (cond : FCond) (pd : BitVec 3) (a b : VSrc) (s : State) : Out :=
  let f := ftyFmt t
  vfixed { fForm c t 0 a b with dests := [] } (ftyLat t) (fun e => predRes pd e.m fun n =>
    let x := modFin f e.mode.fpm m.negA m.absA (e.a.nat n % 2 ^ f.width)
    let y := modFin f e.mode.fpm m.negB m.absB (e.b.nat n % 2 ^ f.width)
    let r := fcondHolds cond x.1 y.1
    (r.1, r.2 ||| x.2 ||| y.2)) s

/-- The class bit of an encoding (Table 85). -/
def classOf (f : Fmt) (b : Nat) : Nat :=
  match f.value b with
  | .nan sig => if sig then 8 else 9
  | .inf neg => if neg then 0 else 7
  | .fin neg m _ =>
    if m = 0 then (if neg then 3 else 4)
    else if f.subnormal b then (if neg then 2 else 5)
    else if neg then 1 else 6

/-- `fclass`: the raw encoding after the modifiers, no flush, no flag; D is one register (R222). -/
def execFclass (c : VCtl) (t : FTy) (neg abs : Bool) (d : VReg) (a : VSrc) (s : State) : Out :=
  let f := ftyFmt t
  vfixed { c := c, a := some ⟨a, t.wide⟩, b := none, x := none, e := none, preds := [], dests := [d] } (ftyLat t)
    (fun e => laneRes d false e.m fun n => eachElem t.packed fun k =>
      (2 ^ classOf f (f.modify abs neg (elem t.packed f.width (e.a.nat n) k)), 0)) s

end Sys2Proof.Machine
end

