-- ==== Sys2Proof/Machine/Collective.lean ====
section
/-! DEFINITION. The collective engine: reductions, sends and receives, gradient buckets, the step number, and what reaches it from its
peers (R400 to R411). -/
namespace Sys2Proof.Machine

/-! ## The arithmetic of reductions (R405) -/

/-- a ⊕ b in a reduction type. -/
def collOp (ty op a b : Nat) : Nat :=
  let fl := fun (f : Fmt) =>
    match op with
    | 0 => (f.sum .rne false [f.value a, f.value b]).1
    | 1 => (f.ofValue .rne false (FVal.pick false (f.value a) (f.value b))).1
    | _ => (f.ofValue .rne false (FVal.pick true (f.value a) (f.value b))).1
  let int := fun (w : Nat) (signed : Bool) =>
    let lt := toInt w signed a < toInt w signed b
    match op with
    | 0 => (a + b) % 2 ^ w
    | 1 => if lt then a else b
    | _ => if lt then b else a
  match ty with
  | 0x00 => fl fp64
  | 0x01 => fl fp32
  | 0x02 => fl fp16
  | 0x03 => fl bf16
  | 0x0A => int 32 true
  | 0x0B => int 64 true
  | _ => int 32 false

/-- Folds the ranks' values in ascending order. -/
def collFold (ty op : Nat) : List Nat → Nat
  | [] => 0
  | y :: ys => ys.foldl (collOp ty op) y

/-! ## Lengths and results -/

/-- The command that a head command runs: its own, or the one its bucket has fired (R410). -/
def ECmd.running (k : ECmd) : Cmd := k.entry.getD k.w

/-- The communicator of a command: its endpoints' number and this device's rank. -/
def commOf (s : State) (w : Cmd) : Nat × Nat :=
  match s.comm (bits w.w0 51 44) with
  | some c => (c.eps.length, c.rank)
  | none => (1, 0)

/-- COUNT or LEN. -/
def collCount (w : Cmd) : Nat := bits w.w3 39 0

/-- Element size of a reduction. -/
def collElem (w : Cmd) : Nat := (collBytes (bits w.w0 39 35)).getD 1

/-- Bytes of the source and destination buffers (R405). -/
def collLens (n : Nat) (w : Cmd) : Nat × Nat :=
  let c := collCount w
  match w.cmd.toNat with
  | 1 => (c * collElem w, c * collElem w)
  | 2 => (n * c * collElem w, c * collElem w)
  | 3 => (c, n * c)
  | 4 => (c, 0)
  | _ => (0, c)

/-- Segments of 4,096 bytes of a buffer (R407). -/
def segments (len : Nat) : Nat := (len + 4095) / 4096

/-- Bytes of segment i. -/
def segLen (len i : Nat) : Nat := min 4096 (len - 4096 * i)

/-- What rank r writes to DST, from every rank's source (R405). -/
def collResult (w : Cmd) (r : Nat) (xs : List (List Byte)) : List Byte :=
  let e := collElem w
  let c := collCount w
  let ty := bits w.w0 39 35
  let op := bits w.w0 43 40
  match w.cmd.toNat with
  | 3 => xs.flatten
  | 2 => (List.range c).flatMap fun i => leBytes e (collFold ty op (xs.map fun x => fieldAt x e (r * c + i)))
  | _ => (List.range c).flatMap fun i => leBytes e (collFold ty op (xs.map fun x => fieldAt x e i))

/-! ## Sending and writing -/

/-- The PEER rank and TAG of a `send` or `recv`. -/
def peerRank (w : Cmd) : Nat := bits w.w4 15 0
def peerTag (w : Cmd) : BitVec 32 := BitVec.ofNat 32 (bits w.w4 47 16)

/-- Sends bytes to ranks of a communicator. -/
def sendPeers (comm : Nat) (ranks : List Nat) (tag : BitVec 32) (bs : List Byte) (s : State) : State :=
  { s with mgmt := { s.mgmt with outbox := s.mgmt.outbox ++ ranks.map fun r => Sent.peer comm r tag bs } }

/-- The next segment of SRC is read, kept as this rank's own data, and sent to the peers that need it (R406, R407). -/
def sendSegment (e : EngineRef) (k : ECmd) (w : Cmd) (n r len : Nat) (s : State) : State :=
  settle e k k.elem s ((engRead (.die 0) k.asid (w.w1 + BitVec.ofNat 64 (4096 * k.elem)) (segLen len k.elem) s).andThen fun x =>
    let dests := if w.cmd = 4 then [peerRank w] else (List.range n).filter (· != r)
    let t := sendPeers (bits w.w0 51 44) dests (if w.cmd = 4 then peerTag w else 0) x.2 x.1
    .ok (updCmdAt e k.seq (fun c => { c with elem := k.elem + 1, peers := smUpd [] c.peers r (· ++ x.2) }) t))

/-- This rank's own source where DST overlaps it otherwise than by being equal: each aligned 8-byte unit counts as it was read or as
it stands (R406). -/
def ownSource (k : ECmd) (w : Cmd) (lens : Nat × Nat) (x : List Byte) (s : State) : State × List Byte :=
  let a := w.w1.toNat
  let d := w.w2.toNat
  if a = d || a + lens.1 ≤ d || d + lens.2 ≤ a then (s, x)
  else match engRead (.die 0) k.asid w.w1 lens.1 s with
    | .ok r => ({ s with fresh := s.fresh + lens.1 / 512 + 2 },
        (List.range x.length).map fun i =>
          if a + i < d || d + lens.2 ≤ a + i then x.getD i 0
          else if (Config.freeWord (s.fresh + ((a + i) / 512 - a / 512))).getLsbD ((a + i) / 8 % 64) then r.2.getD i 0 else x.getD i 0)
    | _ => (s, x)

/-- Writes segment j of the result to DST. -/
def writeSegment (e : EngineRef) (k : ECmd) (w : Cmd) (bs : List Byte) (j : Nat) (f : EndStat) (s : State) : State :=
  if segments bs.length ≤ j then endCmd e k f s
  else
    let seg := (bs.drop (4096 * j)).take 4096
    settle e k k.elem s ((engWrite k.tokenSide (.die 0) k.asid (w.w2 + BitVec.ofNat 64 (4096 * j)) seg s).andThen fun t =>
      .ok (if segments bs.length = j + 1 then endCmd e k f t
        else updCmdAt e k.seq (fun c => { c with elem := k.elem + 1 }) t))

/-- The next segment of a collective, a `send` or a `recv` that runs (R405 to R407). -/
def runTransfer (e : EngineRef) (k : ECmd) (s : State) : State :=
  let w := k.running
  let c := commOf s w
  let len := (collLens c.1 w).1
  if k.elem < segments len then sendSegment e k w c.1 c.2 len s
  else match w.cmd.toNat with
    | 4 => if k.regDone then endCmd e k .completed s else s
    | 5 =>
      let data := smGet [] k.peers (peerRank w)
      if !k.regDone then s
      else writeSegment e k w (data.take (collCount w)) k.elem
        (if data.length = collCount w then .completed else .error cEngineCommand) s
    | _ =>
      let xs := (List.range c.1).map (smGet [] k.peers)
      if xs.all fun x => x.length == len then
        let o := ownSource k w (collLens c.1 w) (xs.getD c.2 []) s
        writeSegment e k w (collResult w c.2 (xs.set c.2 o.2)) (k.elem - segments len) .completed o.1
      else s

/-! ## Buckets (R408 to R410) -/

/-- The armed command must be a collective of the arm's context that passes its own checks (R408). -/
def armedOk (c : Nat) (w : Cmd) (s : State) : Bool :=
  bits w.w0 55 52 == c &&
    match w.cmd.toNat with
    | 1 | 2 => reduceOk w s
    | 3 => gatherAllOk w s
    | _ => false

/-- An arm starts: the command at CMDA is read, and the counter is cleared (R408). -/
def startArm (c : Nat) (k : ECmd) (s : State) : State :=
  let b := bits k.w.w0 51 44
  settle (.coll c) k 0 s ((engRead (.die 0) k.asid k.w.w1 64 s).andThen fun x =>
    let w := cmdOfWords (toWords x.2)
    if !armedOk c w s || (smGet none s.coll.buckets b).isSome then .ok (endCmd (.coll c) k (.error cEngineCommand) x.1)
    else
      let new : Bucket := { t := bits k.w.w4 39 0, ctx := c, seq := k.seq, cmd := w }
      let t := x.1
      .ok (updCmdAt (.coll c) k.seq (fun q => { q with started := true })
        { t with coll := { t.coll with
            counts := smPut 0 t.coll.counts b 0
            buckets := smPut none t.coll.buckets b (some new) } }))

/-- The bucket's region is registered at the home of a row. -/
def addBucket (b pa : Nat) (s : State) : State :=
  s.updRow (rowOf pa) fun w => if w.buckets.any fun x => x.1 == b then w else { w with buckets := w.buckets ++ [(b, 0, 2048)] }

/-- A bucket fires: its registrations go, and the armed command runs in place of the arm (R409, R410). -/
def fireBucket (c : Nat) (k : ECmd) (b : Bucket) (s : State) : State :=
  let n := bits k.w.w0 51 44
  let t := updCmdAt (.coll c) k.seq
    (fun q => { q with entry := some b.cmd, elem := 0, regDone := false, sigma := s.coll.sigma }) (clearBucket n s)
  if collCount b.cmd = 0 then endCmd (.coll c) k .completed t else t

/-- An arm goes on: the next row is registered, then RDY is written, then it waits for its count (R408, R409). -/
def runArm (c : Nat) (k : ECmd) (s : State) : State :=
  let rows := bits k.w.w3 39 0 / 2048
  let n := bits k.w.w0 51 44
  let e := EngineRef.coll c
  if k.elem < rows then
    let va := vrow k.w.w2 k.elem
    match rowPlace s (.die 0) k.asid va 2048 false with
    | .error code => suspend e k k.elem code 1 va s
    | .ok p => updCmdAt e k.seq (fun q => { q with elem := k.elem + 1 }) (addBucket n p.1 s)
  else if !k.regDone then
    let done := fun (t : State) => updCmdAt e k.seq (fun q => { q with regDone := true }) t
    if k.w.w5 = 0 then done s
    else settle e k rows s ((engWrite k.tokenSide (.die 0) k.asid k.w.w5 (leBytes 8 k.seq) s).andThen fun t => .ok (done t))
  else match armedBucket c k s with
    | some b => if b.t ≤ (smGet 0 s.coll.counts n).toNat then fireBucket c k b s else s
    | none => s

/-! ## The step number (R411) -/

/-- A `step` starts; with BAR it counts itself on its communicator and tells the peers. -/
def startStep (e : EngineRef) (k : ECmd) (s : State) : State :=
  let n := bits k.w.w0 51 44
  if k.w.w1 = 1 then
    match s.comm n with
    | none => s
    | some c =>
      let no := smGet 0 c.bars c.rank + 1
      let t := sendPeers n ((List.range c.eps.length).filter (· != c.rank)) 0 []
        { s with coll := { s.coll with comms := smPut none s.coll.comms n (some { c with bars := smPut 0 c.bars c.rank no }) } }
      updCmdAt e k.seq (fun q => { q with started := true, barNo := no }) t
  else updCmdAt e k.seq (fun q => { q with started := true }) s

/-- Every rank has started its barriered step of this number. -/
def barMet (s : State) (k : ECmd) : Bool :=
  k.w.w1 != 1 || match s.comm (bits k.w.w0 51 44) with
    | some c => (List.range c.eps.length).all fun r => k.barNo ≤ smGet 0 c.bars r
    | none => true

/-- A `step` goes on: σ is advanced as one event, the cuts are placed, the new σ is written to OUT (R374, R411). -/
def runStep (e : EngineRef) (k : ECmd) (s : State) : State :=
  if !k.regDone then
    if !barMet s k then s
    else
      let v := s.coll.sigma + 1
      updCmdAt e k.seq (fun q => { q with regDone := true, cfg := v }) { s with coll := { s.coll with sigma := v } }
  else if !cutsPlaced s k.cfg then s
  else if k.w.w2 = 0 then endCmd e k .completed s
  else settle e k 0 s ((engWrite k.tokenSide (.die 0) k.asid k.w.w2 (leBytes 8 k.cfg.toNat) s).andThen fun t =>
    .ok (endCmd e k .completed t))

/-! ## A context's next step -/

/-- A command of the collective engine starts (R402, R403): it records σ (R411) and, for the order of pairings, the moment (R405). -/
def startColl (c : Nat) (k : ECmd) (s0 : State) : State :=
  let e := EngineRef.coll c
  if k.bad then endCmd e k (.error cEngineCommand) s0
  else
    let s := updCmdAt e k.seq (fun q => { q with sigma := s0.coll.sigma, before := s0.stamp }) { s0 with stamp := s0.stamp + 1 }
    match k.w.cmd.toNat with
    | 6 => startArm c k s
    | 7 => startStep e k s
    | _ => if collCount k.w = 0 then endCmd e k .completed s else updCmdAt e k.seq (fun q => { q with started := true }) s

/-- The next step of a context of the collective engine. In a pre-empted context no step is taken, so that an armed bucket whose counter has
reached T fires after the resumption of its context (R410, notes/assumptions/88.md). -/
def deliverColl (c : Nat) (s : State) : State :=
  let x := s.ctx (.coll c)
  match x.head with
  | none => s
  | some k =>
    if k.susp.isSome || x.preempted then s
    else if !k.started then startColl c k s
    else match k.w.cmd.toNat with
      | 6 => if k.entry.isSome then runTransfer (.coll c) k s else runArm c k s
      | 7 => runStep (.coll c) k s
      | _ => runTransfer (.coll c) k s

/-! ## What peers send -/

/-- The endpoint of a rank of the communicator that a command names. -/
def endpointOf (s : State) (w : Cmd) (rank : Nat) : Option Nat := (s.comm (bits w.w0 51 44)).bind fun c => c.eps[rank]?

/-- A rank is a connected peer: one refused at set-up reaches nothing (R400). -/
def connected (s : State) (w : Cmd) (rank : Nat) : Bool := (endpointOf s w rank).any s.mgmt.peers.contains

/-- A `send` or `recv` of another context that runs on the same module and TAG and waits to be paired started earlier (R405). -/
def pairedLater (s : State) (k : ECmd) : Bool :=
  let w := k.running
  s.coll.ctx.any fun x => x.2.head.any fun h =>
    let v := h.running
    h.active && !h.regDone && v.cmd == w.cmd && h.before < k.before && peerTag v == peerTag w &&
      endpointOf s v (peerRank v) == endpointOf s w (peerRank w)

/-- The pairing of a running `send` or `recv` may be made with this rank and TAG. -/
def pairs (s : State) (k : ECmd) (rank : Nat) (tag : BitVec 32) : Bool :=
  rank == peerRank k.running && tag == peerTag k.running && !k.regDone && !pairedLater s k

/-- PEER_DELIVERY: data of a rank reaches the running command of a context, the pairing of a `send` or `recv` is made on its TAG, or a
rank has started its barriered step (R402, R405, R411). A suspended command lets its peers wait (R407), and a peer that is not connected
delivers nothing (R400). -/
def execPeerDelivery (ctx rank : Nat) (data : Packet) (s : State) : Out :=
  let e := EngineRef.coll ctx
  match (s.ctx e).head with
  | none => .next s
  | some k =>
    let w := k.running
    let c := commOf s w
    if !k.active || k.susp.isSome || c.1 ≤ rank || !connected s w rank || (k.w.cmd = 6 && k.entry.isNone) then .next s
    else match w.cmd.toNat with
      | 1 | 2 | 3 =>
        if rank = c.2 then .next s
        else .next (updCmdAt e k.seq (fun q =>
          { q with peers := smUpd [] q.peers rank fun d => (d ++ data.bytes).take (collLens c.1 w).1 }) s)
      | 4 => .next (if pairs s k rank data.tag then updCmdAt e k.seq (fun q => { q with regDone := true }) s else s)
      | 5 => .next (if pairs s k rank data.tag then
          updCmdAt e k.seq (fun q => { q with regDone := true, peers := smPut [] q.peers rank data.bytes }) s else s)
      | 7 =>
        let n := bits w.w0 51 44
        match s.comm n with
        | some m =>
          if k.w.w1 = 1 ∧ rank ≠ m.rank then
            .next { s with coll := { s.coll with
              comms := smPut none s.coll.comms n (some { m with bars := smUpd 0 m.bars rank (· + 1) }) } }
          else .next s
        | none => .next s
      | _ => .next s

/-- A running command has packets to deliver. -/
def transfers (k : ECmd) : Bool :=
  let w := k.running
  k.active && ((1 ≤ w.cmd.toNat && w.cmd.toNat ≤ 5) || (w.cmd = 7 && w.w1 == 1 && !k.regDone))

/-- RETRANSMISSION_FAILURE: a packet of the running command could not be delivered (R401). -/
def execRetransmissionFailure (ctx : Nat) (s : State) : Out :=
  match (s.ctx (.coll ctx)).head with
  | some k => .next (if transfers k then endCmd (.coll ctx) k (.error cEngineCommand) s else s)
  | none => .next s

/-- Features of Table 169 that the device supports. -/
def supported : Feature → Bool
  | .uetIp | .semanticSub | .rud | .rod | .senderCc | .llr => true
  | .semanticAtomic | .uud | .receiverCc | .creditFlow | .trimming | .security | .inNetwork => false

/-- CONNECTION_SET_UP: a peer that offers an unsupported feature is refused (R400). No peer reaches the module before a port has trained, and
state 1 offers image download and attestation only (R426). -/
def execConnectionSetUp (peer : Nat) (features : List Feature) (s : State) : Out :=
  .next (if s.mgmt.bootPort.isSome && s.mgmt.state != 1 && features.all supported && !s.mgmt.peers.contains peer then
    { s with mgmt := { s.mgmt with peers := s.mgmt.peers ++ [peer] } } else s)

end Sys2Proof.Machine
end

