-- ==== Sys2Proof/Machine/Flow.lean ====
section
/-! DEFINITION. The runnel and the shadow mask stack (R142 to R150), branches, calls and exit (R163 to R167), and the instructions
that send tokens (R174 to R179). -/
namespace Sys2Proof.Machine

/-! ## Sending tokens -/

/-- The runnel holds 64 tokens (R28). -/
def Group.runnelFull (g : Group) : Bool := 64 ≤ g.runnel.length

/-- Appends a token with what it samples at sending (R142, R100). -/
def Group.sendTok (g : Group) (k : TokKind) : Group :=
  { g with runnel := g.runnel ++ [{ kind := k, mode := g.mode, tseq := g.tseq, fseq := g.fseq, epoch := g.epochSent }] }

/-- Sends a token and goes on, or blocks on a full runnel (R28). -/
def ctlSend (k : TokKind) (s : State) (go : State → State) : State :=
  if s.g.runnelFull then ctlBlock .runnel s else go (s.withG (s.g.sendTok k))

/-- The shadow mask depth, 1 to 16 (R145). -/
def Group.depth (g : Group) : Nat := g.levels.length + 1

/-- Continues inside a clause: its header is fetched at the next grant and issue starts at the index (R146, R166). -/
def ctlResumeAt (hdr : Word) (idx : Nat) (s : State) : State :=
  endGrant { s with g := { s.g with pos := { hdr := hdr, n := 0, idx := idx, code := [] }, block := .none } }

/-- Replaces the top level record and clears the spin record (R147). -/
def Group.setLevel (g : Group) (l : Level) : Group := { g with levels := l :: g.levels.tail, spin := none }

/-- RUNNEL_ORDER at the sending instruction, INFO the depth (R145, R149). -/
def runnelOrder (s : State) : State := ctlFault cRunnelOrder 0 0 (BitVec.ofNat 64 s.g.depth) s

/-! ## Back-edges and demotion (R147, R148) -/

/-- The level record after a demotion at a back-edge to T, and where control continues; none where Table 63 permits none. -/
def Level.demote (l : Level) (t : Word) : Option (Level × Word) :=
  if !l.dem then none
  else match l.path2, l.other with
    | false, .notStarted => some ({ l with path2 := true, other := .susp t }, l.sib)
    | false, .susp x => some ({ l with path2 := true, other := .susp t }, x)
    | true, .susp x => some ({ l with path2 := false, other := .susp t }, x)
    | _, _ => none

/-- A taken branch. A back-edge demotes the iteration when the spin record repeats and the top level permits it; otherwise it
records itself and branches (R148). -/
def takeBranch (target : Word) (vals : List Word) (s : State) : State :=
  if s.g.pc.ult target then ctlJump target s
  else
    let demoted := match s.g.spin, s.g.levels with
      | some r, l :: _ => if r.edge = s.g.pc ∧ r.vals = vals ∧ r.eff = false then l.demote target else none
      | _, _ => none
    match demoted with
    | some (l, x) => ctlSend .maskInvert s fun t => ctlJump x (t.withG (t.g.setLevel l))
    | none => ctlJump target (s.withG { s.g with spin := some { edge := s.g.pc, vals := vals, eff := false } })

/-- pc + 8·sext64(IMM32) (Table 69). -/
def Group.relTarget (g : Group) (imm : BitVec 32) : Word := g.pc + (sext32 imm <<< 3)

/-- The guard's value as a back-edge records it (R147). -/
def boolWord (b : Bool) : Word := if b then 1 else 0

/-- `br` (R163). -/
def execBr (g : CGuard) (imm : BitVec 32) (s : State) : Out :=
  ctlInstr g [] s fun t => takeBranch (t.g.relTarget imm) [boolWord (t.g.guard g)] t

/-- `brc`: taken when the condition of Table 67 holds (R163). -/
def execBrc (g : CGuard) (cc : Cond) (a b : XReg) (imm : BitVec 32) (s : State) : Out :=
  ctlInstr g [a, b] s fun t =>
    if condHolds cc (t.g.readX a) (t.g.readX b) then
      takeBranch (t.g.relTarget imm) [t.g.readX a, t.g.readX b, boolWord (t.g.guard g)] t
    else ctlAdvance t

/-- `loop`: x(D) ← x(D) − 1, taken when the result is not zero (R163, R164). -/
def execLoop (g : CGuard) (d : XReg) (imm : BitVec 32) (s : State) : Out :=
  ctlInstr g [d] s fun t =>
    let v := t.g.readX d - 1
    let u := t.withG (t.g.setX d v)
    if v ≠ 0 then
      if t.g.pc.ult (t.g.relTarget imm) then ctlJump (t.g.relTarget imm) u
      else ctlJump (t.g.relTarget imm)
        (u.withG { u.g with spin := some { edge := t.g.pc, vals := [t.g.readX d, boolWord (t.g.guard g)], eff := false } })
    else ctlAdvance u

/-- `jmp`: TARGET_BAD for a high address, ALIGN for a misaligned one (R165). -/
def execJmp (g : CGuard) (a : XReg) (s : State) : Out :=
  ctlInstr g [a] s fun t =>
    let x := t.g.readX a
    if high8 x then ctlFault cTargetBad 0 0 x t
    else if x &&& 7 ≠ 0 then ctlFault cAlign 4 (lo56 x) 0 t
    else ctlJump x t

/-- The link of a call (Table 70). -/
def Group.link (g : Group) : Word :=
  if g.pos.idx < g.pos.n then (BitVec.ofNat 64 (g.pos.idx + 1) <<< 60) ||| (lo56 g.pos.hdr).zeroExtend 64
  else (lo56 (g.pc + 8)).zeroExtend 64

/-- `call`: the link into x(D), then the branch (R166). -/
def execCall (g : CGuard) (d : XReg) (imm : BitVec 32) (s : State) : Out :=
  ctlInstr g [] s fun t => ctlJump (t.g.relTarget imm) (t.withG (t.g.setX d t.g.link))

/-- A fault of a control fetch stands at the clause that it would fetch, with INDEX 0 (R250). -/
def fetchFault (hdr : Word) (code : BitVec 8) (i va : Word) (s : State) : State :=
  takeFault { s.g.ctlRec code 4 (lo56 va) i with clause := lo56 hdr, index := 0 } none s

/-- `ret`: the header at HDR is fetched, and the clause resumes at IDX; the faults of the link are precise at the `ret` (R166), those of
the fetch at the clause it fetches (R250). -/
def execRet (g : CGuard) (a : XReg) (s : State) : Out :=
  ctlInstr g [a] s fun t =>
    let x := t.g.readX a
    let hdr := x &&& 0x00FF_FFFF_FFFF_FFFF
    if (x >>> 56) &&& 0xF ≠ 0 then ctlFault cTargetBad 0 0 x t
    else if hdr &&& 7 ≠ 0 then ctlFault cAlign 4 (lo56 hdr) 0 t
    else match fetchHeader t t.g hdr with
      | .wait => endGrant t
      | .fault c i va u => fetchFault hdr c i va u
      | .ok u ws =>
        let h := ws.headD 0
        match decodeHeader h with
        | some hd =>
          if hd.vec then ctlFault cClauseIllegal 0 0 h u
          else if hd.n.toNat < (x >>> 60).toNat then ctlFault cTargetBad 0 0 x u
          else ctlResumeAt hdr (x >>> 60).toNat u
        | none => ctlFault cClauseIllegal 0 0 h u

/-- `exit`: a release at package scope, then the control slice issues nothing more (R167). -/
def execExit (g : CGuard) (s : State) : Out :=
  ctlInstr g [] s fun t => ctlRelease .pkg t fun u => endGrant (u.withG { u.g with exited := true, block := .none })

/-! ## Token senders (Table 75) -/

/-- The checks of a block address and a count (R175, R154); where both are bad the record carries the address
(notes/assumptions/62.md). -/
def blockCheck (x : Word) (bad : Option Word) (s : State) (k : State → State) : State :=
  match (if high8 x then some x else bad) with
  | some i => ctlFault cTargetBad 0 0 i s
  | none => if x &&& 7 ≠ 0 then ctlFault cAlign 4 (lo56 x) 0 s else k s

/-- `vrun`: a run token with a block and a count (R175); it sets the effect bit (R147). -/
def execVrun (g : CGuard) (a : XReg) (cnt : RunCount) (s : State) : Out :=
  let regs := match cnt with | .imm _ => [a] | .reg b => [a, b]
  ctlInstr g regs s fun t =>
    let c : Word := match cnt with | .imm n => n.zeroExtend 64 | .reg b => t.g.readX b
    blockCheck (t.g.readX a) (if 65535 < c.toNat then some c else none) t fun u =>
      ctlSend (.run (lo56 (u.g.readX a)) c.toNat) u fun w => ctlAdvance (w.withG w.g.effect)

/-- `vwalk`: a walk token with a block and three extents (R175). -/
def execVwalk (g : CGuard) (a b : XReg) (s : State) : Out :=
  ctlInstr g [a, b] s fun t =>
    let e := t.g.readX b
    blockCheck (t.g.readX a) (if e >>> 48 ≠ 0 then some e else none) t fun u =>
      ctlSend (.walk (lo56 (u.g.readX a)) (e.toNat % 2 ^ 16) (e.toNat / 2 ^ 16 % 2 ^ 16) (e.toNat / 2 ^ 32 % 2 ^ 16)) u
        fun w => ctlAdvance (w.withG w.g.effect)

/-- `vmpush`: a mask-push token and a level record; RUNNEL_ORDER at depth 16 (R145, R146, R176). -/
def execVmpush (g : CGuard) (p : BitVec 3) (neg dem : Bool) (sib : BitVec 24) (s : State) : Out :=
  ctlInstr g [] s fun t =>
    if 16 ≤ t.g.depth then runnelOrder t
    else ctlSend (.maskPush p neg) t fun u =>
      let l : Level :=
        { id := u.g.pushes, sib := u.g.pc + (sib.signExtend 64 <<< 3), dem := dem, path2 := false, other := .notStarted }
      ctlAdvance (u.withG { u.g with levels := l :: u.g.levels, pushes := u.g.pushes + 1, spin := none })

/-- `vmelse`: the transitions of Table 63; RUNNEL_ORDER at depth 1 or on path 2 (R145, R149). -/
def execVmelse (g : CGuard) (s : State) : Out :=
  ctlInstr g [] s fun t =>
    match t.g.levels with
    | [] => runnelOrder t
    | l :: _ =>
      match l.path2, l.other with
      | true, _ => runnelOrder t
      | false, .notStarted => ctlSend .maskInvert t fun u =>
          ctlAdvance (u.withG (u.g.setLevel { l with path2 := true, other := .done none }))
      | false, .susp x => ctlSend .maskInvert t fun u =>
          ctlJump x (u.withG (u.g.setLevel { l with path2 := true, other := .done none }))
      | false, .done (some (h, i)) => ctlResumeAt h i (t.withG { t.g with spin := none })
      | false, .done none => ctlAdvance (t.withG { t.g with spin := none })

/-- `vmpop`: the transitions of Table 63; RUNNEL_ORDER at depth 1 or with path 2 suspended (R145, R149). -/
def execVmpop (g : CGuard) (s : State) : Out :=
  ctlInstr g [] s fun t =>
    match t.g.levels with
    | [] => runnelOrder t
    | l :: rest =>
      match l.path2, l.other with
      | false, .susp _ => runnelOrder t
      | true, .susp x => ctlSend .maskInvert t fun u =>
          ctlJump x (u.withG (u.g.setLevel { l with path2 := false, other := .done (some (u.g.pos.hdr, u.g.pos.idx)) }))
      | _, _ => ctlSend .maskPop t fun u => ctlAdvance (u.withG { u.g with levels := rest, spin := none })

/-- `vput`: a deposit of (x(A)[31:0] + IMM32) mod 2^32 into k(D) (R177). -/
def execVput (g : CGuard) (k : BitVec 6) (a : XReg) (imm : BitVec 32) (s : State) : Out :=
  ctlInstr g [a] s fun t => ctlSend (.deposit k ((t.g.readX a).truncate 32 + imm)) t ctlAdvance

/-- The completion of a vsync or vget: an ordering point (R56) whose earlier tokens' flags now count (R105). -/
def Group.syncPoint (g : Group) : Group :=
  { g with epoch := g.epochSent, flagsDone := g.flagsDone ||| g.flagsLate, flagsLate := 0 }

/-- `vsync`: sends its token and waits until it finishes (R179, R153). -/
def execVsync (g : CGuard) (s : State) : Out :=
  ctlInstr g [] s fun t =>
    match t.g.block with
    | .syncDone => ctlAdvance (t.withG t.g.syncPoint)
    | .sync => ctlBlock .sync t
    | _ => ctlSend .sync t fun u => ctlBlock .sync (u.withG { u.g with epochSent := u.g.epochSent + 1 })

/-- The four forms of `vget` send a return token and wait for its value (R178); `bad` is a field error of R178. -/
def vgetWith (g : CGuard) (d : XReg) (sel : Nat) (lane : BitVec 5) (reg : BitVec 11) (bad : Bool) (s : State) : Out :=
  ctlInstr g [] s fun t =>
    if bad then ctlFault cTargetBad 0 0 (BitVec.ofNat 64 (sel * 2 ^ 16 + lane.toNat * 2 ^ 11 + reg.toNat)) t
    else match t.g.block with
      | .got v => ctlWrite d v (t.withG t.g.syncPoint)
      | .get a b c => ctlBlock (.get a b c) t
      | _ => ctlSend .ret t fun u =>
          ctlBlock (.get sel lane.toNat reg.toNat) (u.withG { u.g with epochSent := u.g.epochSent + 1 })

/-- `vget` of one lane (SEL 0). -/
def execVget (g : CGuard) (d : XReg) (lane : BitVec 5) (reg : BitVec 11) (s : State) : Out := vgetWith g d 0 lane reg false s
/-- `vget.b64` of one lane of a pair (SEL 1); an odd register faults TARGET_BAD. -/
def execVgetB64 (g : CGuard) (d : XReg) (lane : BitVec 5) (reg : BitVec 11) (s : State) : Out :=
  vgetWith g d 1 lane reg (reg.getLsbD 0) s
/-- `vget` of a predicate (SEL 2); LANE and REG[10:3] must be zero. -/
def execVgetPredicate (g : CGuard) (d : XReg) (lane : BitVec 5) (reg : BitVec 11) (s : State) : Out :=
  vgetWith g d 2 lane reg (lane != 0 || 8 ≤ reg.toNat) s
/-- `vget` of the mask (SEL 3); LANE and REG must be zero. -/
def execVgetMask (g : CGuard) (d : XReg) (lane : BitVec 5) (reg : BitVec 11) (s : State) : Out :=
  vgetWith g d 3 lane reg (lane != 0 || reg != 0) s

end Sys2Proof.Machine
end

