-- ==== Sys2Proof/Machine/Issue.lean ====
section
/-! DEFINITION. Between the agenda and exec: the next word of a granted clause, the fault of a word
that is no instruction, and which constructors are events. -/
namespace Sys2Proof.Machine

/-- The sequencer has granted the group its clause (R141). -/
def granted (s : State) : Bool :=
  smGet none (smGet Core.reset s.cores s.g.core).seqGrant (s.g.slot % 2) == some s.g.slot

/-- The next control word of the group in focus: it is resident, not halted, has not exited and holds the grant (R141, R79, R33). -/
def nextControl (s : State) : Option Word :=
  if s.g.live && !s.g.halted && !s.g.exited && granted s then s.g.pos.code[s.g.pos.idx]? else none

/-- The next vector word with its clause's windows: the group is resident, not halted, and its clause holds a pipe (R201, R79).
The fetched clause is held header first. -/
def nextVector (s : State) : Option (Wins × Word) :=
  if s.g.live && !s.g.halted && s.g.vpos.begun && s.g.vpos.pipe.isSome then
    match s.g.vpos.code with
    | [] => none
    | h :: ws => match decodeHeader h, ws[s.g.vpos.idx]? with
      | some hd, some w => some (hd.wins, w)
      | _, _ => none
  else none

/-- The next word of a slice that may still finish one instruction after a fault of the other slice has halted its group (R79): the control
slice's word, or the vector slice's with its clause's windows. -/
def lateControl (s : State) : Option Word :=
  if s.g.live && s.g.late == some false then s.g.pos.code[s.g.pos.idx]? else none
def lateVector (s : State) : Option (Wins × Word) :=
  if s.g.live && s.g.late == some true && s.g.vpos.begun then
    match s.g.vpos.code with
    | [] => none
    | h :: ws => match decodeHeader h, ws[s.g.vpos.idx]? with
      | some hd, some w => some (hd.wins, w)
      | _, _ => none
  else none

/-- The slice uses its chance (R79). -/
def lateStart (s : State) : State := s.withG { s.g with late := none }

/-- OP_ILLEGAL in the control slice, precise at the word (R131, R156). -/
def ctlIllegal (_e : Illegal) (w : Word) (s : State) : State := ctlFault cOpIllegal 0 0 w s

/-- The guards of a vector word as an execute mask, as predicates read at the cycle it issues in (R122); none when a guard field is 7 with
its negate bit (R118). -/
def wordMask (g0 : Group) (w : Word) : Option Mask :=
  let g := g0.landBy g0.vnow
  let one := fun (p : BitVec 3) (n : Bool) => if n then ~~~ g.seenP p else g.seenP p
  let p0 := w.extractLsb' 18 3
  let p1 := w.extractLsb' 14 3
  let n0 := w.getLsbD 17
  let n1 := w.getLsbD 13
  if (p0 == 7 && n0) || (p1 == 7 && n1) then none else some (g.top &&& one p0 n0 &&& one p1 n1)

/-- OP_ILLEGAL in the vector slice: LANES is the execute mask when the guard fields are valid, else the top of the mask stack
(Table 30). -/
def vecIllegal (w : Word) (s : State) : State :=
  vecFault cOpIllegal ((wordMask s.g w).getD s.g.top) 0 0 w (s.withG (s.g.landBy s.g.vnow))

/-- The constructors that are events of the machine, not words of a program or commands of a queue. -/
def isEvent (i : Instr) : Bool :=
  match i with
  | .powerUp | .portTrainingTimeout | .imageDownload _ | .fullService | .attestationRequest _ | .sensorSample _ _ _ |
    .uncorrectableSoftError _ _ | .launchMessage _ _ _ _ | .openWindow _ _ _ _ _ _ | .closeWindow _ _ |
    .setCommunicator _ _ _ _ _ | .setDrainTarget _ _ _ _ _ _ _ | .resolveHalt _ _ _ _ | .loadKeySlot _ _ _ |
    .hostRmaRead _ _ _ | .launchStart _ | .teamPlacement _ _ | .tlbInvalidation | .groupStart _ _ | .groupEnd | .gridEnd _ |
    .clauseGrant _ _ | .pipeGrant _ _ _ | .pauseExpiry | .resultArrival _ _ _ | .zeroMaskSlotFall _ | .regsExhausted _ |
    .faultRecord _ | .replayHalt _ | .continueHalt _ | .discardHalt _ | .terminateHalt _ | .preemptionRequest _ |
    .contextSave _ _ _ | .contextResume _ _ | .writePerformed _ _ | .demandCapture _ | .deferredAccept _ _ | .recompute _ |
    .fifoUnit _ _ | .refreshRestore _ | .forcedActivation _ | .registration _ _ _ | .snapshotDrainRecord _ |
    .drainAcknowledgement _ | .elementDelivery _ | .matrixGrant _ | .matrixCompletion _ | .rendezvousPairing _ |
    .rputArrival _ | .barPhaseComplete _ | .clusterBarrierPhase _ | .runToken | .walkToken _ | .maskPush | .maskInvert |
    .maskPop | .deposit | .synchronise | .returnTok | .bootPortTrained | .bringUpFault | .connectionSetUp _ _ |
    .peerDelivery _ _ _ | .retransmissionFailure _ | .engineContextPreemption _ | .engineContextResume _ |
    .commandEndedInError _ => true
  | _ => false

/-- The state in which the next step runs a word: the group in focus is resident and holds a grant on a clause whose one
instruction is the word; more than 64 bits are a clause header and the word it governs, and a word the control map refuses is
placed in a vector clause with a pipe. -/
def placeWord (nbits w : Nat) (s : State) : State :=
  let h : Word := if nbits ≤ 64 then 0x9000_0000_0000_0000 else BitVec.ofNat 64 w
  let word : Word := if nbits ≤ 64 then BitVec.ofNat 64 w else BitVec.ofNat 64 (w / 2 ^ 64)
  let ctl : Bool := if nbits ≤ 64 then (match decodeCtl word with | .ok _ => true | .error _ => false)
    else h.extractLsb' 60 4 == 8
  let g := { s.g with live := true, recs := [], preempted := false, exited := false, block := .none }
  if ctl then
    { s with
      g := { g with pos := { g.pos with n := 0, idx := 0, code := [word] } }
      cores := smUpd Core.reset s.cores g.core fun c => { c with seqGrant := smPut none c.seqGrant (g.slot % 2) (some g.slot) }
      agenda := [{ focus := none, act := .issueControl }] }
  else
    { s with
      g := { g with vpos := { g.vpos with begun := true, n := 0, idx := 0, code := [h, word], left := 1, pipe := some 0 } }
      agenda := [{ focus := none, act := .issueVector }] }

end Sys2Proof.Machine
end

