-- ==== Sys2Proof/Machine/Sluice.lean ====
section
/-! DEFINITION. Handoff of pages and publication of windows (R189, R190, R384 to R393, R413, R414). -/
namespace Sys2Proof.Machine

/-- A fault a check of `handoff` meets: code, ACC, ADDR, INFO. -/
structure HFault where
  code : BitVec 8
  acc : BitVec 4
  addr : BitVec 56
  info : Word
  deriving DecidableEq, Repr

/-- The lowest code met; among equal codes the first in the order of R189 (R74). -/
def lowestFault (fs : List HFault) : Option HFault :=
  fs.foldl (fun best f =>
    match best with
    | none => some f
    | some b => if f.code.toNat < b.code.toNat then some f else best) none

/-- The state in which a list entry's home has been reached, and the 8 bytes it finds there (R322, R348, R434). -/
def readEntry (s : State) (l : Loc) : State × Word :=
  match l with
  | .dram pa key => let t := arriveAt s pa key; (t, BitVec.ofNat 64 (viewNat t pa 8))
  | .sram a => (s, BitVec.ofNat 64 (leNat (smBytes s.sram a 8)))
  | .capa o => (s, BitVec.ofNat 64 (leNat ((capabilityBlock s).drop o |>.take 8)))
  | .fifo _ _ => (s, 0)

/-- The 64 KiB page of the handoff windows that a listed address names: its number, or the faults of its checks, each of which is made
whatever the others find (R74, R189, R388). -/
def pageCheck (s : State) (p : Word) : Except (List HFault) Nat :=
  let place : Except HFault Nat :=
    match accessCheck s s.g p 1 2 { fifo := false, window := false } with
    | .bad c i => .error ⟨c, 2, lo56 p, i⟩
    | .ok (.dram pa _) =>
      if !(inWindow s pa && inWindow s (pa + 65535)) || (ownerOf s pa).token then .error ⟨cTargetBad, 0, 0, p⟩
      else .ok (pa / 65536)
    | .ok _ => .error ⟨cTargetBad, 0, 0, p⟩
  let off := if p.toNat % 65536 != 0 then [⟨cAlign, 2, lo56 p, 0⟩] else []
  match place with
  | .error f => .error (off ++ [f])
  | .ok n => if off.isEmpty then .ok n else .error off

/-- One list entry: the page it names, or the fault of its read or those of its page. -/
def entryCheck (s : State) (va : Word) : State × Except (List HFault) Nat :=
  match accessCheck s s.g va 8 1 { fifo := false, window := true } with
  | .bad c i => (s, .error [⟨c, 1, lo56 va, i⟩])
  | .ok l =>
    let r := readEntry (fillTlb s (.core s.g.core) s.g.asid va.toNat) l
    match poisonedLoc r.1 l 8 with
    | some i => (r.1, .error [⟨cMemUncorrectable, 1, lo56 va, i⟩])
    | none => (r.1, pageCheck r.1 r.2)

/-- The entries of a list of n addresses, in order. -/
def readList (s : State) (va : Word) (n : Nat) : State × List (Except (List HFault) Nat) :=
  (List.range n).foldl (fun x i =>
    let r := entryCheck x.1 (va + BitVec.ofNat 64 (8 * i))
    (r.1, x.2 ++ [r.2])) (s, [])

/-- The checks of the flag word against the pages listed (R189). -/
def flagCheck (s : State) (va : Word) (pages : List Nat) : Except (List HFault) Loc :=
  match accessCheck s s.g va 8 2 { fifo := false, window := true } with
  | .bad c i => .error [⟨c, 2, lo56 va, i⟩]
  | .ok (.dram pa k) =>
    if pages.contains (pa / 65536) || (inWindow s pa && (ownerOf s pa).token) then .error [⟨cTargetBad, 0, 0, va⟩]
    else .ok (.dram pa k)
  | .ok l => .ok l

/-- Faults among results. -/
def errors {α : Type} (rs : List (Except (List HFault) α)) : List HFault :=
  rs.flatMap fun r => match r with | .error fs => fs | .ok _ => []

/-- Values among results. -/
def values {α : Type} (rs : List (Except (List HFault) α)) : List α :=
  rs.filterMap fun r => match r with | .ok v => some v | .error _ => none

/-- A flag store of an earlier handoff to one of these pages has not been performed, whether its group is resident or saved (R389,
step 4). -/
def flagPending (s : State) (pages : List Nat) : Bool :=
  let saved := s.mgmt.saved.flatMap fun c => c.teams.flatMap (·.groups)
  (s.g :: s.others ++ saved).any fun h => h.accs.any fun a => a.kind == .flagStore && a.lanes.any fun l =>
    !l.done && (match l.loc with | .dram pa _ => pages.contains (pa / 65536) | _ => false)

/-- A handoff of these pages waits: for such a flag store, or for a registration in progress that has checked one of their rows
(R336, R366). -/
def pagesHeld (s : State) (pages : List Nat) : Bool := flagPending s pages || registeringPages s pages

/-- The reads of a list as one access of the control slice. -/
def listAcc (s : State) (va : Word) (n : Nat) : Acc :=
  let lanes := (List.range n).filterMap fun i =>
    let a := va + BitVec.ofNat 64 (8 * i)
    match accessCheck s s.g a 8 1 { fifo := false, window := true } with
    | .ok l => some ({ lane := i, va := a, loc := l, data := 0, cmp := 0, done := false, held := none } : LaneAcc)
    | .bad _ _ => none
  { s.g.ctlAcc s.stamp .load 8 va (.capa 0) 0 0 .none false false .grp .dflt with lanes := lanes }

/-- The list is read once the accesses that program order keeps before its reads are performed (earlier ones to its words, earlier
acquires, and those that a vsync or vget orders before: R55, R56), and the core's buffer holds no store to its lines (R320). -/
def listReady (s : State) (va : Word) (n : Nat) : Bool :=
  let a := listAcc s va n
  accEnabled s s.g a && a.lanes.all fun l => laneEnabled s s.g a l &&
    match l.loc with | .dram pa _ => !lineBuffered s s.g.core (pa / 128) | _ => true

/-- The flip of a handoff whose release is complete, and the issue of its flag store; the slice then waits for that store (R389, steps 2 to
4). -/
def flipPages (pages : List Nat) (v va : Word) (l : Loc) (s : State) : State :=
  let u := setOwners s pages { token := true, gen := v } s.stamp
  let t := issueAcc (u.g.ctlAcc u.stamp .flagStore 8 va l v 0 .none false true .pkg .dflt) u
  ctlBlock (.flag u.stamp) (t.withG t.g.effect)

/-- The flag store of a handoff has been performed, or its home holds it, which the next release answers for (R80, R389). -/
def Group.flagOver (g : Group) (stamp : Nat) : Bool := !g.accs.any fun a => a.stamp == stamp && !a.isHeld

/-- `handoff` (R189, R389): the list read in program order, every check before any effect, the release at package scope,
the flip, then the flag store, with which it completes. -/
def execHandoff (g : CGuard) (d a b : XReg) (n : BitVec 16) (s : State) : Out :=
  ctlInstr g [a, b, d] s fun t =>
    match t.g.block with
    | .flag st => if t.g.flagOver st then ctlAdvance t else ctlBlock (.flag st) t
    | _ =>
    if !listReady t (t.g.readX a) n.toNat then ctlBlock (.release .pkg) t
    else
      let r := readList t (t.g.readX a) n.toNat
      let pages := values r.2
      let flag := flagCheck r.1 (t.g.readX b) pages
      let die := if tokenCore t.g.core then [⟨cTargetBad, 0, 0, 0⟩] else []
      match lowestFault (die ++ errors r.2 ++ errors [flag]), flag with
      | none, .ok l =>
        ctlRelease .pkg r.1 fun u =>
          if pagesHeld u pages then ctlBlock (.pages pages) u else flipPages pages (u.g.readX d) (u.g.readX b) l u
      | some f, _ => ctlFault f.code f.acc f.addr f.info r.1
      | none, .error _ => r.1

/-- The grid key of a group's team names this window's grid. -/
def windowOpenTo (s : State) (w : Window) : Bool :=
  match smGet none s.grids s.team.grid with
  | some gr => gr.handle == w.grid
  | none => false

/-- `publish`: a release at system scope, then the next version is written to the window's version word (R69, R190, R414). -/
def execPublish (g : CGuard) (w : BitVec 8) (s : State) : Out :=
  ctlInstr g [] s fun t =>
    match smGet none t.coll.windows w.toNat with
    | none => ctlFault cTargetBad 0 0 (w.zeroExtend 64) t
    | some win =>
      if !windowOpenTo t win then ctlFault cTargetBad 0 0 (w.zeroExtend 64) t
      else ctlRelease .sys t fun u =>
        let v := win.version + 1
        let u1 := { u with
          coll := { u.coll with windows := smPut none u.coll.windows w.toNat (some { win with version := v }) }
          host := smWrite u.host win.vaddr (leBytes 8 v.toNat) }
        ctlAdvance (u1.withG u1.g.effect)

end Sys2Proof.Machine
end

