-- ==== Sys2Proof/Machine/Tokens.lean ====
section
/-! DEFINITION. The vector slice takes tokens from its runnel (R28, R43, R44, R142 to R144, R153, R178, R179). -/
namespace Sys2Proof.Machine

/-- The token the vector slice may take: the head of the runnel of a resident group that is not halted, not yet begun. -/
def Group.take (g : Group) : Option TokKind :=
  if g.live && !g.halted && !g.vpos.begun then g.runnel.head?.map fun t => t.kind else none

/-- A token that finishes as it is taken, once earlier tokens' results are written (R144). -/
def instant (s : State) (f : Group → Group) : Out := .next { s with stamp := s.stamp + 1, g := (f s.g.landAll).tokenDone }

/-- RUN_TOKEN: the head run token begins its block, with i0 to i3 zero; a count of 0 finishes at once (R43, R142). -/
def execRunToken (s : State) : Out :=
  match s.g.take with
  | some (.run blk c) =>
    if c = 0 then instant s id
    else .next (s.withG { s.g with
      i0 := 0, i1 := 0, i2 := 0, i3 := 0
      vpos := { VPos.reset.restart (blk.zeroExtend 64) with begun := true, left := c } })
  | _ => .next s

/-- Point p of an iteration space as i0, i1, i2 and the linear index (R43). -/
def Group.atPoint (g : Group) (e0 e1 p : Nat) : Group :=
  { g with
    i0 := BitVec.ofNat 32 (p % e0), i1 := BitVec.ofNat 32 (p / e0 % e1), i2 := BitVec.ofNat 32 (p / e0 / e1)
    i3 := BitVec.ofNat 32 p }

/-- WALK_TOKEN: the head walk token runs its block at a point it has not visited, in the order the hardware chooses (R43, R44). -/
def execWalkToken (point : Nat) (s : State) : Out :=
  let start := fun (blk : BitVec 56) (e0 e1 : Nat) (v : VPos) =>
    let h := s.g.atPoint e0 e1 point
    Host.Outcome.next (s.withG { h with
      vpos := { v.restart (blk.zeroExtend 64) with begun := true, point := true, visited := point :: v.visited } })
  match s.g.take with
  | some (.walk blk e0 e1 e2) =>
    if e0 * e1 * e2 = 0 then instant s id
    else if point < e0 * e1 * e2 then start blk e0 e1 VPos.reset else .next s
  | some _ => .next s
  | none =>
    match s.g.runnel.head?.map fun t => t.kind with
    | some (TokKind.walk blk e0 e1 e2) =>
      if s.g.live && !s.g.halted && !s.g.vpos.point && point < e0 * e1 * e2 && !s.g.vpos.visited.contains point then
        start blk e0 e1 s.g.vpos
      else .next s
    | _ => .next s

/-- The mask a push token pushes under the top (R144). -/
def Group.pushed (g : Group) (p : BitVec 3) (neg : Bool) : Mask :=
  g.top &&& (if neg then ~~~ g.readP p else g.readP p)

/-- MASK_PUSH (R144); the push opens the first of two sibling paths (R53). -/
def execMaskPush (s : State) : Out :=
  match s.g.take with
  | some (.maskPush p neg) =>
    instant s fun g => { g with masks := g.pushed p neg :: g.masks, paths := (s.stamp, false) :: g.paths }
  | _ => .next s

/-- MASK_INVERT: the top becomes parent AND NOT top; the other sibling path follows (R53, R144). -/
def execMaskInvert (s : State) : Out :=
  match s.g.take with
  | some .maskInvert =>
    instant s fun g =>
      match g.masks, g.paths with
      | t :: parent :: rest, (n, b) :: ps => { g with masks := (parent &&& ~~~ t) :: parent :: rest, paths := (n, !b) :: ps }
      | _, _ => g
  | _ => .next s

/-- MASK_POP (R144); the base mask stays (R24). -/
def execMaskPop (s : State) : Out :=
  match s.g.take with
  | some .maskPop =>
    instant s fun g =>
      match g.masks with
      | _ :: parent :: rest => { g with masks := parent :: rest, paths := g.paths.tail }
      | _ => g
  | _ => .next s

/-- DEPOSIT: the uniform value is written to k(index) (R143). -/
def execDeposit (s : State) : Out :=
  match s.g.take with
  | some (.deposit k v) => instant s fun g => { g with k := smPut 0 g.k k.toNat v }
  | _ => .next s

/-- SYNCHRONISE: at the head of the runnel the token finishes, and its `vsync` may complete (R153, R179). -/
def execSynchronise (s : State) : Out :=
  match s.g.take with
  | some .sync => instant s fun g => { g with block := if g.block = .sync then .syncDone else g.block }
  | _ => .next s

/-- What a `vget` reads: SEL 0 one lane, 1 a lane of a pair, 2 a predicate, 3 the mask (R178, Table 77). -/
def Group.getValue (g : Group) (sel ln reg : Nat) : Word :=
  let r : VReg := BitVec.ofNat 11 reg
  match sel with
  | 0 => (lane (g.readV r) ln).zeroExtend 64
  | 1 => (lane (g.readV r) ln).zeroExtend 64 ||| ((lane (g.readV (r + 1)) ln).zeroExtend 64 <<< 32)
  | 2 => (g.readP (BitVec.ofNat 3 reg)).zeroExtend 64
  | _ => g.top.zeroExtend 64

/-- The unwritten or freed register that a `vget` reads, when there is one. -/
def Group.getUninit (g : Group) (sel reg : Nat) : Option VReg :=
  let r : VReg := BitVec.ofNat 11 reg
  (match sel with | 0 => [r] | 1 => [r, r + 1] | _ => []).find? fun q => (g.name q).isNone

/-- RETURN: the value is delivered to the control slice that waits for it, or READ_UNINIT is taken at its `vget` (R178). -/
def execReturnTok (s : State) : Out :=
  match s.g.take with
  | some .ret =>
    let chk := s.g.tokMode.chk
    instant s id |> fun o =>
      match o, s.g.block with
      | .next t, .get sel ln reg =>
        match (if chk.getLsbD 1 then t.g.getUninit sel reg else none) with
        | some r => .next (ctlFault cReadUninit 0 0 (r.zeroExtend 64) (t.withG { t.g with block := .none }))
        | none => .next (t.withG { t.g with block := .got (t.g.getValue sel ln reg) })
      | o, _ => o
  | _ => .next s

end Sys2Proof.Machine
end

