-- ==== Sys2Proof/Machine/Grant.lean ====
section
/-! DEFINITION. Grants of clauses by the control sequencers and of pipes to vector clauses, with the fetch of the clause and its
checks (R113 to R115, R132, R141, R151, R201, R203, R423, R424); pauses (R41); the trap of a core that cannot progress (R209). -/
namespace Sys2Proof.Machine

/-! ## Control clauses -/

/-- What the control slice of the group in focus waits for has come (R141). -/
def blockOver (s : State) : Bool :=
  match s.g.block with
  | .none | .syncDone | .got _ => true
  | .reg r => !s.g.busy r
  | .future h => match handleRef h with | some (e, seq) => (s.ctx e).reached seq | none => true
  | .runnel => !s.g.runnelFull
  | .bar b ph => (smGet Barrier.reset s.team.bars b).phase != ph
  | .cbarArr b ph => (s.cbar b).1 != ph
  | .cbarWait b v => reached32 (BitVec.ofNat 32 (s.cbar b).1) v
  | .awaitCtr n v => reached32 (smGet 0 s.g.a n) v
  | .sync | .get _ _ _ => false
  | .mx => s.quad.owner == some s.g.place || mxOpen s
  | .release sc => let a := s.g.probe true sc; (s.g.firstHeld a true).isSome || !releaseWaits s s.g a
  | .fences => !releaseOpen s s.g s.stamp
  | .pages ps => !pagesHeld s ps
  | .push upto => !pushWaits s upto
  | .icinv _ => s.g.runnel.isEmpty
  | .flag st => s.g.flagOver st

/-- The control slice of a group of the core can issue. -/
def ctlReady (s : State) (h : Group) : Bool :=
  h.live && !h.halted && !h.exited && match focusOn (some (h.core, h.slot)) s with | some t => blockOver t | none => false

/-- The group a sequencer grants: the oldest of its ready groups that are not paused; a paused one only when the core has no ready
group that is not (R41, R423). -/
def oldest (age : Group → Nat) (hs : List Group) : Option Group :=
  hs.foldl (fun (o : Option Group) h =>
    match o with
    | none => some h
    | some b => if age h < age b || (age h == age b && h.slot < b.slot) then some h else some b) none

/-- The candidates of a sequencer. -/
def pickControl (s : State) (core sq : Nat) : Option Group :=
  let all := (s.coreGroups core).filter (ctlReady s)
  let mine := all.filter fun h => h.slot % 2 == sq
  let awake := mine.filter fun h => h.pause == 0
  if awake.isEmpty then (if all.any fun h => h.pause == 0 then none else oldest (·.ageC) mine) else oldest (·.ageC) awake

/-- A clause fault in the control slice has INDEX 0 (R115). -/
def clauseFault (h : Word) (s : State) : State := takeFault { s.g.ctlRec cClauseIllegal 0 0 h with index := 0 } none s

/-- A fetch fault of the control slice is precise at the clause, with INDEX 0 (R250). -/
def ctlFetchFault (code : BitVec 8) (info va : Word) (s : State) : State :=
  takeFault { s.g.ctlRec code 4 (lo56 va) info with index := 0 } none s

/-- The length of a clause of a slice that goes on at an instruction; none when its header alone decides (R115). -/
def clauseLen (vec : Bool) (idx : Nat) : ClauseLen := fun h =>
  match decodeHeader h with
  | some hd => if hd.vec == vec && idx ≤ hd.n.toNat then some hd.n.toNat else none
  | none => none

/-- The clause of the control slice in focus is fetched whole and its header checked (R85, R113, R115); a resume beyond its last
instruction faults as a `ret` there does (R146, R166). With it, whether the clause may be granted. -/
def fetchControl (s : State) : State × Bool :=
  if !s.g.pos.code.isEmpty then (s, true)
  else match fetchClause s s.g s.g.pos.hdr (clauseLen false s.g.pos.idx) with
    | .wait | .ok _ [] => (s, false)
    | .fault c i va t => (ctlFetchFault c i va t, false)
    | .ok t (h :: ws) =>
      match decodeHeader h with
      | none => (clauseFault h t, false)
      | some hd =>
        if hd.vec then (clauseFault h t, false)
        else if hd.n.toNat < t.g.pos.idx then
          (ctlFault cTargetBad 0 0 ((BitVec.ofNat 64 t.g.pos.idx <<< 60) ||| (lo56 t.g.pos.hdr).zeroExtend 64) t, false)
        else (t.withG { t.g with pos := { t.g.pos with n := hd.n.toNat, code := ws } }, true)

/-- Grants the group in focus its clause, once it is fetched. -/
def grantControl (s : State) : State :=
  let r := fetchControl s
  if r.2 then
    let t := r.1
    { t with
      stamp := t.stamp + 1
      g := { t.g with ageC := t.stamp }
      cores := smUpd Core.reset t.cores t.g.core fun c =>
        { c with seqGrant := smPut none c.seqGrant (t.g.slot % 2) (some t.g.slot) } }
  else r.1

/-- CLAUSE_GRANT: a free sequencer grants a clause (R141, R423). -/
def execClauseGrant (core sq : Nat) (s : State) : Out :=
  if (smGet none (smGet Core.reset s.cores core).seqGrant sq).isSome || 2 ≤ sq then .next s
  else match pickControl s core sq with
    | none => .next s
    | some h => match focusOn (some (h.core, h.slot)) s with
      | some t => .next (grantControl t)
      | none => .next s

/-- PAUSE_EXPIRY: the count of a pause has run out (R41). -/
def execPauseExpiry (s : State) : Out := .next (s.withG { s.g with pause := 0 })

/-! ## Vector clauses -/

/-- A word of the FP64 class (R201). -/
def fp64Word (w : Word) : Bool :=
  let op := (w.extractLsb' 56 8).toNat
  (0x08 ≤ op && op ≤ 0x47 && op % 8 == 0) || (0x48 ≤ op && op ≤ 0x63 && op % 4 == 0) ||
    (op == 0xB8 && (w.extractLsb' 35 5 == 0 || w.extractLsb' 28 5 == 0))

/-- Words the block buffers of the core's groups hold (R132). -/
def bufferWords (s : State) (core : Nat) : Nat :=
  (s.coreGroups core).foldl (fun n h => n + h.vpos.buffer.foldl (fun k e => k + e.2.length) 0) 0

/-- The fetch of a vector clause: it waits for a store of its core, its words, header first, or its fault. -/
inductive VFetch where
  | wait
  | ok (s : State) (code : List Word)
  | illegal (h : Word) (s : State)
  | fault (code : BitVec 8) (info va : Word) (s : State)

/-- A fetched vector clause; one with LOOPBUF may stay in the block buffer for the later iterations of its token (R132). -/
def keepClause (va : Word) (hd : Header) (code : List Word) (s : State) : State :=
  if hd.loopBuf && bufferWords s s.g.core + code.length ≤ 256 && Config.freeBit s.fresh then
    let g := { s.g with vpos := { s.g.vpos with buffer := smPut [] s.g.vpos.buffer va.toNat code } }
    { s with fresh := s.fresh + 1, g := g }
  else s

/-- The vector clause at the position of the group in focus is fetched whole (R85, R113). -/
def fetchVector (s : State) : VFetch :=
  let va := s.g.vpos.hdr
  if !s.g.vpos.code.isEmpty then .ok s s.g.vpos.code
  else match smGet [] s.g.vpos.buffer va.toNat with
    | w :: ws => .ok s (w :: ws)
    | [] =>
      match fetchClause s s.g va (clauseLen true 0) with
      | .wait | .ok _ [] => .wait
      | .fault c i a t => .fault c i a t
      | .ok t (h :: ws) =>
        match decodeHeader h with
        | none => .illegal h t
        | some hd => if !hd.vec then .illegal h t else .ok (keepClause va hd (h :: ws) t) (h :: ws)

/-- The wait slots a header names, as WSET values. -/
def waitSlots (h : Header) : List Nat := ((List.range 6).filter fun k => h.wait.getLsbD k).map (· + 1)

/-- A held operation of a slot that a header waits on (R265). -/
def Group.waitHeld (g : Group) (h : Header) : Option (Acc × LaneAcc) :=
  (g.accs.find? fun a => !a.ctl && (waitSlots h).contains a.wset && a.isHeld).bind fun a => a.heldLane.map fun l => (a, l)

/-- The header's WAIT mask is applied at the first instruction, and not again when the slice resumes past it (R78, R203). -/
def Group.applyWait (g : Group) : Bool := !g.vpos.resumed && g.stall.isNone

/-- The vector clause of the group in focus may be granted this pipe: the token has a point or an iteration to run, its WAIT slots
are clear, the pipe can run it, and a stalled one can bind (R201, R203, R208). A clause that will fault counts as ready. -/
def vecReady (pipe : Nat) (s : State) : Bool :=
  let g := s.g
  let walkOk := match g.runnel.head?.map fun t => t.kind with | some (TokKind.walk _ _ _ _) => g.vpos.point | _ => true
  if !(g.live && !g.halted && g.vpos.begun && g.vpos.pipe.isNone && walkOk) then false
  else match fetchVector s with
    | .wait => false
    | .illegal _ _ => true
    | .fault _ _ _ _ => true
    | .ok _ [] => false
    | .ok _ (h :: ws) =>
      match decodeHeader h with
      | none => false
      | some hd =>
        (!ws.any fp64Word || pipe ≤ 1) &&
          (!g.applyWait || (g.waitHeld hd).isSome || (waitSlots hd).all fun k => g.slotCount k == 0) &&
          (match g.stall with
            | some (born, banks) => banks.all fun b => canBind s g.core g.team b && !olderWaits s born b
            | none => true)

/-- A clause fault in the vector slice: INDEX 0, LANES the top of the mask stack (R115, Table 30). -/
def vecClauseFault (h : Word) (s : State) : State :=
  takeFault { s.g.vecRec cClauseIllegal s.g.top 0 0 h with index := 0 } none s

/-- Grants the group in focus a pipe, `delay` cycles from now; results of instructions before a resume have been written (R78). -/
def grantPipe (core pipe delay : Nat) (s : State) : State :=
  match fetchVector s with
  | .wait => s
  | .illegal h t => vecClauseFault h t
  | .fault c i va t => takeFault { t.g.vecRec c t.g.top 4 (lo56 va) i with index := 0 } none t
  | .ok t code =>
    match code.head?.bind decodeHeader with
    | none => s
    | some hd =>
      match (if t.g.applyWait then t.g.waitHeld hd else none) with
      | some (a, l) =>
        haltWith { fr := t.g.heldRec a l 0 (lo56 t.g.vpos.hdr), sent := false, held := some a.stamp, act := none, past := true } t
      | none =>
        if hd.n.toNat < t.g.vpos.idx then t.withG { t.g with vpos := { t.g.vpos with n := hd.n.toNat, code := code, last := hd.blkEnd } }.clauseDone
        else
          let g := if t.g.applyWait then t.g else t.g.landAll
          { t with
            stamp := t.stamp + 1
            g := { g with vnow := g.vnow + delay
                          vpos := { g.vpos with
              n := hd.n.toNat, code := code, last := hd.blkEnd, pipe := some pipe, granted := t.stamp } }
            cores := smUpd Core.reset t.cores core fun c => { c with pipe := smPut none c.pipe pipe (some t.g.slot) } }

/-- PIPE_GRANT: a free pipe goes to the oldest ready clause that may run on it (R424). -/
def execPipeGrant (core pipe delay : Nat) (s : State) : Out :=
  if (smGet none (smGet Core.reset s.cores core).pipe pipe).isSome || 4 ≤ pipe then .next s
  else
    let ready := (s.coreGroups core).filter fun h =>
      match focusOn (some (h.core, h.slot)) s with | some t => vecReady pipe t | none => false
    match oldest (·.ageV) ready with
    | none => .next s
    | some h => match focusOn (some (h.core, h.slot)) s with
      | some t => .next (grantPipe core pipe delay t)
      | none => .next s

/-! ## REGS_EXHAUSTED (R209) -/

/-- A bind that would not succeed now (R208). -/
def stuck (s : State) (h : Group) (banks : List Nat) : Bool := !banks.all fun b => canBind s h.core h.team b

/-- A group stalled on allocation, or that receives an arrival that waits to bind. -/
def starved (s : State) (h : Group) : Bool := h.stall.any (fun w => stuck s h w.2) || h.arrivals.any fun a => stuck s h a.banks

/-- When the oldest stall or waiting arrival of a group began (R437). -/
def Group.starvedSince (h : Group) : Nat :=
  let bs := (h.stall.map (·.1)).toList ++ h.arrivals.map (·.born)
  bs.foldl min (bs.headD 0)

/-- Either slice of a group may go on: its control slice, its next token, or its vector clause. -/
def canIssue (s : State) (h : Group) : Bool :=
  ctlReady s h || h.vpos.pipe.isSome || (!h.vpos.begun && !h.runnel.isEmpty) ||
    match focusOn (some (h.core, h.slot)) s with | some t => (List.range 4).any fun p => vecReady p t | none => false

/-- One half of a rendezvous. -/
def Acc.isHalf (a : Acc) : Bool := match a.kind with | .xsend _ | .xrecv _ => true | _ => false

/-- The control slice stands at a barrier or an `await`. -/
def Group.atBarrier (h : Group) : Bool := match h.block with | .bar _ _ | .cbarArr _ _ | .cbarWait _ _ | .awaitCtr _ _ => true | _ => false

/-- The control slice has exited, or waits for other groups or for its own vector slice alone. -/
def Group.ctlRests (h : Group) : Bool :=
  h.exited || h.atBarrier || match h.block with | .runnel | .sync | .get _ _ _ | .icinv _ => true | _ => false

/-- The vector slice has no token, or stands at a clause whose wait slots hold halves of rendezvous alone. -/
def vecRests (s : State) (h : Group) : Bool :=
  (!h.vpos.begun && h.runnel.isEmpty) ||
    match focusOn (some (h.core, h.slot)) s with
    | none => false
    | some t => match fetchVector t with
      | .ok _ (w :: _) => (decodeHeader w).any fun hd =>
        let ks := waitSlots hd
        t.g.applyWait && (ks.any fun k => t.g.slotCount k != 0) && t.g.accs.all fun a => !ks.contains a.wset || a.isHalf
      | _ => false

/-- A group blocked at a barrier or `await`, or at a rendezvous: neither of its slices can go on or waits for anything else (R209, R246). -/
def meets (s : State) (h : Group) : Bool :=
  !canIssue s h && h.ctlRests && vecRests s h && (h.atBarrier || h.accs.any Acc.isHalf)

/-- A team of the core has a group that has not started. -/
def unstarted (s : State) (core : Nat) : Bool :=
  (coreTeams s core).any fun t =>
    ((s.coreGroups core).filter fun h => h.team == t.1).length + t.2.ended.length < t.2.slots.length

/-- Every group of the core's teams has started; the ended ones are no longer resident, and every resident one is starved, or meets others
in a team that holds a starved group. A halted group is in none of these states, so that a core that has trapped does not trap again before
the record is resolved. -/
def exhausted (s : State) (core : Nat) : Bool :=
  let hs := s.coreGroups core
  !unstarted s core && hs.any (starved s) &&
    hs.all fun h => !h.halted && (starved s h || (meets s h && hs.any fun k => k.team == h.team && starved s k))

/-- Free registers of the core's banks as INFO holds them (Table 31). -/
def freeInfo (s : State) (core : Nat) : Word :=
  (List.range 4).foldl (fun (w : Word) b => w ||| (BitVec.ofNat 64 (freeRegs s core b % 65536) <<< (16 * b))) 0

/-- REGS_EXHAUSTED: the oldest stalled group faults at its stalled instruction, which for a waiting arrival is its next one (R209,
R437, Table 31). The firmware has not yet saved a team for this trap (R425). -/
def execRegsExhausted (core : Nat) (s : State) : Out :=
  if !exhausted s core then .next s
  else
    match oldest Group.starvedSince ((s.coreGroups core).filter (starved s)) with
    | none => .next s
    | some h => match focusOn (some (h.core, h.slot)) s with
      | some t =>
        let lanes := match t.g.vpos.code[t.g.vpos.idx + 1]?.bind (wordMask t.g) with | some m => m | none => t.g.top
        let u := { t with cores := smUpd Core.reset t.cores core fun c => { c with relieved := false } }
        .next (vecFault cRegsExhausted lanes 0 0 (freeInfo t core) u)
      | none => .next s

end Sys2Proof.Machine
end

