-- ==== Sys2Proof/Machine/Faults.lean ====
section
/-! DEFINITION. Fault records reach the fault queue, and the firmware or the host resolves the halts (R73, R75, R76, R79, R81 to R83,
R425). -/
namespace Sys2Proof.Machine

/-! ## What a record allows (Table 31) -/

/-- The resolutions of Table 31 for a code; a discard needs a held operation to drop (R81). -/
def tableAllows (code : BitVec 8) (held : Bool) (a : Action) : Bool :=
  match code.toNat with
  | 0x05 => a == .terminate || a == .continue
  | 0x06 => a == .replay
  | 0x08 | 0x09 | 0x10 | 0x11 => a == .replay || a == .terminate
  | 0x0A | 0x0B => (a == .discard && held) || a == .terminate
  | 0x0C | 0x0D | 0x0E | 0x0F | 0x13 | 0x14 | 0x15 | 0x16 => a == .continue || a == .terminate
  | _ => a == .terminate

/-- The resolutions allowed for a record; a wait trap is continued or terminated whatever its code (R76). -/
def allowedAct (r : HaltRec) (a : Action) : Bool :=
  if r.wait then a == .continue || a == .terminate else tableAllows r.fr.code r.held.isSome a

/-- The firmware, as shipped, may resolve a record so by itself: NOT_OWNER and DERIVED_WRITE as POL names, REGS_EXHAUSTED by a replay,
and every other code by terminating, but for those it takes to the host, which stay halted until the host answers (R425). `saved` says that the
core's most recently placed team has been saved since its REGS_EXHAUSTED trap, which comes before that replay. -/
def firmwareMay (saved : Bool) (pol : Nat) (r : HaltRec) (a : Action) : Bool :=
  let c := r.fr.code
  allowedAct r a && !asksHost pol c &&
    if polCode c then (if pol = 0 then (if r.held.isSome then a == .discard else a == .continue) else a == .terminate)
    else if c = cRegsExhausted then a == .replay && saved
    else a == .terminate

/-- The grid of the group in focus, as the machine numbers grids. -/
def State.gridKey (s : State) : Nat := s.team.grid

/-- The POL of the grid of the group in focus. -/
def groupPol (s : State) : Nat := (gridNotify s).2.2

/-! ## FAULT_RECORD (R73) -/

/-- The four words of a record (Table 30). -/
def FaultRec.words (r : FaultRec) : List Word :=
  [BitVec.ofNat 64 (r.code.toNat * 2 ^ 56 + r.orig.toNat * 2 ^ 54 + (if r.imprec then 2 ^ 53 else 0) + r.index.toNat * 2 ^ 48 +
      r.slot.toNat * 2 ^ 43 + r.core.toNat * 2 ^ 33 + r.lanes.toNat),
    r.clause.zeroExtend 64, BitVec.ofNat 64 (r.acc.toNat * 2 ^ 60 + r.addr.toNat), r.info]

/-- The fault queue takes a record; a full one takes it when the firmware has read its oldest (R73). -/
def enqueue (fr : FaultRec) (s : State) : Option State :=
  let m := s.mgmt
  if m.faultQueue.length < m.faultCap then some { s with mgmt := { m with faultQueue := m.faultQueue ++ [fr] } }
  else
    let t := { s with fresh := s.fresh + 1 }
    if Config.freeBit s.fresh then some { t with mgmt := { m with faultQueue := m.faultQueue.tail ++ [fr] } } else none

/-- A notification of a record to a grid's endpoint (R425). -/
def notifyHost (ep : Nat) (tag : BitVec 32) (fr : FaultRec) (s : State) : State :=
  { s with mgmt := { s.mgmt with outbox := s.mgmt.outbox ++ [.notify ep tag fr.words] } }

/-- A grid keeps the first code recorded for one of its groups (R81). -/
def noteCode (key : Nat) (c : BitVec 8) (s : State) : State :=
  { s with grids := smUpd none s.grids key fun o => o.map fun g => { g with err := some (g.err.getD c) } }

/-- The oldest record for which `mine` holds, of a group or command that is no more, is written to the fault queue (R73). -/
def recordLeft (mine : FaultRec → Bool) (s : State) : State :=
  match s.mgmt.recsDue.find? fun d => mine d.fr with
  | none => s
  | some d =>
    match enqueue d.fr s with
    | none => { s with fresh := s.fresh + 1 }
    | some t =>
      let u := { t with mgmt := { t.mgmt with recsDue := t.mgmt.recsDue.erase d } }
      match d.ask with | some a => notifyHost a.1 a.2 d.fr u | none => u

/-- The oldest record of a slice of the group in focus that the fault queue has not taken is written to it; the group then stands halted. With
none, a record that a discarded group has left is. -/
def recordSlice (orig : BitVec 2) (s : State) : State :=
  match s.g.recs.findIdx? fun r => r.fr.orig == orig && !r.sent with
  | none => recordLeft (fun fr => fr.orig == orig) s
  | some i =>
    match s.g.recs[i]? with
    | none => s
    | some r =>
      match enqueue r.fr s with
      | none => { s with fresh := s.fresh + 1 }
      | some t =>
        let u := noteCode t.gridKey r.fr.code
          (t.withG { t.g with late := none, recs := t.g.recs.modify i fun x => { x with sent := true } })
        let n := gridNotify s
        if asksHost n.2.2 r.fr.code then notifyHost n.1 n.2.1 r.fr u else u

/-- A record of a command is written to the fault queue; the state after it when the queue has taken it. -/
def queueEngine (k : ECmd) (fr : FaultRec) (s : State) (after : State → State) : State :=
  match enqueue fr s with
  | none => { s with fresh := s.fresh + 1 }
  | some t => let u := after t; if asksHost k.pol fr.code then notifyHost k.ep k.tag fr u else u

/-- The next record of a context is written to the fault queue: that of its suspended command, or one whose suspension has ended before the
queue took it (R73, R82). -/
def recordEngine (e : EngineRef) (s : State) : State :=
  let x := s.ctx e
  match x.cmds.findSome? fun k => k.waiting.map fun fr => (k, fr) with
  | some (k, fr) => queueEngine k fr s (updCmdAt e k.seq fun c => { c with waiting := none })
  | none => recordLeft (fun fr => fr.orig == 2 && (handleRef fr.info).any fun r => r.1 == e) s

/-- FAULT_RECORD: a record is written to the fault queue, and the host is asked where the firmware asks it (R73, R425). -/
def execFaultRecord (who : Faulter) (s : State) : Out :=
  .next (match who with
    | .ctl => recordSlice 0 s
    | .vec => recordSlice 1 s
    | .engine e => recordEngine e s)

/-! ## Resolutions -/

/-- The outstanding record of a slice that waits for its resolution. -/
def Group.openRec (g : Group) (vec : Bool) : Option HaltRec :=
  g.recs.find? fun r => (r.fr.orig == (if vec then 1 else 0)) && r.sent && r.act.isNone

/-- The grid of the group in focus is terminated with its first recorded code (R81). -/
def endGrid (s : State) : State :=
  { s with grids := smUpd none s.grids s.gridKey fun o => o.map fun g => { g with term := true } }

/-- An action resolves the record of a slice, if it may. -/
def resolveIf (may : HaltRec → Bool) (vec : Bool) (a : Action) (s : State) : State :=
  match s.g.openRec vec with
  | some r =>
    if may r then
      let t := resolveFault vec a s
      if a = .terminate then endGrid t else t
    else s
  | none => s

/-- The most recently placed team of a core has been saved since the core's trap, or the core has none left (R425). -/
def relievedAt (s : State) (core : Nat) : Bool := (smGet Core.reset s.cores core).relieved || (coreTeams s core).isEmpty

/-- The firmware applies an action to the record of a slice of the group in focus (R81). -/
def firmwareResolve (vec : Bool) (a : Action) (s : State) : State :=
  resolveIf (fun r => firmwareMay (relievedAt s r.fr.core.toNat) (groupPol s) r a) vec a s

/-- REPLAY: the slice resumes at the faulting instruction (R78, R81). -/
def execReplayHalt (vec : Bool) (s : State) : Out := .next (firmwareResolve vec .replay s)

/-- CONTINUE: the slice resumes at the next instruction (R76, R78, R81). -/
def execContinueHalt (vec : Bool) (s : State) : Out := .next (firmwareResolve vec .continue s)

/-- DISCARD: the held operation is dropped, and the slice replays (R80, R81). -/
def execDiscardHalt (vec : Bool) (s : State) : Out := .next (firmwareResolve vec .discard s)

/-- TERMINATE: the grid ends (R81). -/
def execTerminateHalt (vec : Bool) (s : State) : Out := .next (firmwareResolve vec .terminate s)

/-! ## Commands that the firmware ends (R83) -/

/-- A suspended command ends in error with its recorded code. -/
def failSuspended (e : EngineRef) (k : ECmd) (s : State) : State :=
  match k.susp with
  | none => s
  | some c =>
    let t := match e with | .coll x => disarm x k s | _ => s
    endCmd e k (.error c) t

/-- COMMAND_ENDED_IN_ERROR: the firmware ends a suspended command in error with its recorded code, unless it asks the host about it
(R83, R425). -/
def execCommandEndedInError (e : EngineRef) (s : State) : Out :=
  match (s.ctx e).cmds.find? fun k => k.susp.isSome && k.fin.isNone && k.waiting.isNone with
  | none => .next s
  | some k => .next (if k.susp.any (asksHost k.pol) then s else failSuspended e k s)

/-! ## Pre-emption of engine contexts (R89, R307) -/

/-- A command runs: it has started and is not suspended. Sweeps and snapshots whose start phase has ended, and armed buckets, are
state of rows and banks. -/
def runs (e : EngineRef) (k : ECmd) : Bool :=
  k.active && k.susp.isNone && match e with
    | .basin _ _ => !k.regDone
    | .coll _ => !(k.w.cmd = 6 && k.entry.isNone && k.regDone)
    | _ => true

/-- ENGINE_CONTEXT_PREEMPTION: at a command boundary the context is saved in order with its counter (R89). -/
def execEngineContextPreemption (e : EngineRef) (s : State) : Out :=
  let x := s.ctx e
  .next (if x.cmds.any (runs e) then s else s.setCtx e { x with preempted := true })

/-- ENGINE_CONTEXT_RESUME: the context resumes on the same engine and index (R89). -/
def execEngineContextResume (e : EngineRef) (s : State) : Out := .next (s.setCtx e { s.ctx e with preempted := false })

/-! ## RESOLVE_HALT (R425, Table 184) -/

/-- A reply of the management core to a host message; the endpoint is that of the message's sender, whom the TAG names. -/
def replyTo (ty : BitVec 8) (tag : BitVec 32) (status : Word) (s : State) : State :=
  { s with mgmt := { s.mgmt with outbox := s.mgmt.outbox ++ [.reply 0 (ty + 0x80) tag status] } }

/-- A fault code as a status (R415). -/
def statusOf (c : BitVec 8) : Word := c.zeroExtend 64

/-- The action a code of Table 184 names. -/
def actionOf (n : Nat) : Action :=
  match n with
  | 0 => .replay
  | 1 => .continue
  | 2 => .discard
  | _ => .terminate

/-- The body of message 0x06 is well formed: every field holds a value that Table 184 lists (notes/assumptions/83.md). -/
def haltBodyOk (w0 w1 w2 : Word) : Bool :=
  w0.toNat ≤ 1 && w2.toNat ≤ 3 &&
    (w0 == 1 || (bits w1 63 26 == 0 && bits w1 25 24 ≤ 1 && bits w1 23 21 == 0 && bits w1 15 10 == 0))

/-- A record names this core and slot. -/
def HaltRec.at_ (r : HaltRec) (w1 : Word) : Bool :=
  r.fr.core.toNat == bits w1 9 0 && r.fr.slot.toNat == bits w1 20 16 && r.fr.orig.toNat == bits w1 25 24 && r.sent && r.act.isNone

/-- A group's first record that an answer names. -/
def Group.named (g : Group) (w1 : Word) : Option (Nat × HaltRec) :=
  (g.recs.findIdx? fun r => r.at_ w1).bind fun i => (g.recs[i]?).map fun r => (i, r)

/-- A record of a group has its action. -/
def Group.resolveAt (g : Group) (i : Nat) (a : Action) : Group := { g with recs := g.recs.modify i fun r => { r with act := some a } }

/-- Resolves a record of a saved group, the first that it names; it takes effect when the group is resumed (R90). -/
def resolveSaved (w1 : Word) (a : Action) (s : State) : Option State :=
  let gs := s.mgmt.saved.flatMap fun c => c.teams.flatMap fun t => t.groups.map fun g => (t.id, t.team.grid, g)
  match gs.findSome? fun p => (p.2.2.named w1).map fun r => (p, r) with
  | none => none
  | some (p, i, r) =>
    if !allowedAct r a then none
    else
      let fixG := fun (g : Group) => if g.id.grp = p.2.2.id.grp then g.resolveAt i a else g
      let fixT := fun (t : SavedTeam) => if t.id = p.1 then { t with groups := t.groups.map fixG } else t
      let saved := s.mgmt.saved.map fun c => { c with teams := c.teams.map fixT }
      let t := { s with mgmt := { s.mgmt with saved := saved } }
      some (if a = .terminate then
        { t with grids := smUpd none t.grids p.2.1 fun o => o.map fun g => { g with term := true } } else t)

/-- A form 0 answer: none when it is refused. -/
def resolveGroup (w1 : Word) (a : Action) (s : State) : Option State :=
  match (s.g :: s.others).findSome? fun h => if h.live then (h.named w1).map fun r => (h, r.2) else none with
  | some (h, r) =>
    if allowedAct r a then atGroup h.core h.slot (fun t => some (resolveIf (fun r => allowedAct r a) (bits w1 25 24 == 1) a t)) s
    else none
  | none => resolveSaved w1 a s

/-- A form 1 answer: none when it is refused, as an action that Table 31 does not allow for the record's code is; continue and
discard never are allowed. A command of a pre-empted context restarts when its context is resumed (R307, notes/assumptions/70.md). -/
def resolveEngine (h : Word) (a : Action) (s : State) : Option State :=
  match handleRef h with
  | none => none
  | some (e, seq) =>
    match (s.ctx e).cmds.find? fun k => k.seq % 2 ^ 48 == seq && k.susp.isSome && k.fin.isNone with
    | none => none
    | some k =>
      match a with
      | .replay =>
        if k.susp.any fun c => tableAllows c false .replay then some (restart e k s) else none
      | .terminate => some (failSuspended e k s)
      | .continue | .discard => none

/-- RESOLVE_HALT: the host answers about a record of a group or a suspended command; before a replay it makes the mapping that is to come, if
any (R308, R415, R425, notes/assumptions/48.md). -/
def execResolveHalt (tag : BitVec 32) (w0 w1 w2 : BitVec 64) (s : State) : Out :=
  if s.mgmt.state = 1 then .next s
  else if !haltBodyOk w0 w1 w2 then .next (replyTo 0x06 tag (statusOf cEngineCommand) s)
  else
    let a := actionOf w2.toNat
    match (if a = .replay then mapNext false s else some s) with
    | none => .next s
    | some u =>
      match (if w0 = 0 then resolveGroup w1 a u else resolveEngine w1 a u) with
      | some t => .next (replyTo 0x06 tag 0 t)
      | none => .next (replyTo 0x06 tag (statusOf cTargetBad) s)

end Sys2Proof.Machine
end

