-- ==== Sys2Proof/Machine/Launch.lean ====
section
/-! DEFINITION. Launches: the launch queue and its checks (R35, R416, R418, R419), reclaims (R392, R421), placement of clusters (R36,
R37, R313, R417, R420, R422), the start and end of groups, teams and grids (R32 to R34, R40), barrier phases (R186, R187), and the
next step of any engine context. -/
namespace Sys2Proof.Machine

/-! ## Launch commands -/

/-- Fields of a launch command (Table 176). -/
def lDies (w : Cmd) : Nat := bits w.w0 51 48
def lCW (w : Cmd) : Nat := bits w.w0 47 44
def lCH (w : Cmd) : Nat := bits w.w0 43 40
def lLanes (w : Cmd) : Nat := bits w.w0 39 29
def lGX (w : Cmd) : Nat := bits w.w2 63 48
def lGY (w : Cmd) : Nat := bits w.w2 47 32
def lGZ (w : Cmd) : Nat := bits w.w2 31 16
def lScr (w : Cmd) : Nat := bits w.w4 39 32
def lFifo (w : Cmd) : Nat := bits w.w4 31 24
def lTiles (w : Cmd) : Nat := bits w.w4 23 17
def lFloor (w : Cmd) : Nat := bits w.w4 12 0
def lPart (w : Cmd) : Nat := if bits w.w5 13 11 = 0 then 5 else bits w.w5 13 11
def lFpm (w : Cmd) : Nat := if bits w.w5 8 0 = 0 then 1 else bits w.w5 8 0
/-- Groups of a team (R24). -/
def lGroups (w : Cmd) : Nat := (lLanes w + 31) / 32
/-- Clusters of the grid. -/
def lClusters (w : Cmd) : Nat := lGX w * lGY w * lGZ w

/-- A die is named. -/
def lNames (w : Cmd) (d : Nat) : Bool := 1 ≤ d && d ≤ 4 && (lDies w).testBit (d - 1)

/-- Reserved fields and value ranges of Table 176. -/
def launchFieldsOk (w : Cmd) : Bool :=
  bits w.w0 52 52 == 0 && bits w.w0 28 0 == 0 && !high8 w.w1 && bits w.w2 15 0 == 0 && !high8 w.w3 && bits w.w4 63 40 == 0 &&
    bits w.w4 16 13 == 0 && bits w.w5 63 22 == 0 && bits w.w6 63 16 == 0 && bits w.w7 63 2 == 0 &&
    1 ≤ lCW w && lCW w ≤ 12 && 1 ≤ lCH w && lCH w ≤ 12 && lCW w * lCH w ≤ 12 && 1 ≤ lLanes w && lLanes w ≤ 1024 &&
    1 ≤ lGX w && 1 ≤ lGY w && 1 ≤ lGZ w && lTiles w ≤ 64 && lFloor w ≤ 4096

/-- A handoff window is open (R385). -/
def windowOpen (s : State) : Bool := s.mgmt.win0.2 != 0 || s.mgmt.win1.2 != 0

/-- A quad is present. -/
def quadPresent (s : State) (q : Nat) : Bool := !s.mgmt.absentQuads.contains q

/-- Cores of a die. -/
def dieCores (d : Nat) : List Nat := (List.range (dieCols d * dieRows d)).map (dieFirstCore d + ·)

/-- Some present core of the named dies could hold one team. -/
def someCore (s : State) (w : Cmd) : Bool :=
  [1, 2, 3, 4].any fun d => lNames w d && (dieCores d).any fun c =>
    corePresent s c && (lTiles w == 0 || quadPresent s (quadOfCore c))

/-- The address space of a launch: 0 in a push means the pushing grid's own (Table 176). -/
def lAsid (k : ECmd) : Nat := if bits k.w.w6 15 0 = 0 then k.asid else bits k.w.w6 15 0

/-- The checks of R419, and in state 2 the restriction of R429. -/
def launchOk (s : State) (k : ECmd) : Bool :=
  let w := k.w
  launchFieldsOk w && lDies w != 0 && ([1, 2, 3, 4].all fun d => !lNames w d ||
      (diePresent s d && lCW w ≤ dieCols d && lCH w ≤ dieRows d && (s.mgmt.state != 2 || d == reducedDie s))) &&
    !(windowOpen s && (lNames w 1 || lNames w 2) && (lNames w 3 || lNames w 4)) && lScr w &&& lFifo w == 0 &&
    1 ≤ lFpm w % 8 && lFpm w % 8 ≤ 4 && lPart w ≤ 5 && bits w.w7 1 0 != 3 && bits w.w1 2 0 == 0 &&
    !(k.host && bits w.w6 15 0 == 0) && (bits w.w6 15 0 == 0 || (smGet none s.mgmt.spaces (bits w.w6 15 0)).isSome) &&
    someCore s w

/-- The grid of a launch command: its number in the machine. -/
def gridKeyOf (ctx seq : Nat) : Nat := ctx * 2 ^ 48 + seq

/-! ## Iterations of the token dies (R394, R395) -/

/-- The token die of an iteration grid: the one die that its launch names. -/
def iterDie (w : Cmd) : Option Nat := if lDies w = 4 then some 3 else if lDies w = 8 then some 4 else none

/-- The sequences of a token die after those that have come and without those that leave. -/
def Serving.renew (v : Serving) (it : Iteration) : Serving :=
  let stays := fun (q : Sequence) => !it.gone.contains q.id
  { v with
    waiting := (v.waiting ++ it.come.filter (0 < ·.left)).filter stays
    decoding := (v.decoding ++ it.come.filter (·.left == 0)).filter stays }

/-- The decode entries: every sequence ready for decode, in the order in which they entered it, as far as the budget goes (R395). -/
def Serving.decodes (v : Serving) (it : Iteration) : List Sequence := v.decoding.take it.budget

/-- The slices: those of the oldest waiting prompts, each from where its last one ended (R395). -/
def Serving.slices (v : Serving) (it : Iteration) : List (Sequence × Nat) := v.waiting.zip it.cnts

/-- The conditions of R395, and the ranges of Table 163. -/
def Serving.fits (v : Serving) (it : Iteration) : Bool :=
  let all := v.decoding ++ v.waiting
  1 ≤ it.budget && it.budget ≤ 16384 && it.cnts.length ≤ v.waiting.length && it.cnts.length ≤ 1024 &&
    ((v.slices it).all fun p => 1 ≤ p.2 && p.2 ≤ p.1.left) && (v.decodes it).length + it.cnts.foldl (· + ·) 0 ≤ it.budget &&
    (all.map (·.id)).eraseDups.length == all.length && all.all fun q => q.pos + q.left < 2 ^ 32

/-- Two words of a descriptor. -/
def descWords (a b : Nat) : List Byte := leBytes 8 a ++ leBytes 8 b

/-- The iteration descriptor (Table 163): its header, the decode entries, the slices. -/
def Serving.descriptor (v : Serving) (it : Iteration) : List Byte :=
  let entry := fun (q : Sequence) (n : Nat) => descWords (q.id.toNat * 2 ^ 32 + q.pos) n
  let ds := v.decodes it
  let ss := v.slices it
  descWords (ss.length * 2 ^ 32 + ds.length * 2 ^ 16 + it.budget) v.iter.toNat ++ ds.flatMap (entry · 1) ++
    ss.flatMap fun p => entry p.1 p.2

/-- What an iteration leaves: every entry's tokens are behind it, a prompt without tokens left enters decode, and the next iteration has the
next number (R394, R395). -/
def Serving.advance (v : Serving) (it : Iteration) (key : Nat) : Serving :=
  let ds := v.decodes it
  let ss := (v.slices it).map fun p => { p.1 with pos := p.1.pos + p.2, left := p.1.left - p.2 }
  { iter := v.iter + 1
    grid := key
    waiting := ss.filter (0 < ·.left) ++ v.waiting.drop ss.length
    decoding := (ds.map fun q => { q with pos := q.pos + 1 }) ++ v.decoding.drop ds.length ++ ss.filter (·.left == 0) }

/-- The firmware, which is of neither side, writes bytes at a virtual address of a grid; none where it cannot (R384, R387). -/
def firmwareWrite (asid : Nat) (va : Word) (bs : List Byte) (s : State) : Option State :=
  let ps := writePieces (.die 0) asid va bs s
  let refused := fun (p : WPiece) => (refusal s none p.pa p.bytes.length).isSome || (rowAt s (rowOf p.pa)).copyout.isSome
  if ps.foldl (fun n p => n + p.bytes.length) 0 != bs.length || ps.any refused then none
  else some (ps.foldl (fun t p => putBytes t p.pa p.key p.bytes) s)

/-- The firmware sees the flag of the last handoff of a sequence that comes with its whole prompt prefilled; none while it does not
(R395, notes/assumptions/74.md). -/
def flagSeen (asid : Nat) (q : Sequence) (s : State) : Option State :=
  if 0 < q.left then some s
  else if q.flag.2 = 0 then none
  else match engRead (.die 0) asid q.flag.1 8 s with
    | .ok r => if q.flag.2.toNat ≤ leNat r.2 then some r.1 else none
    | _ => none

/-- An iteration of a token die begins: with the earlier one ended and the flags of the sequences that enter decode seen, the firmware writes
the descriptor at the address that the first launch parameter holds (R394, R395, notes/assumptions/74.md); none where this cannot be done. -/
def startIteration (k : ECmd) (key : Nat) (it : Iteration) (s : State) : Option State :=
  (iterDie k.w).bind fun d =>
    let now := smGet Serving.reset s.mgmt.serving d
    let v := now.renew it
    if (smGet none s.grids now.grid).isSome || !v.fits it then none
    else (it.come.foldl (fun o q => o.bind (flagSeen (lAsid k) q)) (some s)).bind fun s =>
      match engRead (.die 0) (lAsid k) k.w.w3 8 s with
      | .ok r => (firmwareWrite (lAsid k) (BitVec.ofNat 64 (leNat r.2)) (v.descriptor it) r.1).map fun t =>
          { t with mgmt := { t.mgmt with serving := smPut Serving.reset t.mgmt.serving d (v.advance it key) } }
      | _ => none

/-- LAUNCH_START: the next launch of a context starts when the previous command has ended, or ends in error having placed nothing
(R416, R419); the launch of an iteration with its descriptor written (R394). -/
def execLaunchStart (go : Starting) (s : State) : Out :=
  let e := EngineRef.launch go.ctx
  let x := s.ctx e
  match x.head with
  | none => .next s
  | some k =>
    if k.started || x.preempted || k.bad || k.w.cmd != 1 || s.mgmt.state = 1 then .next s
    else if !launchOk s k then .next (endCmd e k (.error cEngineCommand) s)
    else
      let key := gridKeyOf go.ctx k.seq
      let g : Grid := { w := k.w, handle := handleOf e k.seq, asid := lAsid k, next := 0, open_ := 0, ep := k.ep, tag := k.tag
                        err := none, term := false, cancelled := false }
      match (match go.it with | some i => startIteration k key i s | none => some s) with
      | none => .next s
      | some t => .next (updCmdAt e k.seq (fun c => { c with started := true })
          { t with grids := smPut none t.grids key (some g) })

/-- Host message 0x01: the launch command joins its context, and is answered with its handle in the place of the status word; TARGET_BAD when
the context is full (R35, R415, notes/assumptions/40.md). -/
def hostLaunch (tag : BitVec 32) (ep : Nat) (w : Cmd) (s : State) : State :=
  let e := EngineRef.launch (bits w.w0 55 53)
  let x := s.ctx e
  let reply := fun (v : Word) (t : State) => { t with mgmt := { t.mgmt with outbox := t.mgmt.outbox ++ [.reply ep 0x81 tag v] } }
  if 64 ≤ x.load then reply (statusOf cTargetBad) s
  else
    let seq := x.seq + 1
    let k := newCmd w (!(w.cmd = 1 || w.cmd = 2)) none 0 seq s
    let k' := { k with asid := bits w.w6 15 0, grid := 0, host := true, ep := ep, tag := tag, pol := bits w.w7 1 0 }
    reply (handleOf e seq) (s.setCtx e { x with seq := seq, cmds := x.cmds ++ [k'] })

/-- LAUNCH_MESSAGE: a message of the host as it arrives, its TYPE and the words of its body. One of TYPE 0x01 with eight words is a
launch; one of TYPE 0x06 with three is that of Table 184. Messages 0x02 to 0x05 and 0x07, whose layouts Table 175 does not fix, arrive
decoded, by events of their own, and here only when malformed (notes/assumptions/75.md). A reserved TYPE, a malformed body or one of another
length is answered ENGINE_COMMAND and has no effect (R415). -/
def execLaunchMessage (ty : BitVec 8) (tag : BitVec 32) (ep : Nat) (body : List (BitVec 64)) (s : State) : Out :=
  if s.mgmt.state = 1 then .next s
  else if ty = 1 ∧ body.length = 8 then .next (hostLaunch tag ep (cmdOfWords body) s)
  else if ty = 6 ∧ body.length = 3 then execResolveHalt tag (body.getD 0 0) (body.getD 1 0) (body.getD 2 0) s
  else .next { s with mgmt := { s.mgmt with outbox := s.mgmt.outbox ++ [.reply ep (ty + 0x80) tag (statusOf cEngineCommand)] } }

/-! ## Reclaim (R392, R421) -/

/-- The page of a window that contains an address of an address space; a listed address need not begin its page
(notes/assumptions/84.md). -/
def reclaimPage (s : State) (asid : Nat) (va : Word) : Option Nat :=
  if localBase ≤ va.toNat then none
  else match lookup s (.die 0) asid va.toNat with
    | .error _ => none
    | .ok leaf =>
      let pa := leaf.place va.toNat
      if inWindow s pa then some (pa / 65536) else none

/-- Fields of a reclaim (R421). -/
def reclaimOk (w : Cmd) : Bool :=
  bits w.w0 52 0 == 0 && w.w2.toNat ≤ 4096 && 1 ≤ w.w2.toNat && zeros [w.w4, w.w5, w.w6, w.w7]

/-- A reclaim: every listed page that the token side owns returns to the prompt side, as one event of the sluice order; a page
without translation, outside every window, or a list that cannot be read, ends it in error with nothing changed. The command is reached when
the entries have reached every basin copy (R392). -/
def runReclaim (e : EngineRef) (k : ECmd) (s : State) : State :=
  let n := k.w.w2.toNat
  if !reclaimOk k.w then endCmd e k (.error cEngineCommand) s
  else match engRead (.die 0) k.asid k.w.w1 (8 * n) s with
    | .wait _ => s
    | .fault _ _ _ t => endCmd e k (.error cEngineCommand) t
    | .ok r =>
      let ps := (toWords r.2).map (reclaimPage r.1 k.asid)
      if ps.any Option.isNone then endCmd e k (.error cEngineCommand) r.1
      else
        let pages := (ps.filterMap id).eraseDups
        if flagPending r.1 pages then s
        else
          let mine := pages.filter fun p => (smGet Owner.reset r.1.owners p).token
          let t := setOwners r.1 mine { token := false, gen := k.w.w3 } r.1.stamp
          updCmdAt e k.seq (fun c => { c with started := true, elem := r.1.stamp }) { t with stamp := t.stamp + 1 }

/-- The next step of a launch context other than the start of a launch: a reclaim, its end, or a malformed command. -/
def deliverLaunch (c : Nat) (s : State) : State :=
  let e := EngineRef.launch c
  let x := s.ctx e
  match x.head with
  | none => s
  | some k =>
    if x.preempted || s.mgmt.state = 1 then s
    else if k.started then
      (if k.w.cmd = 2 then endCmd e k (if k.cancel then .cancelled else .completed) (ownersArrived k.elem s) else s)
    else if k.bad then endCmd e k (.error cEngineCommand) s
    else if k.w.cmd = 2 then runReclaim e k s
    else s

/-- ELEMENT_DELIVERY: the next step of an engine context (R302, R353, R402, R416); owner entries under way reach homes before it (R390). -/
def execElementDelivery (e : EngineRef) (s0 : State) : Out :=
  let s := ownersArrive s0
  .next (match e with
    | .copy _ _ => deliverCopy e s
    | .basin b c => deliverBasin b c s
    | .coll c => deliverColl c s
    | .launch c => deliverLaunch c s)

/-! ## Placement (R36, R37, R417) -/

/-- The slot of a core belongs to no team. -/
def slotFree (s : State) (core slot : Nat) : Bool := slot < 32 && !(coreTeams s core).any fun p => p.2.slots.contains slot

/-- A tile register of a quad may be given to a team: it belongs to none, and no matrix entry, withdrawn or not, and no running command
names it (R34, R286). -/
def tileFree (s : State) (q t : Nat) : Bool :=
  let quad := smGet Quad.reset s.quads q
  let away := ((s.g :: s.others).filter fun h => h.live && quadOfCore h.core == q).flatMap (·.entries)
  t < 64 && (smGet Tile.reset quad.tiles t).team.isNone &&
    !(quad.table ++ quad.running ++ away).any (fun m => m.tiles.contains t) &&
    !quad.copy.any fun c => c.2.cmds.any fun k => k.fin.isNone && k.tile == some t

/-- Registers of a bank that a new team can have above the shortfalls of the others. -/
def roomFor (s : State) (core b need : Nat) : Bool :=
  let short := (coreTeams s core).foldl (fun k p => k + (teamFloor s p.1 - teamUsed s core p.1 b)) 0
  need + short ≤ freeRegs s core b

/-- What a core must have for one team. -/
structure Need where
  groups : Nat
  tiles : Nat
  banks : Nat
  regs : List Nat

/-- The core of team i of a placement. -/
def placeCore (p : Placement) (cw i : Nat) : Nat := coreAt p.die (p.col + i % cw) (p.row + i / cw)

/-- The free slots of a core. -/
def freeSlots (s : State) (core : Nat) : List Nat := (List.range 32).filter (slotFree s core)

/-- A core meets the conditions of R36 and R422 for a team, but for the tiles. -/
def coreRoom (s : State) (n : Need) (core : Nat) : Bool :=
  corePresent s core && !(smGet Core.reset s.cores core).hot && n.groups ≤ (freeSlots s core).length &&
    (n.tiles == 0 || quadPresent s (quadOfCore core)) &&
    (coreTeams s core).all (fun p => (p.2.scr.toNat ||| p.2.fifo.toNat) &&& n.banks == 0) &&
    (List.range 4).all fun b => roomFor s core b (n.regs.getD b 0)

/-- The slots chosen spread a team over both sequencers as evenly as the free slots of its core allow (R420). -/
def evenly (free slots : List Nat) : Bool :=
  let count := fun (p : Nat) (l : List Nat) => (l.filter (· % 2 == p)).length
  let e := count 0 slots
  let o := count 1 slots
  min e o == slots.length / 2 || (if e < o then e == count 0 free else o == count 1 free)

/-- A core meets the conditions of R36 and R422 for a team, with the slots and tiles chosen. -/
def coreFits (s : State) (n : Need) (t : TeamPlace) (tileOk : Nat → Nat → Bool) : Bool :=
  coreRoom s n t.core && t.slots.length == n.groups && t.slots.eraseDups.length == n.groups && t.slots.all (slotFree s t.core) &&
    evenly (freeSlots s t.core) t.slots && t.tiles.length == n.tiles && t.tiles.eraseDups.length == n.tiles &&
    (List.range n.tiles).all fun i => tileOk i (t.tiles.getD i 64)

/-- A rectangle of a die has room for a cluster whose teams need so much. -/
def rectFits (s : State) (w : Cmd) (n : Need) (d x y : Nat) : Bool :=
  let cores := (List.range (lCW w * lCH w)).map fun i => coreAt d (x + i % lCW w) (y + i / lCW w)
  let quads := cores.map quadOfCore
  let room := fun (q : Nat) => n.tiles * quads.count q ≤ ((List.range 64).filter (tileFree s q)).length
  cores.all (coreRoom s n) && quads.all fun q => room q

/-- The rectangle of a placement lies on the die, and each team is on its core. -/
def shapeOk (s : State) (w : Cmd) (p : Placement) : Bool :=
  lNames w p.die && diePresent s p.die && p.col + lCW w ≤ dieCols p.die && p.row + lCH w ≤ dieRows p.die &&
    p.teams.length == lCW w * lCH w &&
    (List.range p.teams.length).all fun i => match p.teams[i]? with | some t => t.core == placeCore p (lCW w) i | none => false

/-- Two teams of one cluster in one quad do not take one tile. -/
def tilesApart (p : Placement) : Bool :=
  let all := p.teams.flatMap fun t => t.tiles.map fun i => (quadOfCore t.core, i)
  all.eraseDups.length == all.length

/-- Bytes of a bank in a scratch map of the package. -/
def inBank (core banks a : Nat) : Bool := a / 2 ^ 18 == core && banks.testBit (a / 2 ^ 15 % 8)

/-- Banks of a core change mode: the contents they had are dropped, lines of L1 among them (R313). An access that reaches a bank afterwards
is served under the new mode. -/
def setBanks (core lead : Nat) (scr fifo : Nat) (off : Nat) (s : State) : State :=
  let all := scr ||| fifo ||| off
  let mode := fun (b : Nat) (v : BitVec 8) =>
    if scr.testBit b then BitVec.ofNat 8 (8 * lead + 1)
    else if fifo.testBit b then BitVec.ofNat 8 (8 * lead + 2)
    else if off.testBit b then 0 else v
  let upd := fun (c : Core) =>
    let m := (List.range 8).foldl (fun m b => smPut 0 m b (mode b (smGet 0 m b))) c.bankMode
    { c with bankMode := m, l1 := c.l1.filter fun p => !all.testBit (p.1 / 256)
             fifo := c.fifo.filter fun p => !all.testBit p.1, units := c.units.filter fun p => !all.testBit p.1 }
  { s with cores := smUpd Core.reset s.cores core upd, sram := s.sram.filter fun p => !inBank core all p.1 }

/-- Tile registers of a quad are given to a team, zeroed, empty, with the allocation control register (R270, Table 79). -/
def giveTiles (q id : Nat) (ts : List Nat) (s : State) : State :=
  { s with quads := smUpd Quad.reset s.quads q fun k =>
      { k with tiles := ts.foldl (fun m t => smPut Tile.reset m t { Tile.reset with team := some id }) k.tiles } }

/-- Bind records of a team, valid at once for the whole cluster (R37, R420). -/
def bindTeam (w : Cmd) (ctx seq : Nat) (clu : Nat × Nat × Nat) (row col : Nat) (t : TeamPlace) (s : State) : State :=
  let rec_ := fun (g : Nat) => ({ v := true, grp := g, pc := w.w1.truncate 56, lctx := ctx, lead := t.slots.headD 0, seq := seq
                                  cx := clu.1, cy := clu.2.1, cz := clu.2.2, row := row, col := col } : Bind)
  let put := fun (m : SMap Bind) => (List.range t.slots.length).foldl (fun m g => smPut Bind.reset m (t.slots.getD g 0) (rec_ g)) m
  { s with cores := smUpd Core.reset s.cores t.core fun c => { c with bind := put c.bind } }

/-- Coordinates of a linear cluster index (R417). -/
def clusterAt (w : Cmd) (i : Nat) : Nat × Nat × Nat := (i % lGX w, i / lGX w % lGY w, i / lGX w / lGY w)

/-- One team of a cluster becomes resident. -/
def placeTeam (w : Cmd) (key ctx seq cid id i : Nat) (clu : Nat × Nat × Nat) (t : TeamPlace) (s : State) : State :=
  let team : Team :=
    { grid := key, cluster := cid, core := t.core, row := i / lCW w, col := i % lCW w, slots := t.slots, tiles := t.tiles
      floor := lFloor w, scr := BitVec.ofNat 8 (lScr w), fifo := BitVec.ofNat 8 (lFifo w), ended := [], kept := []
      bars := [], rdv := [], placed := id }
  let u := giveTiles (quadOfCore t.core) id t.tiles (setBanks t.core (t.slots.headD 0) (lScr w) (lFifo w) 0 s)
  bindTeam w ctx seq clu (i / lCW w) (i % lCW w) t { u with teams := smPut Team.reset u.teams id team }

/-- The needs of a team of a launch. -/
def launchNeed (w : Cmd) : Need :=
  { groups := lGroups w, tiles := lTiles w, banks := lScr w ||| lFifo w, regs := List.replicate 4 ((lFloor w + 3) / 4) }

/-- The running launch of a context, with its grid. -/
def runningLaunch (s : State) (ctx : Nat) : Option (ECmd × Grid) :=
  ((s.ctx (.launch ctx)).cmds.find? fun k => k.active && k.w.cmd == 1).bind fun k =>
    (smGet none s.grids (gridKeyOf ctx k.seq)).map fun g => (k, g)

/-- A cluster of a launch that waits to be placed would fit somewhere. -/
def clusterFits (s : State) (w : Cmd) : Bool :=
  [1, 2, 3, 4].any fun d => lNames w d && diePresent s d &&
    (List.range (dieCols d + 1 - lCW w)).any fun x => (List.range (dieRows d + 1 - lCH w)).any (rectFits s w (launchNeed w) d x)

/-- A lower-numbered context has a cluster to place that fits (R417, notes/assumptions/41.md). -/
def lowerFits (s : State) (ctx : Nat) : Bool :=
  (List.range ctx).any fun c => (runningLaunch s c).any fun k => !k.2.term && k.2.next < lClusters k.2.w && clusterFits s k.2.w

/-- TEAM_PLACEMENT: the firmware places the next cluster of the grid of a context, as a whole, on cores that meet the conditions of
every team, once no cluster of a lower-numbered context waits that fits (R36, R37, R417). -/
def execTeamPlacement (ctx : Nat) (place : Placement) (s : State) : Out :=
  match runningLaunch s ctx with
  | none => .next s
  | some (k, g) =>
    let w := g.w
    let fits := place.teams.all fun t =>
      coreFits s (launchNeed w) t fun _ x => tileFree s (quadOfCore t.core) x
    if g.term || lClusters w ≤ g.next || lowerFits s ctx || !shapeOk s w place || !fits || !tilesApart place then .next s
    else
      let key := gridKeyOf ctx k.seq
      let cid := s.stamp
      let n := place.teams.length
      let clu := clusterAt w g.next
      let c : Cluster :=
        { grid := key, die := place.die, cw := lCW w, ch := lCH w, teams := (List.range n).map (cid + 1 + ·), cbar := []
          puts := [] }
      let g' : Grid := { g with next := g.next + 1, open_ := g.open_ + 1 }
      let t : State := { s with
        stamp := s.stamp + n + 1
        clusters := smPut Cluster.reset s.clusters cid c
        grids := smPut none s.grids key (some g') }
      .next (((List.range n).zip place.teams).foldl (fun u p => placeTeam w key ctx k.seq cid (cid + 1 + p.1) p.1 clu p.2 u) t)

/-! ## The start of a group (R24, R32, R420) -/

/-- The base mask of group g of a team of L lanes (R24). -/
def baseMask (lanes g : Nat) : Mask := mkMask fun n => 32 * g + n < lanes

/-- A group at its first issue (Table 17), from its bind record, its team and its launch. -/
def newGroup (core slot team : Nat) (b : Bind) (t : Team) (c : Cluster) (gr : Grid) (capa : BitVec 56) (stamp : Nat) : Group :=
  let w := gr.w
  { Group.reset with
    live := true, core := core, slot := slot, team := team, asid := gr.asid
    id := { grp := b.grp, ngrp := t.slots.length, nlane := lLanes w, row := b.row, col := b.col, ch := c.ch, cw := c.cw
            cluX := b.cx, cluY := b.cy, cluZ := b.cz, gX := lGX w, gY := lGY w, gZ := lGZ w, core := core
            parm := w.w3.truncate 56, capa := capa }
    mode := { fpm := BitVec.ofNat 64 (lFpm w), qtab := BitVec.ofNat 64 (bits w.w5 21 14 * 2 ^ 10), chk := BitVec.ofNat 64 (bits w.w5 10 9)
              part := BitVec.ofNat 64 (lPart w) }
    pos := { hdr := b.pc.zeroExtend 64, n := 0, idx := 0, code := [] }
    masks := [baseMask (lLanes w) b.grp], ageC := stamp, ageV := stamp }

/-- GROUP_START: the group of a valid bind record starts (R37, R420), as an acquire of what happens before its launch (R61, R65,
notes/assumptions/85.md). -/
def execGroupStart (core slot : Nat) (s : State) : Out :=
  let b := smGet Bind.reset (smGet Core.reset s.cores core).bind slot
  match (coreTeams s core).find? fun p => p.2.slots.contains slot with
  | none => .next s
  | some p =>
    match smGet none s.grids p.2.grid with
    | none => .next s
    | some gr =>
      if !b.v || (s.groupAt core slot).isSome || p.2.ended.contains b.grp then .next s
      else
        let g := newGroup core slot p.1 b p.2 (smGet Cluster.reset s.clusters p.2.cluster) gr (smGet 0 s.mgmt.capaMap gr.asid) s.stamp
        .next (acquire .pkg { s with stamp := s.stamp + 1, g := g, others := if s.g.live then s.g :: s.others else s.others })

/-! ## The end of a group, of its team, of its cluster (R33, R34) -/

/-- A put without a wait slot. -/
def Acc.loosePut (a : Acc) : Bool := a.wset == 0 && match a.kind with | .rput _ => true | _ => false

/-- An access that the end of its group waits for: all but a pass of the matrix engine or a put without a wait slot (R33, R239); an unpaired
half of a rendezvous holds it (R246). -/
def Acc.holdsEnd (a : Acc) : Bool := !(a.kind == .matrix && a.wset == 0) && !a.loosePut

/-- The group in focus may end (R33). -/
def Group.over (g : Group) : Bool :=
  g.live && g.exited && !g.halted && g.runnel.isEmpty && !g.vpos.begun && !g.accs.any Acc.holdsEnd

/-- A group leaves matrix ownership and its queue (R192). -/
def Quad.forget (s : State) (place : Nat × Nat) (q : Quad) : Quad :=
  let r := { q with queue := q.queue.filter (· != place) }
  if r.owner == some place then r.release s else r

/-- A team's banks return to cache mode, and its tile registers belong to no team (R34, R313). -/
def freeTeam (t : Team) (s : State) : State :=
  let u := setBanks t.core 0 0 0 (t.scr.toNat ||| t.fifo.toNat) s
  { u with quads := smUpd Quad.reset u.quads (quadOfCore t.core) fun q =>
      { q with tiles := t.tiles.foldl (fun m i => smUpd Tile.reset m i fun x => { x with team := none }) q.tiles } }

/-- A cluster all of whose teams have ended leaves the device. -/
def closeCluster (cid : Nat) (s : State) : State :=
  let c := smGet Cluster.reset s.clusters cid
  if c.teams.any fun i => (smGet Team.reset s.teams i).alive then s
  else
    { s with
      clusters := smPut Cluster.reset s.clusters cid Cluster.reset
      teams := s.teams.filter fun p => !c.teams.contains p.1
      grids := smUpd none s.grids c.grid fun o => o.map fun g => { g with open_ := g.open_ - 1 } }

/-- The group in focus leaves its core (R34, R420). -/
def leaveCore (s : State) : State :=
  let g := s.g
  let upd := fun (c : Core) => { c with bind := smUpd Bind.reset c.bind g.slot fun b => { b with v := false } }
  let t := endPipe (endGrant s)
  { t with
    g := { t.g with live := false }
    cores := smUpd Core.reset t.cores g.core upd
    quads := smUpd Quad.reset t.quads (quadOfCore g.core) fun q => q.forget t g.place }

/-- The held access that the end of the group in focus answers for: one without an issued release (R80). -/
def Group.endHeld (g : Group) : Option (Acc × LaneAcc) :=
  if g.live && g.exited && !g.halted && g.runnel.isEmpty && !g.vpos.begun then
    (g.accs.find? fun a => a.isHeld && (g.blamed a).isNone).bind fun a => a.heldLane.map fun l => (a, l)
  else none

/-- The group in focus ends: its team keeps the registers it leaves bound, its puts in flight go on (R33, R34). -/
def endGroup (s : State) : State :=
  let t := { s.team with ended := s.g.id.grp :: s.team.ended, kept := s.g.v :: s.team.kept }
  let puts := (s.g.accs.filter Acc.loosePut).map fun a => ({ core := s.g.core, slot := s.g.slot, acc := a } : Put)
  let u := leaveCore { s with
    teams := smPut Team.reset s.teams s.g.team t
    clusters := smUpd Cluster.reset s.clusters t.cluster fun c => { c with puts := c.puts ++ puts } }
  if t.alive then u else closeCluster t.cluster (freeTeam t u)

/-- GROUP_END: a group that has exited and finished its tokens ends, unless a home holds one of its stores, in which case it halts at
its `exit` (R33, R34, R80). -/
def execGroupEnd (s : State) : Out :=
  match s.g.endHeld with
  | some (a, l) =>
    .next (haltWith { fr := s.g.heldRec a l s.g.pos.idx (lo56 s.g.pos.hdr), sent := false, held := some a.stamp, act := none, past := true } s)
  | none => .next (if s.g.over then endGroup s else s)

/-! ## Barrier phases (R186, R187) -/

/-- Every group of a team has arrived or has ended. -/
def allHere (t : Team) (arrived : List Nat) : Bool :=
  (List.range t.slots.length).all fun g => arrived.contains g || t.ended.contains g

/-- The arrivals at a barrier of the team in focus that count: a halted group has not arrived (R79, R186). -/
def barCounts (s : State) (arrived : List Nat) : List Nat :=
  arrived.filter fun g => !((s.g :: s.others).any fun h => h.live && h.team == s.g.team && h.id.grp == g && h.halted)

/-- BAR_PHASE_COMPLETE: a team barrier's phase completes (R186). -/
def execBarPhaseComplete (b : Nat) (s : State) : Out :=
  let bar := smGet Barrier.reset s.team.bars b
  if bar.arrived.isEmpty || !allHere s.team (barCounts s bar.arrived) then .next s
  else
    let upd := fun (m : Team) => { m with bars := smPut Barrier.reset m.bars b { phase := bar.phase + 1, arrived := [] } }
    .next { s with teams := smUpd Team.reset s.teams s.g.team upd }

/-- A group of the cluster has arrived at a cluster barrier with a release before its arrival still incomplete (R59,
notes/assumptions/78.md). -/
def arrivesLate (s : State) (cid b : Nat) (arrived : List (Nat × Nat)) : Bool :=
  (s.g :: s.others).any fun h => h.live && (smGet Team.reset s.teams h.team).cluster == cid && arrived.contains (h.team, h.id.grp) &&
    releaseOpen s h (smGet 0 h.cbarAt b)

/-- CLUSTER_BARRIER_PHASE: a cluster barrier's phase completes (R59, R187). -/
def execClusterBarrierPhase (b : Nat) (s : State) : Out :=
  let cb := s.cbar b
  let cid := s.team.cluster
  let all := (smGet Cluster.reset s.clusters cid).teams.all fun i =>
    allHere (smGet Team.reset s.teams i) ((cb.2.filter fun p => p.1 == i).map (·.2))
  if cb.2.isEmpty || !all || arrivesLate s cid b cb.2 then .next s
  else
    let upd := fun (c : Cluster) => { c with cbar := smPut (0, []) c.cbar b (cb.1 + 1, []) }
    .next { s with clusters := smUpd Cluster.reset s.clusters cid upd }

/-! ## The end of a grid (R34, R40, R81) -/

/-- The records of groups that the fault queue has not taken; the host is not asked about a group that is no more (R73). -/
def unsent (gs : List Group) : List DueRec :=
  gs.flatMap fun g => (g.recs.filter fun r => !r.sent).map fun r => { fr := r.fr, ask := none }

/-- Records that the fault queue has still to take are kept (R73). -/
def keepUnsent (gs : List Group) (s : State) : State := { s with mgmt := { s.mgmt with recsDue := s.mgmt.recsDue ++ unsent gs } }

/-- The group in focus is discarded with what it still has in flight, which leaves its core's L1 with it; its matrix entries and FIFO
units go too, and its records wait for the fault queue without it. -/
def discardGroup (s : State) : State :=
  let g := s.g
  let open_ := g.accs.flatMap fun a => a.lanes.filter fun l => !l.done
  let t := keepUnsent [g] (leaveCore (open_.foldl (fun t l => dropLoc l.loc t) s))
  let drop := fun (c : Core) =>
    { c with units := (c.units.map fun p => (p.1, p.2.filter fun u => !(u.1 == g.core && u.2.1 == g.slot))).filter fun p => !p.2.isEmpty }
  { t with
    cores := t.cores.foldl (fun m p => smUpd Core.reset m p.1 drop) t.cores
    quads := smUpd Quad.reset t.quads (quadOfCore g.core) fun q =>
      { q with table := q.table.filter fun m => !m.of g } }

/-- Discards every resident group of a grid. -/
def discardGroups (key : Nat) (s : State) : State :=
  let hs := (s.g :: s.others).filter fun h => h.live && (smGet Team.reset s.teams h.team).grid == key
  hs.foldl (fun t h => match focusOn (some (h.core, h.slot)) t with | some u => discardGroup u | none => t) s

/-- A tile that a saved team left in its quad, with the command that fills or drains it, belongs to no team (R34, R89). -/
def dropTiles (t : SavedTeam) (s : State) : State :=
  let off := fun (x : Tile) => if x.team = some t.id then { x with team := none } else x
  { s with quads := smUpd Quad.reset s.quads (quadOfCore t.team.core) fun q =>
      { q with tiles := t.team.tiles.foldl (fun m i => smUpd Tile.reset m i off) q.tiles } }

/-- Frees every team of a grid, and drops its saved clusters, whose records wait for the fault queue without them. -/
def freeGrid (key : Nat) (s0 : State) : State :=
  let away := (s0.mgmt.saved.filter fun c => c.cluster.grid == key).flatMap (·.teams)
  let s := away.foldl (fun t x => dropTiles x t) (keepUnsent (away.flatMap (·.groups)) s0)
  let ts := s.teams.filter fun p => p.2.grid == key
  let u := ts.foldl (fun t p => if p.2.alive then freeTeam p.2 t else t) s
  let binds := fun (c : Nat) (k : Core) =>
    let slots := (ts.filter fun p => p.2.core == c).flatMap fun p => p.2.slots
    { k with bind := slots.foldl (fun m x => smUpd Bind.reset m x fun b => { b with v := false }) k.bind }
  { u with
    cores := ts.foldl (fun m p => smUpd Core.reset m p.2.core (binds p.2.core)) u.cores
    teams := u.teams.filter fun p => p.2.grid != key
    clusters := u.clusters.filter fun p => p.2.grid != key
    mgmt := { u.mgmt with saved := u.mgmt.saved.filter fun c => c.cluster.grid != key }
    grids := smPut none u.grids key none }

/-- GRID_END: the launch of a grid whose teams have all ended completes; a terminated or cancelled grid is discarded and its launch
ends in error with the first recorded code, or cancelled (R34, R40, R81). -/
def execGridEnd (ctx : Nat) (s : State) : Out :=
  match runningLaunch s ctx with
  | none => .next s
  | some (k, g) =>
    let key := gridKeyOf ctx k.seq
    let e := EngineRef.launch ctx
    if g.term then
      let f : EndStat := if g.cancelled then .cancelled else .error (g.err.getD 0)
      .next (endCmd e k f (freeGrid key (discardGroups key s)))
    else if g.next = lClusters g.w ∧ g.open_ = 0 then
      .next (endCmd e k .completed { s with grids := smPut none s.grids key none })
    else .next s

end Sys2Proof.Machine
end

