-- ==== Sys2Proof/Machine/Preempt.lean ====
section
/-! DEFINITION. Pre-emption: the request, the save of a cluster and its resumption (R71, R86 to R90, R155, R210, R286, R312, R313,
R317). -/
namespace Sys2Proof.Machine

/-! ## The request (R86, Table 34) -/

/-- The withdrawal of a blocked control instruction: an arrival at an open phase of a team barrier is taken back; the other blocked
instructions issue again from their places. -/
def withdrawBlock (s : State) : State :=
  match s.g.block with
  | .bar b ph =>
    let bar := smGet Barrier.reset s.team.bars b
    if bar.phase = ph then
      let upd := fun (m : Team) =>
        { m with bars := smPut Barrier.reset m.bars b { bar with arrived := bar.arrived.erase s.g.id.grp } }
      { s with g := { s.g with block := .none }, teams := smUpd Team.reset s.teams s.g.team upd }
    else s
  | .push _ | .icinv _ => s.withG { s.g with block := .none }
  | _ => s

/-- The group in focus halts at an instruction boundary in both slices; an instruction stalled on allocation is withdrawn, and so are its
waiting halves of rendezvous, FIFO units and matrix entries. -/
def haltHere (s : State) : State :=
  let t := withdraw (fun _ => true) (withdrawBlock (endPipe (endGrant s)))
  t.withG { t.g.landAll with preempted := true, stall := none, late := none }

/-- The group in focus is no longer pre-empted: one whose records are all resolved acts on them, and one that is not halted replays what its
halt withdrew (Table 34, R90). -/
def runOn (s : State) : State :=
  let t := s.withG { s.g with preempted := false }
  if t.g.recs.isEmpty then dueFault (reenter t) else resumeRecs t

/-- A team of a context below this one waits to be placed: a cluster of a running launch, or a saved one (R417). -/
def waitsBelow (s : State) (ctx : Nat) : Bool :=
  ((List.range ctx).any fun c => (runningLaunch s c).any fun k => !k.2.term && k.2.next < lClusters k.2.w) ||
    s.mgmt.saved.any fun v => v.cluster.grid / 2 ^ 48 < ctx && (smGet none s.grids v.cluster.grid).any fun g => !g.term

/-- The most recently placed team of a core (R425). -/
def newestTeam (s : State) (core : Nat) : Option Nat :=
  ((coreTeams s core).foldl (fun (o : Option (Nat × Team)) p =>
    match o with
    | some b => if b.2.placed < p.2.placed then some p else o
    | none => some p) none).map (·.1)

/-- A REGS_EXHAUSTED record of this core is outstanding, and no team has been saved for it (R425). -/
def shortOf (s : State) (core : Nat) : Bool :=
  let saved := s.mgmt.saved.flatMap fun c => c.teams.flatMap (·.groups)
  !relievedAt s core && (((s.g :: s.others).filter (·.live)) ++ saved).any fun h => h.recs.any fun r =>
    r.fr.code == cRegsExhausted && r.fr.core.toNat == core && r.sent && r.act.isNone

/-- The firmware may pre-empt a cluster: to place a waiting team of a lower-numbered context (R417), or because it holds the most recently placed
team of a core that has trapped for want of registers (R425, notes/assumptions/41.md). -/
def mayYield (s : State) (cid : Nat) : Bool :=
  let c := smGet Cluster.reset s.clusters cid
  waitsBelow s (c.grid / 2 ^ 48) || c.teams.any fun i =>
    let q := (smGet Team.reset s.teams i).core
    shortOf s q && newestTeam s q == some i

/-- PREEMPTION_REQUEST: every group of a core that a cluster to be pre-empted has a team on halts in the way Table 34 gives (R86). -/
def execPreemptionRequest (core : Nat) (s : State) : Out :=
  .next (if (coreTeams s core).any fun p => mayYield s p.2.cluster then
    (s.coreGroups core).foldl (fun t h =>
      if h.preempted then t else (atGroup core h.slot (fun u => some (haltHere u)) t).getD t) s
  else s)

/-! ## The save (R71, R87, R88) -/

/-- The groups of a team in the order of their slots, those that have not ended. -/
def teamGroups (s : State) (id : Nat) : List Group := (s.g :: s.others).filter fun h => h.live && h.team == id

/-- A put of a sender whose arrival waits at its target for a register (R437). -/
def putWaits (s : State) (core slot stamp : Nat) : Bool :=
  (s.g :: s.others).any fun t => t.live && t.arrivals.any fun x => x.src == (core, slot, stamp) && x.names.isEmpty

/-- A lane that does not hold up the save: done, held, at a FIFO bank, or not yet let go by an access that is saved itself. A table read is
done before its bank is given up (R313). -/
def laneSaves (s : State) (h : Group) (a : Acc) (l : LaneAcc) : Bool :=
  if a.readsTable h then l.done
  else l.done || l.held.isSome || (match l.loc with | .fifo _ _ => true | _ => false) || !(accEnabled s h a && laneEnabled s h a l)

/-- The access may be saved with its group: one half of a rendezvous, a unit that waits at a FIFO bank, a matrix entry not granted,
a put whose arrival waits to bind, a held access whose record is outstanding, or what such an access holds back; a fence that can complete
does so first, and lets go what it holds back (R71, R86, R90, R286, R317, R437). -/
def savable (s : State) (h : Group) (a : Acc) : Bool :=
  match a.kind with
  | .xsend _ | .xrecv _ | .zeroMask => true
  | .matrix => (h.entries ++ (smGet Quad.reset s.quads (quadOfCore h.core)).table).any fun m => m.acc == a.stamp
  | .fence => !(fencesDone h a && fenceOpen s h a)
  | .rput _ => putWaits s h.core h.slot a.stamp || !accEnabled s h a
  | _ => (a.lanes.all (laneSaves s h a)) && (!a.holdsLane || h.recs.any fun r => r.held == some a.stamp)

/-- A matrix entry of a team, that of an ended group included, has been granted and has not completed. -/
def matrixRuns (s : State) (id : Nat) : Bool :=
  let t := smGet Team.reset s.teams id
  t.alive && (smGet Quad.reset s.quads (quadOfCore t.core)).running.any fun m => m.team == id

/-- What the release of a save waits for (R71, R87): granted passes, accesses and puts of the cluster, and the stores that its groups may have
seen in the buffers of their cores (R61). -/
def saveWaits (s : State) (c : Cluster) (hs : List Group) : Bool :=
  c.teams.any (matrixRuns s) || (c.puts.any fun p => !putWaits s p.core p.slot p.acc.stamp) ||
    hs.any fun h => othersBuffered s h h.acquired || h.accs.any fun a => !savable s h a

/-- The groups of a cluster. -/
def clusterGroups (s : State) (c : Cluster) : List Group := c.teams.flatMap (teamGroups s)

/-- A held access without a record: where no issued release answers for it, the save is the release its fault is attributed to (R80). -/
def saveFault (hs : List Group) : Option (Group × Acc × LaneAcc) :=
  hs.findSome? fun h => (h.accs.find? fun a => a.isHeld && !h.recs.any fun r => r.held == some a.stamp).bind fun a =>
    a.heldLane.map fun l => (h, a, l)

/-- The record of an access that the save of its group in focus finds held, at the place of the release or read that answers for it. A save
is no instruction: its records name where the slice stands, and a continue passes over no instruction (notes/assumptions/56.md). -/
def recordHeld (a : Acc) (l : LaneAcc) (s : State) : State :=
  let here := if a.ctl then (s.g.pos.idx, lo56 s.g.pos.hdr) else (s.g.vpos.idx, lo56 s.g.vpos.hdr)
  let place := match (if a.ownFault then some a else s.g.blamed a) with | some r => (r.index, r.clause) | none => here
  haltWith { fr := s.g.heldRec a l place.1 place.2, sent := false, held := some a.stamp, act := none, past := true } s

/-- A group as its save area holds it: words and block buffers are fetched again, and the spin record is cleared (R88, R155). -/
def Group.saved (g : Group) : Group :=
  { g with
    spin := none, preempted := false
    pos := { g.pos with code := [] }
    vpos := { g.vpos with code := [], buffer := [], pipe := none } }

/-- A tile that stays in its quad with the command that fills or drains it (R89). -/
def stays (t : Tile) : Bool := t.st == .filling || t.st == .draining

/-- The saved form of a team; of one that has ended only its place in the cluster. -/
def saveTeam (s : State) (id : Nat) : SavedTeam :=
  if !(smGet Team.reset s.teams id).alive then
    { id := id, team := { smGet Team.reset s.teams id with tiles := [], scr := 0, fifo := 0, floor := 0 }, groups := [], tiles := []
      sram := [], fifo := [], units := [], entries := [], owner := none, queue := [] }
  else
    let t := smGet Team.reset s.teams id
    let q := smGet Quad.reset s.quads (quadOfCore t.core)
    let core := smGet Core.reset s.cores t.core
    let banks := t.scr.toNat ||| t.fifo.toNat
    let grpOf := fun (p : Nat × Nat) => if p.1 == t.core then t.slots.findIdx? (· == p.2) else none
    { id := id, team := t, groups := (teamGroups s id).map Group.saved
      tiles := t.tiles.map fun i => smGet Tile.reset q.tiles i
      sram := (s.sram.filter fun p => inBank t.core banks p.1).map fun p => (p.1 % 2 ^ 18, p.2)
      fifo := core.fifo.filter fun p => banks.testBit p.1
      units := core.units.filter fun p => banks.testBit p.1
      entries := q.table.filter fun m => m.team == id
      owner := q.owner.bind grpOf
      queue := (q.queue.zip (List.range q.queue.length)).filterMap fun p => (grpOf p.1).map fun g => (p.2, g) }

/-- The groups of a team leave their core and its resources are free; tiles that a running or suspended command names stay with the
team in their quad. -/
def evictTeam (id : Nat) (s : State) : State :=
  if !(smGet Team.reset s.teams id).alive then { s with teams := smPut Team.reset s.teams id Team.reset }
  else
    let t := smGet Team.reset s.teams id
    let u := (teamGroups s id).foldl (fun u h => match focusOn (some (h.core, h.slot)) u with | some v => leaveCore v | none => u) s
    let v := setBanks t.core 0 0 0 (t.scr.toNat ||| t.fifo.toNat) u
    let upd := fun (q : Quad) =>
      { q with
        table := q.table.filter fun m => m.team != id
        tiles := t.tiles.foldl (fun m i => if stays (smGet Tile.reset m i) then m else smPut Tile.reset m i Tile.reset) q.tiles }
    { v with quads := smUpd Quad.reset v.quads (quadOfCore t.core) upd, teams := smPut Team.reset v.teams id Team.reset }

/-- The other groups of the saved cores run on. -/
def releaseCores (cores : List Nat) (s : State) : State :=
  let hs := (s.g :: s.others).filter fun h => h.live && h.preempted && cores.contains h.core
  hs.foldl (fun t h => (atGroup h.core h.slot (fun u => some (runOn u)) t).getD t) s

/-- The firmware has saved the most recently placed team of these cores (R425). -/
def relieve (teams : List Nat) (s : State) : State :=
  teams.foldl (fun t i =>
    let q := (smGet Team.reset s.teams i).core
    if newestTeam s q == some i then { t with cores := smUpd Core.reset t.cores q fun c => { c with relieved := true } } else t) s

/-- CONTEXT_SAVE: the cluster of the team whose group 0 has slot `lead` on a core is saved as a whole, once every group of it has
halted and its stores, puts and granted passes are done (R71, R87, R88). With `go` the other groups of its cores run on; so do the groups of
the core when there is no ground left to pre-empt the cluster. -/
def execContextSave (core lead : Nat) (go : Bool) (s : State) : Out :=
  match s.teams.find? fun p => p.2.core == core && p.2.slots.head? == some lead && p.2.alive with
  | none => .next s
  | some p =>
    let cid := p.2.cluster
    let c := smGet Cluster.reset s.clusters cid
    let hs := clusterGroups s c
    let started := c.teams.all fun i =>
      let t := smGet Team.reset s.teams i
      (teamGroups s i).length + t.ended.length == t.slots.length
    if !mayYield s cid then .next (if go then releaseCores [core] s else s)
    else if !(started && hs.all (·.preempted)) then .next s
    else match saveFault hs with
      | some (h, a, l) =>
        .next ((atGroup h.core h.slot (fun t => some (recordHeld a l t)) s).getD s)
      | none =>
        if saveWaits s c hs then .next s
        else
          let sv : SavedCluster := { id := cid, cluster := c, teams := c.teams.map (saveTeam s) }
          let t := c.teams.foldl (fun u i => evictTeam i u) (relieve c.teams s)
          let u := { t with
            clusters := smPut Cluster.reset t.clusters cid Cluster.reset
            mgmt := { t.mgmt with saved := t.mgmt.saved ++ [sv] } }
          let cores := sv.teams.map (·.team.core)
          .next (if go then releaseCores cores u else u)

/-! ## Resumption (R88, R210, R312) -/

/-- Registers of a bank that a saved team holds. -/
def savedUsed (t : SavedTeam) (b : Nat) : Nat :=
  t.groups.foldl (fun n g => n + g.usedIn b) 0 + t.team.kept.foldl (fun n v => n + expandedIn v b) 0

/-- What a core must have for a saved team: for each bank the larger of its floor and its live registers (R210). -/
def savedNeed (t : SavedTeam) : Need :=
  { groups := if t.team.alive then t.team.slots.length else 0, tiles := t.team.tiles.length, banks := t.team.scr.toNat ||| t.team.fifo.toNat
    regs := (List.range 4).map fun b => max ((t.team.floor + 3) / 4) (savedUsed t b) }

/-- Where the places of one cluster have moved: old (core, slot) to new. -/
abbrev Moves := List ((Nat × Nat) × (Nat × Nat))

/-- The new place of an old one. -/
def movedTo (mv : Moves) (p : Nat × Nat) : Nat × Nat := ((mv.find? fun m => m.1 == p).map (·.2)).getD p

/-- The slots of a saved cluster and where they go. -/
def movesOf (c : SavedCluster) (p : Placement) : Moves :=
  (c.teams.zip p.teams).flatMap fun x => (x.1.team.slots.zip x.2.slots).map fun y => ((x.1.team.core, y.1), (x.2.core, y.2))

/-- The accesses of the group in focus in its new place: what they have still to do replays from its translation (R86, R317). -/
def moveAccs (s : State) : State :=
  let go := fun (a : Acc) (l : LaneAcc) => if l.open_ then renewLane s a { l with retry := true, came := none } else l
  s.withG { s.g with accs := s.g.accs.map fun a => if a.isMem then { a with lanes := a.lanes.map (go a) } else a }

/-- A matrix entry in its new place. -/
def moveEntry (mv : Moves) (renum : Nat → Nat) (m : MEntry) : MEntry :=
  let q := movedTo mv (m.core, m.slot)
  { m with core := q.1, slot := q.2, tiles := m.tiles.map renum }

/-- A saved group in its new place, with its age counted from now; its resumption is an acquire (R71, R88). -/
def resumeGroup (mv : Moves) (renum : Nat → Nat) (stamp : Nat) (g : Group) : Group :=
  let p := movedTo mv (g.core, g.slot)
  let src := fun (x : Nat × Nat × Nat) => let q := movedTo mv (x.1, x.2.1); (q.1, q.2, x.2.2)
  { g with
    core := p.1, slot := p.2, ageC := stamp, ageV := stamp, acquired := stamp, entries := g.entries.map (moveEntry mv renum)
    tlog := g.tlog.map fun e => (renum e.1, e.2), arrivals := g.arrivals.map fun a => { a with src := src a.src } }

/-- The team in its new place, which it has taken now. -/
def resumeTeam (stamp : Nat) (t : Team) (p : TeamPlace) : Team :=
  let slot := fun (x : Nat) => ((t.slots.zip p.slots).find? fun y => y.1 == x).elim x (·.2)
  let fix := fun (l : List (Nat × Nat)) => l.map fun y => (slot y.1, y.2)
  { t with
    placed := stamp, core := p.core, slots := if t.alive then p.slots else t.slots, tiles := p.tiles
    rdv := t.rdv.map fun k => (k.1, ({ send := fix k.2.send, recv := fix k.2.recv } : Rdv)) }

/-- The bind record of a resumed group carries its saved identity (R420). -/
def resumeBind (lctx seq lead : Nat) (g : Group) : Bind :=
  { v := true, grp := g.id.grp, pc := lo56 g.pos.hdr, lctx := lctx, lead := lead, seq := seq, cx := g.id.cluX, cy := g.id.cluY
    cz := g.id.cluZ, row := g.id.row, col := g.id.col }

/-- Inserts a queued request at its saved place. -/
def insertAt (q : List (Nat × Nat)) (i : Nat) (p : Nat × Nat) : List (Nat × Nat) := q.take i ++ p :: q.drop i

/-- Withdrawn entries of ended groups join the table of a quad again, newly accepted in their old order; it may then hold more than 32
(R286, notes/assumptions/68.md). -/
def acceptAgain (q : Nat) (ms : List MEntry) (s : State) : State :=
  ms.foldl (fun t m =>
    { t with
      stamp := t.stamp + 1
      quads := smUpd Quad.reset t.quads q fun k => { k with table := k.table ++ [{ m with stamp := t.stamp, passed := 0 }] } }) s

/-- A saved team's tiles, banks, matrix entries, ownership and place in the queue are written back (R88, R286, R313); compressed names stay
so whatever room the uniform store has. The entries of its ended groups come first, and those of its other groups then follow group by group
in the order in which their slots are placed (notes/assumptions/68.md). -/
def restoreTeam (mv : Moves) (p : TeamPlace) (t : SavedTeam) (s : State) : State :=
  let lead := p.slots.headD 0
  let u := setBanks p.core lead t.team.scr.toNat t.team.fifo.toNat 0 s
  let place := fun (g : Nat) => (p.core, p.slots.getD g 0)
  let tiles := fun (m : SMap Tile) => (t.tiles.zip p.tiles).foldl (fun m x =>
    if stays x.1 then m else smPut Tile.reset m x.2 { x.1 with team := some t.id }) m
  let renum := fun (k : Nat) => ((t.team.tiles.zip p.tiles).find? fun y => y.1 == k).elim k (·.2)
  let upd := fun (q : Quad) =>
    let r : Quad := { q with
      tiles := tiles q.tiles
      owner := match t.owner with | some g => some (place g) | none => q.owner
      queue := t.queue.foldl (fun l x => insertAt l x.1 (place x.2)) q.queue }
    if r.owner.isNone then r.release s else r
  let unit := fun (x : Nat × Nat × Nat) => let q := movedTo mv (x.1, x.2.1); (q.1, q.2, x.2.2)
  let gr := smGet none u.grids t.team.grid
  let lctx := (gr.map fun g => bits g.handle 58 56).getD 0
  let seq := (gr.map fun g => bits g.handle 47 0).getD 0
  let gs := t.groups.map (resumeGroup mv renum s.stamp)
  let core := fun (c : Core) =>
    { c with
      fifo := t.fifo.foldl (fun m x => smPut [] m x.1 x.2) c.fifo
      units := t.units.foldl (fun m x => smPut [] m x.1 (x.2.map unit)) c.units
      bind := gs.foldl (fun m g => smPut Bind.reset m g.slot (resumeBind lctx seq lead g)) c.bind
      l1 := [] }
  acceptAgain (quadOfCore p.core) (t.entries.map (moveEntry mv renum)) { u with
    cores := smUpd Core.reset u.cores p.core core
    quads := smUpd Quad.reset u.quads (quadOfCore p.core) upd
    sram := t.sram.foldl (fun m x => smPut 0 m (p.core * 2 ^ 18 + x.1) x.2) u.sram
    teams := smPut Team.reset u.teams t.id (resumeTeam s.stamp t.team p)
    others := u.others ++ gs }

/-- The tiles a resumed team may take: free ones, and for a tile that is filling or draining the one it has in its own quad. -/
def tileBack (s : State) (t : SavedTeam) (p : TeamPlace) (i x : Nat) : Bool :=
  if (t.tiles[i]?).any stays then quadOfCore p.core == quadOfCore t.team.core && t.team.tiles[i]? == some x
  else tileFree s (quadOfCore p.core) x

/-- A team that owns the matrix engine resumes only where nobody owns it. -/
def ownerFits (s : State) (t : SavedTeam) (p : TeamPlace) : Bool :=
  t.owner.isNone || (smGet Quad.reset s.quads (quadOfCore p.core)).owner.isNone

/-- The cluster in its new place, with the puts of its ended groups. -/
def resumeCluster (mv : Moves) (die : Nat) (c : Cluster) : Cluster :=
  { c with
    die := die
    puts := c.puts.map fun p => let q := movedTo mv (p.core, p.slot); { p with core := q.1, slot := q.2 } }

/-- CONTEXT_RESUME: saved cluster number n resumes as a whole on the cores of a placement (R88, R210, R312, R422). -/
def execContextResume (n : Nat) (place : Placement) (s : State) : Out :=
  match s.mgmt.saved[n]? with
  | none => .next s
  | some c =>
    match smGet none s.grids c.cluster.grid with
    | none => .next s
    | some gr =>
      let ps := c.teams.zip place.teams
      let fits := ps.all fun x =>
        coreFits s (savedNeed x.1) x.2 (tileBack s x.1 x.2) && ownerFits s x.1 x.2
      if gr.term || !shapeOk s gr.w place || !fits || !tilesApart place then .next s
      else
        let mv := movesOf c place
        let t : State := { s with
          stamp := s.stamp + 1
          clusters := smPut Cluster.reset s.clusters c.id (resumeCluster mv place.die c.cluster)
          mgmt := { s.mgmt with saved := s.mgmt.saved.eraseIdx n } }
        let u := ps.foldl (fun u x => restoreTeam mv x.2 x.1 u) t
        let places := mv.map (·.2)
        let each := fun (f : State → State) (v : State) =>
          places.foldl (fun v p => (atGroup p.1 p.2 (fun w => some (f w)) v).getD v) v
        .next (each runOn (each moveAccs u))

end Sys2Proof.Machine
end

