-- ==== Sys2Proof/Machine/Bringup.lean ====
section
/-! DEFINITION. Power-up and bring-up (R426 to R430), key slots (R324, R432), attestation (R433), sensors (R422), soft errors (R76,
R77), and the host's messages about windows, communicators and drain targets (R404, R412 to R415). -/
namespace Sys2Proof.Machine

/-! ## Power-up (R426) -/

/-- The ports that the fuse map leaves present. -/
def presentPorts (s : State) : List Nat := (List.range 8).filter fun p => !s.mgmt.absentPorts.contains p

/-- The next present port to try after one: the next higher, or the lowest again (R426). -/
def nextPort (s : State) (p : Nat) : Nat :=
  let ps := presentPorts s
  ((ps.find? fun q => p < q).orElse fun _ => ps.head?).getD 0

/-- What power-up leaves: the reset state, with the sealed configuration store (R431), the units that its fuse map disables absent (R435), and
what the part is built with. -/
def coldState (s : State) : State :=
  let m := s.mgmt
  let r := Mgmt.reset
  { State.reset with
    agenda := s.agenda, fresh := s.fresh, stamp := s.stamp
    mgmt := { r with
      minVersion := m.minVersion, keyHash := m.keyHash, identity := m.identity, fused := m.fused, trainings := m.trainings
      mappings := m.mappings, absentDies := m.fused.dies
      absentPorts := m.fused.ports, absentCores := m.fused.cores, absentQuads := m.fused.quads, absentBasins := m.fused.basins
      setWin0 := m.setWin0, setWin1 := m.setWin1, cmdEp := m.cmdEp, attEp := m.attEp, faultCap := m.faultCap, drainCap := m.drainCap } }

/-- POWER_UP: state 1 of Table 181; the ROM tries the lowest present port. -/
def execPowerUp (s : State) : Out :=
  let t := coldState s
  .next { t with mgmt := { t.mgmt with trying := (presentPorts t).headD 0 } }

/-- PORT_TRAINING_TIMEOUT: the ROM moves to the next port, or starts again at the lowest (R426). -/
def execPortTrainingTimeout (s : State) : Out :=
  .next (if s.mgmt.state = 1 && s.mgmt.bootPort.isNone then
    { s with mgmt := { s.mgmt with trying := nextPort s s.mgmt.trying } } else s)

/-- BOOT_PORT_TRAINED: the port that the ROM tries becomes the boot port (R426). -/
def execBootPortTrained (s : State) : Out :=
  .next (if s.mgmt.state = 1 && s.mgmt.bootPort.isNone && (presentPorts s).contains s.mgmt.trying then
    { s with mgmt := { s.mgmt with bootPort := some s.mgmt.trying } } else s)

/-- BRING_UP_FAULT: a fault at any stage returns the device to state 1 with the boot port up (R426); the corrected soft errors are counted
from power-up (Table 183). -/
def execBringUpFault (s : State) : Out :=
  let t := coldState s
  .next { t with mgmt := { t.mgmt with bootPort := s.mgmt.bootPort, trying := s.mgmt.trying, softErrors := s.mgmt.softErrors } }

/-! ## The image (R427, Table 182) -/

/-- The number in bytes [i, i + n) of an image. -/
def imgNat (img : List Byte) (i n : Nat) : Nat := leNat ((img.drop i).take n)

/-- The SHA-256 of an image's header and body. -/
def imageHash (img : List Byte) : BitVec 256 := sha256 (img.take (64 + imgNat img 8 8))

/-- Magic, length, version, and the signature r, s by the key whose hash the store holds (R427, Table 182). -/
def imageOk (s : State) (img : List Byte) : Bool :=
  let len := imgNat img 8 8
  let sig := img.drop (64 + len)
  imgNat img 0 4 == 0x5059_4E41 && 64 ≤ len && len ≤ 64 * 2 ^ 20 && len % 64 == 0 && img.length == 128 + len &&
    s.mgmt.minVersion.toNat ≤ imgNat img 4 4 &&
    ecdsaVerify (Config.imageKey s.mgmt.keyHash) (imageHash img).toNat (beNat (sig.take 32)) (beNat (sig.drop 32))

/-- IMAGE_DOWNLOAD: in state 1 the ROM starts an image that passes every check, and the firmware enters state 2; any other is
discarded with status ENGINE_COMMAND (R427, R428). -/
def execImageDownload (img : List Byte) (s : State) : Out :=
  if s.mgmt.state ≠ 1 ∨ s.mgmt.bootPort = none then .next s
  else
    let say := fun (c : BitVec 8) (m : Mgmt) => { m with outbox := m.outbox ++ [.image c] }
    if imageOk s img then
      let im : Image :=
        { ver := BitVec.ofNat 32 (imgNat img 4 4), hash := imageHash img, entry := imgNat img 16 8 }
      .next { s with mgmt := say 0 { s.mgmt with state := 2, image := some im } }
    else .next { s with mgmt := say cEngineCommand s.mgmt }

/-- The window of a token die as the store sets it: at a multiple of 1 GiB, of whole pages, at most 128 GiB, within the DRAM of its die,
whose stacks begin at `stack` (R385); any other setting leaves it closed (notes/assumptions/76.md). -/
def windowOf (s : State) (d stack : Nat) (w : Nat × Nat) : Nat × Nat :=
  if w.1 % 2 ^ 30 = 0 ∧ w.2 % 65536 = 0 ∧ w.2 ≤ 128 * 2 ^ 30 ∧ stack * 2 ^ 36 ≤ w.1 ∧ w.1 + w.2 ≤ (stack + 4) * 2 ^ 36 ∧ diePresent s d then w
  else (0, 0)

/-- Units that have failed training are absent, beside those that were (R435). -/
def loseUnits (f : Units) (m : Mgmt) : Mgmt :=
  { m with
    absentDies := (m.absentDies ++ f.dies).eraseDups, absentPorts := (m.absentPorts ++ f.ports).eraseDups
    absentCores := (m.absentCores ++ f.cores).eraseDups, absentQuads := (m.absentQuads ++ f.quads).eraseDups
    absentBasins := (m.absentBasins ++ f.basins).eraseDups }

/-- FULL_SERVICE: state 2 gives way to state 3 when no grid is resident (R430). The units that fail training are absent, and the image may
raise the minimum version (R431, R435), as the next training of the state has it (notes/assumptions/79.md); the handoff windows open as
the store sets them (R385). -/
def execFullService (s : State) : Out :=
  if s.mgmt.state = 2 ∧ s.grids = [] then
    let n := s.mgmt.trainings.headD { failed := Units.none, raise := 0 }
    let t := { s with mgmt := loseUnits n.failed s.mgmt }
    let m := t.mgmt
    .next { t with mgmt := { m with
      state := 3, trainings := m.trainings.tail, minVersion := if m.minVersion.toNat < n.raise.toNat then n.raise else m.minVersion
      win0 := windowOf t 3 4 m.setWin0, win1 := windowOf t 4 8 m.setWin1 } }
  else .next s

/-! ## Attestation (R433) -/

/-- The fields of a report, hashes, key and nonce with their highest byte first (R433, notes/assumptions/9.md). -/
def reportBody (nonce : BitVec 256) (s : State) : List Byte :=
  let m := s.mgmt
  beBytes 32 nonce.toNat ++ [m.state] ++ beBytes 32 ((m.image.map fun i => i.hash.toNat).getD 0) ++
    leBytes 4 ((m.image.map fun i => i.ver.toNat).getD 0) ++ shaBytes (capabilityBlock s) ++ beBytes 64 (pubOf m.identity.toNat).toNat

/-- A report with its signature r, s by the identity key. -/
def report (nonce : BitVec 256) (s : State) : List Byte :=
  let body := reportBody nonce s
  let sig := ecdsaSign s.mgmt.identity.toNat (sha256 body).toNat (Config.signNonce s.fresh).toNat
  body ++ beBytes 32 sig.1 ++ beBytes 32 sig.2

/-- ATTESTATION_REQUEST: with a nonce the report of R433 is sent; without one the host reads the capability block (R434). The endpoint is
reached on the boot port, once one has trained (R426). -/
def execAttestationRequest (nonce : Option (BitVec 256)) (s : State) : Out :=
  if s.mgmt.bootPort = none then .next s
  else
    let bytes := match nonce with | some n => report n s | none => capabilityBlock s
    .next { s with fresh := s.fresh + 1, mgmt := { s.mgmt with outbox := s.mgmt.outbox ++ [.report bytes] } }

/-! ## Sensors and soft errors -/

/-- SENSOR_SAMPLE: a core becomes hot at 95.0 °C or 60 mV, and cool at 85.0 °C and 35 mV; temperatures in quarter degrees (R422). -/
def execSensorSample (core : Nat) (quarterDeg : Int) (droop : Nat) (s : State) : Out :=
  let hot := decide (380 ≤ quarterDeg) || decide (60 ≤ droop)
  let cool := decide (quarterDeg ≤ 340) && decide (droop ≤ 35)
  .next { s with cores := smUpd Core.reset s.cores core fun c =>
    { c with hot := if hot then true else if cool then false else c.hot } }

/-- UNCORRECTABLE_SOFT_ERROR: a corrected soft error is counted; an uncorrectable one poisons its 32-byte sector (R76, R77). -/
def execUncorrectableSoftError (pa : Nat) (corrected : Bool) (s : State) : Out :=
  .next (if corrected then { s with mgmt := { s.mgmt with softErrors := s.mgmt.softErrors + 1 } }
    else if isMemory s pa then { s with poison := smPut false s.poison (pa / 32) true } else s)

/-! ## Windows (R413, R414) -/

/-- The address space of the grid a launch handle names, while its context records the launch. -/
def gridAsid (s : State) (h : Word) : Nat :=
  match handleRef h with
  | some (.launch c, seq) =>
    let x := s.ctx (.launch c)
    (((x.cmds ++ x.past).find? fun k => k.seq % 2 ^ 48 == seq).map lAsid).getD 0
  | _ => 0

/-- OPEN_WINDOW: 0 is written to the version word; TARGET_BAD when the window is open (R413, R415). -/
def execOpenWindow (tag : BitVec 32) (win : Nat) (grid base : BitVec 64) (len vaddr : Nat) (s : State) : Out :=
  if s.mgmt.state = 1 then .next s
  else if 256 ≤ win then .next (replyTo 0x02 tag (statusOf cEngineCommand) s)
  else match smGet none s.coll.windows win with
    | some _ => .next (replyTo 0x02 tag (statusOf cTargetBad) s)
    | none =>
      let w : Window := { grid := grid, base := base, len := len, vaddr := vaddr, version := 0, asid := gridAsid s grid }
      .next (replyTo 0x02 tag 0 { s with
        coll := { s.coll with windows := smPut none s.coll.windows win (some w) }
        host := smWrite s.host vaddr (leBytes 8 0) })

/-- A group waits at the release of a `publish` of a window (R190, R414). -/
def publishing (s : State) (win : Nat) : Bool :=
  (s.g :: s.others).any fun g => g.live && !g.halted && g.block == .release .sys &&
    match g.pos.code[g.pos.idx]?.map decodeCtl with
    | some (.ok (.publish _ w)) => w.toNat == win
    | _ => false

/-- CLOSE_WINDOW: it waits for a publish in flight; the next version itself is written in one step (R414). -/
def execCloseWindow (tag : BitVec 32) (win : Nat) (s : State) : Out :=
  if s.mgmt.state = 1 then .next s
  else if 256 ≤ win then .next (replyTo 0x03 tag (statusOf cEngineCommand) s)
  else if publishing s win then .next s
  else .next (replyTo 0x03 tag 0 { s with coll := { s.coll with windows := smPut none s.coll.windows win none } })

/-- HOST_RMA_READ: bytes of an open window's range, served at their homes (R413); a read that meets a fault returns nothing. -/
def execHostRmaRead (win off len : Nat) (s : State) : Out :=
  match smGet none s.coll.windows win with
  | none => .next s
  | some w =>
    if w.len < off + len then .next s
    else match engRead (.die 0) w.asid (w.base + BitVec.ofNat 64 off) len s with
      | .ok r => .next { r.1 with mgmt := { r.1.mgmt with outbox := r.1.mgmt.outbox ++ [.rma r.2] } }
      | _ => .next s

/-! ## Communicators, drain targets and key slots -/

/-- A port mask names present ports only (R399). -/
def portsOk (s : State) (ports : BitVec 8) : Bool := (List.range 8).all fun p => !ports.getLsbD p || (presentPorts s).contains p

/-- A command that has not ended names this communicator, whether or not it has passed its checks (R404); a `step` without a barrier names
none where its unused field is zero. -/
def commNamed (s : State) (n : Nat) : Bool :=
  s.coll.ctx.any fun c => c.2.cmds.any fun k => k.fin.isNone &&
    ((k.w.cmd != 6 && !(k.w.cmd == 7 && k.w.w1 != 1 && n == 0) && bits k.w.w0 51 44 == n) ||
      (k.entry.any fun w => bits w.w0 51 44 == n) || ((armedBucket c.1 k s).any fun b => bits b.cmd.w0 51 44 == n))

/-- SET_COMMUNICATOR (R404, R415). -/
def execSetCommunicator (tag : BitVec 32) (num rank : Nat) (ports : BitVec 8) (eps : List Nat) (s : State) : Out :=
  if s.mgmt.state = 1 then .next s
  else if 256 ≤ num ∨ eps = [] ∨ 65536 < eps.length ∨ eps.length ≤ rank ∨ portsOk s ports = false then
    .next (replyTo 0x04 tag (statusOf cEngineCommand) s)
  else if commNamed s num then .next (replyTo 0x04 tag (statusOf cTargetBad) s)
  else
    let c : Comm := { eps := eps, rank := rank, ports := ports, bars := [] }
    .next (replyTo 0x04 tag 0 { s with coll := { s.coll with comms := smPut none s.coll.comms num (some c) } })

/-- A snapshot that has not ended uses this drain slot (Table 175). -/
def slotUsed (s : State) (slot : Nat) : Bool :=
  ((basinCmds s).any fun p => p.2.fin.isNone && p.2.w.cmd == 9 && !p.2.bad && bits p.2.w.w4 3 0 == slot) ||
    s.basins.any fun b => b.2.drain.any fun c => c.target == slot

/-- SET_DRAIN_TARGET (R412, R415). -/
def execSetDrainTarget (tag : BitVec 32) (slot endpoint : Nat) (ports : BitVec 8) (base len key : Nat) (s : State) : Out :=
  if s.mgmt.state = 1 then .next s
  else if 16 ≤ slot ∨ portsOk s ports = false then .next (replyTo 0x05 tag (statusOf cEngineCommand) s)
  else if slotUsed s slot then .next (replyTo 0x05 tag (statusOf cTargetBad) s)
  else
    let t : Target := { endpoint := endpoint, ports := ports, base := base, len := len, key := key }
    .next (replyTo 0x05 tag 0 { s with coll := { s.coll with targets := smPut none s.coll.targets slot (some t) } })

/-- Some valid leaf of a table, from a level down, maps under a key slot. -/
def mapsUnder (s : State) (slot : Nat) : Nat → Nat → Nat → Bool
  | 0, _, _ => false
  | f + 1, table, level => (List.range (levelEntries level)).any fun i =>
    let e := BitVec.ofNat 64 (viewNat s (table + 8 * i) 8)
    pteValid s level e &&
      if e.getLsbD 1 then e.toNat / 2 ^ 60 == slot else mapsUnder s slot f (e.toNat / 256 % 2 ^ 44 * 256) (level + 1)

/-- A page of some address space maps under a key slot (R432). -/
def slotMapped (s : State) (slot : Nat) : Bool :=
  s.mgmt.spaces.any fun p => match p.2 with | some root => mapsUnder s slot 5 root 0 | none => false

/-- A slot takes a key: lines that L2 still held under it leave, as DRAM holds them encrypted under the old key, and read under the slot as
that ciphertext does under the new (R324, R325, notes/assumptions/77.md). -/
def putKey (slot : Nat) (key : BitVec 512) (s : State) : State :=
  let lines := (s.lineKey.filter fun p => p.2 == slot).map (·.1)
  let line := fun (d : List Host.Cell) (l : Nat) => smWrite d (128 * l) (recrypt (keyOf s slot) (some key) l (smBytes d (128 * l) 128))
  { s with
    dram := lines.foldl line s.dram
    l2 := s.l2.filter fun p => !p.2.any fun l => l.key == slot
    mgmt := { s.mgmt with keySlots := smPut none s.mgmt.keySlots slot (some key) } }

/-- The key that a message wraps for a slot: its key-encryption key is derived from the ECDH secret of the host's key and the identity key
with the slot number, as one byte, for context (R432, notes/assumptions/9.md). -/
def unwrapKey (s : State) (pub : BitVec 512) (blob : BitVec 576) (slot : Nat) : Option (BitVec 512) :=
  (ecdh s.mgmt.identity.toNat (pub.toNat / 2 ^ 256) (pub.toNat % 2 ^ 256)).bind fun z =>
    (aesUnwrap (hkdf z [BitVec.ofNat 8 slot]) (beBytes 72 blob.toNat)).map fun k => BitVec.ofNat 512 (leNat k)

/-- LOAD_KEY_SLOT: a generated or an unwrapped key is loaded; TARGET_BAD for a slot in use, ENGINE_COMMAND for a malformed body or an
unwrap that fails (R432). It waits while a registration is in progress (R336, R366). -/
def execLoadKeySlot (tag : BitVec 32) (slot : Nat) (key : KeyLoad) (s : State) : Out :=
  if s.mgmt.state = 1 then .next s
  else if slot = 0 ∨ 16 ≤ slot then .next (replyTo 0x07 tag (statusOf cEngineCommand) s)
  else if slotMapped s slot then .next (replyTo 0x07 tag (statusOf cTargetBad) s)
  else if !(registering s).isEmpty then .next s
  else match key with
    | .generated => .next (replyTo 0x07 tag 0 (putKey slot (Config.freeKey s.fresh) { s with fresh := s.fresh + 1 }))
    | .wrapped pub blob =>
      match unwrapKey s pub blob slot with
      | some k => .next (replyTo 0x07 tag 0 (putKey slot k s))
      | none => .next (replyTo 0x07 tag (statusOf cEngineCommand) s)

end Sys2Proof.Machine
end

