-- ==== Sys2Proof/Machine/Rdv.lean ====
section
/-! DEFINITION. Rendezvous between the groups of a team (R246, R247), register puts within a cluster (R248, R249), and their
arrivals, which bind at the target (R437). -/
namespace Sys2Proof.Machine

/-- The lanes an instruction carries: every active lane of an operand. -/
def VEnv.carry (e : VEnv) (v : VVal) : List LaneAcc :=
  e.active.map fun n => { lane := n, va := 0, loc := .capa 0, data := v.word n, cmp := 0, done := false, held := none }

/-- `xsend` copies A at issue and waits at its slot without holding its pipe; a zero mask joins too (R246, R247, R266). -/
def execXsend (c : VCtl) (slot : BitVec 4) (wide : Bool) (a : VSrc) (s : State) : Out :=
  vvar { zForm c with a := some ⟨a, wide⟩ } (fun _ => []) s fun e u =>
    let acc := e.acc u (.xsend slot.toNat) (if wide then 8 else 4) (e.carry e.a) .none false false .grp
    vdone e (joinSlot false slot.toNat u.stamp (issueAcc acc u))

/-- `xrecv` waits at its slot; its name binds when the data arrives (R205, R246). -/
def execXrecv (c : VCtl) (slot : BitVec 4) (wide : Bool) (d : VReg) (s : State) : Out :=
  vvar (zForm c) (fun _ => []) s fun e u =>
    let acc := e.acc u (.xrecv slot.toNat) (if wide then 8 else 4) [] (.recv d wide) false false .grp
    vdone e (joinSlot true slot.toNat u.stamp (issueAcc acc u))

/-! ## Arrivals -/

/-- The values a carried list writes in the low or high register. -/
def carried (ls : List LaneAcc) (hi : Bool) : Lanes :=
  mkLanes fun n => match ls.find? fun l => l.lane == n with
    | some l => l.data.extractLsb' (if hi then 32 else 0) 32
    | none => 0

/-- The names an arrival writes under a mask. -/
def arrivalWrites (r : VReg) (wide : Bool) (m : Mask) (ls : List LaneAcc) : List NameWrite :=
  if m = 0 then []
  else if wide then [(r, m, some (carried ls false)), (r + 1, m, some (carried ls true))] else [(r, m, some (carried ls false))]

/-- Writes bound names at once. -/
def landNow (ws : List NameWrite) (g : Group) : Group :=
  ws.foldl (fun h w => h.land w.1 ((h.bindOf w.1).getD 0) w.2.1 (w.2.2.getD 0)) g

/-- An arrival at the group in focus: it binds and writes, or it waits there with its age (R205, R437). -/
def arrive (src : Nat × Nat × Nat) (dst : Nat) (ws : List NameWrite) (s : State) : State × Bool :=
  let mine := s.g.arrivals.find? fun a => a.src == src && a.dst == dst
  let born := (mine.map (·.born)).getD s.stamp
  match bindAll s born ws s with
  | some t =>
    let g := landNow ws t.g
    ({ t with stamp := t.stamp + 1, g := { g with arrivals := g.arrivals.filter fun a => !(a.src == src && a.dst == dst) } }, true)
  | none =>
    if mine.isSome then (s, false)
    else
      let a : Arrival := { born := born, banks := needBanks ws s, src := src, dst := dst, names := [] }
      ({ s with stamp := s.stamp + 1, g := { s.g with arrivals := s.g.arrivals ++ [a] } }, false)

/-- Drops an access of a group that may not be in focus. -/
def dropAt (core slot stamp : Nat) (s : State) : State :=
  (atGroup core slot (fun t => some (t.withG (t.g.dropAcc stamp))) s).getD s

/-- The data of a pair reaches the receiver: it takes its own width of the lanes active on both sides (R247). -/
def deliverPair (send recv : Nat × Nat) (s : State) : State :=
  let core := s.g.core
  match (s.groupAt core send.1).bind fun g => g.accs.find? fun a => a.stamp == send.2,
        (s.groupAt core recv.1).bind fun g => g.accs.find? fun a => a.stamp == recv.2 with
  | some x, some y =>
    match y.dst with
    | .recv r wide =>
      let ws := arrivalWrites r wide (x.mask &&& y.mask) x.lanes
      let done := fun (t : State) =>
        let q := arrive (core, send.1, send.2) recv.2 ws t
        some (if q.2 then q.1.withG (q.1.g.dropAcc recv.2) else q.1)
      let t := (atGroup core recv.1 done s).getD s
      let waits := ((t.groupAt core recv.1).map fun g => g.arrivals.any fun a => a.dst == recv.2).getD false
      if waits then t else dropAt core send.1 send.2 t
    | _ => s
  | _, _ => s

/-- The pair of a slot that waits to bind, oldest first, as (sender, receiver). -/
def waitingPairs (s : State) (k : Nat) : List ((Nat × Nat) × (Nat × Nat)) :=
  ((s.g :: s.others).filter fun h => h.live && h.core == s.g.core && h.team == s.g.team).flatMap fun h =>
    (h.arrivals.filter fun a => h.accs.any fun x => x.stamp == a.dst && x.kind == .xrecv k).map fun a => ((a.src.2.1, a.src.2.2), (h.slot, a.dst))

/-- RENDEZVOUS_PAIRING: a pair of the slot that waited to bind is delivered when it can be; otherwise the first sender pairs with
the first receiver in order of arrival (R246, R247, R437). -/
def execRendezvousPairing (slot : Nat) (s : State) : Out :=
  let woke := (waitingPairs s slot).foldl (fun (o : Option State) p =>
    match o with
    | some t => some t
    | none =>
      let t := deliverPair p.1 p.2 s
      if (waitingPairs t slot).contains p then none else some t) none
  match woke with
  | some t => .next t
  | none =>
    let r := smGet Rdv.reset s.team.rdv slot
    match r.send, r.recv with
    | a :: ss, b :: rs =>
      let upd := fun (m : Team) => { m with rdv := smPut Rdv.reset m.rdv slot { send := ss, recv := rs } }
      .next (deliverPair a b { s with teams := smUpd Team.reset s.teams s.g.team upd })
    | _, _ => .next s

/-! ## Register puts -/

/-- Fields of a descriptor (Table 95): counter, position, group, register. -/
def descCtr (d : BitVec 32) : Nat := d.toNat / 2 ^ 20 % 8
def descPos (d : BitVec 32) : Nat := d.toNat / 2 ^ 16 % 16
def descGrp (d : BitVec 32) : Nat := d.toNat / 2 ^ 11 % 32
def descReg (d : BitVec 32) : VReg := BitVec.ofNat 11 d.toNat

/-- The cluster of the group in focus. -/
def State.cluster (s : State) : Cluster := smGet Cluster.reset s.clusters s.team.cluster

/-- The target team of a descriptor. -/
def rputTeam (s : State) (d : BitVec 32) : Team := smGet Team.reset s.teams (s.cluster.teams.getD (descPos d) 0)

/-- TARGET_BAD with INFO the descriptor, whatever the execute mask (R248). -/
def rputFault (s : State) (m : Mask) (wide : Bool) (d : BitVec 32) : List VFault :=
  let bad := d.toNat / 2 ^ 23 != 0 || s.cluster.cw * s.cluster.ch ≤ descPos d || (rputTeam s d).slots.length ≤ descGrp d ||
    (wide && d.getLsbD 0)
  if bad then [{ code := cTargetBad, lanes := m, acc := 0, addr := 0, info := d.zeroExtend 64 }] else []

/-- `rput`: a release at cluster scope of the slice's earlier accesses, which the put waits for; its counter addition is made under a zero
mask too (R248, R249, R266). -/
def execRput (c : VCtl) (wide : Bool) (a : VSrc) (k : BitVec 6) (s : State) : Out :=
  vvar { zForm c with a := some ⟨a, wide⟩ } (fun e => rputFault e.base e.m wide (e.base.g.readK k)) s fun e u =>
    let acc := e.acc u (.rput (u.g.readK k)) (if wide then 8 else 4) (e.carry e.a) .none false true .clu
    e.release acc (vdone e (issueAcc acc u))

/-- Adds 1 to an arrival counter of the group in focus (R138). -/
def bumpCounter (n : Nat) (s : State) : State :=
  s.withG { s.g with a := smUpd 0 s.g.a n (· + 1) }

/-- A put in flight: its cluster, its sender's place and its access, and whether the sender is the group in focus. -/
def findPut (s : State) (stamp : Nat) : Option (Nat × Put × Bool) :=
  match s.g.accs.find? fun a => a.stamp == stamp with
  | some a => some (s.team.cluster, { core := s.g.core, slot := s.g.slot, acc := a }, true)
  | none => s.clusters.findSome? fun c => (c.2.puts.find? fun p => p.acc.stamp == stamp).map fun p => (c.1, p, false)

/-- Changes the access of a put in flight, or ends it. -/
def updPut (f : Nat × Put × Bool) (upd : Acc → Option Acc) (s : State) : State :=
  let st := f.2.1.acc.stamp
  if f.2.2 then s.withG { s.g with accs := s.g.accs.filterMap fun a => if a.stamp = st then upd a else some a }
  else
    let put := fun (p : Put) => if p.acc.stamp = st then (upd p.acc).map fun a => { p with acc := a } else some p
    { s with clusters := smUpd Cluster.reset s.clusters f.1 fun c => { c with puts := c.puts.filterMap put } }

/-- The lanes of a put that are to land: those named, without those that have landed. -/
def putMask (a : Acc) (lanes : Mask) : Mask :=
  a.lanes.foldl (fun (m : Mask) l => if lanes.getLsbD l.lane && !l.done then m ||| (1#32 <<< l.lane) else m) 0

/-- A put at its target group, in focus: it binds or waits there with its age; once bound, the lanes named land, each in its own time, but
a name in the uniform store, which has one value, takes all of them as it binds; after the last the counter is incremented (R205,
R211, R248, R437). -/
def landPut (src : Nat × Nat × Nat) (d : BitVec 32) (a : Acc) (lanes : Mask) (s : State) : State :=
  let ws := arrivalWrites (descReg d) (a.w == 8) a.mask a.lanes
  let mine := s.g.arrivals.find? fun x => x.src == src && x.dst == 0
  let rest := fun (g : Group) => g.arrivals.filter fun x => !(x.src == src && x.dst == 0)
  let m := putMask a lanes
  let go := fun (names : List (VReg × Nat)) (born : Nat) (t : State) =>
    let value := fun (r : VReg) => ((ws.find? fun w => w.1 == r).bind fun w => w.2.2).getD 0
    let g := names.foldl (fun h x => h.land x.1 x.2 m (value x.1)) t.g
    if names.isEmpty || m == putMask a 0xFFFF_FFFF then bumpCounter (descCtr d) (t.withG { g with arrivals := rest g })
    else t.withG { g with arrivals := rest g ++ [{ born := born, banks := [], src := src, dst := 0, names := names }] }
  match mine with
  | some x =>
    if !x.names.isEmpty then go x.names x.born s
    else match bindAll s x.born ws s with
      | some t => go (bound ws t.g) x.born (whole ws t)
      | none => s
  | none =>
    match bindAll s s.stamp ws s with
    | some t => go (bound ws t.g) s.stamp { whole ws t with stamp := s.stamp + 1 }
    | none =>
      let x : Arrival := { born := s.stamp, banks := needBanks ws s, src := src, dst := 0, names := [] }
      { s with stamp := s.stamp + 1, g := { s.g with arrivals := s.g.arrivals ++ [x] } }
where
  bound (ws : List NameWrite) (g : Group) : List (VReg × Nat) :=
    (ws.filter fun w => !(g.name w.1).any (·.comp)).map fun w => (w.1, (g.bindOf w.1).getD 0)
  whole (ws : List NameWrite) (t : State) : State :=
    t.withG (landNow (ws.filter fun w => (t.g.name w.1).any (·.comp)) t.g)

/-- RPUT_ARRIVAL: the lanes named of a put whose release is complete reach the target group; a group that has not started keeps it
waiting, and at one that has ended it completes with no effect (R248, R249, R437). -/
def execRputArrival (part : PutLanes) (s : State) : Out :=
  match findPut s part.stamp with
  | none => .next s
  | some f =>
    let p := f.2.1
    match p.acc.kind with
    | .rput d =>
      let tm := smGet Team.reset s.teams ((smGet Cluster.reset s.clusters f.1).teams.getD (descPos d) 0)
      let sl := tm.slots.getD (descGrp d) 0
      let src := (p.core, p.slot, part.stamp)
      if f.2.2 && !accEnabled s s.g p.acc then .next s
      else if tm.slots.isEmpty || tm.ended.contains (descGrp d) then .next (updPut f (fun _ => none) s)
      else match atGroup tm.core sl (fun t => some (landPut src d p.acc part.lanes t)) s with
        | none => .next s
        | some t =>
          match ((t.groupAt tm.core sl).bind fun g => g.arrivals.find? fun x => x.src == src && x.dst == 0) with
          | none => .next (updPut f (fun _ => none) t)
          | some x =>
            let land := fun (l : LaneAcc) => if part.lanes.getLsbD l.lane then { l with done := true } else l
            .next (if x.names.isEmpty then t else updPut f (fun a => some { a with lanes := a.lanes.map land }) t)
    | _ => .next s

end Sys2Proof.Machine
end

