-- ==== Sys2Proof/Machine/Trans.lean ====
section
/-! DEFINITION. Reciprocal, roots, exponential, logarithm, sine and cosine, correctly rounded (R223, R224): exact division and
integer roots, and otherwise bounds in fixed point that are refined until both ends round to one result. -/
namespace Sys2Proof.Machine

/-! ## Integer roots -/

/-- The largest r whose square is at most n, bit by bit. -/
def isqrtGo (n : Nat) : Nat → Nat → Nat
  | 0, r => r
  | k + 1, r => let b := r + 2 ^ k; isqrtGo n k (if b * b ≤ n then b else r)

/-- Integer square root. -/
def isqrt (n : Nat) : Nat := isqrtGo n (Nat.log2 n / 2 + 1) 0

/-- A positive value given by its floor at a scale, exact or strictly above it. -/
structure Bound where
  m : Nat
  e : Int
  sticky : Bool
  deriving DecidableEq, Repr

/-- 1 / (m · 2^e). -/
def recipBound (m : Nat) (e : Int) : Bound :=
  let n := Nat.log2 m + 70
  { m := 2 ^ n / m, e := -(n : Int) - e, sticky := 2 ^ n % m != 0 }

/-- Square root of m · 2^e with e even. -/
def sqrtBound (m : Nat) (e : Int) : Bound :=
  let r := isqrt (m * 2 ^ 140)
  { m := r, e := e / 2 - 70, sticky := r * r != m * 2 ^ 140 }

/-- Reciprocal square root of m · 2^e with e even. -/
def rsqrtBound (m : Nat) (e : Int) : Bound :=
  let n := Nat.log2 m + 70
  let r := isqrt (2 ^ (2 * n) / m)
  { m := r, e := -(n : Int) - e / 2, sticky := r * r * m != 2 ^ (2 * n) }

/-- A number with an even exponent of the same value. -/
def evenExp (m : Nat) (e : Int) : Nat × Int := if e % 2 = 0 then (m, e) else (2 * m, e - 1)

/-! ## Fixed-point series: p fraction bits, t terms -/

/-- Terms of atanh (or atan, with alternating signs) of z: z, z³/3, … from the power held, as a sum. -/
def atanGo (alt : Bool) (z2 p : Nat) : Nat → Nat → Nat → Int → Int
  | 0, _, _, acc => acc
  | t + 1, pw, k, acc =>
    let term : Int := (pw / (2 * k + 1) : Nat)
    atanGo alt z2 p t (pw * z2 / 2 ^ p) (k + 1) (if alt && k % 2 == 1 then acc - term else acc + term)

/-- atanh or atan of num/den, within 2t + 4 units. -/
def atanFix (alt : Bool) (num den p t : Nat) : Int :=
  let z := num * 2 ^ p / den
  atanGo alt (z * z / 2 ^ p) p t z 0 0

/-- ln 2 = 2 atanh(1/3), from below. -/
def ln2Fix (p t : Nat) : Nat := (2 * atanFix false 1 3 p t).toNat

/-- π by Machin's formula; the true value lies within 64t units. -/
def piFix (p t : Nat) : Nat := (16 * atanFix true 1 5 p t - 4 * atanFix true 1 239 p t).toNat

/-- Terms of exp: from the term held, as a sum. -/
def expGo (y p : Nat) : Nat → Nat → Nat → Nat → Nat
  | 0, _, _, acc => acc
  | t + 1, term, k, acc => expGo y p t (term * y / (2 ^ p * k)) (k + 1) (acc + term)

/-- exp of y units, from below, within 4t + 8 units for y below one. -/
def expFix (y p t : Nat) : Nat := expGo y p t (2 ^ p) 1 0

/-- Terms of sine or cosine with alternating signs. -/
def trigGo (r2 p : Nat) : Nat → Nat → Nat → Nat → Int → Int
  | 0, _, _, _, acc => acc
  | t + 1, term, k, par, acc =>
    trigGo r2 p t (term * r2 / (2 ^ p * ((k + 1) * (k + 2)))) (k + 2) (par + 1)
      (if par % 2 = 1 then acc - (term : Int) else acc + (term : Int))

/-- Sine of r units (r below π/2), within 16t + 16 units. -/
def sinFix (r p t : Nat) : Int := trigGo (r * r / 2 ^ p) p t r 1 0 0

/-- Cosine of r units, within 16t + 16 units. -/
def cosFix (r p t : Nat) : Int := trigGo (r * r / 2 ^ p) p t (2 ^ p) 0 0 0

/-! ## Rounding between bounds -/

/-- A value strictly between lo and hi units of 2^e rounds to one result when both ends do. -/
def Fmt.between (f : Fmt) (mode : Rnd) (fo neg : Bool) (lo hi : Int) (e : Int) : Option (Nat × Flags) :=
  if lo < 2 ^ 60 then none
  else
    let a := f.roundFin mode fo neg lo.toNat e true
    if a = f.roundFin mode fo neg (hi.toNat - 1) e true then some a else none

/-- m · 2^e in units of 2^-p, from below, and whether that is exact. -/
def toUnits (m : Nat) (e : Int) (p : Nat) : Nat × Bool :=
  let k := e + p
  if 0 ≤ k then (m * 2 ^ k.toNat, true) else (m / 2 ^ (-k).toNat, m % 2 ^ (-k).toNat == 0)

/-- 2^x for x = ±m·2^e not an integer: the integer part n and the bounds of 2^(x−n) in units of 2^-p. -/
def exp2Bounds (neg : Bool) (m : Nat) (e : Int) (p t : Nat) : Int × Int × Int :=
  let u := toUnits m e p
  let xlo : Int := if neg then -((u.1 : Int) + (if u.2 then 0 else 1)) else u.1
  let xhi : Int := if u.2 then xlo else xlo + 1
  let n := xlo / 2 ^ p
  let flo := (xlo - n * 2 ^ p).toNat
  let fhi := (xhi - n * 2 ^ p).toNat
  let l := ln2Fix p t
  let lo := expFix (flo * l / 2 ^ p) p t
  let hi := expFix (fhi * (l + 4 * t + 8) / 2 ^ p + 1) p t + 4 * t + 8
  (n, lo, min hi (2 ^ (p + 1)))

/-- log₂ of a number between 1 and 2, as bounds in units of 2^-p; the number is m / 2^(log2 m). -/
def log2Bounds (m p t : Nat) : Int × Int :=
  let d := 2 ^ Nat.log2 m
  let at_ := (2 * atanFix false (m - d) (m + d) p t).toNat
  let l := ln2Fix p t
  ((at_ * 2 ^ p / (l + 4 * t + 8) : Nat), ((at_ + 4 * t + 8) * 2 ^ p / l + 1 : Nat))

/-- The quadrant and the remainder bounds of x = m·2^e in units of 2^-p, when the bounds share a quadrant. -/
def reduce (m : Nat) (e : Int) (p t : Nat) : Option (Nat × Nat × Nat) :=
  let u := toUnits m e p
  let xhi := if u.2 then u.1 else u.1 + 1
  let pl := piFix p t - 64 * t
  let ph := piFix p t + 64 * t
  let k := 2 * u.1 / ph
  if 2 * xhi / pl = k then some (k, u.1 - (k * ph + 1) / 2, xhi - k * pl / 2) else none

/-- Bounds of |sin| or |cos| of x and the sign: `q` is the quadrant, plus one for the cosine (R224). -/
def trigBounds (q rlo rhi p t : Nat) : Bool × Int × Int :=
  let err : Int := 16 * (t : Int) + 16
  let b := if q % 2 = 0 then (sinFix rlo p t - err, sinFix rhi p t + err) else (cosFix rhi p t - err, cosFix rlo p t + err)
  (q / 2 % 2 == 1, b.1, min b.2 (2 ^ p))

/-! ## The seven functions -/

/-- The functions of R223. -/
inductive TFun where
  | rcp | rsq | sqrt | exp2 | log2 | sin | cos
  deriving DecidableEq, Repr

/-- A number of each function, for the free value of a rounding not reached (notes/assumptions/10.md). -/
def TFun.code : TFun → Nat
  | .rcp => 0 | .rsq => 1 | .sqrt => 2 | .exp2 => 3 | .log2 => 4 | .sin => 5 | .cos => 6

/-- Rounds a bound that is a floor. -/
def Fmt.bound (f : Fmt) (mode : Rnd) (fo neg : Bool) (b : Bound) : Nat × Flags := f.roundFin mode fo neg b.m b.e b.sticky

/-- The working precisions and term counts, tried in turn. -/
def precisions : List (Nat × Nat) := [(192, 80), (640, 240)]

/-- The first precision that decides, or the free value. -/
def decideAt (free : Nat × Flags) (g : Nat → Nat → Option (Nat × Flags)) : Nat × Flags :=
  (precisions.findSome? fun pt => g pt.1 pt.2).getD free

/-- Whether m·2^e is at most 2^20·π (R224). -/
def inTrigRange (m : Nat) (e : Int) : Bool :=
  decide ((toUnits m e 192).1 ≤ 2 ^ 20 * (piFix 192 80 - 64 * 80))

/-- 2^x clamped where every format has overflowed or vanished. -/
def exp2Of (f : Fmt) (mode : Rnd) (fo : Bool) (free : Nat × Flags) (neg : Bool) (m : Nat) (e : Int) : Nat × Flags :=
  if 12 < e + (Nat.log2 m : Int) then f.roundFin mode fo false 1 (if neg then -4096 else 4096) false
  else
    let u := toUnits m e 0
    if u.2 then f.roundFin mode fo false 1 (if neg then -(u.1 : Int) else u.1) false
    else decideAt free fun p t =>
      let b := exp2Bounds neg m e p t
      f.between mode fo false b.2.1 b.2.2 (b.1 - p)

/-- log₂ of m·2^e; that of 1 is +0 in every mode (notes/assumptions/87.md). -/
def log2Of (f : Fmt) (mode : Rnd) (fo : Bool) (free : Nat × Flags) (m : Nat) (e : Int) : Nat × Flags :=
  let n : Int := e + (Nat.log2 m : Int)
  if m = 2 ^ Nat.log2 m then f.ofValue mode fo (FVal.ofInt n)
  else decideAt free fun p t =>
    let b := log2Bounds m p t
    if 0 ≤ n then f.between mode fo false (n * 2 ^ p + b.1) (n * 2 ^ p + b.2) (-(p : Int))
    else f.between mode fo true (-n * 2 ^ p - b.2) (-n * 2 ^ p - b.1) (-(p : Int))

/-- Sine or cosine of a nonzero ±m·2^e within the range; a tiny argument's result lies just below the argument, or just below one
(R224). -/
def trigOf (f : Fmt) (mode : Rnd) (fo : Bool) (free : Nat × Flags) (cos neg : Bool) (m : Nat) (e : Int) : Nat × Flags :=
  if e + (Nat.log2 m : Int) < -39 then
    if cos then f.roundFin mode fo false (2 ^ 78 - 1) (-78) true
    else f.roundFin mode fo neg (m * 2 ^ 8 * 2 ^ (60 - Nat.log2 m) - 1) (e - 8 - (60 - Nat.log2 m : Nat)) true
  else decideAt free fun p t =>
    (reduce m e p t).bind fun r =>
      let b := trigBounds (if cos then r.1 + 1 else r.1) r.2.1 r.2.2 p t
      f.between mode fo (b.1 != (neg && !cos)) b.2.1 b.2.2 (-(p : Int))

/-- A function of a value, by Table 86 and R223 to R224. -/
def TFun.eval (g : TFun) (f : Fmt) (mode : Rnd) (fo : Bool) (free : Nat × Flags) (v : FVal) : Nat × Flags :=
  match g, v with
  | _, .nan _ => (f.nan, 0)
  | .rcp, .inf n => (f.zero n, 0)
  | .rcp, .fin n m e => if m = 0 then (f.inf n, fDZ) else f.bound mode fo n (recipBound m e)
  | .rsq, .inf n => if n then (f.nan, fNV) else (f.zero false, 0)
  | .rsq, .fin n m e =>
    if m = 0 then (f.inf n, fDZ) else if n then (f.nan, fNV)
    else let x := evenExp m e; f.bound mode fo false (rsqrtBound x.1 x.2)
  | .sqrt, .inf n => if n then (f.nan, fNV) else (f.inf false, 0)
  | .sqrt, .fin n m e =>
    if m = 0 then (f.zero n, 0) else if n then (f.nan, fNV)
    else let x := evenExp m e; f.bound mode fo false (sqrtBound x.1 x.2)
  | .exp2, .inf n => if n then (f.zero false, 0) else (f.inf false, 0)
  | .exp2, .fin n m e => if m = 0 then f.roundFin mode fo false 1 0 false else exp2Of f mode fo free n m e
  | .log2, .inf n => if n then (f.nan, fNV) else (f.inf false, 0)
  | .log2, .fin n m e => if m = 0 then (f.inf true, fDZ) else if n then (f.nan, fNV) else log2Of f mode fo free m e
  | .sin, .inf _ => (f.nan, fRG)
  | .sin, .fin n m e =>
    if m = 0 then (f.zero n, 0) else if inTrigRange m e then trigOf f mode fo free false n m e else (f.nan, fRG)
  | .cos, .inf _ => (f.nan, fRG)
  | .cos, .fin n m e =>
    if m = 0 then f.roundFin mode fo false 1 0 false
    else if inTrigRange m e then trigOf f mode fo free true n m e else (f.nan, fRG)

/-- The unary instructions (R223): each lane's modified source, the function, one rounding. -/
def fUnary (g : TFun) (c : VCtl) (t : FTy) (r : RndSel) (neg abs : Bool) (d : VReg) (a : VSrc) (s : State) : Out :=
  let f := ftyFmt t
  vfixed { c := c, a := some ⟨a, t.wide⟩, b := none, x := none, e := none, preds := [], dests := destRegs d t.wide } 14
    (fun e => laneRes d t.wide e.m fun n =>
      let b := e.a.nat n % 2 ^ f.width
      let x := modFin f e.mode.fpm neg abs b
      let free := (Config.freeTrans g.code f.width (f.modify abs neg b)).toNat % 2 ^ f.width
      let y := g.eval f (rndMode r e.mode.fpm) (flushOut e.mode.fpm f) (free, fNX) x.1
      (y.1, y.2 ||| x.2)) s

/-- `frcp`. -/
def execFrcp (c : VCtl) (t : FTy) (r : RndSel) (neg abs : Bool) (d : VReg) (a : VSrc) (s : State) : Out :=
  fUnary .rcp c t r neg abs d a s
/-- `frsq`. -/
def execFrsq (c : VCtl) (t : FTy) (r : RndSel) (neg abs : Bool) (d : VReg) (a : VSrc) (s : State) : Out :=
  fUnary .rsq c t r neg abs d a s
/-- `fsqrt`. -/
def execFsqrt (c : VCtl) (t : FTy) (r : RndSel) (neg abs : Bool) (d : VReg) (a : VSrc) (s : State) : Out :=
  fUnary .sqrt c t r neg abs d a s
/-- `fexp2`. -/
def execFexp2 (c : VCtl) (t : FTy) (r : RndSel) (neg abs : Bool) (d : VReg) (a : VSrc) (s : State) : Out :=
  fUnary .exp2 c t r neg abs d a s
/-- `flog2`. -/
def execFlog2 (c : VCtl) (t : FTy) (r : RndSel) (neg abs : Bool) (d : VReg) (a : VSrc) (s : State) : Out :=
  fUnary .log2 c t r neg abs d a s
/-- `fsin`. -/
def execFsin (c : VCtl) (t : FTy) (r : RndSel) (neg abs : Bool) (d : VReg) (a : VSrc) (s : State) : Out :=
  fUnary .sin c t r neg abs d a s
/-- `fcos`. -/
def execFcos (c : VCtl) (t : FTy) (r : RndSel) (neg abs : Bool) (d : VReg) (a : VSrc) (s : State) : Out :=
  fUnary .cos c t r neg abs d a s

end Sys2Proof.Machine
end

