-- ==== Sys2Proof/Machine/VInt.lean ====
section
/-! DEFINITION. Integer vector arithmetic, logic, shifts and bit fields, select, add-compare-select, conversion and INT4 packing
(R225 to R234). -/
namespace Sys2Proof.Machine

/-- Element bits and signedness of an integer type (R225). -/
def ityBits : ITy → Nat
  | .s32 | .n32 => 32
  | .s64 | .n64 => 64
  | .s16x2 | .n16x2 => 16
def itySigned : ITy → Bool
  | .s32 | .s64 | .s16x2 => true
  | .n32 | .n64 | .n16x2 => false

/-- Latency of the integer, logic and move classes (Table 51). -/
def latInt : Nat := 4

/-- A two-source integer instruction. -/
def iForm (c : VCtl) (wide : Bool) (d : VReg) (a b : VSrc) : VForm :=
  { c := c, a := some ⟨a, wide⟩, b := some ⟨b, wide⟩, x := none, e := none, preds := [], dests := destRegs d wide }

/-- An integer instruction on the elements of its sources, as numbers of the type (Table 88). -/
def iArith (v : VForm) (t : ITy) (d : VReg) (op : Int → Int → Int → Nat × Flags) (s : State) : Out :=
  vfixed v latInt (fun e => laneRes d t.wide e.m fun n => eachElem t.packed fun k =>
    let num := fun (x : VVal) => toInt (ityBits t) (itySigned t) (elem t.packed (ityBits t) (x.nat n) k)
    op (num e.a) (num e.b) (num e.x)) s

/-- A sum or difference: wrapped, or saturated with SA (R95, Table 88). -/
def addRes (t : ITy) (sat : Bool) (i : Int) : Nat × Flags :=
  if sat then
    let r := satInt (ityBits t) (itySigned t) i
    (ofInt (ityBits t) r.1, flagIf r.2 fSA)
  else (ofInt (ityBits t) i, 0)

/-- `add` (R225). -/
def execAdd (c : VCtl) (t : ITy) (sat : Bool) (d : VReg) (a b : VSrc) (s : State) : Out :=
  iArith (iForm c t.wide d a b) t d (fun x y _ => addRes t sat (x + y)) s
/-- `sub` (R225). -/
def execSub (c : VCtl) (t : ITy) (sat : Bool) (d : VReg) (a b : VSrc) (s : State) : Out :=
  iArith (iForm c t.wide d a b) t d (fun x y _ => addRes t sat (x - y)) s
/-- `mul` (R225). -/
def execMul (c : VCtl) (t : ITy) (d : VReg) (a b : VSrc) (s : State) : Out :=
  iArith (iForm c t.wide d a b) t d (fun x y _ => (ofInt (ityBits t) (x * y), 0)) s
/-- `mad` (R225). -/
def execMad (c : VCtl) (t : ITy) (d : VReg) (a b cc : VSrc) (s : State) : Out :=
  iArith { iForm c t.wide d a b with x := some ⟨cc, t.wide⟩ } t d (fun x y z => (ofInt (ityBits t) (x * y + z), 0)) s
/-- `mulhi` (R225). -/
def execMulhi (c : VCtl) (t : ITy) (d : VReg) (a b : VSrc) (s : State) : Out :=
  iArith (iForm c t.wide d a b) t d (fun x y _ => (ofInt (ityBits t) (x * y / 2 ^ ityBits t), 0)) s
/-- `min` (R225). -/
def execMin (c : VCtl) (t : ITy) (d : VReg) (a b : VSrc) (s : State) : Out :=
  iArith (iForm c t.wide d a b) t d (fun x y _ => (ofInt (ityBits t) (if x < y then x else y), 0)) s
/-- `max` (R225). -/
def execMax (c : VCtl) (t : ITy) (d : VReg) (a b : VSrc) (s : State) : Out :=
  iArith (iForm c t.wide d a b) t d (fun x y _ => (ofInt (ityBits t) (if x < y then y else x), 0)) s

/-- A condition of Table 89 on the elements as numbers and as bits. -/
def icondHolds (cond : ICond) (x y : Int) (p q : Nat) : Bool :=
  match cond with
  | .eq => x == y
  | .ne => x != y
  | .lt => x < y
  | .le => x ≤ y
  | .gt => y < x
  | .ge => y ≤ x
  | .tst => Nat.land p q != 0
  | .ntst => Nat.land p q == 0

/-- The outcome of a condition in each lane, for one element. -/
def icmpMask (t : ITy) (cond : ICond) (e : VEnv) (k : Nat) : Mask :=
  mkMask fun n =>
    let p := elem t.packed (ityBits t) (e.a.nat n) k
    let q := elem t.packed (ityBits t) (e.b.nat n) k
    icondHolds cond (toInt (ityBits t) (itySigned t) p) (toInt (ityBits t) (itySigned t) q) p q

/-- `cmp`: one predicate, or a pair of them for a packed type (R226). -/
def execCmp (c : VCtl) (t : ITy) (cond : ICond) (pd : BitVec 3) (a b : VSrc) (s : State) : Out :=
  vfixed { iForm c t.wide 0 a b with dests := [] } latInt (fun e =>
    let p0 := (pd, icmpMask t cond e 0)
    { regs := [], preds := if t.packed then [p0, (pd + 1, icmpMask t cond e 1)] else [p0], flags := 0 }) s

/-! ## Bits (R227, R228) -/

/-- A bit instruction on 32-bit patterns; it sets no flag. -/
def bitOp (v : VForm) (d : VReg) (op : Lane → Lane → Lane → Lane) (s : State) : Out :=
  vfixed v latInt (fun e => { regs := [(d, mkLanes fun n => op (lane e.a.lo n) (lane e.b.lo n) (lane e.x.lo n))], preds := [], flags := 0 }) s

/-- `and.b32`. -/
def execAndB32 (c : VCtl) (d : VReg) (a b : VSrc) (s : State) : Out := bitOp (iForm c false d a b) d (fun x y _ => x &&& y) s
/-- `or.b32`. -/
def execOrB32 (c : VCtl) (d : VReg) (a b : VSrc) (s : State) : Out := bitOp (iForm c false d a b) d (fun x y _ => x ||| y) s
/-- `xor.b32`. -/
def execXorB32 (c : VCtl) (d : VReg) (a b : VSrc) (s : State) : Out := bitOp (iForm c false d a b) d (fun x y _ => x ^^^ y) s
/-- `andn.b32`. -/
def execAndnB32 (c : VCtl) (d : VReg) (a b : VSrc) (s : State) : Out := bitOp (iForm c false d a b) d (fun x y _ => x &&& ~~~ y) s
/-- `shl.b32`: a count of 32 or more gives zero. -/
def execShlB32 (c : VCtl) (d : VReg) (a b : VSrc) (s : State) : Out :=
  bitOp (iForm c false d a b) d (fun x y _ => if y.toNat < 32 then x <<< y.toNat else 0) s
/-- `shr.n32`: a count of 32 or more gives zero. -/
def execShrN32 (c : VCtl) (d : VReg) (a b : VSrc) (s : State) : Out :=
  bitOp (iForm c false d a b) d (fun x y _ => if y.toNat < 32 then x >>> y.toNat else 0) s
/-- `shr.s32`: a count of 32 or more gives copies of the sign. -/
def execShrS32 (c : VCtl) (d : VReg) (a b : VSrc) (s : State) : Out :=
  bitOp (iForm c false d a b) d (fun x y _ => x.sshiftRight (min y.toNat 31)) s

/-- The number of one bits. -/
def popCount (x : Lane) : Nat := ((List.range 32).filter fun i => x.getLsbD i).length
/-- The number of zero bits above the highest one bit. -/
def leadZeros (x : Lane) : Nat := if x = 0 then 32 else 31 - Nat.log2 x.toNat

/-- A one-source 32-bit form. -/
def uForm (c : VCtl) (d : VReg) (a : VSrc) : VForm :=
  { c := c, a := some ⟨a, false⟩, b := none, x := none, e := none, preds := [], dests := [d] }

/-- `popc.b32`. -/
def execPopcB32 (c : VCtl) (d : VReg) (a : VSrc) (s : State) : Out :=
  bitOp (uForm c d a) d (fun x _ _ => BitVec.ofNat 32 (popCount x)) s
/-- `clz.b32`. -/
def execClzB32 (c : VCtl) (d : VReg) (a : VSrc) (s : State) : Out :=
  bitOp (uForm c d a) d (fun x _ _ => BitVec.ofNat 32 (leadZeros x)) s

/-- A field of a lane starting at bit p, of length l (R228). -/
def bitField (signed : Bool) (x p l : Lane) : Lane :=
  if 32 ≤ p.toNat ∨ l = 0 then 0
  else
    let n := min l.toNat (32 - p.toNat)
    BitVec.ofInt 32 (toInt n signed (x.toNat / 2 ^ p.toNat))

/-- A three-source 32-bit form. -/
def tForm (c : VCtl) (d : VReg) (a b cc : VSrc) : VForm := { iForm c false d a b with x := some ⟨cc, false⟩ }

/-- `bfe.n32`. -/
def execBfeN32 (c : VCtl) (d : VReg) (a b cc : VSrc) (s : State) : Out := bitOp (tForm c d a b cc) d (bitField false) s
/-- `bfe.s32`. -/
def execBfeS32 (c : VCtl) (d : VReg) (a b cc : VSrc) (s : State) : Out := bitOp (tForm c d a b cc) d (bitField true) s

/-- `sel.b32`: A where the predicate is one, B where it is zero, whatever the execute mask (R229). -/
def execSelB32 (c : VCtl) (p : BitVec 3) (d : VReg) (a b : VSrc) (s : State) : Out :=
  vfixed { iForm c false d a b with preds := [p] } latInt (fun e =>
    { regs := [(d, blend (e.base.g.seenP p) e.a.lo e.b.lo)], preds := [], flags := 0 }) s

/-! ## Add, compare and select (R230) -/

/-- One lane of `acs.h2`: the two sinks, the survivor bits, whether a sum was clamped. -/
def acsLane (a b : Nat) : Nat × Bool × Bool × Bool :=
  let cl := fun (x : Nat) => min x 0xFFFF
  let a0 := a % 65536
  let a1 := a / 65536 % 65536
  let m0 := b % 65536
  let m1 := b / 65536 % 65536
  let s0 := decide (cl (a1 + m1) < cl (a0 + m0))
  let s1 := decide (cl (a1 + m0) < cl (a0 + m1))
  let d := (if s1 then cl (a1 + m0) else cl (a0 + m1)) * 65536 + (if s0 then cl (a1 + m1) else cl (a0 + m0))
  (d, s0, s1, [a0 + m0, a1 + m1, a0 + m1, a1 + m0].any fun x => 0xFFFF < x)

/-- `acs.h2` (R230). -/
def execAcsH2 (c : VCtl) (j : BitVec 2) (d : VReg) (a b : VSrc) (s : State) : Out :=
  vfixed (iForm c false d a b) latInt (fun e =>
    let r := fun n => acsLane (e.a.nat n) (e.b.nat n)
    let p : BitVec 3 := j.zeroExtend 3 <<< 1
    let x := laneRes d false e.m fun n => ((r n).1, flagIf (r n).2.2.2 fSA)
    { x with preds := [(p, mkMask fun n => (r n).2.1), (p + 1, mkMask fun n => (r n).2.2.1)] }) s

/-! ## Conversion (R231, R232) -/

/-- The floating format of a conversion type; none for an integer type. -/
def cvtFmt : CvtTy → Option Fmt
  | .f64 => some fp64
  | .f32 => some fp32
  | .f16 => some fp16
  | .bf16 => some bf16
  | .s8 | .s16 | .s32 | .s64 | .n8 | .n16 | .n32 | .n64 => none

/-- Bits and signedness of an integer conversion type. -/
def cvtInt : CvtTy → Nat × Bool
  | .s8 => (8, true) | .s16 => (16, true) | .s32 => (32, true) | .s64 => (64, true)
  | .n8 => (8, false) | .n16 => (16, false) | .n32 => (32, false) | .n64 => (64, false)
  | .f64 | .f32 | .f16 | .bf16 => (32, false)

/-- x rounded to an integral value of its own format (Table 91); a zero keeps the sign of x (notes/assumptions/87.md). -/
def roundIntegral (f : Fmt) (mode : Rnd) (fo : Bool) (v : FVal) : Nat × Flags :=
  match v with
  | .fin n m e =>
    let r := roundPlaces mode n m (-e) false
    let q := f.ofValue mode fo (.fin n r.1 0)
    (q.1, q.2 ||| flagIf r.2 fNX)
  | v => f.ofValue mode fo v

/-- An integer result as its register or registers hold it (R94). -/
def cvtBits (bits : Nat) (i : Int) : Nat := if bits = 64 then ofInt 64 i else ofInt 32 i

/-- One conversion of Table 91. -/
def cvtLane (dt st : CvtTy) (mode : Rnd) (fpm : Word) (v : Nat) : Nat × Flags :=
  match cvtFmt st, cvtFmt dt with
  | some f, some g =>
    let x := f.source (flushIn fpm f) (v % 2 ^ f.width)
    let r := if dt = st then roundIntegral f mode (flushOut fpm f) x.1 else g.ofValue mode (flushOut fpm g) x.1
    (r.1, r.2 ||| x.2)
  | some f, none =>
    let x := f.source (flushIn fpm f) (v % 2 ^ f.width)
    let r := cvtToInt (cvtInt dt).1 (cvtInt dt).2 mode x.1
    (cvtBits (cvtInt dt).1 r.1, r.2 ||| x.2)
  | none, some g => g.ofValue mode (flushOut fpm g) (FVal.ofInt (toInt (cvtInt st).1 (cvtInt st).2 v))
  | none, none =>
    let r := satInt (cvtInt dt).1 (cvtInt dt).2 (toInt (cvtInt st).1 (cvtInt st).2 v)
    (cvtBits (cvtInt dt).1 r.1, flagIf r.2 fSA)

/-- `cvt` (R231, R232). -/
def execCvt (c : VCtl) (dty sty : CvtTy) (r : RndSel) (d : VReg) (a : VSrc) (s : State) : Out :=
  vfixed { c := c, a := some ⟨a, sty.wide⟩, b := none, x := none, e := none, preds := [], dests := destRegs d dty.wide } 6
    (fun e => laneRes d dty.wide e.m fun n => cvtLane dty sty (rndMode r e.mode.fpm) e.mode.fpm (e.a.nat n)) s

/-! ## INT4 packing (R233, R234) -/

/-- The 4-bit code of a signed 16-bit element, and whether it was clamped. -/
def code4 (v : Nat) : Nat × Bool :=
  let i := toInt 16 true v
  if i < 0 then (0, true) else if 15 < i then (15, true) else (i.toNat, false)

/-- The eight codes of four sources, low nibble first. -/
def packLane (xs : List Nat) : Nat × Flags :=
  let cs := xs.flatMap fun x => [code4 (x % 65536), code4 (x / 65536)]
  (cs.foldr (fun k acc => k.1 + 16 * acc) 0, flagIf (cs.any (·.2)) fSA)

/-- `pack4` (R233). -/
def execPack4 (c : VCtl) (d : VReg) (a b cc e : VSrc) (s : State) : Out :=
  vfixed { tForm c d a b cc with e := some ⟨e, false⟩ } 6 (fun v =>
    laneRes d false v.m fun n => packLane [v.a.nat n, v.b.nat n, v.x.nat n, v.e.nat n]) s

/-- `unpack4` (R234). -/
def execUnpack4 (c : VCtl) (h : BitVec 2) (d : VReg) (a : VSrc) (s : State) : Out :=
  vfixed (uForm c d a) 6 (fun e => laneRes d false e.m fun n =>
    let b := e.a.nat n / 2 ^ (8 * h.toNat)
    (b % 16 + 65536 * (b / 16 % 16), 0)) s

end Sys2Proof.Machine
end

