-- ==== Sys2Proof/Machine/VMove.lean ====
section
/-! DEFINITION. Movement inside a group: moves, shuffle, butterfly, vote, tile reduction and match (R238 to R245). -/
namespace Sys2Proof.Machine

/-- A form whose results are whole registers: no flag, no predicate. -/
def moveOp (v : VForm) (lat : Nat) (f : VEnv → List (VReg × Lanes)) (s : State) : Out :=
  vfixed v lat (fun e => { regs := f e, preds := [], flags := 0 }) s

/-- `mov.b32` (R240). -/
def execMovB32 (c : VCtl) (d : VReg) (a : VSrc) (s : State) : Out := moveOp (uForm c d a) latInt (fun e => [(d, e.a.lo)]) s

/-- `mov.b64` (R240). -/
def execMovB64 (c : VCtl) (d : VReg) (a : VSrc) (s : State) : Out :=
  moveOp { uForm c d a with a := some ⟨a, true⟩, dests := [d, d + 1] } latInt (fun e => [(d, e.a.lo), (d + 1, e.a.hi)]) s

/-- A form that writes one register and has no source. -/
def dForm (c : VCtl) (d : VReg) : VForm :=
  { c := c, a := none, b := none, x := none, e := none, preds := [], dests := [d] }

/-- `movi.b32` (R240). -/
def execMoviB32 (c : VCtl) (d : VReg) (imm : BitVec 21) (s : State) : Out :=
  moveOp (dForm c d) latInt (fun _ => [(d, splat (imm.signExtend 32))]) s

/-- `laneid` (R240). -/
def execLaneid (c : VCtl) (d : VReg) (s : State) : Out :=
  moveOp (dForm c d) latInt (fun _ => [(d, mkLanes fun n => BitVec.ofNat 32 n)]) s

/-! ## Exchange within a partition tile (R213, R241, R242) -/

/-- The tile width sampled at issue. -/
def VEnv.tile (e : VEnv) : Nat := 2 ^ (e.mode.part.toNat % 8)

/-- A shuffle: lane n copies A from the lane `pick` names, given the tile width and the lane operand. -/
def shuffle (c : VCtl) (d : VReg) (a : VSrc) (b : ShB) (pick : Nat → Nat → Nat → Nat) (s : State) : Out :=
  let bo : Option Opnd := match b with | .reg x => some ⟨x, false⟩ | .imm _ => none
  moveOp { uForm c d a with b := bo } 6 (fun e =>
    let k := fun n => match b with | .reg _ => e.b.nat n | .imm i => i.toNat
    [(d, mkLanes fun n => lane e.a.lo (pick e.tile n (k n)))]) s

/-- `shfl.idx`. -/
def execShflIdx (c : VCtl) (d : VReg) (a : VSrc) (b : ShB) (s : State) : Out :=
  shuffle c d a b (fun w n k => n - n % w + k % w) s
/-- `shfl.up`. -/
def execShflUp (c : VCtl) (d : VReg) (a : VSrc) (b : ShB) (s : State) : Out :=
  shuffle c d a b (fun w n k => if k ≤ n % w then n - k else n) s
/-- `shfl.down`. -/
def execShflDown (c : VCtl) (d : VReg) (a : VSrc) (b : ShB) (s : State) : Out :=
  shuffle c d a b (fun w n k => if n % w + k < w then n + k else n) s
/-- `shfl.xor`. -/
def execShflXor (c : VCtl) (d : VReg) (a : VSrc) (b : ShB) (s : State) : Out :=
  shuffle c d a b (fun w n k => n - n % w + Nat.xor (n % w) (k % w)) s

/-- The partner of lane n at a butterfly step of distance 2^k in tiles of width w. -/
def bflyLane (w k n : Nat) : Nat := if w ≤ 2 ^ k then n else Nat.xor n (2 ^ k)

/-- `bfly.lo` (R242). -/
def execBflyLo (c : VCtl) (k : BitVec 3) (d : VReg) (a b : VSrc) (s : State) : Out :=
  moveOp (iForm c false d a b) 6 (fun e =>
    [(d, mkLanes fun n => if n.testBit k.toNat then lane e.b.lo (bflyLane e.tile k.toNat n) else lane e.a.lo n)]) s
/-- `bfly.hi` (R242). -/
def execBflyHi (c : VCtl) (k : BitVec 3) (d : VReg) (a b : VSrc) (s : State) : Out :=
  moveOp (iForm c false d a b) 6 (fun e =>
    [(d, mkLanes fun n => if n.testBit k.toNat then lane e.b.lo n else lane e.a.lo (bflyLane e.tile k.toNat n))]) s

/-! ## Vote (R243) -/

/-- The active lanes of lane n's tile. -/
def VEnv.tileLanes (e : VEnv) (n : Nat) : List Nat :=
  (List.range 32).filter fun m => m / e.tile == n / e.tile && e.m.getLsbD m

/-- The predicate a vote reads, inverted when its negate bit is set. -/
def VEnv.votes (e : VEnv) (p : BitVec 3) (neg : Bool) : Mask := let q := e.base.g.seenP p; if neg then ~~~ q else q

/-- A vote into a predicate: `test` combines the votes of the active lanes of each tile. -/
def vote (c : VCtl) (pd p : BitVec 3) (neg : Bool) (test : List Bool → Bool) (s : State) : Out :=
  vfixed { dForm c 0 with preds := [p], dests := [] } 8 (fun e =>
    let q := e.votes p neg
    { regs := [], preds := [(pd, mkMask fun n => test ((e.tileLanes n).map fun m => q.getLsbD m))], flags := 0 }) s

/-- `vote.any`. -/
def execVoteAny (c : VCtl) (pd p : BitVec 3) (neg : Bool) (s : State) : Out := vote c pd p neg (fun bs => bs.any id) s
/-- `vote.all`. -/
def execVoteAll (c : VCtl) (pd p : BitVec 3) (neg : Bool) (s : State) : Out := vote c pd p neg (fun bs => bs.all id) s
/-- `vote.eq`. -/
def execVoteEq (c : VCtl) (pd p : BitVec 3) (neg : Bool) (s : State) : Out :=
  vote c pd p neg (fun bs => bs.all id || !bs.any id) s
/-- `vote.ballot`. -/
def execVoteBallot (c : VCtl) (d : VReg) (p : BitVec 3) (neg : Bool) (s : State) : Out :=
  moveOp { dForm c d with preds := [p] } 8 (fun e =>
    let q := e.votes p neg
    [(d, mkLanes fun n => mkMask fun m => (e.tileLanes n).contains m && q.getLsbD m)]) s

/-! ## Tile reduction (R244) -/

/-- One level of the tree: neighbours combined, an absent child passing the other on. -/
def pairUp (op : Nat → Nat → Nat × Flags) : List (Option Nat) → List (Option Nat) × Flags
  | some x :: some y :: r => let z := op x y; let q := pairUp op r; (some z.1 :: q.1, z.2 ||| q.2)
  | some x :: none :: r => let q := pairUp op r; (some x :: q.1, q.2)
  | none :: y :: r => let q := pairUp op r; (y :: q.1, q.2)
  | [x] => ([x], 0)
  | [] => ([], 0)

/-- The fixed tree over the leaves, by its number of levels. -/
def treeFold (op : Nat → Nat → Nat × Flags) : Nat → List (Option Nat) → Option Nat × Flags
  | 0, xs => (xs.headD none, 0)
  | k + 1, xs => let q := pairUp op xs; let r := treeFold op k q.1; (r.1, q.2 ||| r.2)

/-- A reduction in its fixed tree over each tile, written to the tile's active lanes. -/
def redt (c : VCtl) (d : VReg) (a : VSrc) (op : VEnv → Nat → Nat → Nat × Flags) (s : State) : Out :=
  vfixed (uForm c d a) 8 (fun e => laneRes d false e.m fun n =>
    let t0 := n - n % e.tile
    let leaves := (List.range e.tile).map fun i => if e.m.getLsbD (t0 + i) then some (e.a.nat (t0 + i)) else none
    let r := treeFold (op e) 5 leaves
    (r.1.getD 0, r.2)) s

/-- An integer node of `redt` by its type. -/
def redInt (ty : RTy) (f : Int → Int → Int) (x y : Nat) : Nat × Flags :=
  let sg := ty == .s32
  (ofInt 32 (f (toInt 32 sg x) (toInt 32 sg y)), 0)

/-- A floating minimum or maximum node (R220). -/
def redPick (max : Bool) (fpm : Word) (x y : Nat) : Nat × Flags :=
  let a := modFin fp32 fpm false false x
  let b := modFin fp32 fpm false false y
  let r := pickRes fp32 max fpm a.1 b.1
  (r.1, r.2 ||| a.2 ||| b.2)

/-- `redt.add`. -/
def execRedtAdd (c : VCtl) (ty : RTy) (r : RndSel) (d : VReg) (a : VSrc) (s : State) : Out :=
  redt c d a (fun e x y =>
    if ty = .f32 then
      let p := modFin fp32 e.mode.fpm false false x
      let q := modFin fp32 e.mode.fpm false false y
      let z := fp32.sum (rndMode r e.mode.fpm) (flushOut e.mode.fpm fp32) [p.1, q.1]
      (z.1, z.2 ||| p.2 ||| q.2)
    else redInt ty (· + ·) x y) s
/-- `redt.min`. -/
def execRedtMin (c : VCtl) (ty : RTy) (_r : RndSel) (d : VReg) (a : VSrc) (s : State) : Out :=
  redt c d a (fun e x y => if ty = .f32 then redPick false e.mode.fpm x y else redInt ty (fun i j => if i < j then i else j) x y) s
/-- `redt.max`. -/
def execRedtMax (c : VCtl) (ty : RTy) (_r : RndSel) (d : VReg) (a : VSrc) (s : State) : Out :=
  redt c d a (fun e x y => if ty = .f32 then redPick true e.mode.fpm x y else redInt ty (fun i j => if i < j then j else i) x y) s
/-- `redt.and`. -/
def execRedtAnd (c : VCtl) (_ty : RTy) (_r : RndSel) (d : VReg) (a : VSrc) (s : State) : Out :=
  redt c d a (fun _ x y => (Nat.land x y, 0)) s
/-- `redt.or`. -/
def execRedtOr (c : VCtl) (_ty : RTy) (_r : RndSel) (d : VReg) (a : VSrc) (s : State) : Out :=
  redt c d a (fun _ x y => (Nat.lor x y, 0)) s
/-- `redt.xor`. -/
def execRedtXor (c : VCtl) (_ty : RTy) (_r : RndSel) (d : VReg) (a : VSrc) (s : State) : Out :=
  redt c d a (fun _ x y => (Nat.xor x y, 0)) s

/-! ## Match (R245) -/

/-- Two lanes match: by bit pattern, or as FP32 values, where a NaN matches nothing. -/
def laneMatch (fp : Bool) (x y : Lane) : Bool :=
  if fp then
    let a := fp32.value x.toNat
    let b := fp32.value y.toNat
    !a.isNan && !b.isNan && a.cmp b == 0
  else x == y

/-- `match`: the active lanes of the tile whose value equals the lane's own; a lane always matches itself. -/
def execMatchLanes (c : VCtl) (fp : Bool) (d : VReg) (a : VSrc) (s : State) : Out :=
  moveOp (uForm c d a) 8 (fun e =>
    [(d, mkLanes fun n => mkMask fun m =>
      (e.tileLanes n).contains m && (m == n || laneMatch fp (lane e.a.lo m) (lane e.a.lo n)))]) s

end Sys2Proof.Machine
end

