-- ==== Sys2Proof/Machine/Dispatch.lean ====
section
/-! DEFINITION. The meaning of every step: one arm per constructor of Instr, each one call of its own definition. -/
namespace Sys2Proof.Machine
open Sys2Proof

def exec (i : Instr) (s : State) : Host.Outcome State Fault Refusal :=
  match i with
  | .launch w => Sys2Proof.Machine.execLaunch w s
  | .reclaim w => Sys2Proof.Machine.execReclaim w s
  | .addCr g d a b => Sys2Proof.Machine.execAddCr g d a b s
  | .subCr g d a b => Sys2Proof.Machine.execSubCr g d a b s
  | .mulCr g d a b => Sys2Proof.Machine.execMulCr g d a b s
  | .mulhiS64Cr g d a b => Sys2Proof.Machine.execMulhiS64Cr g d a b s
  | .mulhiN64Cr g d a b => Sys2Proof.Machine.execMulhiN64Cr g d a b s
  | .andCr g d a b => Sys2Proof.Machine.execAndCr g d a b s
  | .orCr g d a b => Sys2Proof.Machine.execOrCr g d a b s
  | .xorCr g d a b => Sys2Proof.Machine.execXorCr g d a b s
  | .shlCr g d a b => Sys2Proof.Machine.execShlCr g d a b s
  | .shrN64Cr g d a b => Sys2Proof.Machine.execShrN64Cr g d a b s
  | .shrS64Cr g d a b => Sys2Proof.Machine.execShrS64Cr g d a b s
  | .minS64Cr g d a b => Sys2Proof.Machine.execMinS64Cr g d a b s
  | .minN64Cr g d a b => Sys2Proof.Machine.execMinN64Cr g d a b s
  | .maxS64Cr g d a b => Sys2Proof.Machine.execMaxS64Cr g d a b s
  | .maxN64Cr g d a b => Sys2Proof.Machine.execMaxN64Cr g d a b s
  | .addCi g d a imm => Sys2Proof.Machine.execAddCi g d a imm s
  | .subCi g d a imm => Sys2Proof.Machine.execSubCi g d a imm s
  | .mulCi g d a imm => Sys2Proof.Machine.execMulCi g d a imm s
  | .mulhiS64Ci g d a imm => Sys2Proof.Machine.execMulhiS64Ci g d a imm s
  | .mulhiN64Ci g d a imm => Sys2Proof.Machine.execMulhiN64Ci g d a imm s
  | .andCi g d a imm => Sys2Proof.Machine.execAndCi g d a imm s
  | .orCi g d a imm => Sys2Proof.Machine.execOrCi g d a imm s
  | .xorCi g d a imm => Sys2Proof.Machine.execXorCi g d a imm s
  | .shlCi g d a imm => Sys2Proof.Machine.execShlCi g d a imm s
  | .shrN64Ci g d a imm => Sys2Proof.Machine.execShrN64Ci g d a imm s
  | .shrS64Ci g d a imm => Sys2Proof.Machine.execShrS64Ci g d a imm s
  | .minS64Ci g d a imm => Sys2Proof.Machine.execMinS64Ci g d a imm s
  | .minN64Ci g d a imm => Sys2Proof.Machine.execMinN64Ci g d a imm s
  | .maxS64Ci g d a imm => Sys2Proof.Machine.execMaxS64Ci g d a imm s
  | .maxN64Ci g d a imm => Sys2Proof.Machine.execMaxN64Ci g d a imm s
  | .cmpCr g cc pd a b => Sys2Proof.Machine.execCmpCr g cc pd a b s
  | .cmpCi g cc pd a imm => Sys2Proof.Machine.execCmpCi g cc pd a imm s
  | .lea g d a b pcRel sh disp => Sys2Proof.Machine.execLea g d a b pcRel sh disp s
  | .movi g d imm => Sys2Proof.Machine.execMovi g d imm s
  | .movhi g d a imm => Sys2Proof.Machine.execMovhi g d a imm s
  | .br g imm => Sys2Proof.Machine.execBr g imm s
  | .brc g cc a b imm => Sys2Proof.Machine.execBrc g cc a b imm s
  | .loop g d imm => Sys2Proof.Machine.execLoop g d imm s
  | .jmp g a => Sys2Proof.Machine.execJmp g a s
  | .call g d imm => Sys2Proof.Machine.execCall g d imm s
  | .ret g a => Sys2Proof.Machine.execRet g a s
  | .exit g => Sys2Proof.Machine.execExit g s
  | .ldS8 g d a h imm => Sys2Proof.Machine.execLdS8 g d a h imm s
  | .ldN8 g d a h imm => Sys2Proof.Machine.execLdN8 g d a h imm s
  | .ldS16 g d a h imm => Sys2Proof.Machine.execLdS16 g d a h imm s
  | .ldN16 g d a h imm => Sys2Proof.Machine.execLdN16 g d a h imm s
  | .ldS32 g d a h imm => Sys2Proof.Machine.execLdS32 g d a h imm s
  | .ldN32 g d a h imm => Sys2Proof.Machine.execLdN32 g d a h imm s
  | .ldB64 g d a h imm => Sys2Proof.Machine.execLdB64 g d a h imm s
  | .ldAcqN32 g d a sc h imm => Sys2Proof.Machine.execLdAcqN32 g d a sc h imm s
  | .ldAcqB64 g d a sc h imm => Sys2Proof.Machine.execLdAcqB64 g d a sc h imm s
  | .stB8 g d a h imm => Sys2Proof.Machine.execStB8 g d a h imm s
  | .stB16 g d a h imm => Sys2Proof.Machine.execStB16 g d a h imm s
  | .stB32 g d a h imm => Sys2Proof.Machine.execStB32 g d a h imm s
  | .stB64 g d a h imm => Sys2Proof.Machine.execStB64 g d a h imm s
  | .stRelB32 g d a sc h imm => Sys2Proof.Machine.execStRelB32 g d a sc h imm s
  | .stRelB64 g d a sc h imm => Sys2Proof.Machine.execStRelB64 g d a sc h imm s
  | .controlAtomAdd g d a b o sc ty h => Sys2Proof.Machine.execControlAtomAdd g d a b o sc ty h s
  | .controlAtomMin g d a b o sc ty h => Sys2Proof.Machine.execControlAtomMin g d a b o sc ty h s
  | .controlAtomMax g d a b o sc ty h => Sys2Proof.Machine.execControlAtomMax g d a b o sc ty h s
  | .controlAtomAnd g d a b o sc ty h => Sys2Proof.Machine.execControlAtomAnd g d a b o sc ty h s
  | .controlAtomOr g d a b o sc ty h => Sys2Proof.Machine.execControlAtomOr g d a b o sc ty h s
  | .controlAtomXor g d a b o sc ty h => Sys2Proof.Machine.execControlAtomXor g d a b o sc ty h s
  | .controlAtomExch g d a b o sc ty h => Sys2Proof.Machine.execControlAtomExch g d a b o sc ty h s
  | .controlAtomCas g d a b tr o sc ty h => Sys2Proof.Machine.execControlAtomCas g d a b tr o sc ty h s
  | .fence g sc => Sys2Proof.Machine.execFence g sc s
  | .fenceAcq g sc => Sys2Proof.Machine.execFenceAcq g sc s
  | .fenceRel g sc => Sys2Proof.Machine.execFenceRel g sc s
  | .pause g n => Sys2Proof.Machine.execPause g n s
  | .icinv g sc => Sys2Proof.Machine.execIcinv g sc s
  | .vrun g a cnt => Sys2Proof.Machine.execVrun g a cnt s
  | .vwalk g a b => Sys2Proof.Machine.execVwalk g a b s
  | .vmpush g p neg dem sib => Sys2Proof.Machine.execVmpush g p neg dem sib s
  | .vmelse g => Sys2Proof.Machine.execVmelse g s
  | .vmpop g => Sys2Proof.Machine.execVmpop g s
  | .vput g k a imm => Sys2Proof.Machine.execVput g k a imm s
  | .vget g d lane reg => Sys2Proof.Machine.execVget g d lane reg s
  | .vgetB64 g d lane reg => Sys2Proof.Machine.execVgetB64 g d lane reg s
  | .vgetPredicate g d lane reg => Sys2Proof.Machine.execVgetPredicate g d lane reg s
  | .vgetMask g d lane reg => Sys2Proof.Machine.execVgetMask g d lane reg s
  | .vsync g => Sys2Proof.Machine.execVsync g s
  | .push g d a q full => Sys2Proof.Machine.execPush g d a q full s
  | .fwait g a => Sys2Proof.Machine.execFwait g a s
  | .ftest g d a => Sys2Proof.Machine.execFtest g d a s
  | .fcancel g a => Sys2Proof.Machine.execFcancel g a s
  | .tlwait g a b => Sys2Proof.Machine.execTlwait g a b s
  | .handoff g d a b n => Sys2Proof.Machine.execHandoff g d a b n s
  | .publish g w => Sys2Proof.Machine.execPublish g w s
  | .bar g b => Sys2Proof.Machine.execBar g b s
  | .cbarArr g d b => Sys2Proof.Machine.execCbarArr g d b s
  | .cbarWait g a b => Sys2Proof.Machine.execCbarWait g a b s
  | .await g ctr a imm => Sys2Proof.Machine.execAwait g ctr a imm s
  | .mxacq g => Sys2Proof.Machine.execMxacq g s
  | .mxrel g => Sys2Proof.Machine.execMxrel g s
  | .tcfg g a t => Sys2Proof.Machine.execTcfg g a t s
  | .csrr g d sel => Sys2Proof.Machine.execCsrr g d sel s
  | .csrwFpm g a => Sys2Proof.Machine.execCsrwFpm g a s
  | .csrwFlags g a => Sys2Proof.Machine.execCsrwFlags g a s
  | .csrwQtab g a => Sys2Proof.Machine.execCsrwQtab g a s
  | .csrwChk g a => Sys2Proof.Machine.execCsrwChk g a s
  | .csrwPart g a => Sys2Proof.Machine.execCsrwPart g a s
  | .csrwArrivalCounter g a n => Sys2Proof.Machine.execCsrwArrivalCounter g a n s
  | .csrw g a sel => Sys2Proof.Machine.execCsrw g a sel s
  | .trap g imm => Sys2Proof.Machine.execTrap g imm s
  | .nop g => Sys2Proof.Machine.execNop g s
  | .fadd c t m d a b => Sys2Proof.Machine.execFadd c t m d a b s
  | .fsub c t m d a b => Sys2Proof.Machine.execFsub c t m d a b s
  | .fmul c t m d a b => Sys2Proof.Machine.execFmul c t m d a b s
  | .ffma c t m d a b cc => Sys2Proof.Machine.execFfma c t m d a b cc s
  | .fmin c t m d a b => Sys2Proof.Machine.execFmin c t m d a b s
  | .fmax c t m d a b => Sys2Proof.Machine.execFmax c t m d a b s
  | .fcmp c t m cond pd a b => Sys2Proof.Machine.execFcmp c t m cond pd a b s
  | .fclass c t neg abs d a => Sys2Proof.Machine.execFclass c t neg abs d a s
  | .frcp c t r neg abs d a => Sys2Proof.Machine.execFrcp c t r neg abs d a s
  | .frsq c t r neg abs d a => Sys2Proof.Machine.execFrsq c t r neg abs d a s
  | .fsqrt c t r neg abs d a => Sys2Proof.Machine.execFsqrt c t r neg abs d a s
  | .fexp2 c t r neg abs d a => Sys2Proof.Machine.execFexp2 c t r neg abs d a s
  | .flog2 c t r neg abs d a => Sys2Proof.Machine.execFlog2 c t r neg abs d a s
  | .fsin c t r neg abs d a => Sys2Proof.Machine.execFsin c t r neg abs d a s
  | .fcos c t r neg abs d a => Sys2Proof.Machine.execFcos c t r neg abs d a s
  | .add c t sat d a b => Sys2Proof.Machine.execAdd c t sat d a b s
  | .sub c t sat d a b => Sys2Proof.Machine.execSub c t sat d a b s
  | .mul c t d a b => Sys2Proof.Machine.execMul c t d a b s
  | .mad c t d a b cc => Sys2Proof.Machine.execMad c t d a b cc s
  | .mulhi c t d a b => Sys2Proof.Machine.execMulhi c t d a b s
  | .min c t d a b => Sys2Proof.Machine.execMin c t d a b s
  | .max c t d a b => Sys2Proof.Machine.execMax c t d a b s
  | .cmp c t cond pd a b => Sys2Proof.Machine.execCmp c t cond pd a b s
  | .andB32 c d a b => Sys2Proof.Machine.execAndB32 c d a b s
  | .orB32 c d a b => Sys2Proof.Machine.execOrB32 c d a b s
  | .xorB32 c d a b => Sys2Proof.Machine.execXorB32 c d a b s
  | .andnB32 c d a b => Sys2Proof.Machine.execAndnB32 c d a b s
  | .shlB32 c d a b => Sys2Proof.Machine.execShlB32 c d a b s
  | .shrN32 c d a b => Sys2Proof.Machine.execShrN32 c d a b s
  | .shrS32 c d a b => Sys2Proof.Machine.execShrS32 c d a b s
  | .popcB32 c d a => Sys2Proof.Machine.execPopcB32 c d a s
  | .clzB32 c d a => Sys2Proof.Machine.execClzB32 c d a s
  | .bfeN32 c d a b cc => Sys2Proof.Machine.execBfeN32 c d a b cc s
  | .bfeS32 c d a b cc => Sys2Proof.Machine.execBfeS32 c d a b cc s
  | .selB32 c p d a b => Sys2Proof.Machine.execSelB32 c p d a b s
  | .acsH2 c j d a b => Sys2Proof.Machine.execAcsH2 c j d a b s
  | .cvt c dty sty r d a => Sys2Proof.Machine.execCvt c dty sty r d a s
  | .pack4 c d a b cc e => Sys2Proof.Machine.execPack4 c d a b cc e s
  | .unpack4 c h d a => Sys2Proof.Machine.execUnpack4 c h d a s
  | .q8t c h d a b => Sys2Proof.Machine.execQ8t c h d a b s
  | .q8e c h d a b cc => Sys2Proof.Machine.execQ8e c h d a b cc s
  | .movB32 c d a => Sys2Proof.Machine.execMovB32 c d a s
  | .movB64 c d a => Sys2Proof.Machine.execMovB64 c d a s
  | .moviB32 c d imm => Sys2Proof.Machine.execMoviB32 c d imm s
  | .laneid c d => Sys2Proof.Machine.execLaneid c d s
  | .shflIdx c d a b => Sys2Proof.Machine.execShflIdx c d a b s
  | .shflUp c d a b => Sys2Proof.Machine.execShflUp c d a b s
  | .shflDown c d a b => Sys2Proof.Machine.execShflDown c d a b s
  | .shflXor c d a b => Sys2Proof.Machine.execShflXor c d a b s
  | .bflyLo c k d a b => Sys2Proof.Machine.execBflyLo c k d a b s
  | .bflyHi c k d a b => Sys2Proof.Machine.execBflyHi c k d a b s
  | .voteAny c pd p neg => Sys2Proof.Machine.execVoteAny c pd p neg s
  | .voteAll c pd p neg => Sys2Proof.Machine.execVoteAll c pd p neg s
  | .voteBallot c d p neg => Sys2Proof.Machine.execVoteBallot c d p neg s
  | .voteEq c pd p neg => Sys2Proof.Machine.execVoteEq c pd p neg s
  | .redtAdd c ty r d a => Sys2Proof.Machine.execRedtAdd c ty r d a s
  | .redtMin c ty r d a => Sys2Proof.Machine.execRedtMin c ty r d a s
  | .redtMax c ty r d a => Sys2Proof.Machine.execRedtMax c ty r d a s
  | .redtAnd c ty r d a => Sys2Proof.Machine.execRedtAnd c ty r d a s
  | .redtOr c ty r d a => Sys2Proof.Machine.execRedtOr c ty r d a s
  | .redtXor c ty r d a => Sys2Proof.Machine.execRedtXor c ty r d a s
  | .matchLanes c fp d a => Sys2Proof.Machine.execMatchLanes c fp d a s
  | .xsend c slot wide a => Sys2Proof.Machine.execXsend c slot wide a s
  | .xrecv c slot wide d => Sys2Proof.Machine.execXrecv c slot wide d s
  | .rput c wide a k => Sys2Proof.Machine.execRput c wide a k s
  | .ld c ty d a off => Sys2Proof.Machine.execLd c ty d a off s
  | .ldTurn c wide d a off => Sys2Proof.Machine.execLdTurn c wide d a off s
  | .ldAcq c wide sc d a off => Sys2Proof.Machine.execLdAcq c wide sc d a off s
  | .st c w d a off => Sys2Proof.Machine.execSt c w d a off s
  | .stRel c wide sc d a off => Sys2Proof.Machine.execStRel c wide sc d a off s
  | .prefetch c a off => Sys2Proof.Machine.execPrefetch c a off s
  | .atomAdd c o sc ty d a b => Sys2Proof.Machine.execAtomAdd c o sc ty d a b s
  | .atomMin c o sc ty d a b => Sys2Proof.Machine.execAtomMin c o sc ty d a b s
  | .atomMax c o sc ty d a b => Sys2Proof.Machine.execAtomMax c o sc ty d a b s
  | .atomAnd c o sc ty d a b => Sys2Proof.Machine.execAtomAnd c o sc ty d a b s
  | .atomOr c o sc ty d a b => Sys2Proof.Machine.execAtomOr c o sc ty d a b s
  | .atomXor c o sc ty d a b => Sys2Proof.Machine.execAtomXor c o sc ty d a b s
  | .atomExch c o sc ty d a b => Sys2Proof.Machine.execAtomExch c o sc ty d a b s
  | .atomCas c o sc ty d a b cc => Sys2Proof.Machine.execAtomCas c o sc ty d a b cc s
  | .atomAddF32 c o sc d a b => Sys2Proof.Machine.execAtomAddF32 c o sc d a b s
  | .redAdd c rel sc ty a b => Sys2Proof.Machine.execRedAdd c rel sc ty a b s
  | .redMin c rel sc ty a b => Sys2Proof.Machine.execRedMin c rel sc ty a b s
  | .redMax c rel sc ty a b => Sys2Proof.Machine.execRedMax c rel sc ty a b s
  | .redAnd c rel sc ty a b => Sys2Proof.Machine.execRedAnd c rel sc ty a b s
  | .redOr c rel sc ty a b => Sys2Proof.Machine.execRedOr c rel sc ty a b s
  | .redXor c rel sc ty a b => Sys2Proof.Machine.execRedXor c rel sc ty a b s
  | .redAddF32 c rel sc a b => Sys2Proof.Machine.execRedAddF32 c rel sc a b s
  | .redDefer c ty a b => Sys2Proof.Machine.execRedDefer c ty a b s
  | .vectorFence c sc => Sys2Proof.Machine.execVectorFence c sc s
  | .vectorFenceAcq c sc => Sys2Proof.Machine.execVectorFenceAcq c sc s
  | .vectorFenceRel c sc => Sys2Proof.Machine.execVectorFenceRel c sc s
  | .fenceD c => Sys2Proof.Machine.execFenceD c s
  | .mma c ty r ra rb d a b k => Sys2Proof.Machine.execMma c ty r ra rb d a b k s
  | .mmaz c q4 ra rb d a b z => Sys2Proof.Machine.execMmaz c q4 ra rb d a b z s
  | .sacc c r d a b cc => Sys2Proof.Machine.execSacc c r d a b cc s
  | .tzero c d => Sys2Proof.Machine.execTzero c d s
  | .tmovToVector c d t j rb => Sys2Proof.Machine.execTmovToVector c d t j rb s
  | .tmovToTile c t a j rb => Sys2Proof.Machine.execTmovToTile c t a j rb s
  | .vectorNop stall => Sys2Proof.Machine.execVectorNop stall s
  | .copy w => Sys2Proof.Machine.execCopy w s
  | .copyx w => Sys2Proof.Machine.execCopyx w s
  | .gather w => Sys2Proof.Machine.execGather w s
  | .scatter w => Sys2Proof.Machine.execScatter w s
  | .fill w => Sys2Proof.Machine.execFill w s
  | .tfill w => Sys2Proof.Machine.execTfill w s
  | .tdrain w => Sys2Proof.Machine.execTdrain w s
  | .clist w => Sys2Proof.Machine.execClist w s
  | .copyResume w => Sys2Proof.Machine.execCopyResume w s
  | .sweepScale w => Sys2Proof.Machine.execSweepScale w s
  | .sweepAffine w => Sys2Proof.Machine.execSweepAffine w s
  | .sweepClamp w => Sys2Proof.Machine.execSweepClamp w s
  | .sweepFill w => Sys2Proof.Machine.execSweepFill w s
  | .sweepAbsmax w => Sys2Proof.Machine.execSweepAbsmax w s
  | .sweepSum w => Sys2Proof.Machine.execSweepSum w s
  | .sweepForce w => Sys2Proof.Machine.execSweepForce w s
  | .sweepStatus w => Sys2Proof.Machine.execSweepStatus w s
  | .rowCopy w => Sys2Proof.Machine.execRowCopy w s
  | .rowZero w => Sys2Proof.Machine.execRowZero w s
  | .deriveRegTranspose w => Sys2Proof.Machine.execDeriveRegTranspose w s
  | .deriveRegCast w => Sys2Proof.Machine.execDeriveRegCast w s
  | .deriveRegRowsum w => Sys2Proof.Machine.execDeriveRegRowsum w s
  | .deriveDrop w => Sys2Proof.Machine.execDeriveDrop w s
  | .deriveFlush w => Sys2Proof.Machine.execDeriveFlush w s
  | .snapArm w => Sys2Proof.Machine.execSnapArm w s
  | .snapAbort w => Sys2Proof.Machine.execSnapAbort w s
  | .basinResume w => Sys2Proof.Machine.execBasinResume w s
  | .allreduce w => Sys2Proof.Machine.execAllreduce w s
  | .reducescatter w => Sys2Proof.Machine.execReducescatter w s
  | .allgather w => Sys2Proof.Machine.execAllgather w s
  | .sendCmd w => Sys2Proof.Machine.execSendCmd w s
  | .recvCmd w => Sys2Proof.Machine.execRecvCmd w s
  | .bucketArm w => Sys2Proof.Machine.execBucketArm w s
  | .stepCmd w => Sys2Proof.Machine.execStepCmd w s
  | .collectiveResume w => Sys2Proof.Machine.execCollectiveResume w s
  | .powerUp => Sys2Proof.Machine.execPowerUp s
  | .portTrainingTimeout => Sys2Proof.Machine.execPortTrainingTimeout s
  | .imageDownload img => Sys2Proof.Machine.execImageDownload img s
  | .fullService => Sys2Proof.Machine.execFullService s
  | .attestationRequest nonce => Sys2Proof.Machine.execAttestationRequest nonce s
  | .sensorSample core quarterDeg droop => Sys2Proof.Machine.execSensorSample core quarterDeg droop s
  | .uncorrectableSoftError pa corrected => Sys2Proof.Machine.execUncorrectableSoftError pa corrected s
  | .launchMessage ty tag ep body => Sys2Proof.Machine.execLaunchMessage ty tag ep body s
  | .openWindow tag win grid base len vaddr => Sys2Proof.Machine.execOpenWindow tag win grid base len vaddr s
  | .closeWindow tag win => Sys2Proof.Machine.execCloseWindow tag win s
  | .setCommunicator tag num rank ports eps => Sys2Proof.Machine.execSetCommunicator tag num rank ports eps s
  | .setDrainTarget tag slot endpoint ports base len key => Sys2Proof.Machine.execSetDrainTarget tag slot endpoint ports base len key s
  | .resolveHalt tag w0 w1 w2 => Sys2Proof.Machine.execResolveHalt tag w0 w1 w2 s
  | .loadKeySlot tag slot key => Sys2Proof.Machine.execLoadKeySlot tag slot key s
  | .hostRmaRead win off len => Sys2Proof.Machine.execHostRmaRead win off len s
  | .launchStart go => Sys2Proof.Machine.execLaunchStart go s
  | .teamPlacement ctx place => Sys2Proof.Machine.execTeamPlacement ctx place s
  | .tlbInvalidation => Sys2Proof.Machine.execTlbInvalidation s
  | .groupStart core slot => Sys2Proof.Machine.execGroupStart core slot s
  | .groupEnd => Sys2Proof.Machine.execGroupEnd s
  | .gridEnd ctx => Sys2Proof.Machine.execGridEnd ctx s
  | .clauseGrant core sq => Sys2Proof.Machine.execClauseGrant core sq s
  | .pipeGrant core pipe delay => Sys2Proof.Machine.execPipeGrant core pipe delay s
  | .pauseExpiry => Sys2Proof.Machine.execPauseExpiry s
  | .resultArrival stamp lanes l1 => Sys2Proof.Machine.execResultArrival stamp lanes l1 s
  | .zeroMaskSlotFall stamp => Sys2Proof.Machine.execZeroMaskSlotFall stamp s
  | .regsExhausted core => Sys2Proof.Machine.execRegsExhausted core s
  | .faultRecord who => Sys2Proof.Machine.execFaultRecord who s
  | .replayHalt vec => Sys2Proof.Machine.execReplayHalt vec s
  | .continueHalt vec => Sys2Proof.Machine.execContinueHalt vec s
  | .discardHalt vec => Sys2Proof.Machine.execDiscardHalt vec s
  | .terminateHalt vec => Sys2Proof.Machine.execTerminateHalt vec s
  | .preemptionRequest core => Sys2Proof.Machine.execPreemptionRequest core s
  | .contextSave core lead go => Sys2Proof.Machine.execContextSave core lead go s
  | .contextResume n place => Sys2Proof.Machine.execContextResume n place s
  | .writePerformed stamp lane => Sys2Proof.Machine.execWritePerformed stamp lane s
  | .demandCapture row => Sys2Proof.Machine.execDemandCapture row s
  | .deferredAccept stamp lane => Sys2Proof.Machine.execDeferredAccept stamp lane s
  | .recompute row => Sys2Proof.Machine.execRecompute row s
  | .fifoUnit core bank => Sys2Proof.Machine.execFifoUnit core bank s
  | .refreshRestore bank => Sys2Proof.Machine.execRefreshRestore bank s
  | .forcedActivation bank => Sys2Proof.Machine.execForcedActivation bank s
  | .registration basin ctx row => Sys2Proof.Machine.execRegistration basin ctx row s
  | .snapshotDrainRecord basin => Sys2Proof.Machine.execSnapshotDrainRecord basin s
  | .drainAcknowledgement slot => Sys2Proof.Machine.execDrainAcknowledgement slot s
  | .elementDelivery e => Sys2Proof.Machine.execElementDelivery e s
  | .matrixGrant quad => Sys2Proof.Machine.execMatrixGrant quad s
  | .matrixCompletion quad => Sys2Proof.Machine.execMatrixCompletion quad s
  | .rendezvousPairing slot => Sys2Proof.Machine.execRendezvousPairing slot s
  | .rputArrival part => Sys2Proof.Machine.execRputArrival part s
  | .barPhaseComplete b => Sys2Proof.Machine.execBarPhaseComplete b s
  | .clusterBarrierPhase b => Sys2Proof.Machine.execClusterBarrierPhase b s
  | .runToken => Sys2Proof.Machine.execRunToken s
  | .walkToken point => Sys2Proof.Machine.execWalkToken point s
  | .maskPush => Sys2Proof.Machine.execMaskPush s
  | .maskInvert => Sys2Proof.Machine.execMaskInvert s
  | .maskPop => Sys2Proof.Machine.execMaskPop s
  | .deposit => Sys2Proof.Machine.execDeposit s
  | .synchronise => Sys2Proof.Machine.execSynchronise s
  | .returnTok => Sys2Proof.Machine.execReturnTok s
  | .bootPortTrained => Sys2Proof.Machine.execBootPortTrained s
  | .bringUpFault => Sys2Proof.Machine.execBringUpFault s
  | .connectionSetUp peer features => Sys2Proof.Machine.execConnectionSetUp peer features s
  | .peerDelivery ctx rank data => Sys2Proof.Machine.execPeerDelivery ctx rank data s
  | .retransmissionFailure ctx => Sys2Proof.Machine.execRetransmissionFailure ctx s
  | .engineContextPreemption e => Sys2Proof.Machine.execEngineContextPreemption e s
  | .engineContextResume e => Sys2Proof.Machine.execEngineContextResume e s
  | .commandEndedInError e => Sys2Proof.Machine.execCommandEndedInError e s

end Sys2Proof.Machine
end

