-- ==== Sys2Proof/Machine/Step.lean ====
section
/-! DEFINITION. One step of the machine: the next move of the agenda is taken, with its group in focus. An issue decodes the next
instruction of the granted clause and runs it; an event runs by itself. -/
namespace Sys2Proof.Machine

/-- Runs what a decoder answered for the next control word: the instruction, or OP_ILLEGAL with INFO the word (R131). -/
def runControl (w : Word) (s : State) : Out :=
  match decodeCtl w with
  | .ok i => exec i s
  | .error e => .next (ctlIllegal e w s)

/-- Runs what the decoder answers for the next vector word under its clause's windows. -/
def runVector (ws : Wins) (w : Word) (s : State) : Out :=
  match decodeVec ws w with
  | .ok i => exec i s
  | .error _ => .next (vecIllegal w s)

/-- The state of an outcome goes on. -/
def thenDo (f : State → State) : Out → Out
  | .next t => .next (f t)
  | o => o

/-- The next control instruction of the group in focus, when its clause is granted; of a group that a fault of its vector slice has just
halted the one that it was in (R79). -/
def issueControl (s : State) : Out :=
  match nextControl s with
  | some w => runControl w s
  | none => match lateControl s with
    | some w => thenDo lateStop (runControl w (lateStart s))
    | none => .next s

/-- The next vector instruction of the group in focus, when its clause has a pipe; of a group that a fault of its control slice has just
halted the one that it was in (R79). -/
def issueVector (s : State) : Out :=
  match nextVector s with
  | some (ws, w) => runVector ws w s
  | none => match lateVector s with
    | some (ws, w) => thenDo lateStop (runVector ws w (lateStart s))
    | none => .next s

/-- One move. An event is run by exec; a move that names an instruction as an event is passed over. -/
def runMove (a : Act) (s : State) : Out :=
  match a with
  | .issueControl => issueControl s
  | .issueVector => issueVector s
  | .event e => if isEvent e then exec e s else .next s

/-- One step of the machine; with an empty agenda nothing happens. -/
def step (s : State) : Host.Outcome State Fault Refusal :=
  match s.agenda with
  | [] => .next s
  | m :: rest =>
    match focusOn m.focus { s with agenda := rest } with
    | some t => runMove m.act t
    | none => .next { s with agenda := rest }

/-- The state in which the very next step runs the instruction whose bits are w: the group in focus is resident and holds a
grant on a clause whose one instruction is that word. -/
def State.withFetchWord (s : State) (nbits w : Nat) : State := placeWord nbits w s

end Sys2Proof.Machine
end

