-- ==== Sys2Proof/Safety.lean ====
section
/-! DEFINITION. What counts as a safe state and a safe run: every memory and every sparse array a claim reads is in its canonical
form, and no step of the run stops. -/
namespace Sys2Proof

/-- The memories of the machine are in canonical form: addresses rising, no entry equal to what an unlisted address reads as. -/
def Machine.State.memWf (s : Machine.State) : Bool :=
  Machine.smWf 0 s.dram && Machine.smWf 0 s.sram && Machine.smWf 0 s.host

/-- A step that answers a next state. -/
def Goes (s t : Machine.State) : Prop := Machine.step s = .next t

/-- n steps, each of which answers a next state. -/
inductive Runs : Nat → Machine.State → Machine.State → Prop where
  | refl (s : Machine.State) : Runs 0 s s
  | step {n : Nat} {s t u : Machine.State} (h : Goes s t) (r : Runs n t u) : Runs (n + 1) s u

/-- A safe run keeps the canonical form of memory. -/
def SafeRun (n : Nat) (s t : Machine.State) : Prop := Runs n s t ∧ (s.memWf → t.memWf)

end Sys2Proof
end

