-- ==== Sys2Proof/Certificates/Slice0/Obligations.lean ====
section
/-! DEFINITION. The statements for the provers, over a few named shapes: what a control or vector instruction changes, what it leaves
alone, and what a queue does with a command. -/

namespace Sys2Proof.Says
open Sys2Proof Sys2Proof.Machine

/-- Every byte of memory reads in t as it read in s. -/
def SameMemory (s t : State) : Prop :=
  ∀ a, smGet 0 t.dram a = smGet 0 s.dram a ∧ smGet 0 t.sram a = smGet 0 s.sram a ∧ smGet 0 t.host a = smGet 0 s.host a

/-- The guard of a control instruction holds, and no register it reads awaits a load or an atomic. -/
def Issues (g : CGuard) (rs : List XReg) (s : State) : Prop := s.g.guard g = true ∧ ∀ r ∈ rs, s.g.busy r = false

/-- The control slice stands at the instruction after, and is not blocked. -/
def Advanced (s t : State) : Prop := t.g.pos = s.g.pos.next ∧ t.g.block = .none

/-- Grants aside, the cores are as they were. -/
def SameCores (s t : State) : Prop :=
  ∀ n, smGet Core.reset t.cores n =
    { smGet Core.reset s.cores n with seqGrant := (smGet Core.reset t.cores n).seqGrant, pipe := (smGet Core.reset t.cores n).pipe }

/-- A write of a register takes it from the accesses that were to return to it, and changes no other access
(notes/assumptions/61.md). -/
def Forgotten (ds : List XReg) (s t : State) : Prop :=
  t.g.accs = s.g.accs ∨ t.g.accs = s.g.accs.map fun a =>
    match a.dst with
    | .x r _ _ => if r ∈ ds then { a with dst := .none } else a
    | _ => a

/-- Of the whole machine only these may differ: the control registers ds, the predicates ps, the position, the block and the grant of
the group in focus, and where results on their way to ds go. -/
def CtlFrame (ds : List XReg) (ps : List (BitVec 3)) (s t : State) : Prop :=
  (∀ r, r ∉ ds → t.g.readX r = s.g.readX r) ∧ (∀ p, p ∉ ps → t.g.readC p = s.g.readC p) ∧ Forgotten ds s t ∧
    t = { s with g := { s.g with x := t.g.x, c := t.g.c, pos := t.g.pos, block := t.g.block, accs := t.g.accs }, cores := t.cores } ∧
    SameCores s t ∧ SameMemory s t

/-- The integer operations of Table 66 in form CR. -/
def crTable : List ((CGuard → XReg → XReg → XReg → Instr) × (Word → Word → Word)) :=
  [(.addCr, fun a b => a + b), (.subCr, fun a b => a - b), (.mulCr, fun a b => a * b),
   (.mulhiS64Cr, fun a b => BitVec.ofInt 64 (a.toInt * b.toInt / 2 ^ 64)),
   (.mulhiN64Cr, fun a b => BitVec.ofNat 64 (a.toNat * b.toNat / 2 ^ 64)),
   (.andCr, fun a b => a &&& b), (.orCr, fun a b => a ||| b), (.xorCr, fun a b => a ^^^ b),
   (.shlCr, fun a b => a <<< (b.extractLsb' 0 6).toNat), (.shrN64Cr, fun a b => a >>> (b.extractLsb' 0 6).toNat),
   (.shrS64Cr, fun a b => a.sshiftRight (b.extractLsb' 0 6).toNat),
   (.minS64Cr, fun a b => if a.toInt ≤ b.toInt then a else b), (.minN64Cr, fun a b => if a.toNat ≤ b.toNat then a else b),
   (.maxS64Cr, fun a b => if a.toInt ≤ b.toInt then b else a), (.maxN64Cr, fun a b => if a.toNat ≤ b.toNat then b else a)]

/-- The same operations in form CI. -/
def ciTable : List ((CGuard → XReg → XReg → BitVec 32 → Instr) × (Word → Word → Word)) :=
  [(.addCi, fun a b => a + b), (.subCi, fun a b => a - b), (.mulCi, fun a b => a * b),
   (.mulhiS64Ci, fun a b => BitVec.ofInt 64 (a.toInt * b.toInt / 2 ^ 64)),
   (.mulhiN64Ci, fun a b => BitVec.ofNat 64 (a.toNat * b.toNat / 2 ^ 64)),
   (.andCi, fun a b => a &&& b), (.orCi, fun a b => a ||| b), (.xorCi, fun a b => a ^^^ b),
   (.shlCi, fun a b => a <<< (b.extractLsb' 0 6).toNat), (.shrN64Ci, fun a b => a >>> (b.extractLsb' 0 6).toNat),
   (.shrS64Ci, fun a b => a.sshiftRight (b.extractLsb' 0 6).toNat),
   (.minS64Ci, fun a b => if a.toInt ≤ b.toInt then a else b), (.minN64Ci, fun a b => if a.toNat ≤ b.toNat then a else b),
   (.maxS64Ci, fun a b => if a.toInt ≤ b.toInt then b else a), (.maxN64Ci, fun a b => if a.toNat ≤ b.toNat then b else a)]

/-- The conditions of Table 67. -/
def condTable : Cond → Word → Word → Prop
  | .eq => fun a b => a = b
  | .ne => fun a b => a ≠ b
  | .ltS => fun a b => a.toInt < b.toInt
  | .geS => fun a b => b.toInt ≤ a.toInt
  | .ltN => fun a b => a.toNat < b.toNat
  | .geN => fun a b => b.toNat ≤ a.toNat
  | .tst => fun a b => a &&& b ≠ 0
  | .ntst => fun a b => a &&& b = 0

/-- The guard of a control instruction; none for anything else. -/
def guardOf : Instr → Option CGuard
  | .addCr g _ _ _ | .subCr g _ _ _ | .mulCr g _ _ _ | .mulhiS64Cr g _ _ _ | .mulhiN64Cr g _ _ _ | .andCr g _ _ _ |
    .orCr g _ _ _ | .xorCr g _ _ _ | .shlCr g _ _ _ | .shrN64Cr g _ _ _ | .shrS64Cr g _ _ _ | .minS64Cr g _ _ _ |
    .minN64Cr g _ _ _ | .maxS64Cr g _ _ _ | .maxN64Cr g _ _ _ => some g
  | .addCi g _ _ _ | .subCi g _ _ _ | .mulCi g _ _ _ | .mulhiS64Ci g _ _ _ | .mulhiN64Ci g _ _ _ | .andCi g _ _ _ |
    .orCi g _ _ _ | .xorCi g _ _ _ | .shlCi g _ _ _ | .shrN64Ci g _ _ _ | .shrS64Ci g _ _ _ | .minS64Ci g _ _ _ |
    .minN64Ci g _ _ _ | .maxS64Ci g _ _ _ | .maxN64Ci g _ _ _ => some g
  | .cmpCr g _ _ _ _ | .cmpCi g _ _ _ _ | .lea g _ _ _ _ _ _ | .movi g _ _ | .movhi g _ _ _ | .br g _ | .brc g _ _ _ _ |
    .loop g _ _ | .jmp g _ | .call g _ _ | .ret g _ | .exit g => some g
  | .ldS8 g _ _ _ _ | .ldN8 g _ _ _ _ | .ldS16 g _ _ _ _ | .ldN16 g _ _ _ _ | .ldS32 g _ _ _ _ | .ldN32 g _ _ _ _ |
    .ldB64 g _ _ _ _ | .ldAcqN32 g _ _ _ _ _ | .ldAcqB64 g _ _ _ _ _ | .stB8 g _ _ _ _ | .stB16 g _ _ _ _ |
    .stB32 g _ _ _ _ | .stB64 g _ _ _ _ | .stRelB32 g _ _ _ _ _ | .stRelB64 g _ _ _ _ _ => some g
  | .controlAtomAdd g _ _ _ _ _ _ _ | .controlAtomMin g _ _ _ _ _ _ _ | .controlAtomMax g _ _ _ _ _ _ _ |
    .controlAtomAnd g _ _ _ _ _ _ _ | .controlAtomOr g _ _ _ _ _ _ _ | .controlAtomXor g _ _ _ _ _ _ _ |
    .controlAtomExch g _ _ _ _ _ _ _ | .controlAtomCas g _ _ _ _ _ _ _ _ => some g
  | .fence g _ | .fenceAcq g _ | .fenceRel g _ | .pause g _ | .icinv g _ | .vrun g _ _ | .vwalk g _ _ | .vmpush g _ _ _ _ |
    .vmelse g | .vmpop g | .vput g _ _ _ | .vget g _ _ _ | .vgetB64 g _ _ _ | .vgetPredicate g _ _ _ | .vgetMask g _ _ _ |
    .vsync g => some g
  | .push g _ _ _ _ | .fwait g _ | .ftest g _ _ | .fcancel g _ | .tlwait g _ _ | .handoff g _ _ _ _ | .publish g _ |
    .bar g _ | .cbarArr g _ _ | .cbarWait g _ _ | .await g _ _ _ | .mxacq g | .mxrel g | .tcfg g _ _ | .csrr g _ _ |
    .csrwFpm g _ | .csrwFlags g _ | .csrwQtab g _ | .csrwChk g _ | .csrwPart g _ | .csrwArrivalCounter g _ _ | .csrw g _ _ |
    .trap g _ | .nop g => some g
  | _ => none

/-- The registers a control instruction reads (Tables 65 to 80); none for anything else. -/
def readsOf : Instr → List XReg
  | .addCr _ _ a b | .subCr _ _ a b | .mulCr _ _ a b | .mulhiS64Cr _ _ a b | .mulhiN64Cr _ _ a b | .andCr _ _ a b |
    .orCr _ _ a b | .xorCr _ _ a b | .shlCr _ _ a b | .shrN64Cr _ _ a b | .shrS64Cr _ _ a b | .minS64Cr _ _ a b |
    .minN64Cr _ _ a b | .maxS64Cr _ _ a b | .maxN64Cr _ _ a b | .cmpCr _ _ _ a b | .brc _ _ a b _ => [a, b]
  | .addCi _ _ a _ | .subCi _ _ a _ | .mulCi _ _ a _ | .mulhiS64Ci _ _ a _ | .mulhiN64Ci _ _ a _ | .andCi _ _ a _ |
    .orCi _ _ a _ | .xorCi _ _ a _ | .shlCi _ _ a _ | .shrN64Ci _ _ a _ | .shrS64Ci _ _ a _ | .minS64Ci _ _ a _ |
    .minN64Ci _ _ a _ | .maxS64Ci _ _ a _ | .maxN64Ci _ _ a _ | .cmpCi _ _ _ a _ | .movhi _ _ a _ => [a]
  | .lea _ _ a b pcRel _ _ => if pcRel then [b] else [a, b]
  | .loop _ d _ => [d]
  | .jmp _ a | .ret _ a | .vput _ _ a _ | .fwait _ a | .ftest _ _ a | .fcancel _ a | .cbarWait _ a _ | .await _ _ a _ |
    .tcfg _ a _ | .csrwFpm _ a | .csrwFlags _ a | .csrwQtab _ a | .csrwChk _ a | .csrwPart _ a | .csrwArrivalCounter _ a _ |
    .csrw _ a _ => [a]
  | .ldS8 _ _ a _ _ | .ldN8 _ _ a _ _ | .ldS16 _ _ a _ _ | .ldN16 _ _ a _ _ | .ldS32 _ _ a _ _ | .ldN32 _ _ a _ _ |
    .ldB64 _ _ a _ _ | .ldAcqN32 _ _ a _ _ _ | .ldAcqB64 _ _ a _ _ _ => [a]
  | .stB8 _ d a _ _ | .stB16 _ d a _ _ | .stB32 _ d a _ _ | .stB64 _ d a _ _ | .stRelB32 _ d a _ _ _ | .stRelB64 _ d a _ _ _ =>
    [a, d]
  | .controlAtomAdd _ _ a b _ _ _ _ | .controlAtomMin _ _ a b _ _ _ _ | .controlAtomMax _ _ a b _ _ _ _ |
    .controlAtomAnd _ _ a b _ _ _ _ | .controlAtomOr _ _ a b _ _ _ _ | .controlAtomXor _ _ a b _ _ _ _ |
    .controlAtomExch _ _ a b _ _ _ _ => [a, b]
  | .controlAtomCas _ _ a b tr _ _ _ _ => [a, b, tr]
  | .vrun _ a c => match c with | .imm _ => [a] | .reg b => [a, b]
  | .vwalk _ a b | .tlwait _ a b => [a, b]
  | .push _ _ a _ _ => [a, a + 1, a + 2, a + 3, a + 4, a + 5, a + 6, a + 7]
  | .handoff _ d a b _ => [a, b, d]
  | _ => []

/-- Only the group in focus differs, and grants of the cores: no byte of memory, no other part of the machine. -/
def OnlyGroup (s t : State) : Prop := t = { s with g := t.g, cores := t.cores } ∧ SameCores s t ∧ SameMemory s t

/-- The place of a FIFO lane of an access, as (core, bank). -/
def fifoOf (a : Acc) (n b : Nat) : Prop := ∃ l ∈ a.lanes, l.loc = .fifo n b

/-- What a halt does besides the record: the group gives up its grant and its pipe, and what the accesses that `goes` names have waiting
elsewhere is withdrawn: their halves of rendezvous, their units at FIFO banks, their entries of the reservation table, which the group
keeps. Nothing else of the machine changes (Table 34, R79, R286, R317). -/
def Halts (goes : Nat → Bool) (s t : State) : Prop :=
  let mine := fun (m : MEntry) => m.core == s.g.core && m.slot == s.g.slot && m.team == s.g.team && goes m.acc;
  t = { s with g := t.g, cores := t.cores, teams := t.teams, quads := t.quads } ∧ SameMemory s t ∧
    t.g.entries = s.g.entries ++ s.quad.table.filter mine ∧
    (∀ q, smGet Quad.reset t.quads q = if q = quadOfCore s.g.core then
        { s.quad with table := s.quad.table.filter fun m => !mine m }
      else smGet Quad.reset s.quads q) ∧
    (∀ n, n ≠ s.g.team → smGet Team.reset t.teams n = smGet Team.reset s.teams n) ∧
    t.team = { s.team with rdv := t.team.rdv } ∧
    (∀ k, ((∃ a ∈ s.g.accs, a.kind = .xsend k ∨ a.kind = .xrecv k) → smGet Rdv.reset t.team.rdv k =
          ⟨(smGet Rdv.reset s.team.rdv k).send.filter (fun p => !(p.1 == s.g.slot && goes p.2)),
            (smGet Rdv.reset s.team.rdv k).recv.filter (fun p => !(p.1 == s.g.slot && goes p.2))⟩) ∧
      ((∀ a ∈ s.g.accs, a.kind ≠ .xsend k ∧ a.kind ≠ .xrecv k) → smGet Rdv.reset t.team.rdv k = smGet Rdv.reset s.team.rdv k)) ∧
    (∀ n, smGet Core.reset t.cores n = { smGet Core.reset s.cores n with
      seqGrant := (smGet Core.reset t.cores n).seqGrant, pipe := (smGet Core.reset t.cores n).pipe
      units := (smGet Core.reset t.cores n).units }) ∧
    (∀ n b, ((∃ a ∈ s.g.accs, fifoOf a n b) → smGet [] (smGet Core.reset t.cores n).units b =
          (smGet [] (smGet Core.reset s.cores n).units b).filter
            (fun u => !(u.1 == s.g.core && u.2.1 == s.g.slot && goes u.2.2))) ∧
      ((∀ a ∈ s.g.accs, ¬fifoOf a n b) →
        smGet [] (smGet Core.reset t.cores n).units b = smGet [] (smGet Core.reset s.cores n).units b))

/-- An access of the group in s that the halt to t withdraws: one of a slice that has no record. In a slice that has faulted the earlier
instructions keep their full effect (R78, R79). -/
def Yielded (s t : State) (n : Nat) : Bool :=
  s.g.accs.any fun a => a.stamp == n && !t.g.recs.any fun r => (r.fr.orig == 0) == a.ctl

/-- The control slice of the group in focus runs a clause that its sequencer has granted, or its vector slice one that a pipe holds. -/
def RunsClause (ctl : Bool) (s : State) : Prop :=
  if ctl then smGet none (smGet Core.reset s.cores s.g.core).seqGrant (s.g.slot % 2) = some s.g.slot ∧ s.g.exited = false ∧ s.g.pos.code ≠ []
  else s.g.vpos.begun = true ∧ s.g.vpos.pipe.isSome = true ∧ s.g.vpos.code ≠ []

/-- The group in focus takes a fault with this record and halts, and keeps everything else; at its first record the other slice, where it
runs a clause, may still finish one instruction (R79). -/
def Faulted (r : HaltRec) (s t : State) : Prop :=
  t.g.recs = s.g.recs ++ [r] ∧
    t.g = { s.g with recs := t.g.recs, entries := t.g.entries, vpos := t.g.vpos, ageV := t.g.ageV, late := t.g.late } ∧
    (s.g.recs = [] ∧ s.g.preempted = false ∧ RunsClause (r.fr.orig != 0) s → t.g.late = some (r.fr.orig == 0)) ∧
    (¬(s.g.recs = [] ∧ s.g.preempted = false ∧ RunsClause (r.fr.orig != 0) s) → t.g.late = none) ∧
    t.g.vpos = { s.g.vpos with pipe := none, resumed := t.g.vpos.resumed } ∧ Halts (Yielded s t) s t

/-- The record of a fault of the control slice at its current instruction (Table 30). -/
def ctlRecord (code : BitVec 8) (acc : BitVec 4) (addr : BitVec 56) (info : Word) (s : State) : FaultRec :=
  { code := code, orig := 0, imprec := false, index := BitVec.ofNat 4 s.g.pos.idx
    slot := BitVec.ofNat 5 s.g.slot, core := BitVec.ofNat 10 s.g.core, lanes := 0
    clause := s.g.pos.hdr.truncate 56, acc := acc, addr := addr, info := info }

/-- The control slice of the group in focus takes a fault: the record made, precise at the current instruction. -/
def ControlFault (code : BitVec 8) (acc : BitVec 4) (addr : BitVec 56) (info : Word) (s t : State) : Prop :=
  Faulted { fr := ctlRecord code acc addr info s, sent := false, held := none, act := none } s t

/-- A control fetch takes a fault: the record stands at the clause it would fetch, with INDEX 0 and ACC 4 (R250). -/
def FetchFault (hdr : Word) (code : BitVec 8) (info va : Word) (s t : State) : Prop :=
  Faulted { fr := { ctlRecord code 4 (va.truncate 56) info s with clause := hdr.truncate 56, index := 0 }
            sent := false, held := none, act := none } s t

/-- The vector slice takes a fault in these lanes, precise at its current instruction. -/
def VectorFault (code : BitVec 8) (lanes : Mask) (acc : BitVec 4) (addr : BitVec 56) (info : Word) (s t : State) : Prop :=
  Faulted { fr := { code := code, orig := 1, imprec := false, index := BitVec.ofNat 4 s.g.vpos.idx
                    slot := BitVec.ofNat 5 s.g.slot, core := BitVec.ofNat 10 s.g.core, lanes := lanes
                    clause := s.g.vpos.hdr.truncate 56, acc := acc, addr := addr, info := info }
            sent := false, held := none, act := none } s t

/-- The listed CSRs of Table 58 and Table 14, `flags` and the arrival counters aside, with what a read returns. -/
def csrTable : List (BitVec 12 × (Group → Word)) :=
  let n := fun (k : Nat) => BitVec.ofNat 64 k
  [(0x000, fun g => g.mode.fpm), (0x002, fun g => g.mode.qtab), (0x003, fun g => g.mode.chk), (0x004, fun g => g.mode.part),
   (0x005, fun g => n (g.levels.length + 1)), (0x020, fun g => n (g.id.grp % 32)), (0x021, fun g => n (g.id.ngrp % 64)),
   (0x022, fun g => n (g.id.nlane % 2048)), (0x023, fun g => n (g.id.row % 256 * 256 + g.id.col % 256)),
   (0x024, fun g => n (g.id.ch % 256 * 256 + g.id.cw % 256)), (0x025, fun g => n (g.id.cluX % 65536)),
   (0x026, fun g => n (g.id.cluY % 65536)), (0x027, fun g => n (g.id.cluZ % 65536)), (0x028, fun g => n (g.id.gX % 65536)),
   (0x029, fun g => n (g.id.gY % 65536)), (0x02A, fun g => n (g.id.gZ % 65536)), (0x02B, fun g => n (g.id.core % 1024)),
   (0x02C, fun g => g.id.parm.zeroExtend 64), (0x02D, fun g => g.id.capa.zeroExtend 64)]

/-- The writes of a CSR: the valid values (R100, R110, R140, Table 42), and what a valid one changes. -/
def csrwTable : List ((CGuard → XReg → Instr) × (Word → Prop) × (Word → Group → Group)) :=
  [(.csrwFpm, fun v => v.extractLsb' 9 55 = 0 ∧ 1 ≤ (v.extractLsb' 0 3).toNat ∧ (v.extractLsb' 0 3).toNat ≤ 4,
      fun v g => { g with mode := { g.mode with fpm := v } }),
   (.csrwFlags, fun v => v.extractLsb' 8 56 = 0, fun v g => { g with flagsDone := v, flagsLate := 0, fseq := g.fseq + 1 }),
   (.csrwQtab, fun v => v.extractLsb' 18 46 = 0 ∧ v.extractLsb' 0 10 = 0, fun v g => { g with mode := { g.mode with qtab := v } }),
   (.csrwChk, fun v => v.extractLsb' 2 62 = 0, fun v g => { g with mode := { g.mode with chk := v } }),
   (.csrwPart, fun v => 1 ≤ v.toNat ∧ v.toNat ≤ 5, fun v g => { g with mode := { g.mode with part := v } })]

/-- The control slice goes to a clause header. -/
def jumped (x : Word) (g : Group) : Group := { g with pos := ⟨x, 0, 0, []⟩, block := .none }

/-- A taken back-edge demotes nothing: there is no level, the spin record is another's or saw an effect or other values, or the top
level permits none (R148, Table 63). -/
def Stays (s : State) (vals : List Word) : Prop :=
  s.g.levels = [] ∨ s.g.spin ≠ some ⟨s.g.pc, vals, false⟩ ∨
    ∃ l rest, s.g.levels = l :: rest ∧ (l.dem = false ∨ (∃ j, l.other = .done j) ∨ (l.path2 = true ∧ l.other = .notStarted))

/-- A token joins the runnel with what it samples (R100, R142). -/
def withToken (g : Group) (k : TokKind) : Group := { g with runnel := g.runnel ++ [⟨k, g.mode, g.tseq, g.fseq, g.epochSent⟩] }

/-- The effect of a demotion. -/
def Demoted (s t : State) (l : Level) (rest : List Level) (T x : Word) : Prop :=
  OnlyGroup s t ∧ t.g = jumped x { withToken s.g .maskInvert with
    spin := none, levels := { l with path2 := !l.path2, other := .susp T } :: rest }

/-- No covered access is held at a home without a release that answers for it: of the control slice, and, for a release at which the slice
waits, of the vector slice too once its runnel is empty (R80, notes/assumptions/44.md). -/
def Unheld (waits : Bool) (s : State) (sc : Scope) : Prop := s.g.firstHeld (s.g.probe true sc) waits = none

/-- A release of this scope has nothing to answer for and waits for nothing. -/
def Released (s : State) (sc : Scope) : Prop := Unheld true s sc ∧ releaseWaits s s.g (s.g.probe true sc) = false

/-- What tells one control load or store from another: its width, its extension, whether it may reach a FIFO bank, whether it is the
acquire or release form. -/
structure MemForm where
  w : Nat
  signed : Bool
  fifo : Bool
  order : Bool

/-- The loads of Table 72. -/
def ldTable : List ((CGuard → XReg → XReg → Scope → Hint → BitVec 32 → Instr) × MemForm) :=
  [(fun g d a _ h i => .ldS8 g d a h i, ⟨1, true, false, false⟩), (fun g d a _ h i => .ldN8 g d a h i, ⟨1, false, false, false⟩),
   (fun g d a _ h i => .ldS16 g d a h i, ⟨2, true, false, false⟩), (fun g d a _ h i => .ldN16 g d a h i, ⟨2, false, false, false⟩),
   (fun g d a _ h i => .ldS32 g d a h i, ⟨4, true, true, false⟩), (fun g d a _ h i => .ldN32 g d a h i, ⟨4, false, true, false⟩),
   (fun g d a _ h i => .ldB64 g d a h i, ⟨8, false, true, false⟩), (.ldAcqN32, ⟨4, false, false, true⟩),
   (.ldAcqB64, ⟨8, false, false, true⟩)]

/-- The stores of Table 72. -/
def stTable : List ((CGuard → XReg → XReg → Scope → Hint → BitVec 32 → Instr) × MemForm) :=
  [(fun g d a _ h i => .stB8 g d a h i, ⟨1, false, false, false⟩), (fun g d a _ h i => .stB16 g d a h i, ⟨2, false, false, false⟩),
   (fun g d a _ h i => .stB32 g d a h i, ⟨4, false, true, false⟩), (fun g d a _ h i => .stB64 g d a h i, ⟨8, false, true, false⟩),
   (.stRelB32, ⟨4, false, false, true⟩), (.stRelB64, ⟨8, false, false, true⟩)]

/-- The control atomics of Table 73; all but `cas` have TR zero. -/
def atomTable : List ((CGuard → XReg → XReg → XReg → XReg → Order → Scope → ATy → Hint → Instr) × AOp) :=
  [(fun g d a b _ o sc ty h => .controlAtomAdd g d a b o sc ty h, .add), (fun g d a b _ o sc ty h => .controlAtomMin g d a b o sc ty h, .min),
   (fun g d a b _ o sc ty h => .controlAtomMax g d a b o sc ty h, .max), (fun g d a b _ o sc ty h => .controlAtomAnd g d a b o sc ty h, .and),
   (fun g d a b _ o sc ty h => .controlAtomOr g d a b o sc ty h, .or), (fun g d a b _ o sc ty h => .controlAtomXor g d a b o sc ty h, .xor),
   (fun g d a b _ o sc ty h => .controlAtomExch g d a b o sc ty h, .exch), (.controlAtomCas, .cas)]

/-- The place is a FIFO bank. -/
def isFifo : Loc → Bool
  | .fifo _ _ => true
  | .dram _ _ | .sram _ | .capa _ => false

/-- No addition waits in any bank, and no derived row is stale: what memory holds is what a read returns. -/
def Quiet (s : State) : Prop :=
  (∀ b, (smGet Bank.reset s.banks b).deferred = []) ∧ ∀ r, (Machine.rowAt s r).stale = false

/-- An access of the group in u has issued: besides the group, the L1 lines, queues and TLBs of cores, nothing has changed but what the
walks for its translations read; no byte is stored, and none changes unless a row that a walk read had additions or a recompute
waiting. -/
def Walked (x : Acc) (u t : State) : Prop :=
  t = { keepTlbs x u with g := t.g, stamp := u.stamp + 1, cores := t.cores } ∧ t.sram = u.sram ∧ t.host = u.host ∧
    t.others = u.others ∧ t.teams = u.teams ∧ t.clusters = u.clusters ∧ t.grids = u.grids ∧ t.owners = u.owners ∧ t.coll = u.coll ∧
    t.mgmt = u.mgmt ∧ (Quiet u → SameMemory u t)

/-- An access of the control slice of one lane is issued at the current instruction by the group g, and the slice advances: nothing is
performed yet. -/
def IssuedOne (s t : State) (g : Group) (x : Acc) (va : Word) (l : Loc) (w : Nat) (spin : Option Spin) : Prop :=
  t.g = { g with accs := g.accs ++ [x], spin := spin, pos := s.g.pos.next, block := .none } ∧ Walked x (s.withG g) t ∧
    x.stamp = s.stamp ∧ x.ctl = true ∧ x.w = w ∧ (x.lanes.map fun k => (k.va, k.loc, k.done, k.held)) = [(va, l, false, none)]

/-- The group after a register is to take a new result: results still to come for it go nowhere (notes/assumptions/61.md). -/
def retaken (d : XReg) (g : Group) : Group :=
  { g with accs := g.accs.map fun a => match a.dst with | .x r _ _ => if r = d then { a with dst := .none } else a | _ => a }

/-- A block address that meets no fault: bits [63:56] and [2:0] are zero (R154, R175). -/
def Aligned (x : Word) : Prop := x.extractLsb' 56 8 = 0 ∧ x.extractLsb' 0 3 = 0

/-- An instruction sends its token and advances with its own changes of the group, or blocks on a full runnel (R28, R142). -/
def Sends (i : Instr) (s : State) (k : TokKind) (g : Group) : Prop :=
  (s.g.runnel.length < 64 → ∃ t, exec i s = .next t ∧ OnlyGroup s t ∧
    t.g = { g with runnel := (withToken s.g k).runnel, pos := s.g.pos.next, block := .none }) ∧
  (64 ≤ s.g.runnel.length → ∃ t, exec i s = .next t ∧ OnlyGroup s t ∧ t.g = { s.g with block := .runnel })

/-- The ordering point of a `vsync` or `vget` (R56, R105). -/
def synced (g : Group) : Group := { g with epoch := g.epochSent, flagsDone := g.flagsDone ||| g.flagsLate, flagsLate := 0 }

/-- A wait on a handle (R17, R18, R39, R40, R76, R181). -/
def Waits (i : Instr) (h : Word) (s : State) : Prop :=
  let traps := fun (c : BitVec 8) => ∃ t, exec i s = .next t ∧
    Faulted { fr := ctlRecord c 0 0 h s, sent := false, held := none, act := none, wait := true } s t;
  (h = 0 → ∃ t, exec i s = .next t ∧ OnlyGroup s t ∧ t.g = { s.g with pos := s.g.pos.next, block := .none }) ∧
  (h ≠ 0 → handleRef h = none → ∃ t, exec i s = .next t ∧ ControlFault 0x03 0 0 h s t) ∧
  (∀ e seq, h ≠ 0 → handleRef h = some (e, seq) →
    ((s.ctx e).reached seq = false → ∃ t, exec i s = .next t ∧ OnlyGroup s t ∧ t.g = { s.g with block := .future h }) ∧
    ((s.ctx e).reached seq = true →
      ((s.ctx e).endStat seq = .completed → ∃ t, exec i s = .next t ∧ SameMemory s t ∧ t = { s with g := t.g, cores := t.cores } ∧
        t.g = { s.g with pos := s.g.pos.next, block := .none, acquired := s.stamp } ∧
        (smGet Core.reset t.cores s.g.core).l1 = []) ∧
      (∀ c, (s.ctx e).endStat seq = .error c → traps c) ∧
      ((s.ctx e).endStat seq = .cancelled → traps 0x13)))

/-- A slice has come to the boundary at which its group stands halted: its grant or pipe is given up, and what it has waiting is withdrawn unless
it has faulted itself (R79). -/
def StoodStill (u v : State) : Prop :=
  v.g = { u.g with entries := v.g.entries, vpos := v.g.vpos, ageV := v.g.ageV } ∧
    v.g.vpos = { u.g.vpos with pipe := none, resumed := v.g.vpos.resumed } ∧ Halts (Yielded u v) u v

/-- The commands that a queue accepts with a sequence number: the constructor, the context its word 0 names, the checks of its
fields. -/
def queueTable : List ((Cmd → Instr) × (Cmd → State → EngineRef) × (Cmd → State → Bool)) :=
  let q := fun (w : Cmd) (s : State) => EngineRef.copy (quadOfCore s.g.core) (w.w0.extractLsb' 53 3).toNat
  let b := fun (w : Cmd) (s : State) => (basinRef w s).1
  let c := fun (w : Cmd) (_ : State) => EngineRef.coll (w.w0.extractLsb' 52 4).toNat
  let l := fun (w : Cmd) (_ : State) => EngineRef.launch (w.w0.extractLsb' 53 3).toNat
  let at_ := fun (f : Cmd → Bool) (w : Cmd) (s : State) => !(basinRef w s).2 && f w
  [(.copy, q, fun w _ => copyOk w), (.copyx, q, fun w _ => copyxOk w), (.gather, q, fun w _ => gatherOk w),
   (.scatter, q, fun w _ => gatherOk w), (.fill, q, fun w _ => fillOk w), (.clist, q, fun w _ => clistOk w),
   (.sweepScale, b, at_ sweepOk), (.sweepAffine, b, at_ sweepOk), (.sweepClamp, b, at_ sweepOk), (.sweepFill, b, at_ sweepOk),
   (.sweepAbsmax, b, at_ sweepOk), (.sweepSum, b, at_ sweepOk), (.sweepForce, b, at_ forceOk), (.sweepStatus, b, at_ statusOk),
   (.rowCopy, b, at_ (rowCmdOk false)), (.rowZero, b, at_ (rowCmdOk true)), (.deriveRegTranspose, b, at_ deriveOk),
   (.deriveRegCast, b, at_ deriveOk), (.deriveRegRowsum, b, at_ deriveOk), (.deriveDrop, b, at_ dropOk),
   (.deriveFlush, b, at_ dropOk), (.snapArm, b, at_ snapOk), (.snapAbort, b, at_ forceOk), (.allreduce, c, reduceOk),
   (.reducescatter, c, reduceOk), (.allgather, c, gatherAllOk), (.sendCmd, c, sendOk false), (.recvCmd, c, sendOk true),
   (.bucketArm, c, bucketOk), (.stepCmd, c, stepOk), (.launch, l, fun _ _ => true), (.reclaim, l, fun _ _ => true)]

/-- A context takes a command: it joins behind the others with the next sequence number, and no counter moves. -/
def Accepted (x y : EngCtx) (w : Cmd) (ok : Bool) : Prop :=
  ∃ k, y = { x with seq := x.seq + 1, cmds := x.cmds ++ [k] } ∧ k.w = w ∧ k.seq = x.seq + 1 ∧ k.bad = !ok ∧ k.fin = none ∧
    k.started = false ∧ k.susp = none

/-- The commands of a context that have not ended are fewer than 64 (R38). -/
def HasRoom (x : EngCtx) : Prop := (x.cmds.filter fun k => k.fin.isNone).length < 64

/-- The context that word 0 of a command names at a queue (R180, R352). -/
def contextAt (q : BitVec 2) (w : Cmd) (s : State) : EngineRef :=
  match q.toNat with
  | 0 => .copy (quadOfCore s.g.core) (w.w0.extractLsb' 53 3).toNat
  | 1 => (basinRef w s).1
  | 2 => .coll (w.w0.extractLsb' 52 4).toNat
  | _ => .launch (w.w0.extractLsb' 53 3).toNat

/-- The words are those of a `resume` at this queue, which takes no number (R306, R362, R407). -/
def isResume (q : BitVec 2) (w : Cmd) : Prop := (q = 0 ∧ w.cmd = 9) ∨ (q = 1 ∧ w.cmd = 11) ∨ (q = 2 ∧ w.cmd = 8)

/-- A command has ended so in its context; in a basin the start phase of the next command of the context begins then (R15, R353). -/
def EndedIn (e : EngineRef) (k : ECmd) (f : EndStat) (s t : State) : Prop :=
  t.ctx e = if endsStart e k s then ((s.ctx e).finish k.seq f).open_ s.stamp else (s.ctx e).finish k.seq f

/-- The instruction caches that an `icinv` of a scope empties: those of the core, the cluster, the die, the package (R173). -/
def InCaches (s : State) (sc : Scope) (c : Nat) : Prop :=
  c = s.g.core ∨ sc = .pkg ∨ sc = .sys ∨ (sc = .die ∧ dieOfCore c = dieOfCore s.g.core) ∨
    (sc = .clu ∧ ∃ i ∈ (smGet Cluster.reset s.clusters (smGet Team.reset s.teams s.g.team).cluster).teams,
      (smGet Team.reset s.teams i).core = c)

/-- A value of a tile control register that R193 calls valid. -/
def ConfigValid (v : Word) : Prop :=
  let rows := (v.extractLsb' 16 10).toNat
  let cols := (v.extractLsb' 32 10).toNat
  let ty := v.extractLsb' 0 5
  let gs := v.extractLsb' 48 2
  v.extractLsb' 50 14 = 0 ∧ v.extractLsb' 42 6 = 0 ∧ v.extractLsb' 26 6 = 0 ∧ v.extractLsb' 5 11 = 0 ∧
    1 ≤ rows ∧ rows ≤ 512 ∧ 1 ≤ cols ∧ cols ≤ 512 ∧ (gs = 0 ∨ ty = 0x18 ∨ ty = 0x19) ∧ gs ≠ 3 ∧
    ∃ p ∈ [(0x00, 64), (0x01, 32), (0x02, 16), (0x03, 16), (0x08, 8), (0x0A, 32), (0x18, 4), (0x19, 8)],
      ty = p.1 ∧ rows * cols * p.2 ≤ 131072

end Sys2Proof.Says

open Sys2Proof Sys2Proof.Machine Sys2Proof.Says

/-! ## Steps, words, reset -/

/-- When the move at the head of the agenda is an issue and the next word decodes, the step is exec of the decoded instruction at
the state in which the move's group is in focus and the move is off the agenda; an event's step is exec of the event there. In a group that a
fault of its other slice has just halted a slice that was in a clause may run the one instruction it was in, and then stands still with what
it has waiting withdrawn (R79). That the moves come from an agenda held in the state is the model's choice (notes/assumptions/6.md), and so
is that this instruction is the next of the agenda's moves for the slice (notes/assumptions/89.md). -/
def Obligations.StepRunsTheDecodedInstruction : Prop :=
  ∀ (s t : State) (m : Move) (rest : List Move), s.agenda = m :: rest → focusOn m.focus { s with agenda := rest } = some t →
    (∀ w i, m.act = .issueControl → nextControl t = some w → decodeCtl w = .ok i → step s = exec i t) ∧
    (∀ ws w i, m.act = .issueVector → nextVector t = some (ws, w) → decodeVec ws w = .ok i → step s = exec i t) ∧
    (∀ w i u, m.act = .issueControl → nextControl t = none → t.g.live = true → t.g.late = some false → t.g.pos.code[t.g.pos.idx]? = some w →
      decodeCtl w = .ok i → exec i (t.withG { t.g with late := none }) = .next u →
      ∃ v, step s = .next v ∧ StoodStill u v) ∧
    (∀ h ws hd w i u, m.act = .issueVector → nextVector t = none → t.g.live = true → t.g.late = some true → t.g.vpos.begun = true →
      t.g.vpos.code = h :: ws → decodeHeader h = some hd → ws[t.g.vpos.idx]? = some w → decodeVec hd.wins w = .ok i →
      exec i (t.withG { t.g with late := none }) = .next u → ∃ v, step s = .next v ∧ StoodStill u v) ∧
    (∀ e, m.act = .event e → isEvent e = true → step s = exec e t)

/-- Words written out from the encoding tables decode to the instructions they stand for. -/
def Obligations.WordsDecodeAsTheTablesSay : Prop :=
  decodeCtl 0x8101_4038_0000_0000#64 = .ok (.fwait ⟨7, false⟩ 20) ∧
  decodeCtl 0x8518_4178_0000_0002#64 = .ok (.handoff ⟨7, false⟩ 6 4 5 2) ∧
  decodeCtl 0x5824_5138_0000_0000#64 = .ok (.ldAcqB64 ⟨7, false⟩ 9 5 .pkg .dflt 0) ∧
  decodeCtl 0x8600_0038_0000_0003#64 = .ok (.publish ⟨7, false⟩ 3) ∧
  decodeHeader 0x9000_0000_0000_0000#64 =
    some { vec := true, n := 0, wins := ⟨0, 0, 0, 0, 0⟩, wait := 0, blkEnd := false, loopBuf := false }

/-- Decoding the encoding of a well-formed control instruction gives it back. -/
def Obligations.ControlWordsRoundTrip : Prop :=
  ∀ (i : Instr) (w : Word), i.wf = true → encodeCtl i = some w → decodeCtl w = .ok i

/-- Decoding the encoding of a well-formed vector instruction, under the windows of its encoding, gives it back. -/
def Obligations.VectorWordsRoundTrip : Prop :=
  ∀ (i : Instr) (ws : Wins) (w : Word), i.wf = true → encodeVec i = some (ws, w) → decodeVec ws w = .ok i

/-- The words of a well-formed engine command name it at its queue. A clause header whose windows are at most 17, and which
carries only CLS and N when it is a control header, round trips. -/
def Obligations.CommandsAndHeadersRoundTrip : Prop :=
  (∀ (i : Instr) (q : Nat) (w : Cmd), i.wf = true → encodeCmd i = some (q, w) → decodeCmd q w = some i) ∧
  (∀ h : Header, (h.wins.wd.toNat ≤ 17 ∧ h.wins.wa.toNat ≤ 17 ∧ h.wins.wb.toNat ≤ 17 ∧ h.wins.wc.toNat ≤ 17 ∧ h.wins.we.toNat ≤ 17) →
    (h.vec = false → h.wins = ⟨0, 0, 0, 0, 0⟩ ∧ h.wait = 0 ∧ h.blkEnd = false ∧ h.loopBuf = false) →
    decodeHeader (encodeHeader h) = some h)

/-- After reset: state 1 of bring-up, no grid, no group, every page of the sluice at OWNER 0 and GEN 0, every bank in cache mode,
the counters of every context zero. -/
def Obligations.ResetLeaves : Prop :=
  State.reset.mgmt.state = 1 ∧ State.reset.grids = [] ∧ State.reset.g.live = false ∧ State.reset.others = [] ∧
  (∀ pa, ownerOf State.reset pa = { token := false, gen := 0 }) ∧
  (∀ c b, smGet 0 (smGet Core.reset State.reset.cores c).bankMode b = 0) ∧ (∀ e, (State.reset.ctx e).counter = 0) ∧
  State.reset.coll.sigma = 0

/-- Memory after reset is in canonical form. -/
def Obligations.ResetMemoryIsCanonical : Prop := State.reset.memWf = true

/-- Every step keeps every memory in canonical form: addresses rising, no entry equal to what an unlisted address reads as. -/
def Obligations.EveryStepKeepsMemoryCanonical : Prop :=
  ∀ s t : State, s.memWf = true → step s = .next t → t.memWf = true

/-! ## Control arithmetic -/

/-- The thirty integer instructions write what Table 66 gives, and x0 discards it (R159). -/
def Obligations.ControlArithmeticResults : Prop :=
  (∀ p ∈ crTable, ∀ (g : CGuard) (d a b : XReg) (s : State), Issues g [a, b] s →
    ∃ t, exec (p.1 g d a b) s = .next t ∧ t.g.readX d = (if d = 0 then 0 else p.2 (s.g.readX a) (s.g.readX b)) ∧ Advanced s t) ∧
  (∀ p ∈ ciTable, ∀ (g : CGuard) (d a : XReg) (imm : BitVec 32) (s : State), Issues g [a] s →
    ∃ t, exec (p.1 g d a imm) s = .next t ∧ t.g.readX d = (if d = 0 then 0 else p.2 (s.g.readX a) (imm.signExtend 64)) ∧
      Advanced s t)

/-- The thirty integer instructions, `cmp`, `lea`, `movi`, `movhi` and `nop` change nothing but their destination, the position,
the block and the grant: no flag, no special register, no byte of memory (R159 to R162, R196). -/
def Obligations.ControlArithmeticFrame : Prop :=
  (∀ p ∈ crTable, ∀ (g : CGuard) (d a b : XReg) (s t : State), exec (p.1 g d a b) s = .next t → CtlFrame [d] [] s t) ∧
  (∀ p ∈ ciTable, ∀ (g : CGuard) (d a : XReg) (imm : BitVec 32) (s t : State), exec (p.1 g d a imm) s = .next t →
    CtlFrame [d] [] s t) ∧
  (∀ (g : CGuard) (s t : State),
    (∀ cc pd a b, exec (.cmpCr g cc pd a b) s = .next t → CtlFrame [] [pd] s t) ∧
    (∀ cc pd a imm, exec (.cmpCi g cc pd a imm) s = .next t → CtlFrame [] [pd] s t) ∧
    (∀ d a b pcRel sh disp, exec (.lea g d a b pcRel sh disp) s = .next t → CtlFrame [d] [] s t) ∧
    (∀ d imm, exec (.movi g d imm) s = .next t → CtlFrame [d] [] s t) ∧
    (∀ d a imm, exec (.movhi g d a imm) s = .next t → CtlFrame [d] [] s t) ∧
    (exec (.nop g) s = .next t → CtlFrame [] [] s t))

/-- `cmp` writes the outcome of Table 67 to its predicate, c7 excepted; `lea`, `movi` and `movhi` write their values; `nop` only
advances (R160, R161, R162, R196). -/
def Obligations.CompareAndMoveResults : Prop :=
  ∀ (g : CGuard) (s : State),
    (∀ cc pd a b, Issues g [a, b] s → ∃ t, exec (.cmpCr g cc pd a b) s = .next t ∧ Advanced s t ∧
      (t.g.readC pd = true ↔ pd = 7 ∨ condTable cc (s.g.readX a) (s.g.readX b))) ∧
    (∀ cc pd a imm, Issues g [a] s → ∃ t, exec (.cmpCi g cc pd a imm) s = .next t ∧ Advanced s t ∧
      (t.g.readC pd = true ↔ pd = 7 ∨ condTable cc (s.g.readX a) (imm.signExtend 64))) ∧
    (∀ d a b pcRel sh disp, Issues g (if pcRel then [b] else [a, b]) s → ∃ t, exec (.lea g d a b pcRel sh disp) s = .next t ∧ Advanced s t ∧
      t.g.readX d = if d = 0 then 0 else
        (if pcRel then s.g.pc else s.g.readX a) + (s.g.readX b <<< sh.toNat) + disp.signExtend 64) ∧
    (∀ d imm, Issues g [] s → ∃ t, exec (.movi g d imm) s = .next t ∧ Advanced s t ∧
      t.g.readX d = if d = 0 then 0 else imm.signExtend 64) ∧
    (∀ d a imm, Issues g [a] s → ∃ t, exec (.movhi g d a imm) s = .next t ∧ Advanced s t ∧
      t.g.readX d = (if d = 0 then 0 else (imm.zeroExtend 64 <<< 32) ||| ((s.g.readX a).truncate 32).zeroExtend 64 : Word)) ∧
    (Issues g [] s → ∃ t, exec (.nop g) s = .next t ∧ Advanced s t)

/-- x0 reads as zero and discards a write; an instruction whose guard is false writes no x register. It changes nothing else
either but the position, the block and the grant (R136, R156). -/
def Obligations.FalseGuardAndXZero : Prop :=
  (∀ g : Group, g.readX 0 = 0) ∧ (∀ (g : Group) (v : Word), g.writeX 0 v = g) ∧
  (∀ (i : Instr) (g : CGuard) (s : State), guardOf i = some g → s.g.guard g = false →
    ∃ t, exec i s = .next t ∧ t.g.x = s.g.x ∧ CtlFrame [] [] s t ∧ Advanced s t)

/-- Every control instruction that reads a register whose load or atomic has not returned blocks on it, with no other effect on the
machine; one that only writes such a register does not block (R141). -/
def Obligations.AwaitedRegisterBlocks : Prop :=
  ∀ (i : Instr) (g : CGuard) (s : State), guardOf i = some g → s.g.guard g = true →
    ((∃ r ∈ readsOf i, s.g.busy r = true) → ∃ t r, exec i s = .next t ∧ r ∈ readsOf i ∧ s.g.busy r = true ∧
      t.g = { s.g with block := .reg r } ∧ OnlyGroup s t) ∧
    ((∀ r ∈ readsOf i, s.g.busy r = false) → s.g.block = .none → ∃ t, exec i s = .next t ∧ ∀ r, t.g.block ≠ .reg r)

/-! ## Control and status registers, traps -/

/-- `csrr` returns what Table 58 and Table 14 list, an arrival counter zero-extended, and for `flags` the bits that count for
certain with some of the later ones; any other selector faults TARGET_BAD with INFO the selector. `csrw` replaces its CSR by x(A) when the
value is valid and changes nothing else; an invalid value faults TARGET_BAD, and so does a selector that is read-only or not listed. A
write of `flags` also drops the flags of the tokens sent before it (R100, R105, R110, R138, R139, R140, R195). That INFO is the selector is
the model's choice (notes/assumptions/11.md). -/
def Obligations.CsrsReadAndWritten : Prop :=
  (∀ (g : CGuard) (d : XReg) (s : State), Issues g [] s →
    (∀ p ∈ csrTable, ∃ t, exec (.csrr g d p.1) s = .next t ∧ t.g.readX d = (if d = 0 then 0 else p.2 s.g) ∧ CtlFrame [d] [] s t ∧
      Advanced s t) ∧
    (∀ n : BitVec 3, ∃ t, exec (.csrr g d (8#12 + n.zeroExtend 12)) s = .next t ∧
      t.g.readX d = (if d = 0 then 0 else (smGet 0 s.g.a n.toNat).zeroExtend 64) ∧ CtlFrame [d] [] s t ∧ Advanced s t) ∧
    (∃ t m, exec (.csrr g d 1) s = .next t ∧ t.g.readX d = (if d = 0 then 0 else s.g.flagsDone ||| (s.g.flagsLate &&& m)) ∧
      CtlFrame [d] [] { s with fresh := t.fresh } t ∧ Advanced s t) ∧
    (∀ sel : BitVec 12, sel ≠ 1 → sel ∉ csrTable.map Prod.fst → ¬(8 ≤ sel.toNat ∧ sel.toNat ≤ 15) →
      ∃ t, exec (.csrr g d sel) s = .next t ∧ ControlFault 0x03 0 0 (sel.zeroExtend 64) s t)) ∧
  (∀ (g : CGuard) (a : XReg) (s : State), Issues g [a] s →
    (∀ p ∈ csrwTable, let v := s.g.readX a
      (p.2.1 v → ∃ t, exec (p.1 g a) s = .next t ∧ t.g = { p.2.2 v s.g with pos := s.g.pos.next, block := .none } ∧ OnlyGroup s t) ∧
      (¬p.2.1 v → ∃ t, exec (p.1 g a) s = .next t ∧ ControlFault 0x03 0 0 v s t)) ∧
    (∀ n : BitVec 3, ((s.g.readX a).toNat < 2 ^ 32 → ∃ t, exec (.csrwArrivalCounter g a n) s = .next t ∧
        (∀ k, smGet 0 t.g.a k = if k = n.toNat then (s.g.readX a).truncate 32 else smGet 0 s.g.a k) ∧
        t.g = { s.g with a := t.g.a, pos := s.g.pos.next, block := .none } ∧ OnlyGroup s t) ∧
      (2 ^ 32 ≤ (s.g.readX a).toNat → ∃ t, exec (.csrwArrivalCounter g a n) s = .next t ∧
        ControlFault 0x03 0 0 (s.g.readX a) s t)) ∧
    (∀ sel, ∃ t, exec (.csrw g a sel) s = .next t ∧ ControlFault 0x03 0 0 (sel.zeroExtend 64) s t))

/-- `trap` faults SOFTWARE with INFO its immediate; `pause` pauses its group for its count, and a count of zero does nothing (R41,
R151, R172, R196). Every word that no row of the control map reads faults OP_ILLEGAL at that word, with INFO the word, whatever its
guard; one that no row of the vector map reads does so in the lanes of its execute mask, or, where a guard field is 7 with its negate
bit, in those of the mask on top (R118, R131, R156, Table 30). -/
def Obligations.TrapsPausesAndIllegalWords : Prop :=
  (∀ (g : CGuard) (s : State), Issues g [] s →
    (∀ imm, ∃ t, exec (.trap g imm) s = .next t ∧ ControlFault 0x16 0 0 (imm.zeroExtend 64) s t) ∧
    (∀ n : BitVec 16, ∃ t, exec (.pause g n) s = .next t ∧ OnlyGroup s t ∧
      t.g = { s.g with pause := if n = 0 then s.g.pause else n.toNat, pos := s.g.pos.next, block := .none } ∧
      (n ≠ 0 → granted s = true → granted t = false))) ∧
  (∀ (s t : State) (rest : List Move) (f : Option (Nat × Nat)) (w : Word) (e : Illegal),
    s.agenda = { focus := f, act := .issueControl } :: rest → focusOn f { s with agenda := rest } = some t →
    nextControl t = some w → decodeCtl w = .error e → ∃ u, step s = .next u ∧ ControlFault 0x02 0 0 w t u) ∧
  (∀ (s t : State) (rest : List Move) (f : Option (Nat × Nat)) (ws : Wins) (w : Word) (e : Illegal),
    s.agenda = { focus := f, act := .issueVector } :: rest → focusOn f { s with agenda := rest } = some t →
    nextVector t = some (ws, w) → decodeVec ws w = .error e →
    let g := t.g.landBy t.g.vnow
    let p0 := w.extractLsb' 18 3
    let p1 := w.extractLsb' 14 3
    let bad := (p0 = 7 ∧ w.getLsbD 17 = true) ∨ (p1 = 7 ∧ w.getLsbD 13 = true)
    let on := fun (p : BitVec 3) (neg : Bool) (n : Nat) => (g.seenP p).getLsbD n != neg;
    ∃ u m, step s = .next u ∧ VectorFault 0x02 m 0 0 w (t.withG g) u ∧ (bad → m = t.g.masks.headD 0) ∧
      (¬bad → ∀ n, n < 32 → (m.getLsbD n = true ↔
        (t.g.masks.headD 0).getLsbD n = true ∧ on p0 (w.getLsbD 17) n = true ∧ on p1 (w.getLsbD 13) n = true)))

/-! ## Branches -/

/-- A branch that is taken forward goes to its target; one that is not taken falls through; a taken back-edge that demotes nothing
also writes the spin record; `loop` counts down; `call` writes its link (R147, R148, R163, R164, R166, Tables 69 and 70). -/
def Obligations.BranchResults : Prop :=
  ∀ (g : CGuard) (imm : BitVec 32) (s : State), let T := s.g.pc + 8 * imm.signExtend 64
    (Issues g [] s → s.g.pc.toNat < T.toNat → ∃ t, exec (.br g imm) s = .next t ∧ t.g = jumped T s.g ∧ OnlyGroup s t) ∧
    (Issues g [] s → T.toNat ≤ s.g.pc.toNat → Stays s [1] → ∃ t, exec (.br g imm) s = .next t ∧ OnlyGroup s t ∧
      t.g = { jumped T s.g with spin := some ⟨s.g.pc, [1], false⟩ }) ∧
    (∀ cc a b, Issues g [a, b] s →
      (¬condTable cc (s.g.readX a) (s.g.readX b) → ∃ t, exec (.brc g cc a b imm) s = .next t ∧ OnlyGroup s t ∧
        t.g = { s.g with pos := s.g.pos.next, block := .none }) ∧
      (condTable cc (s.g.readX a) (s.g.readX b) → s.g.pc.toNat < T.toNat →
        ∃ t, exec (.brc g cc a b imm) s = .next t ∧ t.g = jumped T s.g ∧ OnlyGroup s t) ∧
      (condTable cc (s.g.readX a) (s.g.readX b) → T.toNat ≤ s.g.pc.toNat → Stays s [s.g.readX a, s.g.readX b, 1] →
        ∃ t, exec (.brc g cc a b imm) s = .next t ∧ OnlyGroup s t ∧
          t.g = { jumped T s.g with spin := some ⟨s.g.pc, [s.g.readX a, s.g.readX b, 1], false⟩ })) ∧
    (∀ d, Issues g [d] s →
      (s.g.readX d = 1 → ∃ t, exec (.loop g d imm) s = .next t ∧ OnlyGroup s t ∧ Advanced s t ∧ t.g.readX d = 0) ∧
      (s.g.readX d ≠ 1 → ∃ t, exec (.loop g d imm) s = .next t ∧ OnlyGroup s t ∧ t.g.pos = (jumped T s.g).pos ∧ t.g.block = .none ∧
        t.g.readX d = (if d = 0 then 0 else s.g.readX d - 1))) ∧
    (∀ d, Issues g [] s → ∃ t, exec (.call g d imm) s = .next t ∧ OnlyGroup s t ∧ t.g.pos = (jumped T s.g).pos ∧ t.g.block = .none ∧
      t.g.readX d = (if d = 0 then 0
        else if s.g.pos.idx < s.g.pos.n then (BitVec.ofNat 64 (s.g.pos.idx + 1) <<< 60) ||| (s.g.pos.hdr.truncate 56).zeroExtend 64
        else ((s.g.pc + 8).truncate 56).zeroExtend 64 : Word))

/-- A taken back-edge that finds its own spin record, with equal values and no effect since, demotes the iteration where the level
on top permits it: a mask-invert token is sent, the iteration is suspended at the target, and the other path goes on at its entry
(R147, R148, Table 63). -/
def Obligations.BackEdgeDemotes : Prop :=
  ∀ (g : CGuard) (imm : BitVec 32) (s : State) (l : Level) (rest : List Level) (x : Word),
    let T := s.g.pc + 8 * imm.signExtend 64
    T.toNat ≤ s.g.pc.toNat → s.g.levels = l :: rest → l.dem = true → s.g.runnel.length < 64 →
    (l.path2 = false ∧ l.other = .notStarted ∧ x = l.sib ∨ l.other = .susp x) →
    (Issues g [] s → s.g.spin = some ⟨s.g.pc, [1], false⟩ → ∃ t, exec (.br g imm) s = .next t ∧ Demoted s t l rest T x) ∧
    (∀ cc a b, Issues g [a, b] s → condTable cc (s.g.readX a) (s.g.readX b) →
      s.g.spin = some ⟨s.g.pc, [s.g.readX a, s.g.readX b, 1], false⟩ →
      ∃ t, exec (.brc g cc a b imm) s = .next t ∧ Demoted s t l rest T x)

/-- `jmp` faults TARGET_BAD for a target with bits [63:56], ALIGN with ACC 4 and ADDR the target for one with bits [2:0], both
precise at the `jmp`; it goes to any other (R165). -/
def Obligations.JmpFaultsAndJumps : Prop :=
  ∀ (g : CGuard) (a : XReg) (s : State), Issues g [a] s → let x := s.g.readX a
    (x.extractLsb' 56 8 ≠ 0 → ∃ t, exec (.jmp g a) s = .next t ∧ ControlFault 0x03 0 0 x s t) ∧
    (x.extractLsb' 56 8 = 0 → x.extractLsb' 0 3 ≠ 0 →
      ∃ t, exec (.jmp g a) s = .next t ∧ ControlFault 0x07 4 (x.truncate 56) 0 s t) ∧
    (x.extractLsb' 56 8 = 0 → x.extractLsb' 0 3 = 0 → ∃ t, exec (.jmp g a) s = .next t ∧ t.g = jumped x s.g ∧ OnlyGroup s t)

/-- `ret` resumes the clause of its link at IDX, and faults by the link's bits [59:56], by HDR[2:0], by a header that is no control
header, and by an IDX beyond N, precise at the `ret`; a fault of its fetch stands at the clause that it fetches, with INDEX 0. `exit`,
once its release is over, ends the control slice (R166, R167, R250). -/
def Obligations.RetAndExit : Prop :=
  ∀ (g : CGuard) (s : State),
    (∀ a, Issues g [a] s → let x := s.g.readX a; let h := x &&& 0x00FF_FFFF_FFFF_FFFF
      (x.extractLsb' 56 4 ≠ 0 → ∃ t, exec (.ret g a) s = .next t ∧ ControlFault 0x03 0 0 x s t) ∧
      (x.extractLsb' 56 4 = 0 → x.extractLsb' 0 3 ≠ 0 →
        ∃ t, exec (.ret g a) s = .next t ∧ ControlFault 0x07 4 (x.truncate 56) 0 s t) ∧
      (x.extractLsb' 56 4 = 0 → x.extractLsb' 0 3 = 0 →
        (fetchHeader s s.g h = .wait → ∃ t, exec (.ret g a) s = .next t ∧ OnlyGroup s t ∧ t.g = s.g) ∧
        (∀ c i va u, fetchHeader s s.g h = .fault c i va u → ∃ t, exec (.ret g a) s = .next t ∧ FetchFault h c i va u t) ∧
        (∀ u w, fetchHeader s s.g h = .ok u [w] →
          (decodeHeader w = none → ∃ t, exec (.ret g a) s = .next t ∧ ControlFault 0x01 0 0 w u t) ∧
          (∀ hd, decodeHeader w = some hd → hd.vec = true → ∃ t, exec (.ret g a) s = .next t ∧ ControlFault 0x01 0 0 w u t) ∧
          (∀ hd, decodeHeader w = some hd → hd.vec = false → hd.n.toNat < (x.extractLsb' 60 4).toNat →
            ∃ t, exec (.ret g a) s = .next t ∧ ControlFault 0x03 0 0 x u t) ∧
          (∀ hd, decodeHeader w = some hd → hd.vec = false → (x.extractLsb' 60 4).toNat ≤ hd.n.toNat →
            ∃ t, exec (.ret g a) s = .next t ∧ OnlyGroup u t ∧
              t.g = { s.g with pos := ⟨h, 0, (x.extractLsb' 60 4).toNat, []⟩, block := .none })))) ∧
    (Issues g [] s → Released s .pkg → ∃ t, exec (.exit g) s = .next t ∧ OnlyGroup s t ∧
      t.g = { s.g with exited := true, block := .none })

/-! ## Control memory -/

/-- A load that meets no fault at its check is issued: its access joins the group's, with its address, its width, its extension
and its destination, and the next instruction goes on; a load from a FIFO bank is an acquiring pop (R168, R169, R317). A result still
to come for its destination goes nowhere, which is the model's choice (notes/assumptions/61.md). -/
def Obligations.ControlLoadsIssue : Prop :=
  ∀ p ∈ ldTable, ∀ (g : CGuard) (d a : XReg) (sc : Scope) (h : Hint) (imm : BitVec 32) (s : State) (l : Loc), Issues g [a] s →
    let va := s.g.readX a + imm.signExtend 64
    accessCheck s s.g va p.2.w 1 ⟨p.2.fifo, true⟩ = .ok l → poisonedLoc s l p.2.w = none →
    ∃ t x, exec (p.1 g d a sc h imm) s = .next t ∧ IssuedOne s t (retaken d s.g) x va l p.2.w s.g.spin ∧
      x.kind = (if isFifo l then .fifoPop else .load) ∧ x.dst = .x d (8 * p.2.w) p.2.signed ∧ x.hint = h ∧
      x.acq = (p.2.order || isFifo l) ∧ x.rel = false ∧
      x.scope = (if isFifo l then .clu else if p.2.order then sc else .grp)

/-- A store that meets no fault at its check is issued with the register's value, and sets the effect bit; a release store, and a
push to a FIFO bank, which is one at cluster scope, is issued when no home holds an access that it would answer for (R55, R80, R147,
R168, R169, R317). -/
def Obligations.ControlStoresIssue : Prop :=
  ∀ p ∈ stTable, ∀ (g : CGuard) (d a : XReg) (sc : Scope) (h : Hint) (imm : BitVec 32) (s : State) (l : Loc), Issues g [a, d] s →
    let va := s.g.readX a + imm.signExtend 64
    accessCheck s s.g va p.2.w 2 ⟨p.2.fifo, true⟩ = .ok l → ((p.2.order || isFifo l) = true → Unheld false s sc) →
    ∃ t x, exec (p.1 g d a sc h imm) s = .next t ∧
      IssuedOne s t s.g x va l p.2.w (s.g.spin.map fun r => { r with eff := true }) ∧
      x.kind = (if isFifo l then .fifoPush else .store) ∧ x.dst = .none ∧ x.hint = h ∧ (x.lanes.map (·.data)) = [s.g.readX d] ∧
      x.rel = (p.2.order || isFifo l) ∧ x.acq = false ∧ x.scope = (if isFifo l then .clu else if p.2.order then sc else .grp)

/-- An atomic that meets no fault at its check is issued with its operands, and sets the effect bit; one with a release half when no
home holds an access that it would answer for (R80, R147, R170). A result still to come for its destination goes nowhere, which is the
model's choice (notes/assumptions/61.md). -/
def Obligations.ControlAtomicsIssue : Prop :=
  ∀ p ∈ atomTable, ∀ (g : CGuard) (d a b tr : XReg) (o : Order) (sc : Scope) (ty : ATy) (h : Hint) (s : State) (l : Loc),
    Issues g [a, b, tr] s → (p.2 ≠ .cas → tr = 0) →
    accessCheck s s.g (s.g.readX a) (atyBytes ty) 3 ⟨false, true⟩ = .ok l → (o = .rel ∨ o = .ar → Unheld false s sc) →
    ∃ t x, exec (p.1 g d a b tr o sc ty h) s = .next t ∧
      IssuedOne s t (retaken d s.g) x (s.g.readX a) l (atyBytes ty) (s.g.spin.map fun r => { r with eff := true }) ∧
      x.kind = .atom p.2 (ty == .s32 || ty == .s64) ∧ x.dst = .x d (8 * atyBytes ty) (ty == .s32 || ty == .s64) ∧
      (x.lanes.map fun k => (k.data, k.cmp)) = [(s.g.readX b, s.g.readX tr)] ∧ x.scope = sc ∧
      x.acq = (o == .acq || o == .ar) ∧ x.rel = (o == .rel || o == .ar)

/-- A load, store or atomic whose check meets a fault takes it precisely, with ACC 1, 2 or 3 and its address, and makes no access;
a load of a poisoned sector faults MEM_UNCORRECTABLE, with the row's deferred entries merged as its arrival at the home fixes (R348). The check
meets XLATE_ABSENT with INFO 5 for an address with bits [63:56],
before ALIGN for an address that its width does not divide (R77, R154, R158, R168). -/
def Obligations.ControlAccessFaults : Prop :=
  (∀ (s : State) (w : Nat) (acc : BitVec 4) (r : Reach) (va : Word),
    (va.extractLsb' 56 8 ≠ 0 → accessCheck s s.g va w acc r = .bad 0x08 5) ∧
    (va.extractLsb' 56 8 = 0 → va.toNat % w ≠ 0 → accessCheck s s.g va w acc r = .bad 0x07 0)) ∧
  (∀ p ∈ ldTable, ∀ (g : CGuard) (d a : XReg) (sc : Scope) (h : Hint) (imm : BitVec 32) (s : State), Issues g [a] s →
    let va := s.g.readX a + imm.signExtend 64
    (∀ c i, accessCheck s s.g va p.2.w 1 ⟨p.2.fifo, true⟩ = .bad c i →
      ∃ t, exec (p.1 g d a sc h imm) s = .next t ∧ ControlFault c 1 (va.truncate 56) i s t) ∧
    (∀ l i, accessCheck s s.g va p.2.w 1 ⟨p.2.fifo, true⟩ = .ok l → poisonedLoc s l p.2.w = some i →
      ∃ t, exec (p.1 g d a sc h imm) s = .next t ∧ ControlFault 0x14 1 (va.truncate 56) i (mergeRow s (rowOf i.toNat)) t)) ∧
  (∀ p ∈ stTable, ∀ (g : CGuard) (d a : XReg) (sc : Scope) (h : Hint) (imm : BitVec 32) (s : State) (c : BitVec 8) (i : Word),
    Issues g [a, d] s → accessCheck s s.g (s.g.readX a + imm.signExtend 64) p.2.w 2 ⟨p.2.fifo, true⟩ = .bad c i →
    ∃ t, exec (p.1 g d a sc h imm) s = .next t ∧ ControlFault c 2 ((s.g.readX a + imm.signExtend 64).truncate 56) i s t) ∧
  (∀ p ∈ atomTable, ∀ (g : CGuard) (d a b tr : XReg) (o : Order) (sc : Scope) (ty : ATy) (h : Hint) (s : State) (c : BitVec 8)
    (i : Word), Issues g [a, b, tr] s → (p.2 ≠ .cas → tr = 0) →
    accessCheck s s.g (s.g.readX a) (atyBytes ty) 3 ⟨false, true⟩ = .bad c i →
    ∃ t, exec (p.1 g d a b tr o sc ty h) s = .next t ∧ ControlFault c 3 ((s.g.readX a).truncate 56) i s t)

/-- A fence whose halves have nothing to wait for completes as it issues, and one that has is outstanding, holding the later accesses
of its slice; either way the control slice goes on. A complete acquire half leaves an L1 of its core empty at cluster scope and wider, a
complete release half empties again the instruction caches of every earlier `icinv` of its scope or a narrower one. A release half first
answers, imprecisely, for what a home holds. `icinv` with an empty runnel empties the instruction caches of its scope: the core, the
cluster, the die, the package (R58, R60, R72, R80, R84, R171, R173, R321). -/
def Obligations.FencesAndIcinv : Prop :=
  (∀ (g : CGuard) (sc : Scope) (s : State), Issues g [] s →
    ∀ p ∈ [(Instr.fence g sc, true, true), (.fenceAcq g sc, true, false), (.fenceRel g sc, false, true)],
    let a : Acc := { s.g.probe true sc with stamp := s.stamp, acq := p.2.1, rel := p.2.2 }
    let now := fencesDone s.g a && fenceOpen s s.g a
    let after := { s.g with pos := s.g.pos.next, block := .none }
    (∀ x l, p.2.2 = true → s.g.firstHeld a false = some (x, l) → ∃ t r, exec p.1 s = .next t ∧ Faulted r s t ∧ r.fr.imprec = true ∧
      r.fr.code = (l.held.getD (0, 0)).1 ∧ r.fr.info = (l.held.getD (0, 0)).2 ∧ r.held = some x.stamp ∧
      r.fr.index = BitVec.ofNat 4 s.g.pos.idx ∧ r.fr.clause = s.g.pos.hdr.truncate 56 ∧ r.past = true) ∧
    ((p.2.2 = true → s.g.firstHeld a false = none) →
      (now = false → ∃ t, exec p.1 s = .next t ∧ t.g = { after with accs := s.g.accs ++ [a] } ∧
        OnlyGroup { s with stamp := s.stamp + 1 } t) ∧
      (now = true → ∃ t, exec p.1 s = .next t ∧ SameMemory s t ∧ t = { s with g := t.g, cores := t.cores, stamp := s.stamp + 1 } ∧
        t.g = { after with
          accs := s.g.accs.filter fun x => x.stamp != s.stamp
          acquired := if p.2.1 then s.stamp + 1 else s.g.acquired
          icPending := t.g.icPending } ∧
        (p.2.1 = true → sc ≠ .grp → sc ≠ .team → (smGet Core.reset t.cores s.g.core).l1 = []) ∧
        (p.2.2 = false → t.g.icPending = s.g.icPending) ∧
        (p.2.2 = true → t.g.icPending = s.g.icPending.filter (fun ic => scopeCode sc < scopeCode ic) ∧
          ∀ ic ∈ s.g.icPending, scopeCode ic ≤ scopeCode sc → ∀ c, InCaches s ic c → (smGet Core.reset t.cores c).icache = [])))) ∧
  (∀ (g : CGuard) (sc : Scope) (s : State), Issues g [] s →
    (s.g.runnel = [] → ∃ t, exec (.icinv g sc) s = .next t ∧ SameMemory s t ∧ t = { s with g := t.g, cores := t.cores } ∧
      t.g = { s.g with pos := s.g.pos.next, block := .none, icPending := s.g.icPending ++ [sc] } ∧
      (∀ c, InCaches s sc c → (smGet Core.reset t.cores c).icache = [])) ∧
    (s.g.runnel ≠ [] → ∃ t, exec (.icinv g sc) s = .next t ∧ OnlyGroup s t ∧
      t.g = { s.g with block := .icinv s.g.runnel.length }))

/-! ## Tokens and the shadow mask stack -/

/-- `vrun`, `vwalk`, `vput` and `vmpush` send their token, with the modes and counts it samples, and advance; on a full runnel
each blocks and sends nothing. A block address with bits [63:56], a count beyond 65,535 and an extent register with bits [63:48] fault
TARGET_BAD, a misaligned block ALIGN with ACC 4 (R28, R100, R142, R145, R146, R147, R154, R174, R175, R176, R177). Which operand INFO
names where both are bad is the model's choice (notes/assumptions/62.md). -/
def Obligations.TokensAreSent : Prop :=
  ∀ (g : CGuard) (s : State),
    (∀ a (cnt : RunCount) (c : Word), Issues g (match cnt with | .imm _ => [a] | .reg b => [a, b]) s →
      c = (match cnt with | .imm n => n.zeroExtend 64 | .reg b => s.g.readX b) → let x := s.g.readX a
      (c.toNat ≤ 65535 → Aligned x → Sends (.vrun g a cnt) s (.run (x.truncate 56) c.toNat)
        { s.g with spin := s.g.spin.map fun r => { r with eff := true } }) ∧
      (x.extractLsb' 56 8 ≠ 0 → ∃ t, exec (.vrun g a cnt) s = .next t ∧ ControlFault 0x03 0 0 x s t) ∧
      (x.extractLsb' 56 8 = 0 → 65535 < c.toNat → ∃ t, exec (.vrun g a cnt) s = .next t ∧ ControlFault 0x03 0 0 c s t) ∧
      (x.extractLsb' 56 8 = 0 → c.toNat ≤ 65535 → x.extractLsb' 0 3 ≠ 0 →
        ∃ t, exec (.vrun g a cnt) s = .next t ∧ ControlFault 0x07 4 (x.truncate 56) 0 s t)) ∧
    (∀ a b, Issues g [a, b] s → let x := s.g.readX a; let e := s.g.readX b
      (e.extractLsb' 48 16 = 0 → Aligned x →
        Sends (.vwalk g a b) s (.walk (x.truncate 56) (e.extractLsb' 0 16).toNat (e.extractLsb' 16 16).toNat (e.extractLsb' 32 16).toNat)
          { s.g with spin := s.g.spin.map fun r => { r with eff := true } }) ∧
      (x.extractLsb' 56 8 ≠ 0 → ∃ t, exec (.vwalk g a b) s = .next t ∧ ControlFault 0x03 0 0 x s t) ∧
      (x.extractLsb' 56 8 = 0 → e.extractLsb' 48 16 ≠ 0 → ∃ t, exec (.vwalk g a b) s = .next t ∧ ControlFault 0x03 0 0 e s t) ∧
      (x.extractLsb' 56 8 = 0 → e.extractLsb' 48 16 = 0 → x.extractLsb' 0 3 ≠ 0 →
        ∃ t, exec (.vwalk g a b) s = .next t ∧ ControlFault 0x07 4 (x.truncate 56) 0 s t)) ∧
    (∀ k a imm, Issues g [a] s → Sends (.vput g k a imm) s (.deposit k ((s.g.readX a).truncate 32 + imm)) s.g) ∧
    (∀ p neg dem sib, Issues g [] s → s.g.levels.length < 15 → Sends (.vmpush g p neg dem sib) s (.maskPush p neg)
      { s.g with spin := none, pushes := s.g.pushes + 1
                 levels := ⟨s.g.pushes, s.g.pc + 8 * sib.signExtend 64, dem, false, .notStarted⟩ :: s.g.levels })

/-- The transitions of Table 63 for `vmelse` and `vmpop`, and RUNNEL_ORDER with INFO the depth where they do not exist: at depth
1, on path 2 for `vmelse`, with path 2 suspended for `vmpop`, and at depth 16 for `vmpush` (R145, R146, R149). -/
def Obligations.ShadowStackTransitions : Prop :=
  ∀ (g : CGuard) (s : State), Issues g [] s →
    let bad : Instr → Prop := fun i =>
      ∃ t, exec i s = .next t ∧ ControlFault 0x12 0 0 (BitVec.ofNat 64 (s.g.levels.length + 1)) s t;
    (s.g.levels = [] → bad (.vmelse g) ∧ bad (.vmpop g)) ∧
    (∀ p neg dem sib, 15 ≤ s.g.levels.length → bad (.vmpush g p neg dem sib)) ∧
    (∀ l rest, s.g.levels = l :: rest →
      (l.path2 = true → bad (.vmelse g)) ∧
      (l.path2 = false → l.other = .notStarted → Sends (.vmelse g) s .maskInvert
        { s.g with spin := none, levels := { l with path2 := true, other := .done none } :: rest }) ∧
      (∀ x, l.path2 = false → l.other = .susp x → s.g.runnel.length < 64 → ∃ t, exec (.vmelse g) s = .next t ∧ OnlyGroup s t ∧
        t.g = jumped x { withToken s.g .maskInvert with
          spin := none, levels := { l with path2 := true, other := .done none } :: rest }) ∧
      (∀ h i, l.path2 = false → l.other = .done (some (h, i)) → ∃ t, exec (.vmelse g) s = .next t ∧ OnlyGroup s t ∧
        t.g = { s.g with spin := none, pos := ⟨h, 0, i, []⟩, block := .none }) ∧
      (l.path2 = false → l.other = .done none → ∃ t, exec (.vmelse g) s = .next t ∧ OnlyGroup s t ∧
        t.g = { s.g with spin := none, pos := s.g.pos.next, block := .none }) ∧
      (∀ x, l.path2 = false → l.other = .susp x → bad (.vmpop g)) ∧
      (∀ x, l.path2 = true → l.other = .susp x → s.g.runnel.length < 64 → ∃ t, exec (.vmpop g) s = .next t ∧ OnlyGroup s t ∧
        t.g = jumped x { withToken s.g .maskInvert with
          spin := none, levels := { l with path2 := false, other := .done (some (s.g.pos.hdr, s.g.pos.idx)) } :: rest }) ∧
      ((∀ x, l.other ≠ .susp x) → Sends (.vmpop g) s .maskPop { s.g with spin := none, levels := rest }))

/-- `vsync` and the forms of `vget` send their token and wait; when the token has finished, `vsync` advances and a `vget` writes
the value returned, and the flags of the tokens sent before count for certain. A field that a form of `vget` does not use but that is not
zero, and an odd register for a pair, fault TARGET_BAD with INFO the fields of Table 77 (R56, R105, R153, R178, R179). -/
def Obligations.SyncAndReturn : Prop :=
  ∀ (g : CGuard) (s : State),
    (Issues g [] s → s.g.block = .syncDone → ∃ t, exec (.vsync g) s = .next t ∧ OnlyGroup s t ∧
      t.g = { synced s.g with pos := s.g.pos.next, block := .none }) ∧
    (Issues g [] s → s.g.block = .none → s.g.runnel.length < 64 → ∃ t, exec (.vsync g) s = .next t ∧ OnlyGroup s t ∧
      t.g = { withToken s.g .sync with epochSent := s.g.epochSent + 1, block := .sync }) ∧
    (∀ (d : XReg) (ln : BitVec 5) (reg : BitVec 11) (f : CGuard → XReg → BitVec 5 → BitVec 11 → Instr) (n : Nat) (ok : Prop),
      Issues g [] s →
      ((f = .vget ∧ n = 0 ∧ (ok ↔ True)) ∨ (f = .vgetB64 ∧ n = 1 ∧ (ok ↔ reg.getLsbD 0 = false)) ∨
        (f = .vgetPredicate ∧ n = 2 ∧ (ok ↔ ln = 0 ∧ reg.toNat < 8)) ∨ (f = .vgetMask ∧ n = 3 ∧ (ok ↔ ln = 0 ∧ reg = 0))) →
      (ok → ∀ v, s.g.block = .got v → ∃ t, exec (f g d ln reg) s = .next t ∧ OnlyGroup s t ∧ Advanced s t ∧
        t.g.readX d = (if d = 0 then 0 else v) ∧ Forgotten [d] s t ∧
        t.g = { synced s.g with x := t.g.x, accs := t.g.accs, pos := t.g.pos, block := .none }) ∧
      (ok → s.g.block = .none → s.g.runnel.length < 64 → ∃ t, exec (f g d ln reg) s = .next t ∧ OnlyGroup s t ∧
        t.g = { withToken s.g .ret with epochSent := s.g.epochSent + 1, block := .get n ln.toNat reg.toNat }) ∧
      (¬ok → ∃ t, exec (f g d ln reg) s = .next t ∧
        ControlFault 0x03 0 0 ((BitVec.ofNat 64 n <<< 16) ||| (ln.zeroExtend 64 <<< 11) ||| reg.zeroExtend 64) s t))

/-! ## Futures and engines -/

/-- A wait on the null future advances. A wait on a handle that names no context faults TARGET_BAD; on a future not reached it
blocks; on a reached one it advances and acquires when its command completed, and traps with the code of its end, or
FUTURE_CANCELLED, otherwise; `tlwait` waits on the handle it puts together (R17, R18, R39, R40, R76, R181, R185). `ftest` writes
Table 78: a suspended command reports 2 with its code whatever the counter, an unreached future 0, a reached one 1, 2 with the
code, or 3; the null future 1. `fcancel` cancels a command that has not ended, of any engine, and advances: a running launch has its
grid terminated, a started sweep, snapshot or registration is cancelled row by row, a reclaim that has flipped its pages ends when its
entries have reached every copy (R392), any other command ends cancelled; of the null
future and of a command that has ended it does nothing. A handle that names no context faults TARGET_BAD (R17, R18, R40, R82, R182,
R184, R305, R346, R377, R410). That a started `derive.reg` ends cancelled only once its registration is whole is the model's choice
(notes/assumptions/71.md), and so is which operand of `tlwait` INFO names when both are bad (notes/assumptions/62.md). -/
def Obligations.FuturesWaitedTestedCancelled : Prop :=
  ((∀ (g : CGuard) (a : XReg) (s : State), Issues g [a] s → Waits (.fwait g a) (s.g.readX a) s) ∧
  (∀ (g : CGuard) (a b : XReg) (s : State), Issues g [a, b] s → (s.g.readX b).extractLsb' 48 16 = 0 →
    Waits (.tlwait g a b) ((s.g.readX a &&& 0xFFFF_0000_0000_0000) ||| s.g.readX b) s) ∧
  (∀ (g : CGuard) (a b : XReg) (s : State), Issues g [a, b] s → (s.g.readX b).extractLsb' 48 16 ≠ 0 →
    ∃ t, exec (.tlwait g a b) s = .next t ∧ ControlFault 0x03 0 0 (s.g.readX b) s t)) ∧
  (∀ (g : CGuard) (d a : XReg) (s : State), Issues g [a] s →
    (s.g.readX a = 0 → ∃ t, exec (.ftest g d a) s = .next t ∧ t.g.readX d = (if d = 0 then 0 else 1) ∧ Advanced s t ∧
      CtlFrame [d] [] s t) ∧
    (s.g.readX a ≠ 0 → handleRef (s.g.readX a) = none →
      ∃ t, exec (.ftest g d a) s = .next t ∧ ControlFault 0x03 0 0 (s.g.readX a) s t) ∧
    (∀ e seq, s.g.readX a ≠ 0 → handleRef (s.g.readX a) = some (e, seq) →
      ∃ t, exec (.ftest g d a) s = .next t ∧ Advanced s t ∧ CtlFrame [d] [] s t ∧
        ((∀ k c, (s.ctx e).cmd seq = some k → k.susp = some c →
            t.g.readX d = (if d = 0 then 0 else (c.zeroExtend 64 <<< 8) ||| 2 : Word)) ∧
          ((∀ k, (s.ctx e).cmd seq = some k → k.susp = none) → t.g.readX d = (if d = 0 then 0
            else if (s.ctx e).reached seq then (match (s.ctx e).endStat seq with
              | .completed => 1 | .error c => (c.zeroExtend 64 <<< 8) ||| 2 | .cancelled => 3)
            else 0 : Word))))) ∧
  (∀ (g : CGuard) (a : XReg) (s : State), Issues g [a] s → let h := s.g.readX a
    let nothing := ∃ t, exec (.fcancel g a) s = .next t ∧ OnlyGroup s t ∧ t.g = { s.g with pos := s.g.pos.next, block := .none }
    (h = 0 → nothing) ∧
    (h ≠ 0 → handleRef h = none → ∃ t, exec (.fcancel g a) s = .next t ∧ ControlFault 0x03 0 0 h s t) ∧
    (∀ e seq, h ≠ 0 → handleRef h = some (e, seq) →
      ((s.ctx e).cmd seq = none → nothing) ∧
      ∀ k, (s.ctx e).cmd seq = some k →
        let rows := ((∃ b c, e = .basin b c) ∧ k.started = true ∧ (k.w.cmd = 1 ∨ k.w.cmd = 6 ∨ k.w.cmd = 9)) ∨
          ((∃ c, e = .launch c) ∧ k.started = true ∧ k.w.cmd = 2)
        let grid := (∃ c, e = .launch c) ∧ k.started = true ∧ k.w.cmd = 1
        (k.fin ≠ none → nothing) ∧
        (k.fin = none → rows → ∃ t, exec (.fcancel g a) s = .next t ∧ Advanced s t ∧ SameMemory s t ∧
          t.ctx e = (s.ctx e).updCmd k.seq fun c => { c with cancel := true }) ∧
        (k.fin = none → grid → ∃ t, exec (.fcancel g a) s = .next t ∧ Advanced s t ∧ SameMemory s t ∧ t.ctx e = s.ctx e ∧
          ∀ c gr, e = .launch c → smGet none s.grids (gridKeyOf c k.seq) = some gr →
            smGet none t.grids (gridKeyOf c k.seq) = some { gr with term := true, cancelled := true }) ∧
        (k.fin = none → ¬rows → ¬grid → ∃ t, exec (.fcancel g a) s = .next t ∧ Advanced s t ∧ SameMemory s t ∧
          EndedIn e k .cancelled s t ∧
          (k.host = true → t.mgmt.outbox = s.mgmt.outbox ++ [.reply k.ep 0x81 k.tag 0x13]))))

/-- A `push` that waits for no earlier access and no write-through of its core sends its eight registers as a command to the context that they
name at its queue. When that context has room, the command joins it with the next sequence number, x(D) takes the handle of that number,
the FULL predicate is false and the effect bit is set; when the context holds 64 commands that have not ended, x(D) takes the null future,
FULL is true and nothing else changes. A `resume` takes no number: x(D) takes the null future with FULL false (R38, R147, R180, R306). -/
def Obligations.PushAnswers : Prop :=
  ∀ (g : CGuard) (d a : XReg) (q : BitVec 2) (full : BitVec 3) (s : State),
    Issues g [a, a + 1, a + 2, a + 3, a + 4, a + 5, a + 6, a + 7] s →
    pushWaits s (match s.g.block with | .push u => u | _ => s.stamp) = false →
    let w := s.g.cmdAt a
    let e := contextAt q w s
    let x := s.ctx e
    let writes := fun (t : State) (h : Word) => Advanced s t ∧ SameMemory s t ∧ t.g.readX d = (if d = 0 then 0 else h) ∧
      t.g.readC full = (full == 7) ∧ (∀ r, r ≠ d → t.g.readX r = s.g.readX r) ∧ (∀ p, p ≠ full → t.g.readC p = s.g.readC p) ∧
      Forgotten [d] s t ∧ t.g = { s.g with x := t.g.x, c := t.g.c, pos := t.g.pos, block := t.g.block, accs := t.g.accs
                                           spin := s.g.spin.map fun r => { r with eff := true } };
    (¬isResume q w → HasRoom x → ∃ t ok, exec (.push g d a q full) s = .next t ∧ writes t (handleOf e (x.seq + 1)) ∧
      Accepted x (t.ctx e) w ok ∧ (∀ f, f ≠ e → t.ctx f = s.ctx f) ∧
      ∀ p ∈ queueTable, decodeCmd q.toNat w = some (p.1 w) → ok = p.2.2 w s) ∧
    (¬isResume q w → ¬HasRoom x → ∃ t, exec (.push g d a q full) s = .next t ∧ Advanced s t ∧ t.g.readX d = 0 ∧
      t.g.readC full = true ∧ CtlFrame [d] [full] s t) ∧
    (isResume q w → ∃ t, exec (.push g d a q full) s = .next t ∧ writes t 0 ∧ (t.ctx e).seq = x.seq ∧
      (t.ctx e).cmds.length = x.cmds.length ∧ ∀ f, f ≠ e → t.ctx f = s.ctx f)

/-! ## Pages and windows -/

/-- A `handoff` whose list may be read and all of whose checks pass, once its release is over and no earlier handoff or registration
keeps its pages, gives every listed page to the token side with its generation, and issues the flag store; it completes when that store has been
performed, or a home holds it. It waits for the accesses before its list's reads, and for such pages. It takes the lowest of the faults that its checks meet: TARGET_BAD off a prompt die; of a
listed page its translation's, ALIGN, or TARGET_BAD for a page outside the windows or already the token side's (R74, R189, R386, R388,
R389). A `publish` of a window that is open to the grid, once its release is over, writes the next version to the window's version word
and to no other byte; of any other window it faults TARGET_BAD with INFO the window (R69, R190, R414). -/
def Obligations.HandoffAndPublish : Prop :=
  (∀ (g : CGuard) (d a b : XReg) (n : BitVec 16) (s : State), Issues g [a, b, d] s →
    let i := Instr.handoff g d a b n
    let ready := listReady s (s.g.readX a) n.toNat
    let r := readList s (s.g.readX a) n.toNat
    let pages := values r.2
    let u := setOwners r.1 pages { token := true, gen := s.g.readX d } r.1.stamp
    let faults := (if tokenCore s.g.core then [⟨0x03, 0, 0, 0⟩] else []) ++ errors r.2 ++ errors [flagCheck r.1 (s.g.readX b) pages]
    (∀ st, s.g.block = .flag st →
      ((∀ x ∈ s.g.accs, x.stamp = st → x.isHeld = true) → ∃ t, exec i s = .next t ∧ OnlyGroup s t ∧
        t.g = { s.g with pos := s.g.pos.next, block := .none }) ∧
      ((∃ x ∈ s.g.accs, x.stamp = st ∧ x.isHeld = false) → ∃ t, exec i s = .next t ∧ OnlyGroup s t ∧ t.g = s.g)) ∧
    ((∀ st, s.g.block ≠ .flag st) →
    (ready = false → ∃ t, exec i s = .next t ∧ OnlyGroup s t ∧ t.g = { s.g with block := .release .pkg }) ∧
    (∀ f, ready = true → lowestFault faults = some f → ∃ t, exec i s = .next t ∧ ControlFault f.code f.acc f.addr f.info r.1 t) ∧
    (ready = true → tokenCore s.g.core = true → ∃ t, exec i s = .next t ∧ ControlFault 0x03 0 0 0 r.1 t) ∧
    (∀ l, ready = true → tokenCore s.g.core = false → errors r.2 = [] → flagCheck r.1 (s.g.readX b) pages = .ok l →
      Released r.1 .pkg →
      (pagesHeld r.1 pages = true → ∃ t, exec i s = .next t ∧ OnlyGroup r.1 t ∧ t.g = { s.g with block := .pages pages }) ∧
      (pagesHeld r.1 pages = false → ∃ t x, exec i s = .next t ∧ Walked x u t ∧
        t.g = { s.g with accs := s.g.accs ++ [x], spin := s.g.spin.map fun r => { r with eff := true }, block := .flag x.stamp } ∧
        (∀ pg, smGet Owner.reset t.owners pg = if pg ∈ pages then ⟨true, s.g.readX d⟩ else smGet Owner.reset s.owners pg) ∧
        x.kind = .flagStore ∧ x.w = 8 ∧ x.rel = true ∧ x.scope = .pkg ∧
        (x.lanes.map fun k => (k.va, k.loc, k.data)) = [(s.g.readX b, l, s.g.readX d)])))) ∧
  (∀ (p : Word) (s : State), let off := p.toNat % 65536 ≠ 0; let x := accessCheck s s.g p 1 2 ⟨false, false⟩
    let good := fun (pa : Nat) => inWindow s pa = true ∧ inWindow s (pa + 65535) = true ∧ (ownerOf s pa).token = false;
    (∀ c i, x = .bad c i → ¬off → pageCheck s p = .error [⟨c, 2, p.truncate 56, i⟩]) ∧
    (∀ pa k, x = .ok (.dram pa k) →
      (good pa → off → pageCheck s p = .error [⟨0x07, 2, p.truncate 56, 0⟩]) ∧
      (¬good pa → ¬off → pageCheck s p = .error [⟨0x03, 0, 0, p⟩]) ∧
      (good pa → ¬off → pageCheck s p = .ok (pa / 65536)))) ∧
  (∀ (g : CGuard) (w : BitVec 8) (s : State), Issues g [] s →
    (∀ win, smGet none s.coll.windows w.toNat = some win → windowOpenTo s win = true → Released s .sys →
      ∃ t, exec (.publish g w) s = .next t ∧ Advanced s t ∧
        smBytes t.host win.vaddr 8 = leBytes 8 (win.version + 1).toNat ∧
        (∀ a, ¬(win.vaddr ≤ a ∧ a < win.vaddr + 8) → smGet 0 t.host a = smGet 0 s.host a) ∧
        smGet none t.coll.windows w.toNat = some { win with version := win.version + 1 } ∧
        t.dram = s.dram ∧ t.sram = s.sram) ∧
    ((∀ win, smGet none s.coll.windows w.toNat = some win → windowOpenTo s win = false) →
      ∃ t, exec (.publish g w) s = .next t ∧ ControlFault 0x03 0 0 (w.zeroExtend 64) s t))

/-! ## Barriers, counters, the matrix engine -/

/-- `bar` arrives and blocks, and goes on when its phase has completed; `cbar.arr` arrives and writes the number of its phase, and
blocks where its group has arrived already; `cbar.wait` goes on when the phase it names has completed; `await` when the counter has
reached its value, in serial-number order (R138, R186, R187, R188). `bar` waits for the releases before it, and `cbar.arr` keeps the moment
of its arrival, whose phase waits for them (R59), which is the model's reading (notes/assumptions/78.md). -/
def Obligations.BarriersAndCounters : Prop :=
  ∀ (g : CGuard) (s : State),
    (∀ b, Issues g [] s →
      (∀ k ph, s.g.block = .bar k ph → (smGet Barrier.reset s.team.bars k).phase ≠ ph →
        ∃ t, exec (.bar g b) s = .next t ∧ OnlyGroup s t ∧ t.g = { s.g with pos := s.g.pos.next, block := .none }) ∧
      (s.g.block = .none → releaseOpen s s.g s.stamp = true → ∃ t, exec (.bar g b) s = .next t ∧ OnlyGroup s t ∧
        t.g = { s.g with block := .fences }) ∧
      (s.g.block = .none → releaseOpen s s.g s.stamp = false → ∃ t, exec (.bar g b) s = .next t ∧ SameMemory s t ∧
        t.g = { s.g with block := .bar b.toNat (smGet Barrier.reset s.team.bars b.toNat).phase } ∧
        (smGet Barrier.reset t.team.bars b.toNat).arrived = s.g.id.grp :: (smGet Barrier.reset s.team.bars b.toNat).arrived)) ∧
    (∀ d b, Issues g [] s →
      ((s.cbar b.toNat).2.contains (s.g.team, s.g.id.grp) = true →
        ∃ t, exec (.cbarArr g d b) s = .next t ∧ OnlyGroup s t ∧ t.g = { s.g with block := .cbarArr b.toNat (s.cbar b.toNat).1 }) ∧
      ((s.cbar b.toNat).2.contains (s.g.team, s.g.id.grp) = false →
        ∃ t, exec (.cbarArr g d b) s = .next t ∧ Advanced s t ∧ SameMemory s t ∧ smGet 0 t.g.cbarAt b.toNat = s.stamp ∧
          t.g.readX d = (if d = 0 then 0 else BitVec.ofNat 64 ((s.cbar b.toNat).1 % 2 ^ 32)) ∧
          t.cbar b.toNat = ((s.cbar b.toNat).1, (s.g.team, s.g.id.grp) :: (s.cbar b.toNat).2))) ∧
    (∀ a b, Issues g [a] s →
      (BitVec.ofNat 32 (s.cbar b.toNat).1 - ((s.g.readX a).truncate 32 + 1)).toNat < 2 ^ 31 →
      ∃ t, exec (.cbarWait g a b) s = .next t ∧ OnlyGroup s t ∧ t.g = { s.g with pos := s.g.pos.next, block := .none }) ∧
    (∀ n a imm, Issues g [a] s → let v := (s.g.readX a).truncate 32 + imm
      ((smGet 0 s.g.a n.toNat - v).toNat < 2 ^ 31 → ∃ t, exec (.await g n a imm) s = .next t ∧ OnlyGroup s t ∧
        t.g = { s.g with pos := s.g.pos.next, block := .none }) ∧
      (2 ^ 31 ≤ (smGet 0 s.g.a n.toNat - v).toNat → ∃ t, exec (.await g n a imm) s = .next t ∧ OnlyGroup s t ∧
        t.g = { s.g with block := .awaitCtr n.toNat v }))

/-- `mxacq` grants a free engine when no other request is before its own, does nothing for its owner, and queues any other; `mxrel`
passes ownership to the first request in the queue whose group is not halted, and faults TARGET_BAD for a group that does not own the
engine (R86, R191, R192). `tcfg` writes a valid x(A) to the control register of its tile and changes neither the state nor the bytes
of any tile, and a pass of another group that issues after it sees the new value; a tile the team has not faults TARGET_BAD with INFO
its number, and a value R193 refuses faults TARGET_BAD with INFO the value (R193, R194). INFO of the fault of `mxrel` is the model's
choice (notes/assumptions/11.md). -/
def Obligations.MatrixOwnershipAndTiles : Prop :=
  (∀ (g : CGuard) (s : State), Issues g [] s → let me := (s.g.core, s.g.slot)
    let first := s.quad.queue.find? fun p => (s.groupAt p.1 p.2).any fun h => !h.halted
    (s.quad.owner = some me → ∃ t, exec (.mxacq g) s = .next t ∧ OnlyGroup s t ∧ Advanced s t) ∧
    (s.quad.owner = none → (first = none ∨ first = some me) → ∃ t, exec (.mxacq g) s = .next t ∧ Advanced s t ∧ SameMemory s t ∧
      t.quad = { s.quad with owner := some me, queue := s.quad.queue.filter (· != me) }) ∧
    ((∃ o, s.quad.owner = some o ∧ o ≠ me) ∨ (s.quad.owner = none ∧ ∃ p, first = some p ∧ p ≠ me) → me ∉ s.quad.queue →
      ∃ t, exec (.mxacq g) s = .next t ∧ t.g = { s.g with block := .mx } ∧ SameMemory s t ∧
        t.quad = { s.quad with queue := s.quad.queue ++ [me] }) ∧
    (s.quad.owner = some me → ∃ t, exec (.mxrel g) s = .next t ∧ Advanced s t ∧ SameMemory s t ∧
      (first = none → t.quad = { s.quad with owner := none }) ∧
      ∀ p, first = some p → t.quad = { s.quad with owner := some p, queue := s.quad.queue.filter (· != p) }) ∧
    (s.quad.owner ≠ some me → ∃ t, exec (.mxrel g) s = .next t ∧ ControlFault 0x03 0 0 0 s t)) ∧
  (∀ (g : CGuard) (a : XReg) (n : TileNo) (s : State), Issues g [a] s → let v := s.g.readX a
    (s.team.tiles[n.toNat]? = none → ∃ t, exec (.tcfg g a n) s = .next t ∧ ControlFault 0x03 0 0 (n.zeroExtend 64) s t) ∧
    (∀ k, s.team.tiles[n.toNat]? = some k →
      (¬ConfigValid v → ∃ t, exec (.tcfg g a n) s = .next t ∧ ControlFault 0x03 0 0 v s t) ∧
      (ConfigValid v → ∃ t, exec (.tcfg g a n) s = .next t ∧ Advanced s t ∧ SameMemory s t ∧
        (∀ h ∈ t.others, h.live = true → h.team = s.g.team → h.core = s.g.core → ∀ e ∈ h.tlog, e.1 ≠ k) ∧
        ∀ j, smGet Tile.reset t.quad.tiles j =
          if j = k then { smGet Tile.reset s.quad.tiles k with ctl := v } else smGet Tile.reset s.quad.tiles j)))

namespace Sys2Proof.Says
open Sys2Proof Sys2Proof.Machine

/-! Shapes of the vector statements. `v.env s` is what an instruction of form v works on when it issues in s (its cycle t, execute mask
m, operands a, b, x, e), and `v.start s` the state its effect starts from. -/

/-- Every name the instruction writes can be stored, whatever its value (R208, R211, R212). -/
def Room (v : VForm) (s : State) : Prop :=
  ∀ ws : List NameWrite, ws.map Prod.fst = v.dests → (bindAll (v.env s).base (v.env s).born ws (v.start s)).isSome = true

/-- A result waits for a register under its present binding: the cycle it lands, the lanes it writes, its value. -/
def Lands (u : State) (r : VReg) (c : Nat) (m : Mask) (x : Lanes) : Prop :=
  ∃ p ∈ u.g.pend, (∃ k, p.dest = .reg r k ∧ u.g.bindOf r = some k) ∧ p.ready = c ∧ p.mask = m ∧ p.val = x

/-- A result waits for a predicate; p7 discards it (R198). -/
def LandsP (w u : State) (q : BitVec 3) (c : Nat) (m : Mask) (f : Nat → Prop) : Prop :=
  (q = 7 → ∀ p ∈ u.g.pend, p.dest = .pred 7 → p ∈ w.g.pend) ∧
    (q ≠ 7 → ∃ p ∈ u.g.pend, p.dest = .pred q ∧ p.ready = c ∧ p.mask = m ∧
      ∀ n, m.getLsbD n = true → (p.val.getLsbD n = true ↔ f n))

/-- Flags of the active lanes. -/
def gather (m : Mask) (fl : Nat → BitVec 8) : BitVec 8 :=
  (List.range 32).foldl (fun a n => if m.getLsbD n then a ||| fl n else a) 0

/-- The flag bits of the issuing token join those of the group (R104, R105). -/
def Flagged (w u : State) (f : BitVec 8) : Prop :=
  u.g.flagsDone = (w.g.tokenFlags f).flagsDone ∧ u.g.flagsLate = (w.g.tokenFlags f).flagsLate

/-- A fixed-latency instruction whose sources meet no fault, under a mask that is not zero, issues, and its result waits for its
latency: P relates each active lane's number to the value and the flags of that lane. -/
def Computes (i : Instr) (v : VForm) (lat : Nat) (d : VReg) (wide : Bool) (s : State) (P : VEnv → Nat → Nat → BitVec 8 → Prop) : Prop :=
  (v.env s).bad = [] → (v.env s).m ≠ 0 → Room v s →
    ∃ u lo hi fl, exec i s = .next (vdone (v.env s) u) ∧ Lands u d ((v.env s).t + lat) (v.env s).m lo ∧
      (wide = true → Lands u (d + 1) ((v.env s).t + lat) (v.env s).m hi) ∧ Flagged (v.start s) u (gather (v.env s).m fl) ∧
      ∀ n, (v.env s).m.getLsbD n = true →
        P (v.env s) n ((lane lo n).toNat + if wide then 2 ^ 32 * (lane hi n).toNat else 0) (fl n)

/-- The same where each active lane's result is a 32-bit pattern and there is no flag. -/
def Yields (i : Instr) (v : VForm) (lat : Nat) (d : VReg) (s : State) (f : VEnv → Nat → Lane) : Prop :=
  Computes i v lat d false s fun e n x fl => x = (f e n).toNat ∧ fl = 0

/-- The same for a predicate that an instruction writes, with the flags of its lanes; a form that writes no register always has room. -/
def Decides (i : Instr) (v : VForm) (lat : Nat) (q : BitVec 3) (s : State) (f : VEnv → Nat → Prop) (fl : VEnv → Nat → BitVec 8) : Prop :=
  (v.env s).bad = [] → (v.env s).m ≠ 0 → Room v s →
    ∃ u, exec i s = .next (vdone (v.env s) u) ∧ LandsP (v.start s) u q ((v.env s).t + lat) (v.env s).m (f (v.env s)) ∧
      Flagged (v.start s) u (gather (v.env s).m (fl (v.env s)))

/-- The form and the latency of every fixed-latency instruction (Table 51). -/
def fixedOf : Instr → Option (VForm × Nat)
  | .fadd c t _ d a b | .fsub c t _ d a b | .fmul c t _ d a b => some (fForm c t d a b, ftyLat t)
  | .fmin c t _ d a b | .fmax c t _ d a b => some (fForm c t d a b, ftyLat t)
  | .ffma c t _ d a b cc => some ({ fForm c t d a b with x := some ⟨cc, t.wide⟩ }, ftyLat t)
  | .fcmp c t _ _ _ a b => some ({ fForm c t 0 a b with dests := [] }, ftyLat t)
  | .fclass c t _ _ d a =>
    some ({ c := c, a := some ⟨a, t.wide⟩, b := none, x := none, e := none, preds := [], dests := [d] }, ftyLat t)
  | .frcp c t _ _ _ d a | .frsq c t _ _ _ d a | .fsqrt c t _ _ _ d a | .fexp2 c t _ _ _ d a | .flog2 c t _ _ _ d a |
    .fsin c t _ _ _ d a | .fcos c t _ _ _ d a =>
    some ({ c := c, a := some ⟨a, t.wide⟩, b := none, x := none, e := none, preds := [], dests := destRegs d t.wide }, 14)
  | .add c t _ d a b | .sub c t _ d a b => some (iForm c t.wide d a b, 4)
  | .mul c t d a b | .mulhi c t d a b | .min c t d a b | .max c t d a b => some (iForm c t.wide d a b, 4)
  | .mad c t d a b cc => some ({ iForm c t.wide d a b with x := some ⟨cc, t.wide⟩ }, 4)
  | .cmp c t _ _ a b => some ({ iForm c t.wide 0 a b with dests := [] }, 4)
  | .andB32 c d a b | .orB32 c d a b | .xorB32 c d a b | .andnB32 c d a b | .shlB32 c d a b | .shrN32 c d a b |
    .shrS32 c d a b => some (iForm c false d a b, 4)
  | .popcB32 c d a | .clzB32 c d a | .movB32 c d a => some (uForm c d a, 4)
  | .movB64 c d a => some ({ uForm c d a with a := some ⟨a, true⟩, dests := [d, d + 1] }, 4)
  | .bfeN32 c d a b cc | .bfeS32 c d a b cc => some (tForm c d a b cc, 4)
  | .selB32 c p d a b => some ({ iForm c false d a b with preds := [p] }, 4)
  | .acsH2 c _ d a b => some (iForm c false d a b, 4)
  | .cvt c dty sty _ d a =>
    some ({ c := c, a := some ⟨a, sty.wide⟩, b := none, x := none, e := none, preds := [], dests := destRegs d dty.wide }, 6)
  | .pack4 c d a b cc e => some ({ tForm c d a b cc with e := some ⟨e, false⟩ }, 6)
  | .unpack4 c _ d a => some (uForm c d a, 6)
  | .moviB32 c d _ | .laneid c d => some (dForm c d, 4)
  | .shflIdx c d a b | .shflUp c d a b | .shflDown c d a b | .shflXor c d a b => some (shflForm c d a b, 6)
  | .bflyLo c _ d a b | .bflyHi c _ d a b => some (iForm c false d a b, 6)
  | .voteAny c _ p _ | .voteAll c _ p _ | .voteEq c _ p _ => some ({ dForm c 0 with preds := [p], dests := [] }, 8)
  | .voteBallot c d p _ => some ({ dForm c d with preds := [p] }, 8)
  | .redtAdd c _ _ d a | .redtMin c _ _ d a | .redtMax c _ _ d a | .redtAnd c _ _ d a | .redtOr c _ _ d a | .redtXor c _ _ d a =>
    some (uForm c d a, 8)
  | .matchLanes c _ d a => some (uForm c d a, 8)
  | _ => none
where
  /-- A shuffle reads a second register only where B is one. -/
  shflForm (c : VCtl) (d : VReg) (a : VSrc) (b : ShB) : VForm :=
    { uForm c d a with b := match b with | .reg x => some ⟨x, false⟩ | .imm _ => none }

/-- The registers whose last read the instruction is (R126). -/
def freed (v : VForm) : List VReg := lastRegs v.c.lastA v.a ++ lastRegs v.c.lastB v.b ++ lastRegs v.c.lastC v.x

/-- Lane n of an operand as a number of an integer type, element k (R92, R225). -/
def num (t : ITy) (x : VVal) (n k : Nat) : Int :=
  let bits : Nat := match t with | .s32 | .n32 => 32 | .s64 | .n64 => 64 | .s16x2 | .n16x2 => 16
  let raw : Nat := x.nat n / 2 ^ (16 * k) % 2 ^ bits
  match t with
  | .s32 | .s64 | .s16x2 => if 2 ^ (bits - 1) ≤ raw then (raw : Int) - 2 ^ bits else (raw : Int)
  | .n32 | .n64 | .n16x2 => (raw : Int)

/-- The elements of an integer type: bits, signedness, count. -/
def shape : ITy → Nat × Bool × Nat
  | .s32 => (32, true, 1) | .n32 => (32, false, 1) | .s64 => (64, true, 1) | .n64 => (64, false, 1)
  | .s16x2 => (16, true, 2) | .n16x2 => (16, false, 2)

/-- Element k of a lane's result, as the bits of an integer modulo the width. -/
def Holds (t : ITy) (x k : Nat) (i : Int) : Prop := ((x / 2 ^ (16 * k) % 2 ^ (shape t).1 : Nat) : Int) = i % 2 ^ (shape t).1

/-- The lowest and highest number of an integer type. -/
def low (t : ITy) : Int := if (shape t).2.1 then -(2 ^ ((shape t).1 - 1)) else 0
def high (t : ITy) : Int := if (shape t).2.1 then 2 ^ ((shape t).1 - 1) - 1 else 2 ^ (shape t).1 - 1

/-- A number brought into the range of a type. -/
def clamp (t : ITy) (i : Int) : Int := if i < low t then low t else if high t < i then high t else i

/-- Partition tile of a lane at tile width 2^part (R213). -/
def tileOf (e : VEnv) (n : Nat) : Nat := n / 2 ^ (e.mode.part.toNat % 8)

/-- The active lanes of a lane's tile. -/
def Mates (e : VEnv) (n m : Nat) : Prop := m < 32 ∧ tileOf e m = tileOf e n ∧ e.m.getLsbD m = true

/-- The real number that a finite value stands for (Table 37). -/
def Means (v : FVal) (x : ℝ) : Prop := ∃ n m e, v = .fin n m e ∧ x = (if n then -1 else 1) * m * 2 ^ e

/-- y is the real number x rounded in a mode to the numbers k · 2^q with |k| < 2^(fb + 1), q at least lo where there is a least; of two
nearest RNE takes the one whose last place is even (Table 40). -/
def Nearest (fb : Nat) (lo : Option Int) (mode : Rnd) (x y : ℝ) : Prop :=
  let on := fun (z : ℝ) => ∃ k q : Int, |k| < 2 ^ (fb + 1) ∧ (∀ l, lo = some l → l ≤ q) ∧ z = k * 2 ^ q
  on y ∧ match mode with
    | .rne => ∀ z, on z → |x - y| ≤ |x - z| ∧ (|x - y| = |x - z| → z ≠ y →
        ∃ k q : Int, |2 * k| < 2 ^ (fb + 1) ∧ (∀ l, lo = some l → l ≤ q) ∧ y = 2 * k * 2 ^ q)
    | .rz => |y| ≤ |x| ∧ 0 ≤ x * y ∧ ∀ z, on z → |z| ≤ |x| → |z| ≤ |y|
    | .ru => x ≤ y ∧ ∀ z, on z → x ≤ z → y ≤ z
    | .rd => y ≤ x ∧ ∀ z, on z → z ≤ x → z ≤ y

/-- A result is the nonzero real number x rounded once to a format: on the format's own grid y, judged for overflow and tininess by u, with
the exponent unbounded (R97, R98, R99). -/
def Rounds (f : Fmt) (mode : Rnd) (fo : Bool) (x : ℝ) (r : Nat × Flags) : Prop :=
  ∃ y u : ℝ, Nearest f.fb (some (1 - (f.bias : Int) - f.fb)) mode x y ∧ Nearest f.fb none mode x u ∧
    r.1 < 2 ^ f.width ∧ (f.neg r.1 = true ↔ x < 0) ∧
    let tiny := |u| < 2 ^ (1 - (f.bias : Int))
    let away := match mode with | .rne => True | .rz => False | .ru => 0 < x | .rd => x < 0
    (2 ^ (f.bias + 1) ≤ |u| → r.2 = fOF ||| fNX ∧ (away → ∃ n, f.value r.1 = .inf n) ∧
      (¬away → ∃ z, Means (f.value r.1) z ∧ |z| = (2 - 2 ^ (-(f.fb : Int))) * 2 ^ f.bias)) ∧
    (|u| < 2 ^ (f.bias + 1) → tiny → fo = true → r.2 = fUF ||| fNX ∧ Means (f.value r.1) 0) ∧
    (|u| < 2 ^ (f.bias + 1) → (¬tiny ∨ fo = false) → Means (f.value r.1) y ∧ (y = x → r.2 = 0) ∧
      (y ≠ x → tiny → r.2 = fUF ||| fNX) ∧ (y ≠ x → ¬tiny → r.2 = fNX))

/-- i is the real number x rounded to an integer (Table 40). -/
def Integral (mode : Rnd) (x : ℝ) (i : Int) : Prop :=
  match mode with
  | .rne => |x - i| ≤ 1 / 2 ∧ (|x - i| = 1 / 2 → Even i)
  | .rz => |(i : ℝ)| ≤ |x| ∧ |x| < |(i : ℝ)| + 1 ∧ 0 ≤ x * i
  | .ru => x ≤ i ∧ (i : ℝ) < x + 1
  | .rd => (i : ℝ) ≤ x ∧ x < i + 1

/-- A predicate as an instruction reads it, inverted on request. -/
def Voted (e : VEnv) (p : BitVec 3) (neg : Bool) (m : Nat) : Prop := ((e.base.g.seenP p).getLsbD m != neg) = true

end Sys2Proof.Says
open Sys2Proof Sys2Proof.Machine Sys2Proof.Says

/-! ## Fixed-latency vector instructions -/

/-- Every fixed-latency instruction: a fault of its sources or guards is taken with nothing done; a zero mask only reads, latches and
frees; otherwise its results join those that wait, for its latency, under its mask, and no register's value, no other name and nothing
but the group's names, waiting results and flags is changed (R4, R75, R78, R122, R205, R206, R214). -/
def Obligations.FixedLatencyInstructions : Prop :=
  ∀ (i : Instr) (v : VForm) (lat : Nat) (s : State), fixedOf i = some (v, lat) →
    let e := v.env s
    let w := v.start s
    (∀ f, lowest e.bad = some f → ∃ t, exec i s = .next t ∧ VectorFault f.code f.lanes f.acc f.addr f.info e.base t) ∧
    (e.bad = [] → e.m = 0 → exec i s = .next (vdone e w)) ∧
    (e.bad = [] → e.m ≠ 0 → Room v s → ∃ u, exec i s = .next (vdone e u) ∧ u = { w with g := u.g } ∧
      u.g = { w.g with v := u.g.v, pend := u.g.pend, flagsDone := u.g.flagsDone, flagsLate := u.g.flagsLate } ∧
      (∀ r, r ∉ v.dests → u.g.name r = w.g.name r) ∧ (∀ p, p ∈ w.g.pend → p ∈ u.g.pend) ∧
      ∀ p, p ∈ u.g.pend → p ∈ w.g.pend ∨ (p.ready = e.t + lat ∧ p.mask = e.m ∧ p.idx = s.g.vpos.idx ∧
        ∀ r k, p.dest = .reg r k → r ∈ v.dests))

/-- What an instruction starts from: the results due by its cycle have landed, and the names whose last read it is are free; every
other register reads as it did, and memory and the rest of the machine are untouched. A result lands in its lanes once its cycle has
come; before that a consumer reads the value from before its producer (R122, R123, R126). -/
def Obligations.ResultsLandAfterTheirLatency : Prop :=
  (∀ (v : VForm) (s : State), let g := s.g.landBy (v.env s).t
    v.start s = { s with g := (v.start s).g } ∧ (v.env s).base = { s with g := g } ∧
      (∀ r, (v.start s).g.readV r = if r ∈ freed v then 0 else g.readV r) ∧
      (∀ p, (v.start s).g.readP p = g.readP p) ∧ (v.start s).g.pend = g.pend) ∧
  (∀ (g : Group) (t : Nat) (p : PendWrite) (r : VReg) (k : Nat), g.pend = [p] → p.dest = .reg r k → g.bindOf r = some k →
    (p.ready ≤ t → (g.landBy t).pend = [] ∧ (∀ q, q ≠ r → (g.landBy t).readV q = g.readV q) ∧
      ∀ n, n < 32 → lane ((g.landBy t).readV r) n = if p.mask.getLsbD n then lane p.val n else lane (g.readV r) n) ∧
    (t < p.ready → g.landBy t = g ∧ g.seenV r = p.old))

/-- The roundings behind every arithmetic result. A sum, a product or a converted value is the exact real number rounded once to the
format: the neighbour that the mode selects, with NX where it is not exact, UF where it is tiny besides, a zero where the result bit flushes
it, and on overflow what R97 gives; an exact zero has the sign of its terms or of the mode. A NaN makes a sum the canonical NaN and
opposite infinities make it invalid. A conversion to an integer rounds and saturates, with NV where the range changes it. The seven unary
functions are correctly rounded, with the special results of Table 86, and outside 2^20·π sine and cosine give a NaN with RG (R95, R97,
R98, R99, R101, R103, R220, R223, R224). That an infinity sets NV alone, and that a NaN beside opposite infinities sets no flag, are the
model's choice (notes/assumptions/64.md, 65.md); where the bounds of the last four functions decide no rounding the result is the free
value (notes/assumptions/10.md). -/
def Obligations.ResultsAreCorrectlyRounded : Prop :=
  ∀ f ∈ [fp64, fp32, fp16, bf16], ∀ (mode : Rnd) (fo : Bool),
    (∀ (vs : List FVal) (xs : List ℝ), List.Forall₂ Means vs xs →
      (xs.sum ≠ 0 → Rounds f mode fo xs.sum (f.sum mode fo vs)) ∧
      (xs.sum = 0 → vs ≠ [] → f.sum mode fo vs = (f.zero (
        if ∀ v ∈ vs, v.sign = true then true else if ∀ v ∈ vs, v.sign = false then false else decide (mode = .rd)), 0))) ∧
    (∀ vs : List FVal,
      ((∃ v ∈ vs, v.isNan = true) → f.sum mode fo vs = (f.nan, 0)) ∧
      ((∀ v ∈ vs, v.isNan = false) → .inf true ∈ vs → .inf false ∈ vs → f.sum mode fo vs = (f.nan, fNV)) ∧
      (∀ n, (∀ v ∈ vs, v.isNan = false) → .inf n ∈ vs → .inf (!n) ∉ vs → f.sum mode fo vs = (f.inf n, 0))) ∧
    (∀ (v w : FVal) (x y : ℝ), Means v x → Means w y →
      Means (v.mul w).1 (x * y) ∧ (v.mul w).2 = 0 ∧ (v.mul w).1.sign = (v.sign != w.sign) ∧
      (x ≠ 0 → Rounds f mode fo x (f.ofValue mode fo v)) ∧ (x = 0 → f.ofValue mode fo v = (f.zero v.sign, 0)) ∧
      (v.cmp w < 0 ↔ x < y) ∧ (v.cmp w = 0 ↔ x = y)) ∧
    (∀ n s : Bool, f.ofValue mode fo (.inf n) = (f.inf n, 0) ∧ f.ofValue mode fo (.nan s) = (f.nan, 0) ∧
      ∀ m e, (FVal.inf n).mul (.fin s m e) = if m = 0 then (.nan false, fNV) else (.inf (n != s), 0)) ∧
    (∀ bits ∈ [8, 16, 32, 64], ∀ (signed : Bool) (v : FVal) (x : ℝ),
      let lo : Int := if signed then -2 ^ (bits - 1) else 0
      let hi : Int := if signed then 2 ^ (bits - 1) - 1 else 2 ^ bits - 1
      let r := cvtToInt bits signed mode
      (Means v x → ∃ i : Int, Integral mode x i ∧ (r v).1 = max lo (min i hi) ∧
        ((r v).2 &&& fNV ≠ 0 ↔ i < lo ∨ hi < i) ∧ ((r v).2 &&& fNX ≠ 0 ↔ x ≠ i) ∧ (r v).2 &&& ~~~(fNV ||| fNX) = 0) ∧
      (Means v x → ∃ i : Int, Integral mode x i ∧ (roundIntegral f mode fo v).1 = (f.ofValue mode fo (.fin v.sign i.natAbs 0)).1 ∧
        ((roundIntegral f mode fo v).2 &&& fNX = 0 → x = i)) ∧
      r (.nan false) = (0, fNV) ∧ r (.nan true) = (0, fNV) ∧ r (.inf true) = (lo, fNV) ∧ r (.inf false) = (hi, fNV)) ∧
    (∀ (g : TFun) (free : Nat × Flags) (b : Nat) (x : ℝ), b < 2 ^ f.width → Means (f.value b) x →
      let n := f.neg b
      let r := g.eval f mode fo free (f.value b)
      let open_ := fun (y : ℝ) => r = free ∨ Rounds f mode fo y r
      match g with
      | .rcp => if x = 0 then r = (f.inf n, fDZ) else Rounds f mode fo (1 / x) r
      | .rsq => if x = 0 then r = (f.inf n, fDZ) else if x < 0 then r = (f.nan, fNV) else Rounds f mode fo (1 / Real.sqrt x) r
      | .sqrt => if x = 0 then r = (f.zero n, 0) else if x < 0 then r = (f.nan, fNV) else Rounds f mode fo (Real.sqrt x) r
      | .exp2 => (x = 0 → Rounds f mode fo 1 r) ∧ (x ≠ 0 → (∃ i : Int, x = i) → Rounds f mode fo (2 ^ x) r) ∧ open_ (2 ^ x)
      | .log2 => if x = 0 then r = (f.inf true, fDZ) else if x < 0 then r = (f.nan, fNV) else if x = 1 then r = (f.zero false, 0)
          else ((∃ i : Int, x = 2 ^ i) → Rounds f mode fo (Real.logb 2 x) r) ∧ open_ (Real.logb 2 x)
      | .sin => if x = 0 then r = (f.zero n, 0) else if 2 ^ 20 * Real.pi < |x| then r = (f.nan, fRG) else open_ (Real.sin x)
      | .cos => if x = 0 then Rounds f mode fo 1 r else if 2 ^ 20 * Real.pi < |x| then r = (f.nan, fRG) else open_ (Real.cos x)) ∧
    (∀ (g : TFun) (free : Nat × Flags) (n s : Bool), g.eval f mode fo free (.nan s) = (f.nan, 0) ∧
      g.eval f mode fo free (.inf n) = match g with
        | .rcp => (f.zero n, 0)
        | .rsq => if n then (f.nan, fNV) else (f.zero false, 0)
        | .sqrt | .log2 => if n then (f.nan, fNV) else (f.inf false, 0)
        | .exp2 => if n then (f.zero false, 0) else (f.inf false, 0)
        | .sin | .cos => (f.nan, fRG))

/-- The floating arithmetic: `fadd`, `fsub`, `fmul` and `ffma` round the exact result once in the chosen mode, `fmin` and `fmax` pick a
source, the unary functions apply theirs, and `fclass` gives the class of the raw encoding; each on the flushed and modified sources of
every active lane and element (R98, R99, R104, R119, R217, R219, R220, R222, R223). -/
def Obligations.FloatArithmetic : Prop :=
  ∀ (c : VCtl) (t : FTy) (m : FMods) (r : RndSel) (neg abs : Bool) (d : VReg) (a b cc : VSrc) (s : State),
    let f := ftyFmt t
    let two : VForm := fForm c t d a b
    let one : VForm := { two with b := none }
    let val := fun (e : VEnv) (x : VVal) (n k : Nat) (ng ab : Bool) => modFin f e.mode.fpm ng ab (elem t.packed f.width (x.nat n) k)
    let is := fun (x : Nat) (fl : BitVec 8) (y : Nat × Flags) => x = y.1 % (if t.wide then 2 ^ 64 else 2 ^ 32) ∧ fl = y.2
    let add3 := fun (y : Nat × Flags) (fl : BitVec 8) => (y.1, y.2 ||| fl);
    Computes (.fadd c t m d a b) two (ftyLat t) d t.wide s (fun e n x fl => is x fl (eachElem t.packed fun k =>
      let p := val e e.a n k m.src.negA m.src.absA
      let q := val e e.b n k m.src.negB m.src.absB
      add3 (f.sum (rndMode m.rnd e.mode.fpm) (flushOut e.mode.fpm f) [p.1, q.1]) (p.2 ||| q.2))) ∧
    Computes (.fsub c t m d a b) two (ftyLat t) d t.wide s (fun e n x fl => is x fl (eachElem t.packed fun k =>
      let p := val e e.a n k m.src.negA m.src.absA
      let q := val e e.b n k m.src.negB m.src.absB
      add3 (f.sum (rndMode m.rnd e.mode.fpm) (flushOut e.mode.fpm f) [p.1, q.1.negate]) (p.2 ||| q.2))) ∧
    Computes (.fmul c t m d a b) two (ftyLat t) d t.wide s (fun e n x fl => is x fl (eachElem t.packed fun k =>
      let p := val e e.a n k m.src.negA m.src.absA
      let q := val e e.b n k m.src.negB m.src.absB
      add3 (f.ofValue (rndMode m.rnd e.mode.fpm) (flushOut e.mode.fpm f) (p.1.mul q.1).1) ((p.1.mul q.1).2 ||| p.2 ||| q.2))) ∧
    Computes (.ffma c t m d a b cc) { two with x := some ⟨cc, t.wide⟩ } (ftyLat t) d t.wide s
      (fun e n x fl => is x fl (eachElem t.packed fun k =>
        let p := val e e.a n k m.src.negA m.src.absA
        let q := val e e.b n k m.src.negB m.src.absB
        let z := val e e.x n k false false
        add3 (f.sum (rndMode m.rnd e.mode.fpm) (flushOut e.mode.fpm f) [(p.1.mul q.1).1, z.1])
          ((p.1.mul q.1).2 ||| p.2 ||| q.2 ||| z.2))) ∧
    (∀ (big : Bool), Computes (if big then .fmax c t m.src d a b else .fmin c t m.src d a b) two (ftyLat t) d t.wide s
      (fun e n x fl => is x fl (eachElem t.packed fun k =>
        let p := val e e.a n k m.src.negA m.src.absA
        let q := val e e.b n k m.src.negB m.src.absB
        let v := if p.1.isNan then q.1 else if q.1.isNan then p.1
          else if big then (if q.1.below p.1 then p.1 else q.1) else if q.1.below p.1 then q.1 else p.1
        add3 (f.ofValue .rne (flushOut e.mode.fpm f) v) (p.2 ||| q.2)))) ∧
    (∀ p ∈ [(Instr.frcp c t r neg abs d a, TFun.rcp), (.frsq c t r neg abs d a, .rsq), (.fsqrt c t r neg abs d a, .sqrt),
        (.fexp2 c t r neg abs d a, .exp2), (.flog2 c t r neg abs d a, .log2), (.fsin c t r neg abs d a, .sin),
        (.fcos c t r neg abs d a, .cos)],
      Computes p.1 one 14 d t.wide s (fun e n x fl =>
        let v := val e e.a n 0 neg abs
        let raw := f.modify abs neg (e.a.nat n % 2 ^ f.width)
        let y := p.2.eval f (rndMode r e.mode.fpm) (flushOut e.mode.fpm f)
          ((Config.freeTrans p.2.code f.width raw).toNat % 2 ^ f.width, fNX) v.1
        t.packed = false → is x fl (add3 y v.2))) ∧
    Computes (.fclass c t neg abs d a) { one with dests := [d] } (ftyLat t) d false s (fun e n x fl =>
      fl = 0 ∧ x = (eachElem t.packed fun k => (2 ^ classOf f (f.modify abs neg (elem t.packed f.width (e.a.nat n) k)), 0)).1 % 2 ^ 32)

/-- `fcmp` and `cmp` write the outcome of their condition in each active lane, `cmp` of a packed type one predicate for each element;
the votes combine the (inverted) predicate over the active lanes of each tile (R213, R221, R225, R226, R243). -/
def Obligations.PredicateResults : Prop :=
  ∀ (c : VCtl) (t : FTy) (m : SMods) (cond : FCond) (it : ITy) (ic : ICond) (pd p : BitVec 3) (neg : Bool) (a b : VSrc) (s : State),
    let f := ftyFmt t
    let src := fun (e : VEnv) (x : VVal) (n : Nat) (ng ab : Bool) => modFin f e.mode.fpm ng ab (x.nat n % 2 ^ f.width)
    let nan := fun (e : VEnv) (n : Nat) => (src e e.a n m.negA m.absA).1.isNan || (src e e.b n m.negB m.absB).1.isNan
    let diff := fun (e : VEnv) (n : Nat) => (src e e.a n m.negA m.absA).1.cmp (src e e.b n m.negB m.absB).1
    let ordered : Bool := match cond with | .lt | .le | .gt | .ge => true | .eq | .ne | .ord | .uno => false
    let vform : VForm := { dForm c 0 with preds := [p], dests := [] };
    Decides (.fcmp c t m cond pd a b) { fForm c t 0 a b with dests := [] } (ftyLat t) pd s
      (fun e n => match cond with
        | .eq => nan e n = false ∧ diff e n = 0
        | .ne => nan e n = true ∨ diff e n ≠ 0
        | .lt => nan e n = false ∧ diff e n < 0
        | .le => nan e n = false ∧ diff e n ≤ 0
        | .gt => nan e n = false ∧ 0 < diff e n
        | .ge => nan e n = false ∧ 0 ≤ diff e n
        | .ord => nan e n = false
        | .uno => nan e n = true)
      (fun e n => flagIf (ordered && nan e n) fNV ||| (src e e.a n m.negA m.absA).2 ||| (src e e.b n m.negB m.absB).2) ∧
    (∀ k, k < (shape it).2.2 →
      Decides (.cmp c it ic pd a b) { iForm c it.wide 0 a b with dests := [] } 4 (pd + BitVec.ofNat 3 k) s
        (fun e n => match ic with
          | .eq => num it e.a n k = num it e.b n k
          | .ne => num it e.a n k ≠ num it e.b n k
          | .lt => num it e.a n k < num it e.b n k
          | .le => num it e.a n k ≤ num it e.b n k
          | .gt => num it e.b n k < num it e.a n k
          | .ge => num it e.b n k ≤ num it e.a n k
          | .tst => ∃ j, j < (shape it).1 ∧ (e.a.nat n).testBit (16 * k + j) = true ∧ (e.b.nat n).testBit (16 * k + j) = true
          | .ntst => ∀ j, j < (shape it).1 → ¬((e.a.nat n).testBit (16 * k + j) = true ∧ (e.b.nat n).testBit (16 * k + j) = true))
        (fun _ _ => 0)) ∧
    Decides (.voteAny c pd p neg) vform 8 pd s (fun e n => ∃ k, Mates e n k ∧ Voted e p neg k) (fun _ _ => 0) ∧
    Decides (.voteAll c pd p neg) vform 8 pd s (fun e n => ∀ k, Mates e n k → Voted e p neg k) (fun _ _ => 0) ∧
    Decides (.voteEq c pd p neg) vform 8 pd s
      (fun e n => (∀ k, Mates e n k → Voted e p neg k) ∨ ∀ k, Mates e n k → ¬Voted e p neg k) (fun _ _ => 0)

/-- The integer arithmetic of Table 88 on every active lane and element, wrapped to the width; a saturating sum or difference is
brought into the range of its type and sets SA when that changed it, and no other sets a flag (R95, R104, R225). -/
def Obligations.IntegerArithmetic : Prop :=
  ∀ (c : VCtl) (t : ITy) (sat : Bool) (d : VReg) (a b cc : VSrc) (s : State),
    let v := iForm c t.wide d a b
    let all := fun (P : Nat → Prop) => ∀ k, k < (shape t).2.2 → P k
    let sum := fun (i : Int) => if sat then clamp t i else i
    let sa := fun (f : Nat → Int) => flagIf (sat && (List.range (shape t).2.2).any (fun k => clamp t (f k) != f k)) fSA
    let plain := fun (i : Instr) (op : Int → Int → Int) => Computes i v 4 d t.wide s (fun e n x fl =>
      fl = 0 ∧ all fun k => Holds t x k (op (num t e.a n k) (num t e.b n k)));
    Computes (.add c t sat d a b) v 4 d t.wide s (fun e n x fl =>
      fl = sa (fun k => num t e.a n k + num t e.b n k) ∧ all fun k => Holds t x k (sum (num t e.a n k + num t e.b n k))) ∧
    Computes (.sub c t sat d a b) v 4 d t.wide s (fun e n x fl =>
      fl = sa (fun k => num t e.a n k - num t e.b n k) ∧ all fun k => Holds t x k (sum (num t e.a n k - num t e.b n k))) ∧
    plain (.mul c t d a b) (· * ·) ∧ plain (.mulhi c t d a b) (fun i j => i * j / 2 ^ (shape t).1) ∧
    plain (.min c t d a b) (fun i j => if i < j then i else j) ∧ plain (.max c t d a b) (fun i j => if i < j then j else i) ∧
    Computes (.mad c t d a b cc) { v with x := some ⟨cc, t.wide⟩ } 4 d t.wide s (fun e n x fl =>
      fl = 0 ∧ all fun k => Holds t x k (num t e.a n k * num t e.b n k + num t e.x n k))

/-- The 32-bit bit instructions, the bit fields, the select, the moves and `laneid` on every active lane; none sets a flag (R227, R228,
R229, R240). -/
def Obligations.BitAndMoveResults : Prop :=
  ∀ (c : VCtl) (p : BitVec 3) (d : VReg) (a b cc : VSrc) (imm : BitVec 21) (s : State),
    let two := iForm c false d a b
    let one := uForm c d a
    let three := tForm c d a b cc
    let A := fun (e : VEnv) n => lane e.a.lo n
    let B := fun (e : VEnv) n => lane e.b.lo n
    let field := fun (signed : Bool) (e : VEnv) (n : Nat) =>
      let l := min (lane e.x.lo n).toNat (32 - (B e n).toNat)
      if 32 ≤ (B e n).toNat ∨ lane e.x.lo n = 0 then (0 : Lane)
      else if signed then ((A e n) <<< (32 - l - (B e n).toNat)).sshiftRight (32 - l) else ((A e n) >>> (B e n).toNat) <<< (32 - l) >>> (32 - l);
    Yields (.andB32 c d a b) two 4 d s (fun e n => A e n &&& B e n) ∧ Yields (.orB32 c d a b) two 4 d s (fun e n => A e n ||| B e n) ∧
    Yields (.xorB32 c d a b) two 4 d s (fun e n => A e n ^^^ B e n) ∧ Yields (.andnB32 c d a b) two 4 d s (fun e n => A e n &&& ~~~ B e n) ∧
    Yields (.shlB32 c d a b) two 4 d s (fun e n => A e n <<< (B e n).toNat) ∧
    Yields (.shrN32 c d a b) two 4 d s (fun e n => A e n >>> (B e n).toNat) ∧
    Yields (.shrS32 c d a b) two 4 d s (fun e n => (A e n).sshiftRight (B e n).toNat) ∧
    Yields (.popcB32 c d a) one 4 d s (fun e n => BitVec.ofNat 32 ((List.range 32).countP fun j => (A e n).getLsbD j)) ∧
    Computes (.clzB32 c d a) one 4 d false s (fun e n x fl => fl = 0 ∧ x ≤ 32 ∧ (∀ j, 32 - x ≤ j → (A e n).getLsbD j = false) ∧
      (x < 32 → (A e n).getLsbD (31 - x) = true)) ∧
    Yields (.bfeN32 c d a b cc) three 4 d s (field false) ∧ Yields (.bfeS32 c d a b cc) three 4 d s (field true) ∧
    Yields (.selB32 c p d a b) { two with preds := [p] } 4 d s
      (fun e n => if p = 7 ∨ (e.base.g.seenP p).getLsbD n = true then A e n else B e n) ∧
    Yields (.movB32 c d a) one 4 d s A ∧
    Computes (.movB64 c d a) { one with a := some ⟨a, true⟩, dests := [d, d + 1] } 4 d true s (fun e n x fl => fl = 0 ∧
      x = (A e n).toNat + 2 ^ 32 * (lane e.a.hi n).toNat) ∧
    Yields (.moviB32 c d imm) (dForm c d) 4 d s (fun _ _ => imm.signExtend 32) ∧
    Yields (.laneid c d) (dForm c d) 4 d s (fun _ n => BitVec.ofNat 32 n)

/-- `acs.h2` keeps the better of two saturated sums in each half and the survivor bits in its predicate pair; `cvt` converts by
Table 91; `pack4` clamps eight elements to nibbles and `unpack4` spreads two (R106, R230, R231, R232, R233, R234). -/
def Obligations.PackedAndConverted : Prop :=
  ∀ (c : VCtl) (j h : BitVec 2) (dty sty : CvtTy) (r : RndSel) (d : VReg) (a b cc ee : VSrc) (s : State),
    let half := fun (x : VVal) (n k : Nat) => x.nat n / 2 ^ (16 * k) % 2 ^ 16
    let cl := fun (x : Nat) => min x 65535
    let stay := fun (e : VEnv) (n k : Nat) => half e.a n 0 + half e.b n k
    let cross := fun (e : VEnv) (n k : Nat) => half e.a n 1 + half e.b n (1 - k)
    let better := fun (e : VEnv) (n k : Nat) => if cl (cross e n k) < cl (stay e n k) then cl (cross e n k) else cl (stay e n k)
    let sa := fun (e : VEnv) (n : Nat) =>
      flagIf ((List.range 2).any fun k => decide (65535 < stay e n k) || decide (65535 < cross e n k)) fSA
    let el := fun (e : VEnv) (n k : Nat) => half (match k / 2 with | 0 => e.a | 1 => e.b | 2 => e.x | _ => e.e) n (k % 2)
    let acs := iForm c false d a b
    let conv : VForm := { c := c, a := some ⟨a, sty.wide⟩, b := none, x := none, e := none, preds := [], dests := destRegs d dty.wide }
    let wrap := fun (i : Int) => ofInt (if (cvtInt dty).1 = 64 then 64 else 32) i;
    Computes (.acsH2 c j d a b) acs 4 d false s (fun e n x fl => x = better e n 0 + 65536 * better e n 1 ∧ fl = sa e n) ∧
    (∀ k, k < 2 → Decides (.acsH2 c j d a b) acs 4 ((j.zeroExtend 3 <<< 1) + BitVec.ofNat 3 k) s
      (fun e n => cl (cross e n k) < cl (stay e n k)) sa) ∧
    Computes (.cvt c dty sty r d a) conv 6 d dty.wide s (fun e n x fl =>
      let mode := rndMode r e.mode.fpm
      let is := fun (y : Nat × Flags) => x = y.1 % (if dty.wide then 2 ^ 64 else 2 ^ 32) ∧ fl = y.2
      let v := toInt (cvtInt sty).1 (cvtInt sty).2 (e.a.nat n)
      match cvtFmt sty, cvtFmt dty with
      | some f, some g =>
        let y := f.source (flushIn e.mode.fpm f) (e.a.nat n % 2 ^ f.width)
        let z := if dty = sty then roundIntegral f mode (flushOut e.mode.fpm f) y.1 else g.ofValue mode (flushOut e.mode.fpm g) y.1
        is (z.1, z.2 ||| y.2)
      | some f, none =>
        let y := f.source (flushIn e.mode.fpm f) (e.a.nat n % 2 ^ f.width)
        let z := cvtToInt (cvtInt dty).1 (cvtInt dty).2 mode y.1
        is (wrap z.1, z.2 ||| y.2)
      | none, some g => is (g.ofValue mode (flushOut e.mode.fpm g) (FVal.ofInt v))
      | none, none =>
        let lo := (intRange (cvtInt dty).1 (cvtInt dty).2).1
        let hi := (intRange (cvtInt dty).1 (cvtInt dty).2).2
        is (wrap (max lo (min v hi)), flagIf (decide (v < lo) || decide (hi < v)) fSA)) ∧
    Computes (.pack4 c d a b cc ee) { tForm c d a b cc with e := some ⟨ee, false⟩ } 6 d false s (fun e n x fl =>
      (∀ k, k < 8 → x / 16 ^ k % 16 = if 32768 ≤ el e n k then 0 else min (el e n k) 15) ∧
        fl = flagIf ((List.range 8).any fun k => decide (15 < el e n k)) fSA) ∧
    Computes (.unpack4 c h d a) (uForm c d a) 6 d false s (fun e n x fl => fl = 0 ∧
      x = e.a.nat n / 2 ^ (8 * h.toNat) % 16 + 65536 * (e.a.nat n / 2 ^ (8 * h.toNat + 4) % 16))

/-- Shuffles copy from a lane of the same tile, active or not, and butterflies exchange with the lane at their distance in the tile
(R213, R241, R242). -/
def Obligations.LanesExchanged : Prop :=
  ∀ (c : VCtl) (k : BitVec 3) (d : VReg) (a b : VSrc) (o : ShB) (s : State),
    let W := fun (e : VEnv) => 2 ^ (e.mode.part.toNat % 8)
    let by_ := fun (e : VEnv) (n : Nat) => match o with | .reg _ => e.b.nat n | .imm i => i.toNat
    let sh := fun (i : Instr) (pick : VEnv → Nat → Nat → Nat → Prop) =>
      Computes i (fixedOf.shflForm c d a o) 6 d false s fun e n x fl =>
        fl = 0 ∧ ∃ m, pick e n (by_ e n) m ∧ x = (lane e.a.lo m).toNat
    let partner := fun (e : VEnv) (n : Nat) => if 2 ^ k.toNat < W e then Nat.xor n (2 ^ k.toNat) else n;
    sh (.shflIdx c d a o) (fun e n i m => m / W e = n / W e ∧ m % W e = i % W e) ∧
    sh (.shflUp c d a o) (fun e n i m => if i ≤ n % W e then m + i = n else m = n) ∧
    sh (.shflDown c d a o) (fun e n i m => if n % W e + i < W e then m = n + i else m = n) ∧
    sh (.shflXor c d a o) (fun e n i m => m / W e = n / W e ∧ m % W e = Nat.xor (n % W e) (i % W e)) ∧
    Yields (.bflyLo c k d a b) (iForm c false d a b) 6 d s
      (fun e n => if n.testBit k.toNat then lane e.b.lo (partner e n) else lane e.a.lo n) ∧
    Yields (.bflyHi c k d a b) (iForm c false d a b) 6 d s
      (fun e n => if n.testBit k.toNat then lane e.b.lo n else lane e.a.lo (partner e n))

/-- Every active lane of a tile receives the reduction of the tile's active lanes: integer sums and bitwise operations in any order,
the least or greatest of them, and for `.f32` the fixed tree; `match` and `vote.ballot` give the mask of active lanes of the tile that
match or vote (R213, R220, R243, R244, R245). -/
def Obligations.TileReductions : Prop :=
  ∀ (c : VCtl) (ty : RTy) (r : RndSel) (fp neg : Bool) (p : BitVec 3) (d : VReg) (a : VSrc) (s : State),
    let one := uForm c d a
    let A := fun (e : VEnv) (m : Nat) => lane e.a.lo m
    let I := fun (e : VEnv) (m : Nat) => if ty = .s32 then (A e m).toInt else ((A e m).toNat : Int)
    let J := fun (x : Nat) => if ty = .s32 then (BitVec.ofNat 32 x).toInt else (x : Int)
    let mates := fun (e : VEnv) (n : Nat) => (List.range 32).filter fun m => decide (tileOf e m = tileOf e n) && e.m.getLsbD m
    let leaf := fun (e : VEnv) (n i : Nat) =>
      let m := n - n % 2 ^ (e.mode.part.toNat % 8) + i
      if e.m.getLsbD m then some (A e m).toNat else none
    let f32 := fun (i : Instr) (op : VEnv → FVal → FVal → Nat × Flags) => Computes i one 8 d false s fun e n x fl =>
      let node := fun (x y : Nat) =>
        let u := modFin fp32 e.mode.fpm false false x
        let w := modFin fp32 e.mode.fpm false false y
        let z := op e u.1 w.1
        (z.1, z.2 ||| u.2 ||| w.2)
      let q := treeFold node 5 ((List.range (2 ^ (e.mode.part.toNat % 8))).map (leaf e n))
      x = q.1.getD 0 % 2 ^ 32 ∧ fl = q.2
    let int := fun (i : Instr) (P : VEnv → Nat → Nat → Prop) => Computes i one 8 d false s fun e n x fl => fl = 0 ∧ P e n x;
    (ty ≠ .f32 →
      int (.redtAdd c ty r d a) (fun e n x => x = ((mates e n).map fun m => (A e m).toNat).sum % 2 ^ 32) ∧
      int (.redtMin c ty r d a) (fun e n x => (∃ m ∈ mates e n, J x = I e m) ∧ ∀ m ∈ mates e n, J x ≤ I e m) ∧
      int (.redtMax c ty r d a) (fun e n x => (∃ m ∈ mates e n, J x = I e m) ∧ ∀ m ∈ mates e n, I e m ≤ J x)) ∧
    int (.redtAnd c ty r d a) (fun e n x => ∀ j, j < 32 → (x.testBit j = true ↔ ∀ m ∈ mates e n, (A e m).getLsbD j = true)) ∧
    int (.redtOr c ty r d a) (fun e n x => ∀ j, j < 32 → (x.testBit j = true ↔ ∃ m ∈ mates e n, (A e m).getLsbD j = true)) ∧
    int (.redtXor c ty r d a) (fun e n x => ∀ j, j < 32 →
      (x.testBit j = true ↔ ((mates e n).countP fun m => (A e m).getLsbD j) % 2 = 1)) ∧
    (ty = .f32 →
      f32 (.redtAdd c ty r d a) (fun e u w => fp32.sum (rndMode r e.mode.fpm) (flushOut e.mode.fpm fp32) [u, w]) ∧
      f32 (.redtMin c ty r d a) (fun e u w => pickRes fp32 false e.mode.fpm u w) ∧
      f32 (.redtMax c ty r d a) (fun e u w => pickRes fp32 true e.mode.fpm u w)) ∧
    Computes (.matchLanes c fp d a) one 8 d false s (fun e n x fl => fl = 0 ∧ ∀ m, m < 32 → (x.testBit m = true ↔
      Mates e n m ∧ (m = n ∨ if fp then (fp32.value (A e m).toNat).isNan = false ∧ (fp32.value (A e n).toNat).isNan = false ∧
        (fp32.value (A e m).toNat).cmp (fp32.value (A e n).toNat) = 0 else A e m = A e n))) ∧
    Computes (.voteBallot c d p neg) { dForm c d with preds := [p] } 8 d false s (fun e n x fl => fl = 0 ∧
      ∀ m, m < 32 → (x.testBit m = true ↔ Mates e n m ∧ Voted e p neg m))

namespace Sys2Proof.Says
open Sys2Proof Sys2Proof.Machine

/-! Shapes of the variable-latency statements. -/

/-- A slot of WSET is free: the instruction counts in none, or its slot is not full (R127). -/
def SlotFree (v : VForm) (s : State) : Prop := (v.env s).c.wset = 0 ∨ (v.env s).base.g.slotCount (v.env s).c.wset.toNat < 63

/-- No release half of an earlier fence of the vector slice is incomplete (R262). -/
def Unfenced (v : VForm) (s : State) : Prop := ∀ a ∈ (v.env s).base.g.accs, ¬(a.kind = .fence ∧ a.rel = true ∧ a.ctl = false)

/-- The instruction cannot issue in its cycle: nothing is done, and it tries again in the next, by which more results have landed (R122,
R127, R262). -/
def Held (i : Instr) (v : VForm) (s : State) : Prop :=
  exec i s = .next { (v.env s).base with g := { (v.env s).base.g with vnow := (v.env s).base.g.vnow + 1 } }

/-- The instruction issues: no fault of its sources or guards, room in its slot. -/
def Ready (v : VForm) (s : State) : Prop := (v.env s).bad = [] ∧ SlotFree v s

/-- A memory instruction issues: besides, no incomplete fence holds it. -/
def MemReady (v : VForm) (s : State) : Prop := Ready v s ∧ Unfenced v s

/-- A release of the vector slice at its current instruction, as far as what it answers for goes. -/
def relAt (e : VEnv) : Acc := { e.base.g.probe false .grp with stamp := e.base.stamp }

/-- A release of the vector slice may issue: no home holds an access that it would answer for (R80). -/
def VUnheld (e : VEnv) : Prop := e.base.g.firstHeld (relAt e) false = none

/-- A release halts its group instead: imprecisely, at the release, for an access that a home holds, with nothing done (R80). -/
def VBlamed (i : Instr) (e : VEnv) (s : State) : Prop :=
  ∀ x l, e.base.g.firstHeld (relAt e) false = some (x, l) → ∃ t r, exec i s = .next t ∧ Faulted r e.base t ∧ r.fr.imprec = true ∧
    r.fr.orig = 1 ∧ r.fr.code = (l.held.getD (0, 0)).1 ∧ r.fr.info = (l.held.getD (0, 0)).2 ∧ r.held = some x.stamp ∧
    r.fr.index = BitVec.ofNat 4 s.g.vpos.idx ∧ r.fr.clause = s.g.vpos.hdr.truncate 56 ∧ r.past = true

/-- The address of a lane: the pair that A names plus the sign-extended offset (R251). -/
def addrOf (e : VEnv) (off : BitVec 18) (n : Nat) : Word := BitVec.ofNat 64 (e.a.nat n) + off.signExtend 64

/-- The lanes of an access: every active lane, lowest first, with its address, its place, what it carries; nothing performed. -/
def lanesOf (e : VEnv) (va : Nat → Word) (L : Nat → Loc) (data cmp : Nat → Word) : List LaneAcc :=
  ((List.range 32).filter fun n => e.m.getLsbD n).map fun n =>
    { lane := n, va := va n, loc := L n, data := data n, cmp := cmp n, done := false, held := none }

/-- Every active lane's access meets no fault and is served at L n (R251, Table 97). -/
def Passes (e : VEnv) (va : Nat → Word) (w : Nat) (acc : BitVec 4) (fifo window : Bool) (L : Nat → Loc) : Prop :=
  ∀ n, e.m.getLsbD n = true → laneCheck e.base (va n) w acc ⟨fifo, window⟩ = .ok (L n)

/-- Some active lane reaches a FIFO bank. -/
def toFifo (e : VEnv) (L : Nat → Loc) : Bool := (List.range 32).any fun n => e.m.getLsbD n && isFifo (L n)

/-- An access of the vector slice joins the outstanding ones of the group. -/
def Carries (w u : State) (x : Acc) (e : VEnv) (width : Nat) (lanes : List LaneAcc) : Prop :=
  u.g = { w.g with accs := w.g.accs ++ [x], v := u.g.v } ∧ x.stamp = w.stamp ∧ x.ctl = false ∧ x.w = width ∧ x.lanes = lanes ∧
    x.mask = e.m ∧ x.wset = e.c.wset.toNat ∧ x.path = w.g.paths ∧ x.hint = e.c.hint ∧ x.clause = w.g.vpos.hdr.truncate 56 ∧
    x.index = w.g.vpos.idx ∧ x.epoch = (w.g.runnel.head?.map (·.epoch)).getD 0

/-- The same for an access of memory: nothing is performed, and nothing else changes but L1 lines, queues and TLBs and what walks read. -/
def Joins (w u : State) (x : Acc) (e : VEnv) (width : Nat) (lanes : List LaneAcc) : Prop :=
  Carries w u x e width lanes ∧ Walked x (w.withG { w.g with v := u.g.v }) u

/-- The same for what only counts in its wait slot, besides what the quad or the team keep of it: no other part of the machine changes. -/
def Counts (w u : State) (x : Acc) (e : VEnv) (width : Nat) (lanes : List LaneAcc) : Prop :=
  Carries w u x e width lanes ∧ u = { w with g := u.g, stamp := w.stamp + 1, teams := u.teams, quads := u.quads }

/-- The access returns its value to these names, under the bindings they have now. -/
def Returns (u : State) (x : Acc) (ds : List VReg) : Prop :=
  x.dst.names.map Prod.fst = ds ∧ ∀ rk ∈ x.dst.names, u.g.bindOf rk.1 = some rk.2

/-- What tells one vector load from another. -/
structure LoadForm where
  form : VForm
  off : BitVec 18
  w : Nat
  kind : AccKind
  fifo : Bool
  window : Bool
  acq : Bool
  sc : Scope
  ext : Option (Nat × Bool)

/-- The loads of Table 98: form, width, kind, where they may reach, order and scope, extension. -/
def loadOf : Instr → Option LoadForm
  | .ld c ty d a off =>
    let w := match ty with | .s8 | .n8 => 1 | .s16 | .n16 => 2 | .b32 => 4 | .b64 => 8
    some ⟨mForm c a none none none (destRegs d (ty == .b64)), off, w, .load, ty == .b32 || ty == .b64, true, false, .grp,
      some (8 * w, ty == .s8 || ty == .s16)⟩
  | .ldTurn c wide d a off =>
    some ⟨mForm c a none none none (destRegs d wide ++ [if wide then d + 2 else d + 1]), off, if wide then 8 else 4, .turn, false, false,
      false, .grp, none⟩
  | .ldAcq c wide sc d a off =>
    some ⟨mForm c a none none none (destRegs d wide), off, if wide then 8 else 4, .load, false, true, true, sc,
      some (if wide then 64 else 32, false)⟩
  | _ => none

/-- What tells one access that returns nothing from another: a store, a reduction, a deferred addition. -/
structure StoreForm where
  form : VForm
  off : BitVec 18
  w : Nat
  kind : AccKind
  acc : BitVec 4
  fifo : Bool
  window : Bool
  rel : Bool
  sc : Scope
  data : VEnv → VVal

/-- Bytes of an atomic type, and its signedness. -/
def atyOf : ATy → Nat × Bool
  | .s32 => (4, true) | .n32 => (4, false) | .s64 => (8, true) | .n64 => (8, false)

/-- A store: its data is in slot e. -/
def storeForm (c : VCtl) (wide : Bool) (d a : VSrc) (off : BitVec 18) (w : Nat) (fifo rel : Bool) (sc : Scope) : StoreForm :=
  ⟨mForm c a none none (some ⟨d, wide⟩) [], off, w, .store, 2, fifo, true, rel, sc, fun e => e.e⟩

/-- A reduction: its operand is B. -/
def redForm (c : VCtl) (op : AOp) (ty : ATy) (rel : Bool) (sc : Scope) (a b : VSrc) : StoreForm :=
  ⟨mForm c a (some ⟨b, (atyOf ty).1 == 8⟩) none none [], 0, (atyOf ty).1, .red op (atyOf ty).2, 3, false, true, rel, sc, fun e => e.b⟩

/-- Bytes of a deferred type. -/
def dtyOf : DTy → Nat
  | .f32 | .s32 => 4
  | .f16 | .bf16 | .s16 => 2
  | .s8 => 1

/-- The stores of Table 98, the reductions and the deferred reduction. -/
def storeOf : Instr → Option StoreForm
  | .st c w d a off => some (storeForm c (w == .b64) d a off (match w with | .b8 => 1 | .b16 => 2 | .b32 => 4 | .b64 => 8)
      (w == .b32 || w == .b64) false .grp)
  | .stRel c wide sc d a off => some (storeForm c wide d a off (if wide then 8 else 4) false true sc)
  | .redAdd c rel sc ty a b => some (redForm c .add ty rel sc a b)
  | .redMin c rel sc ty a b => some (redForm c .min ty rel sc a b)
  | .redMax c rel sc ty a b => some (redForm c .max ty rel sc a b)
  | .redAnd c rel sc ty a b => some (redForm c .and ty rel sc a b)
  | .redOr c rel sc ty a b => some (redForm c .or ty rel sc a b)
  | .redXor c rel sc ty a b => some (redForm c .xor ty rel sc a b)
  | .redAddF32 c rel sc a b =>
    some ⟨mForm c a (some ⟨b, false⟩) none none [], 0, 4, .red .addF32 false, 3, false, true, rel, sc, fun e => e.b⟩
  | .redDefer c ty a b =>
    some ⟨mForm c a (some ⟨b, false⟩) none none [], 0, dtyOf ty, .defer ty, 3, false, false, false, .pkg, fun e => e.b⟩
  | _ => none

/-- What tells one vector atomic from another. -/
structure AtomForm where
  op : AOp
  ty : Nat × Bool
  c : VCtl
  o : Order
  sc : Scope
  d : VReg
  a : VSrc
  b : VSrc
  x : Option VSrc

/-- Its form. -/
def AtomForm.form (f : AtomForm) : VForm :=
  mForm f.c f.a (some ⟨f.b, f.ty.1 == 8⟩) (f.x.map fun y => ⟨y, f.ty.1 == 8⟩) none (destRegs f.d (f.ty.1 == 8))

/-- The vector atomics. -/
def vatomOf : Instr → Option AtomForm
  | .atomAdd c o sc ty d a b => some ⟨.add, atyOf ty, c, o, sc, d, a, b, none⟩
  | .atomMin c o sc ty d a b => some ⟨.min, atyOf ty, c, o, sc, d, a, b, none⟩
  | .atomMax c o sc ty d a b => some ⟨.max, atyOf ty, c, o, sc, d, a, b, none⟩
  | .atomAnd c o sc ty d a b => some ⟨.and, atyOf ty, c, o, sc, d, a, b, none⟩
  | .atomOr c o sc ty d a b => some ⟨.or, atyOf ty, c, o, sc, d, a, b, none⟩
  | .atomXor c o sc ty d a b => some ⟨.xor, atyOf ty, c, o, sc, d, a, b, none⟩
  | .atomExch c o sc ty d a b => some ⟨.exch, atyOf ty, c, o, sc, d, a, b, none⟩
  | .atomCas c o sc ty d a b cc => some ⟨.cas, atyOf ty, c, o, sc, d, a, b, some cc⟩
  | .atomAddF32 c o sc d a b => some ⟨.addF32, (4, false), c, o, sc, d, a, b, none⟩
  | _ => none

/-- What checking the lanes of a memory instruction needs: its form, offset, width, ACC code, and where it may reach. -/
structure Access where
  form : VForm
  off : BitVec 18
  w : Nat
  acc : BitVec 4
  fifo : Bool
  window : Bool

/-- The memory instructions of the vector slice that check every active lane. -/
def memOf (i : Instr) : Option Access :=
  match loadOf i, storeOf i, vatomOf i with
  | some f, _, _ => some ⟨f.form, f.off, f.w, 1, f.fifo, f.window⟩
  | none, some f, _ => some ⟨f.form, f.off, f.w, f.acc, f.fifo, f.window⟩
  | none, none, some f => some ⟨f.form, 0, f.ty.1, 3, false, true⟩
  | none, none, none => none

/-- The form of a table read. -/
def tableOf : Instr → Option VForm
  | .q8t c _ d a b =>
    some { c := c, a := some ⟨a, false⟩, b := some ⟨b, false⟩, x := none, e := none, preds := [], dests := [d] }
  | .q8e c _ d a b cc =>
    some { c := c, a := some ⟨a, false⟩, b := some ⟨b, false⟩, x := some ⟨cc, false⟩, e := none, preds := [], dests := [d] }
  | _ => none

/-- The byte at which a token's table begins in its core's local SRAM, and whether the bank there is one of the team's in scratch mode
(Table 43, R237). -/
def tableByte (e : VEnv) : Nat := e.mode.qtab.toNat / 1024 % 256 * 1024
def Tabled (e : VEnv) (s : State) : Prop :=
  let mode := (smGet 0 (smGet Core.reset s.cores s.g.core).bankMode (tableByte e / 2 ^ 15)).toNat
  mode % 4 = 1 ∧ mode / 8 = s.team.slots.headD 0

/-- The tiles a matrix instruction names all exist, and their control registers meet Table 106 (R271, R276). -/
def Configured (e : VEnv) (ns : List TileNo) (fields : List Word → List Bool) : Prop :=
  let tseq := (e.base.g.runnel.head?.map (·.tseq)).getD e.base.g.tseq
  (∀ n ∈ ns, (e.base.tileReg n).isSome = true) ∧
    ∀ b ∈ fields ((ns.filterMap e.base.tileReg).map fun k => e.base.tileCtl k tseq), b = true

/-- None of them is in a state it may not be in (R20, R282). -/
def InState (e : VEnv) (ns : List TileNo) (bad : TileSt → Bool) : Prop :=
  ∀ k ∈ ns.filterMap e.base.tileReg, bad (smGet Tile.reset e.base.quad.tiles k).st = false

/-- No other group owns the engine (R191, R287). -/
def Unowned (e : VEnv) : Prop := e.base.quad.owner = none ∨ e.base.quad.owner = some (e.base.g.core, e.base.g.slot)

/-- A matrix instruction meets no fault of its own. -/
def MatrixMay (e : VEnv) (ns : List TileNo) (fields : List Word → List Bool) (bad : TileSt → Bool) : Prop :=
  Configured e ns fields ∧ InState e ns bad ∧ Unowned e

/-- What tells one matrix instruction from another: form, operation, tiles in the order D, A, B, C, its conditions of Table 106, the
vector register it writes. -/
structure MatForm where
  form : VForm
  op : MOp
  tiles : List TileNo
  fields : List Word → List Bool
  dest : Option VReg

/-- The matrix instructions that count in a wait slot. -/
def matrixOf : Instr → Option MatForm
  | .mma c ty r ra rb d a b k => some ⟨zForm c, .mma ty r ra rb k.toNat, [d, a, b], mmaFields ty k.toNat [d, a, b], none⟩
  | .mmaz c q4 ra rb d a b z => some ⟨zForm c, .mmaz q4 ra rb, [d, a, b, z], mmazFields q4 [d, a, b, z], none⟩
  | .sacc c r d a b cc => some ⟨zForm c, .sacc r, [d, a, b, cc], saccFields [d, a, b, cc], none⟩
  | .tmovToVector c d t j rb =>
    some ⟨{ zForm c with dests := [d] }, .toVector j.toNat rb.toNat, [t], tmovFields j.toNat rb.toNat, some d⟩
  | .tmovToTile c t a j rb =>
    some ⟨{ zForm c with a := some ⟨a, false⟩ }, .toTile j.toNat rb.toNat, [t], tmovFields j.toNat rb.toNat, none⟩
  | _ => none

/-- An entry joins the reservation table of the quad behind every other; the tiles' states aside, nothing else of any quad changes
(R272). -/
def Enters (w u : State) (e : VEnv) (op : MOp) (ns : List TileNo) (data : Lanes) : Prop :=
  (∃ n, u.quad = { w.quad with table := w.quad.table ++ [n], tiles := u.quad.tiles } ∧ n.op = op ∧
    n.tiles = ns.filterMap w.tileReg ∧ n.mask = e.m ∧ n.fpm = e.mode.fpm ∧ (n.core, n.slot, n.team) = (w.g.core, w.g.slot, w.g.team) ∧ n.passed = 0 ∧
    n.data = data ∧ n.cfg = (ns.filterMap w.tileReg).map fun k => w.tileCtl k ((w.g.runnel.head?.map (·.tseq)).getD w.g.tseq)) ∧
  ∀ q, q ≠ quadOfCore w.g.core → smGet Quad.reset u.quads q = smGet Quad.reset w.quads q

/-- The access waits at its rendezvous slot behind those that arrived before; no other slot and no other team changes (R246). -/
def JoinsSlot (w u : State) (recv : Bool) (k : Nat) (stamp : Nat) : Prop :=
  let old := smGet Rdv.reset w.team.rdv k
  let new := smGet Rdv.reset u.team.rdv k
  (if recv then new.recv = old.recv ++ [(w.g.slot, stamp)] ∧ new.send = old.send
  else new.send = old.send ++ [(w.g.slot, stamp)] ∧ new.recv = old.recv) ∧
    (∀ j, j ≠ k → smGet Rdv.reset u.team.rdv j = smGet Rdv.reset w.team.rdv j) ∧ u.team = { w.team with rdv := u.team.rdv } ∧
    ∀ t, t ≠ w.g.team → smGet Team.reset u.teams t = smGet Team.reset w.teams t

end Sys2Proof.Says
open Sys2Proof Sys2Proof.Machine Sys2Proof.Says

/-! ## Variable-latency vector instructions -/

/-- A memory instruction of the vector slice: a full wait slot holds it, and so does an incomplete fence, with nothing done but what its
cycle lands. A fault of a source, and one of a lane, is taken with the lowest code among them, with nothing done: the record names
every lane that met that code, and the address of the lowest of them; where a poisoned sector refuses it, the entries of that lane's row
merge as its arrival at the home fixes (R77, R348). Under a zero mask no access is made, only the sources can fault,
and only the wait slot counts the instruction. A table read faults TARGET_BAD, whatever its mask, unless its bank is one of its team's in
scratch mode (R5, R74, R127, R237, R251, R262). That sources are checked under a zero mask too is the model's choice
(notes/assumptions/18.md). -/
def Obligations.VectorMemoryHoldsAndFaults : Prop :=
  (∀ (i : Instr) (f : Access) (s : State), memOf i = some f →
    let e := f.form.env s
    let w := f.form.start s
    let chk := fun n => laneCheck e.base (addrOf e f.off n) f.w f.acc ⟨f.fifo, f.window⟩
    (¬SlotFree f.form s ∨ ¬Unfenced f.form s → Held i f.form s) ∧
    (SlotFree f.form s → Unfenced f.form s →
      (e.m = 0 → ∀ b, lowest e.bad = some b →
        ∃ t, exec i s = .next t ∧ VectorFault b.code b.lanes b.acc b.addr b.info e.base t) ∧
      (e.m = 0 → e.bad = [] → e.c.wset = 0 → exec i s = .next (vdone e w)) ∧
      (e.m = 0 → e.bad = [] → e.c.wset ≠ 0 → ∃ u x, exec i s = .next (vdone e u) ∧ Counts w u x e 0 [] ∧ x.kind = .zeroMask ∧
        x.dst = .none ∧ u.teams = s.teams ∧ u.quads = s.quads) ∧
      (∀ b, lowest e.bad = some b → (∀ n c j, e.m.getLsbD n = true → chk n = .bad c j → b.code.toNat < c.toNat) →
        ∃ t, exec i s = .next t ∧ VectorFault b.code b.lanes b.acc b.addr b.info e.base t) ∧
      (∀ n c j, e.m.getLsbD n = true → chk n = .bad c j → (∀ b ∈ e.bad, c.toNat ≤ b.code.toNat) →
        (∀ k c' j', e.m.getLsbD k = true → chk k = .bad c' j' → c.toNat < c'.toNat ∨ (c' = c ∧ n ≤ k)) →
        ∃ t lanes, exec i s = .next t ∧ VectorFault c lanes f.acc ((addrOf e f.off n).truncate 56) j (refusedRow c j e.base) t ∧
          ∀ k, lanes.getLsbD k = true ↔ e.m.getLsbD k = true ∧ ∃ j', chk k = .bad c j'))) ∧
  (∀ (i : Instr) (v : VForm) (s : State), tableOf i = some v →
    let e := v.env s
    (¬SlotFree v s → Held i v s) ∧
    (SlotFree v s → ¬Tabled e s → ∃ t, exec i s = .next t ∧ VectorFault 0x03 e.m 0 0 e.mode.qtab e.base t) ∧
    (SlotFree v s → Tabled e s → ∀ b, lowest e.bad = some b →
      ∃ t, exec i s = .next t ∧ VectorFault b.code b.lanes b.acc b.addr b.info e.base t) ∧
    (SlotFree v s → Tabled e s → e.bad = [] → e.m = 0 →
      (e.c.wset = 0 → exec i s = .next (vdone e (v.start s))) ∧
      (e.c.wset ≠ 0 → ∃ u x, exec i s = .next (vdone e u) ∧ Counts (v.start s) u x e 0 [] ∧ x.kind = .zeroMask)))

/-- A vector load, and `ld.turn` and `ld.acq`, every active lane of which meets no fault, binds its destination and issues: it becomes
outstanding with its lanes and returns to the names it has bound; a load that a FIFO bank serves is a pop, an acquire at cluster scope.
When its names cannot be bound nothing is done, and the group stalls and gives up its pipe (R205, R208, R251, R253, R255, R256, R317). -/
def Obligations.VectorLoadsIssue : Prop :=
  ∀ (i : Instr) (f : LoadForm) (s : State) (L : Nat → Loc), loadOf i = some f → MemReady f.form s →
    let e := f.form.env s
    let w := f.form.start s
    let names := f.form.dests.map fun r => ((r, e.m, none) : NameWrite)
    e.m ≠ 0 → Passes e (addrOf e f.off) f.w 1 f.fifo f.window L →
    ((bindAll e.base e.born names w).isSome = true → ∃ u x, exec i s = .next (vdone e u) ∧
      Joins w u x e f.w (lanesOf e (addrOf e f.off) L (fun _ => 0) (fun _ => 0)) ∧ Returns u x f.form.dests ∧
      x.kind = (if toFifo e L then .fifoPop else f.kind) ∧ x.acq = (f.acq || toFifo e L) ∧ x.rel = false ∧
      x.scope = (if toFifo e L then .clu else f.sc) ∧
      (∀ r, r ∉ f.form.dests → u.g.name r = w.g.name r) ∧
      ∀ bits sg, f.ext = some (bits, sg) → ∃ r b0 b1 wd, x.dst = .v r b0 b1 wd bits sg) ∧
    (bindAll e.base e.born names w = none → ∃ t, exec i s = .next t ∧ t.g.accs = s.g.accs ∧ t.g.vpos = { s.g.vpos with
      pipe := none, resumed := t.g.vpos.resumed } ∧ t.g.stall = some (e.born, needBanks names w) ∧ OnlyGroup s t)

/-- A vector store, a reduction and a deferred reduction every active lane of which meets no fault completes at issue: it becomes
outstanding with its lanes and their data. A store to a FIFO bank is a push, a release at cluster scope at least. A release issues when no
home holds an access that it would answer for, and otherwise halts its group for that access (R55, R80, R250, R254, R255, R257, R258,
R259, R260, R317). -/
def Obligations.VectorStoresIssue : Prop :=
  ∀ (i : Instr) (f : StoreForm) (s : State) (L : Nat → Loc), storeOf i = some f → MemReady f.form s →
    let e := f.form.env s
    let push := toFifo e L && f.kind == .store
    e.m ≠ 0 → Passes e (addrOf e f.off) f.w f.acc f.fifo f.window L →
    ((f.rel || push) = true → VBlamed i e s) ∧
    (((f.rel || push) = true → VUnheld e) → ∃ u x, exec i s = .next (vdone e u) ∧
      Joins (f.form.start s) u x e f.w (lanesOf e (addrOf e f.off) L (fun n => BitVec.ofNat 64 ((f.data e).nat n)) (fun _ => 0)) ∧
      u.g.v = (f.form.start s).g.v ∧ x.kind = (if push then .fifoPush else f.kind) ∧ x.dst = .none ∧ x.acq = false ∧
      x.rel = (f.rel || push) ∧
      x.scope = (if push && !(f.rel && (f.sc == .clu || f.sc == .die || f.sc == .pkg || f.sc == .sys)) then .clu else f.sc))

/-- A vector atomic every active lane of which meets no fault binds its destination and becomes outstanding with its operands, when no
home holds an access that its release half would answer for; `q8t` and `q8e` do so for their table reads of the scratch bank of their
team (R80, R108, R235, R236, R237, R257, R258). -/
def Obligations.VectorAtomicsAndTablesIssue : Prop :=
  (∀ (i : Instr) (f : AtomForm) (s : State) (L : Nat → Loc), vatomOf i = some f → MemReady f.form s →
    let e := f.form.env s
    e.m ≠ 0 → Passes e (addrOf e 0) f.ty.1 3 false true L → Room f.form s →
    (f.o = .rel ∨ f.o = .ar → VBlamed i e s) ∧
    ((f.o = .rel ∨ f.o = .ar → VUnheld e) → ∃ u x, exec i s = .next (vdone e u) ∧
      Joins (f.form.start s) u x e f.ty.1 (lanesOf e (addrOf e 0) L (fun n => BitVec.ofNat 64 (e.b.nat n))
        (fun n => BitVec.ofNat 64 (e.x.nat n))) ∧ Returns u x (destRegs f.d (f.ty.1 == 8)) ∧
      (∀ r, r ∉ f.form.dests → u.g.name r = (f.form.start s).g.name r) ∧
      x.kind = .atom f.op f.ty.2 ∧ x.acq = (f.o == .acq || f.o == .ar) ∧ x.rel = (f.o == .rel || f.o == .ar) ∧ x.scope = f.sc)) ∧
  (∀ (i : Instr) (v : VForm) (s : State), tableOf i = some v → Ready v s →
    let e := v.env s
    Tabled e s → e.m ≠ 0 → Room v s → ∃ u x, exec i s = .next (vdone e u) ∧ Returns u x v.dests ∧
      (∀ c h d a b, i = .q8t c h d a b → x.kind = .qtab false h.toNat e.mode.fpm ∧
        let at_ := fun n => tableByte e + 4 * (e.a.nat n / 2 ^ (8 * h.toNat) % 256)
        Joins (v.start s) u x e 4 (lanesOf e (fun n => BitVec.ofNat 64 (at_ n)) (fun n => .sram (s.g.core * 2 ^ 18 + at_ n))
          (fun n => BitVec.ofNat 64 (e.b.nat n)) (fun _ => 0))) ∧
      (∀ c h d a b cc, i = .q8e c h d a b cc → x.kind = .qtab true h.toNat e.mode.fpm ∧
        Joins (v.start s) u x e 1024 (lanesOf e (fun _ => BitVec.ofNat 64 (tableByte e + 0))
          (fun _ => .sram (s.g.core * 2 ^ 18 + (tableByte e + 0))) (fun n => BitVec.ofNat 64 (e.a.nat n + 2 ^ 32 * e.x.nat n))
          (fun n => BitVec.ofNat 64 (e.b.nat n)))))

/-- The fences of the vector slice, `fence.d` and `prefetch`, whatever their mask, and `nop`. A fence whose halves have nothing to wait
for completes as it issues, one that has is outstanding; a release half first answers for what a home holds; a complete acquire half
leaves an L1 of its core empty at cluster scope and wider. `fence.d` marks its place among the slice's accesses. A prefetch raises no
fault, whatever its addresses, and leaves its group, scratch memory and the owners of pages alone, and memory's bytes but for what a read
merges or decrypts. A full wait slot holds a fence, an incomplete earlier fence a fence and a prefetch. `nop` does nothing. Past an
instruction the slice goes to the next of its clause after 2 + STALL cycles, gives up its pipe at the end of the clause, and goes to the
following clause when its header does not close the block (R58, R60, R78, R80, R113, R122, R129, R203, R261, R262, R263). -/
def Obligations.FencesAndAdvance : Prop :=
  (∀ (c : VCtl) (sc : Scope) (s : State), let e := (zForm c).env s
    let w := (zForm c).start s
    ∀ p ∈ [(Instr.vectorFence c sc, true, true), (.vectorFenceAcq c sc, true, false), (.vectorFenceRel c sc, false, true)],
    let a := e.acc w .fence 0 [] .none p.2.1 p.2.2 sc
    let now := fencesDone w.g a && fenceOpen w w.g a
    (¬SlotFree (zForm c) s ∨ ¬Unfenced (zForm c) s → Held p.1 (zForm c) s) ∧
    (MemReady (zForm c) s →
      (p.2.2 = true → VBlamed p.1 e s) ∧
      ((p.2.2 = true → VUnheld e) →
        (now = false → exec p.1 s = .next (vdone e { w with stamp := s.stamp + 1, g := { w.g with accs := w.g.accs ++ [a] } })) ∧
        (now = true → ∃ u, exec p.1 s = .next (vdone e u) ∧ u = { w with g := u.g, cores := u.cores, stamp := s.stamp + 1 } ∧
          u.g = { w.g with accs := w.g.accs.filter fun x => x.stamp != s.stamp
                           acquired := if p.2.1 then s.stamp + 1 else w.g.acquired } ∧
          (∀ n, smGet Core.reset u.cores n = { smGet Core.reset s.cores n with l1 := (smGet Core.reset u.cores n).l1 }) ∧
          (p.2.1 = true → sc ≠ .grp → sc ≠ .team → (smGet Core.reset u.cores s.g.core).l1 = []))))) ∧
  (∀ (c : VCtl) (s : State), (¬SlotFree (zForm c) s ∨ ¬Unfenced (zForm c) s → Held (.fenceD c) (zForm c) s) ∧
    (MemReady (zForm c) s → ∃ u, exec (.fenceD c) s = .next (vdone ((zForm c).env s) u) ∧
      u = { (zForm c).start s with g := { ((zForm c).start s).g with fenceD := s.g.fenceD ++ [s.stamp] } })) ∧
  (∀ (c : VCtl) (a : VSrc) (off : BitVec 18) (s : State), let v := mForm c a none none none []
    (¬Unfenced v s → Held (.prefetch c a off) v s) ∧
    (Unfenced v s → ∃ u, exec (.prefetch c a off) s = .next (vdone (v.env s) u) ∧ u.g = (v.start s).g ∧ u.others = s.others ∧
      u.sram = s.sram ∧ u.host = s.host ∧ u.teams = s.teams ∧ u.clusters = s.clusters ∧ u.owners = s.owners ∧ u.coll = s.coll ∧
      u.mgmt = s.mgmt ∧ (Quiet s → (∀ k, smGet none s.mgmt.keySlots k = none) → SameMemory s u))) ∧
  (∀ (st : BitVec 3) (s : State), ∃ u e, exec (.vectorNop st) s = .next (vdone e u) ∧ u = { s with g := s.g.landBy s.g.vnow } ∧
    e.t = s.g.vnow ∧ e.c.stall = st) ∧
  (∀ (e : VEnv) (u : State),
    (u.g.vpos.idx < u.g.vpos.n → vdone e u = { u with stamp := u.stamp + 1, g := { u.g with
      vnow := e.t + 2 + e.c.stall.toNat, stall := none, vpos := { u.g.vpos with idx := u.g.vpos.idx + 1, resumed := true } } }) ∧
    (u.g.vpos.n ≤ u.g.vpos.idx → (vdone e u).g.latch = [] ∧ SameMemory u (vdone e u) ∧ (vdone e u).stamp = u.stamp + 1 ∧
      (∀ p, u.g.vpos.pipe = some p → smGet none (smGet Core.reset (vdone e u).cores u.g.core).pipe p = none) ∧
      (∀ h hd rest, u.g.vpos.code = h :: rest → decodeHeader h = some hd → hd.blkEnd = false →
        (vdone e u).g.vpos.hdr = u.g.vpos.hdr + 8 * (BitVec.ofNat 64 u.g.vpos.n + 2) ∧ (vdone e u).g.vpos.idx = 0 ∧
        (vdone e u).g.vpos.pipe = none ∧ (vdone e u).g.pend = u.g.pend ∧ (vdone e u).g.runnel = u.g.runnel)))

/-- `xsend` takes its active lanes as they stand at issue and waits at its slot, as `xrecv` does, whatever their masks; `rput` becomes
outstanding with its descriptor and its active lanes, a release at cluster scope, which first answers for what a home holds. A
descriptor with a bit above 22, a position or a group that does not exist, or an odd register for a pair, faults TARGET_BAD with INFO
the descriptor. A full wait slot holds each (R80, R127, R246, R247, R248, R249, R266). -/
def Obligations.RendezvousAndPuts : Prop :=
  ∀ (c : VCtl) (slot : BitVec 4) (wide : Bool) (d : VReg) (a : VSrc) (k : BitVec 6) (s : State),
    let one : VForm := { zForm c with a := some ⟨a, wide⟩ }
    let e := one.env s
    let w := one.start s
    let carry := lanesOf e (fun _ => 0) (fun _ => .capa 0) (fun n => BitVec.ofNat 64 (e.a.nat n)) (fun _ => 0)
    let ds := s.g.readK k
    let pos := (ds.extractLsb' 16 4).toNat
    let cl := smGet Cluster.reset s.clusters s.team.cluster
    let tm := smGet Team.reset s.teams (cl.teams.getD pos 0)
    let good := ds.extractLsb' 23 9 = 0 ∧ pos < cl.cw * cl.ch ∧ (ds.extractLsb' 11 5).toNat < tm.slots.length ∧
      (wide = true → ds.getLsbD 0 = false);
    (¬SlotFree one s → Held (.xsend c slot wide a) one s ∧ Held (.rput c wide a k) one s) ∧
    (¬SlotFree (zForm c) s → Held (.xrecv c slot wide d) (zForm c) s) ∧
    (Ready one s → ∃ u x, exec (.xsend c slot wide a) s = .next (vdone e u) ∧ Counts w u x e (if wide then 8 else 4) carry ∧
      x.kind = .xsend slot.toNat ∧ x.dst = .none ∧ u.g.v = w.g.v ∧ u.quads = s.quads ∧ JoinsSlot w u false slot.toNat s.stamp) ∧
    (Ready (zForm c) s → ∃ u x, exec (.xrecv c slot wide d) s = .next (vdone ((zForm c).env s) u) ∧
      Counts ((zForm c).start s) u x ((zForm c).env s) (if wide then 8 else 4) [] ∧ x.kind = .xrecv slot.toNat ∧
      x.dst = .recv d wide ∧ u.g.v = ((zForm c).start s).g.v ∧ u.quads = s.quads ∧
      JoinsSlot ((zForm c).start s) u true slot.toNat s.stamp) ∧
    (Ready one s → good → VBlamed (.rput c wide a k) e s ∧ (VUnheld e → ∃ u x, exec (.rput c wide a k) s = .next (vdone e u) ∧
      Counts w u x e (if wide then 8 else 4) carry ∧ x.kind = .rput ds ∧ x.dst = .none ∧ x.rel = true ∧ x.scope = .clu ∧
      u.g.v = w.g.v ∧ u.teams = s.teams ∧ u.quads = s.quads)) ∧
    (SlotFree one s → ¬good → ∃ t, exec (.rput c wide a k) s = .next t ∧ VectorFault 0x03 e.m 0 0 (ds.zeroExtend 64) e.base t)

/-- A matrix instruction that may issue and finds room in the table enters it, and its wait slot counts it; `tzero` enters it and makes
its tile ready at once. With a full table the group waits and keeps its pipe. Under a zero mask no entry is made. A tile that is not in
the team faults TARGET_BAD, one whose control register does not meet Table 106 too, one that is not ready TILE_STATE, another's
ownership MATRIX_OWNER, with INFO the first such tile number or the owner's slot (R19, R20, R74, R271, R272, R276, R282, R283, R287). -/
def Obligations.MatrixInstructionsEnter : Prop :=
  (∀ (i : Instr) (f : MatForm) (s : State), matrixOf i = some f →
    let e := f.form.env s
    let w := f.form.start s
    let may := MatrixMay e f.tiles f.fields (· != .ready)
    let faults := fun (code : BitVec 8) (info : Word) => ∃ t, exec i s = .next t ∧ VectorFault code e.m 0 0 info e.base t;
    (¬SlotFree f.form s → Held i f.form s) ∧
    (Ready f.form s →
      (may → e.m ≠ 0 → w.quad.table.length < 32 → Room f.form s →
        ∃ u x, exec i s = .next (vdone e u) ∧ Counts w u x e 0 [] ∧ x.kind = .matrix ∧ Enters w u e f.op f.tiles e.a.lo ∧
          u.quad.tiles = w.quad.tiles ∧ u.teams = s.teams ∧ Returns u x f.dest.toList ∧
          ∀ r, r ∉ f.dest.toList → u.g.name r = w.g.name r) ∧
      (may → e.m ≠ 0 → 32 ≤ w.quad.table.length → Held i f.form s) ∧
      (may → e.m = 0 → e.c.wset = 0 → exec i s = .next (vdone e w)) ∧
      (may → e.m = 0 → e.c.wset ≠ 0 → ∃ u x, exec i s = .next (vdone e u) ∧ Counts w u x e 0 [] ∧ x.kind = .zeroMask ∧
        u.quads = s.quads ∧ u.teams = s.teams)) ∧
    (SlotFree f.form s →
      (∀ n pre post, f.tiles = pre ++ n :: post → e.base.tileReg n = none → (∀ m ∈ pre, e.base.tileReg m ≠ none) →
        faults 0x03 (n.zeroExtend 64)) ∧
      ((∀ n ∈ f.tiles, (e.base.tileReg n).isSome = true) → ∀ j, firstFail (f.fields ((f.tiles.filterMap e.base.tileReg).map fun k =>
          e.base.tileCtl k ((e.base.g.runnel.head?.map (·.tseq)).getD e.base.g.tseq))) = some j →
        faults 0x03 ((f.tiles.getD j 0).zeroExtend 64)) ∧
      (Ready f.form s → Configured e f.tiles f.fields → ∀ n pre post, f.tiles = pre ++ n :: post →
        (∀ k, e.base.tileReg n = some k → (smGet Tile.reset e.base.quad.tiles k).st ≠ .ready) →
        (∀ m ∈ pre, ∀ k, e.base.tileReg m = some k → (smGet Tile.reset e.base.quad.tiles k).st = .ready) →
        faults 0x10 (n.zeroExtend 64)) ∧
      (Ready f.form s → Configured e f.tiles f.fields → InState e f.tiles (· != .ready) → ∀ p, e.base.quad.owner = some p →
        p ≠ (e.base.g.core, e.base.g.slot) → faults 0x11 (BitVec.ofNat 64 p.2)))) ∧
  (∀ (c : VCtl) (d : TileNo) (s : State), let e := (zForm c).env s
    let w := (zForm c).start s
    let faults := fun (code : BitVec 8) (info : Word) => ∃ t, exec (.tzero c d) s = .next t ∧ VectorFault code e.m 0 0 info e.base t;
    e.bad = [] →
    (∀ k, e.base.tileReg d = some k → Unowned e → (smGet Tile.reset e.base.quad.tiles k).st ≠ .filling →
      (smGet Tile.reset e.base.quad.tiles k).st ≠ .draining →
      (e.m ≠ 0 → w.quad.table.length < 32 → ∃ u, exec (.tzero c d) s = .next (vdone e u) ∧ Enters w u e .tzero [d] 0 ∧
        u = { w with quads := u.quads } ∧
        u.quad.tiles = smUpd Tile.reset w.quad.tiles k fun x => { x with st := .ready }) ∧
      (e.m ≠ 0 → 32 ≤ w.quad.table.length → Held (.tzero c d) (zForm c) s) ∧
      (e.m = 0 → exec (.tzero c d) s = .next (vdone e w))) ∧
    (e.base.tileReg d = none → faults 0x03 (d.zeroExtend 64)) ∧
    (∀ k, e.base.tileReg d = some k → ((smGet Tile.reset e.base.quad.tiles k).st = .filling ∨
      (smGet Tile.reset e.base.quad.tiles k).st = .draining) → faults 0x10 (d.zeroExtend 64)) ∧
    (∀ k p, e.base.tileReg d = some k → (smGet Tile.reset e.base.quad.tiles k).st ≠ .filling →
      (smGet Tile.reset e.base.quad.tiles k).st ≠ .draining → e.base.quad.owner = some p → p ≠ (e.base.g.core, e.base.g.slot) →
      faults 0x11 (BitVec.ofNat 64 p.2)))

namespace Sys2Proof.Says
open Sys2Proof Sys2Proof.Machine

/-! Shapes of the statements about commands and events. -/

/-- The head of the runnel is a token of this kind, which the vector slice may take (R28). -/
def Head (g : Group) (k : TokKind) : Prop :=
  g.live = true ∧ g.halted = false ∧ g.vpos.begun = false ∧ ∃ t rest, g.runnel = t :: rest ∧ t.kind = k

/-- The head token has finished, leaving the group at h (R28, R123). -/
def Finished (s t : State) (h : Group) : Prop :=
  t = { s with stamp := s.stamp + 1, g := { h with runnel := s.g.runnel.tail, vpos := VPos.reset, latch := [] } }

/-- The access with this stamp. -/
def accAt (s : State) (stamp : Nat) : Option Acc := s.g.accs.find? fun a => a.stamp == stamp

/-- Nothing at the homes stands between memory and what an access of these bytes sees: no deferred addition, no stale row, no
poisoned sector, the lines under this key. -/
def Settled (s : State) (pa n key : Nat) : Prop :=
  Quiet s ∧ (∀ k ∈ linesOf pa n, smGet 0 s.lineKey k = key) ∧ ∀ k, smGet false s.poison k = false

/-- A write of this side may be performed there: its side owns the page, as the home of the place holds its entry, or the page lies in no
window, the row is no derived row, and no copyout is pending (R370, R375, R387, R390). -/
def Writable (s : State) (side : Bool) (pa : Nat) : Prop :=
  (inWindow s pa = false ∨ (homeOwner s pa).token = side) ∧ (Machine.rowAt s (Machine.rowOf pa)).rule = none ∧
    (Machine.rowAt s (Machine.rowOf pa)).copyout = none

/-- The lane of this number of this access, the only one of its number: the orders of its slice let it go on, and its address stands as it
was checked (R55, R56, R80, R314). -/
def Lane1 (s : State) (stamp lane : Nat) (a : Acc) (l : LaneAcc) : Prop :=
  accAt s stamp = some a ∧ a.stamp = stamp ∧ (a.lanes.filter fun k => k.lane == lane) = [l] ∧ l.lane = lane ∧
    setLane stamp l s = s ∧ l.open_ = true ∧ accEnabled s s.g a = true ∧ laneEnabled s s.g a l = true ∧
    renewLane s a l = l

/-- No access stands that has used a translation: a lane still to be performed that no home holds, or rows of a registering rule that
its registration has not all reached (R329, R335, R367). -/
def Unused (s : State) : Prop :=
  (∀ h ∈ s.g :: s.others, h.live = true → ∀ a ∈ h.accs, ∀ l ∈ a.lanes, l.open_ = true → l.retry = true ∨ ∀ pa key, l.loc ≠ .dram pa key) ∧
    ∀ b ∈ s.basins, ∀ c ∈ b.2.ctx, ∀ k ∈ c.2.cmds, k.w.cmd = 6 → k.started = true → k.fin = none → k.regDone = true

/-- A mapping is one write of some bytes within 256, in a row that no rule derives from and no copyout holds. -/
def OneWrite (m : Mapping) (w : MapWrite) (s : State) : Prop :=
  m.writes = [w] ∧ 1 ≤ w.bytes.length ∧ w.pa % 256 + w.bytes.length ≤ 256 ∧ Settled s w.pa w.bytes.length w.key ∧
    (Machine.rowAt s (Machine.rowOf w.pa)).deps = [] ∧ (Machine.rowAt s (Machine.rowOf w.pa)).copyout = none

/-- The write of a mapping is made, and no other byte of memory changes. -/
def Mapped (w : MapWrite) (s t : State) : Prop :=
  t.sram = s.sram ∧ ∀ a, smGet 0 t.dram a = smGet 0 (smWrite s.dram w.pa w.bytes) a

/-- What an atomic of w bytes leaves and whether it writes (Table 73). -/
def table73 (op : AOp) (signed : Bool) (w old b c : Nat) : Nat × Bool :=
  let num := fun (x : Nat) => if signed = true ∧ 2 ^ (8 * w - 1) ≤ x then (x : Int) - 2 ^ (8 * w) else (x : Int)
  match op with
  | .add => ((old + b) % 2 ^ (8 * w), true)
  | .min => (if num old ≤ num b then old else b, true)
  | .max => (if num b ≤ num old then old else b, true)
  | .and => (Nat.land old b, true)
  | .or => (Nat.lor old b, true)
  | .xor => (Nat.xor old b, true)
  | .exch => (b, true)
  | .cas => (b, decide (old = c))
  | .addF32 => ((fp32.sum .rne false [fp32.value old, fp32.value b]).1, true)

/-- The value of a result as its register's bits: the low bits as a number of the result's sign, as 64 bits. -/
def extended (bits : Nat) (signed : Bool) (v : Nat) : Word := BitVec.ofInt 64 (toInt bits signed (v % 2 ^ 64))

/-- A bind of the group waits in a bank that has no register for it: at its stalled instruction, or at an arrival of a rendezvous that it
receives (R208, R437). -/
def Starving (s : State) (h : Group) : Prop :=
  ∃ p ∈ h.stall.toList ++ h.arrivals.map (fun a => (a.born, a.banks)), ∃ b ∈ p.2, canBind s h.core h.team b = false

/-- When the binds of a group that wait began. -/
def births (h : Group) : List Nat := h.stall.toList.map (·.1) ++ h.arrivals.map (·.born)

/-- A group blocked at a barrier, an `await` or a rendezvous: its control slice waits there, or has exited, and its vector slice has nothing
to run, or waits at its clause for halves of rendezvous alone (R209, R246). -/
def Meeting (s : State) (h : Group) : Prop :=
  h.halted = false ∧ h.stall = none ∧ h.arrivals = [] ∧ h.vpos.pipe = none ∧ ∃ u, focusOn (some (h.core, h.slot)) s = some u ∧ u.g = h ∧
    let waits := (∃ b ph, h.block = .bar b ph ∧ (smGet Barrier.reset u.team.bars b).phase = ph) ∨
      (∃ b ph, h.block = .cbarArr b ph ∧ (u.cbar b).1 = ph) ∨
      (∃ b v, h.block = .cbarWait b v ∧ reached32 (BitVec.ofNat 32 (u.cbar b).1) v = false) ∨
      (∃ n v, h.block = .awaitCtr n v ∧ reached32 (smGet 0 h.a n) v = false)
    let idle := h.vpos.begun = false ∧ h.runnel = []
    let pairs := h.vpos.begun = true ∧ h.vpos.resumed = false ∧ ∃ c ws hd j, h.vpos.code = c :: ws ∧ decodeHeader c = some hd ∧ j < 6 ∧
      hd.wait.getLsbD j = true ∧ h.slotCount (j + 1) ≠ 0 ∧
      ∀ a ∈ h.accs, ∀ i, i < 6 → hd.wait.getLsbD i = true → a.wset = i + 1 → a.isHeld = false ∧ ∃ k, a.kind = .xsend k ∨ a.kind = .xrecv k
    (waits ∨ h.exited = true) ∧ (waits ∧ idle ∨ pairs)

/-- A group of the core may take the pipe (R201, R203, R208). -/
def PipeReady (s : State) (pipe : Nat) (h : Group) : Prop := ∃ t, focusOn (some (h.core, h.slot)) s = some t ∧ vecReady pipe t = true

/-- The resolutions of Table 31 for a record; a wait trap is continued or terminated (R76), a discard needs a held operation (R81). -/
def actionsOf (r : HaltRec) : List Action :=
  if r.wait then [.continue, .terminate]
  else if r.fr.code = 0x05 ∨ 0x0C ≤ r.fr.code.toNat ∧ r.fr.code.toNat ≤ 0x0F ∨ 0x13 ≤ r.fr.code.toNat ∧ r.fr.code.toNat ≤ 0x16 then
    [.continue, .terminate]
  else if r.fr.code = 0x06 then [.replay]
  else if r.fr.code = 0x08 ∨ r.fr.code = 0x09 ∨ r.fr.code = 0x10 ∨ r.fr.code = 0x11 then [.replay, .terminate]
  else if r.fr.code = 0x0A ∨ r.fr.code = 0x0B then (if r.held.isSome then [.discard, .terminate] else [.terminate])
  else [.terminate]

/-- The codes that the firmware as shipped takes to the host: five always, NOT_OWNER and DERIVED_WRITE under POL 2 (R425). -/
def AsksHost (pol : Nat) (c : BitVec 8) : Prop := c ∈ [0x08#8, 0x09, 0x13, 0x14, 0x16] ∨ (c ∈ [0x0A#8, 0x0B] ∧ pol = 2)

/-- The most recently placed team of the record's core has been saved since the trap, or the core has no team left (R425). -/
def Relieved (r : HaltRec) (s : State) : Prop :=
  (smGet Core.reset s.cores r.fr.core.toNat).relieved = true ∨
    ∀ p ∈ s.teams, p.2.core = r.fr.core.toNat → p.2.alive = false

/-- The firmware as shipped resolves a record so by itself: NOT_OWNER and DERIVED_WRITE as POL says, REGS_EXHAUSTED by a replay, once the
core's most recently placed team is saved, every other code by terminating (R425). -/
def ByFirmware (pol : Nat) (r : HaltRec) (a : Action) (s : State) : Prop :=
  a ∈ actionsOf r ∧ ¬AsksHost pol r.fr.code ∧ (r.fr.code = 0x06 → Relieved r s) ∧
    (r.fr.code = 0x0A ∨ r.fr.code = 0x0B →
      (pol = 0 ∧ a = if r.held.isSome then .discard else .continue) ∨ (pol ≠ 0 ∧ a = .terminate)) ∧
    (r.fr.code ≠ 0x0A → r.fr.code ≠ 0x0B → a = if r.fr.code = 0x06 then .replay else .terminate)

/-- What an action does to a group whose one record is r, in state s (R76, R78, R80, R81, R329). -/
def Acts (vec : Bool) (r : HaltRec) (a : Action) (s t : State) : Prop :=
  SameMemory s t ∧
  (a = .replay → t.g = { s.g with recs := [], accs := s.g.accs.map fun x => if r.held = some x.stamp then
      { x with lanes := x.lanes.map fun l => if l.held.isSome then { l with held := none, retry := true, came := none } else l } else x }) ∧
  (a = .discard → t.g = { s.g with recs := [], accs := t.g.accs } ∧
    ∀ x ∈ t.g.accs, r.held = some x.stamp → ∀ l ∈ x.lanes, l.held = none) ∧
  (a = .continue → t.g.recs = [] ∧ t.g.x = s.g.x ∧ (r.held = none → t.g.accs = s.g.accs) ∧
    (r.past = true ∨ s.g.exited = true → t.g.pos = s.g.pos ∧ t.g.vpos = s.g.vpos) ∧
    (r.past = false → s.g.exited = false →
      (vec = false → t.g.pos = s.g.pos.next ∧ t.g.vpos = s.g.vpos ∧
        (r.wait = true → t.g.acquired = s.stamp ∧ (smGet Core.reset t.cores s.g.core).l1 = [])) ∧
      (vec = true → t.g.pos = s.g.pos ∧ (s.g.vpos.idx < s.g.vpos.n → t.g.vpos.idx = s.g.vpos.idx + 1)))) ∧
  (a = .terminate → t.g = { s.g with recs := [{ r with act := some .terminate }] } ∧
    ∀ gr, smGet none s.grids s.team.grid = some gr → smGet none t.grids s.team.grid = some { gr with term := true })

/-- The group has one record, sent and not resolved, of this slice; both slices stand; no other access of it is held, and it withdrew
nothing. -/
def Stopped (vec : Bool) (r : HaltRec) (s : State) : Prop :=
  s.g.recs = [r] ∧ s.g.late = none ∧ r.fr.orig = (if vec then 1 else 0) ∧ r.sent = true ∧ r.act = none ∧ s.g.entries = [] ∧
    ∀ x ∈ s.g.accs, (x.isHeld = true → r.held = some x.stamp) ∧ ∀ k, x.kind ≠ .xsend k ∧ x.kind ≠ .xrecv k

/-- The oldest record due of a group or command that is no more is written to the fault queue, with its notification (R73, R425). -/
def Left (d : DueRec) (rest : List DueRec) (s t : State) : Prop :=
  t.mgmt.faultQueue = s.mgmt.faultQueue ++ [d.fr] ∧ t.mgmt.recsDue = rest ∧ SameMemory s t ∧
    (∀ a, d.ask = some a → t.mgmt.outbox = s.mgmt.outbox ++ [.notify a.1 a.2 d.fr.words]) ∧
    (d.ask = none → t.mgmt.outbox = s.mgmt.outbox)

/-- The formats of a sweep: the bytes of an element, and its floating format or none for a signed integer (Table 131). -/
def weirFormats : List (Nat × Nat × Option Fmt) :=
  [(1, 4, some fp32), (2, 2, some fp16), (3, 2, some bf16), (8, 1, none), (9, 2, none), (10, 4, none)]

/-- What a transform makes of the bits x of an element of n bytes (R333). -/
def weirTable (fn n : Nat) (f : Option Fmt) (p0 p1 : BitVec 32) (x : Nat) : Nat :=
  let a := fp32.value p0.toNat
  let b := fp32.value p1.toNat
  let v := toInt (8 * n) true x
  let sat := fun (i : Int) => ofInt (8 * n) (max (-(2 ^ (8 * n - 1))) (min i (2 ^ (8 * n - 1) - 1)))
  match f, fn with
  | _, 4 => p0.toNat % 2 ^ (8 * n)
  | some f, 1 => (f.ofValue .rne false (a.mul (f.value x)).1).1
  | some f, 2 => (f.sum .rne false [(a.mul (f.value x)).1, b]).1
  | some f, _ =>
    let y := if (f.value x).below a then a else f.value x
    if (f.value x).isNan then f.nan else (f.ofValue .rne false (if b.below y then b else y)).1
  | none, 1 => sat (p0.toInt * v)
  | none, 2 => sat (p0.toInt * v + p1.toInt)
  | none, _ => sat (min (max v p0.toInt) p1.toInt)

/-- The elements of n bytes of a row. -/
def rowElems (s : State) (r n : Nat) : List Nat := (List.range (2048 / n)).map fun j => leNat (smBytes s.dram (2048 * r + n * j) n)

/-- VALUE and SAT of a read-only function over the elements xs of a row (R334). -/
def Reads (fn n : Nat) (f : Option Fmt) (xs : List Nat) (value : Nat) (sat : Bool) : Prop :=
  match f with
  | some f => sat = false ∧
      (fn = 6 → value = (fp32.sum .rne false (xs.map f.value)).1) ∧
      (fn = 5 → (∃ x ∈ xs, (f.value x).isNan = true) → value = fp32.nan) ∧
      (fn = 5 → (∀ x ∈ xs, (f.value x).isNan = false) → (∃ x ∈ xs, ∃ g, f.value x = .inf g) → value = fp32.inf false) ∧
      (fn = 5 → (∀ x ∈ xs, ∃ y, Means (f.value x) y) → ∃ z, Means (fp32.value value) z ∧
        (∃ x ∈ xs, ∃ y, Means (f.value x) y ∧ z = |y|) ∧ ∀ x ∈ xs, ∀ y, Means (f.value x) y → |y| ≤ z)
  | none =>
      let i := fun (x : Nat) => toInt (8 * n) true x
      (fn = 5 → sat = false ∧ (∃ x ∈ xs, value = (i x).natAbs) ∧ ∀ x ∈ xs, (i x).natAbs ≤ value) ∧
      (fn = 6 → let t := (xs.map i).sum
        value = ofInt 32 (max (-(2 ^ 31)) (min t (2 ^ 31 - 1))) ∧ (sat = true ↔ t < -(2 ^ 31) ∨ 2 ^ 31 ≤ t))

/-- A row that holds no copyout turns: every element is transformed where it stands and no other byte changes, or no byte of the row
changes and the result slot of its one index is written, or kept with the command while its own row holds a copyout; the function leaves the
row (R333, R334, R338, R340, R374; notes/assumptions/25.md). -/
def Turns (i : Instr) (r : Nat) (s : State) : Prop :=
  ∀ ref f k n fmt, (Machine.rowAt s r).pending = some (ref, f) → (Machine.rowAt s r).copyout = none → cmdOf s ref = some k →
    Settled s (2048 * r) 2048 0 → (f.fmt, n, fmt) ∈ weirFormats →
    (1 ≤ f.fn → f.fn ≤ 4 → ∃ t, exec i s = .next t ∧ (Machine.rowAt t r).pending = none ∧ t.sram = s.sram ∧
      (∀ j, j < 2048 / n → leNat (smBytes t.dram (2048 * r + n * j) n) =
        weirTable f.fn n fmt f.p0 f.p1 (leNat (smBytes s.dram (2048 * r + n * j) n))) ∧
      ∀ a, ¬(2048 * r ≤ a ∧ a < 2048 * r + 2048) → smGet 0 t.dram a = smGet 0 s.dram a) ∧
    ((f.fn = 5 ∨ f.fn = 6) → ∀ (j pa : Nat), k.rows[j]? = some r → (∀ l : Nat, k.rows[l]? = some r → l = j) → k.res[j]? = some pa → pa % 8 = 0 →
      smGet 0 s.lineKey (pa / 128) = 0 →
      ∃ t value sat, exec i s = .next t ∧ (Machine.rowAt t r).pending = none ∧ t.sram = s.sram ∧ value < 2 ^ 32 ∧
        Reads f.fn n fmt (rowElems s r n) value sat ∧ let slot := value + (if sat then 2 ^ 33 else 0) + 2 ^ 34
        ((Machine.rowAt s (Machine.rowOf pa)).copyout = none →
          ∀ a, smGet 0 t.dram a = smGet 0 (smWrite s.dram pa (leBytes 8 slot)) a) ∧
        ((Machine.rowAt s (Machine.rowOf pa)).copyout.isSome = true → SameMemory s t ∧
          ∃ q, cmdOf t ref = some q ∧ q.fin = k.fin ∧ q.slots = k.slots ++ [(pa, BitVec.ofNat 64 slot)]))

/-- No result slot of a sweep is held in a row. -/
def NoSlots (s : State) : Prop := ∀ b ∈ s.basins, ∀ c ∈ b.2.ctx, ∀ q ∈ c.2.cmds, q.slots = []

/-- No other registration, and no `derive.drop`, whose start phase goes on has its place before that of this command (R436). -/
def ComesFirst (s : State) (ref : CmdRef) (k : ECmd) : Prop :=
  ∀ b ∈ s.basins, ∀ c ∈ b.2.ctx, ∀ q ∈ c.2.cmds, q.fin = none → q.regDone = false → q.w.cmd ∈ [1, 6, 7, 9] →
    (⟨b.1, c.1, q.seq⟩ : CmdRef) = ref ∨ k.place ≤ q.place

/-- A write waits at the row: a store that stands in its core's write-through buffer behind no other to its place, the next write of a command,
or a registration of rules that has still to reach the row. -/
def WriteHeld (s : State) (r : Nat) : Prop :=
  (s.g.live = true ∧ ∃ a ∈ s.g.accs, a.kind = .store ∧ ∃ l ∈ a.lanes, l.buffered = true ∧ (∃ pa key, l.loc = .dram pa key ∧ pa / 2048 = r) ∧
    locBuffered s s.g.core l.loc a.w l.sent = false) ∨
  (∃ e, ∃ k ∈ (s.ctx e).cmds, k.holds = some r ∧ k.fin = none) ∨
  ∃ b c, ∃ k ∈ (s.ctx (.basin b c)).cmds, k.started = true ∧ k.fin = none ∧ k.w.cmd = 6 ∧ r ∈ k.rows ∧ r ∉ k.registered

/-- A row with a pending copyout is captured for the drain, where that has room: as memory holds it, for every index of its region that names
it (R340, R374, R375). -/
def Captures (r : Nat) (s t : State) : Prop :=
  ∀ ref k, let b := basinOf (r * 2048)
    (Machine.rowAt s r).copyout = some ref → cmdOf s ref = some k → (smGet Basin.reset s.basins b).drain.length < s.mgmt.drainCap →
    Settled s (2048 * r) 2048 0 → NoSlots s → SameMemory s t ∧ (Machine.rowAt t r).copyout = none ∧
      (smGet Basin.reset t.basins b).drain = (smGet Basin.reset s.basins b).drain ++
        [⟨ref, (k.w.w4.extractLsb' 0 4).toNat, k.w.w3, (List.range k.rows.length).filter fun i => k.rows[i]? == some r,
          smBytes s.dram (2048 * r) 2048⟩]

/-- The context holds this one command, which goes on: nothing suspends, cancels or saves it, and no page-owner entry is under way. -/
def Alone (s : State) (e : EngineRef) (k : ECmd) : Prop :=
  (s.ctx e).cmds = [k] ∧ k.fin = none ∧ k.susp = none ∧ k.cancel = false ∧ k.bad = false ∧ (s.ctx e).preempted = false ∧ s.lagging = []

/-- The one command of a context has ended so, and the counter has passed it. -/
def EndedAs (e : EngineRef) (k : ECmd) (f : EndStat) (t : State) : Prop :=
  (t.ctx e).cmds = [] ∧ (t.ctx e).counter = BitVec.ofNat 64 k.seq ∧ smGet .completed (t.ctx e).ends k.seq = f

/-- The one command of a context has moved past an element of n, or has ended with the last. -/
def PastElement (e : EngineRef) (k : ECmd) (n : Nat) (t : State) : Prop :=
  (k.elem + 1 = n → EndedAs e k .completed t) ∧
  (k.elem + 1 ≠ n → ∃ q, (t.ctx e).cmds = [q] ∧ q.seq = k.seq ∧ q.w = k.w ∧ q.fin = none ∧ q.susp = none ∧ q.elem = k.elem + 1 ∧ q.block = [] ∧
    q.holds = none)

/-- The one command of a context is suspended before an element, with its record, and no byte is changed (R82, R303). -/
def SuspendedAt (e : EngineRef) (k : ECmd) (elem : Nat) (code : BitVec 8) (acc : BitVec 4) (va : Word) (s t : State) : Prop :=
  SameMemory s t ∧ ∃ q, (t.ctx e).cmds = [q] ∧ q.seq = k.seq ∧ q.w = k.w ∧ q.fin = none ∧ q.susp = some code ∧ q.elem = elem ∧ q.holds = none ∧
    q.waiting = some { code := code, orig := 2, imprec := false, index := 0, slot := 0, core := 0, lanes := 0
                       clause := BitVec.ofNat 56 elem, acc := acc, addr := va.truncate 56, info := handleOf e k.seq }

/-- The dimensions of a `copy` or `fill`, and of a `copyx` with its block: extent, source stride, destination stride (Tables 114, 115). -/
def dimTable (w : Cmd) (block : List Word) : List (Nat × Int × Int) :=
  (List.range ((w.w0.extractLsb' 44 4).toNat + 1)).map fun d =>
    let a := if w.cmd = 2 then block.getD (2 * d) 0 else [w.w4, w.w5, w.w6, w.w7].getD d 0
    let b := block.getD (2 * d + 1) 0
    if w.cmd = 2 then ((a.extractLsb' 48 16).toNat, (a.extractLsb' 0 48).toInt, (b.extractLsb' 0 48).toInt)
    else ((w.w3.extractLsb' (16 * d) 16).toNat, (a.extractLsb' 0 32).toInt, (a.extractLsb' 32 32).toInt)

/-- The address of element e: the base moved by its index in each dimension times the stride there, modulo 2^64 (R294, R296). -/
def elemAt (base : Word) (dims : List (Nat × Int × Int)) (stride : Nat × Int × Int → Int) (e : Nat) : Word :=
  base + BitVec.ofInt 64 (((List.range dims.length).map fun d =>
    let x := dims.getD d (0, 0, 0)
    ((e / ((dims.take d).map (·.1)).prod % x.1 : Nat) : Int) * stride x).sum)

/-- Number of elements of a command of memory-to-memory moves (R294, R296, R297). -/
def elemsOf (w : Cmd) (block : List Word) : Nat :=
  if w.cmd = 3 ∨ w.cmd = 4 then (w.w4.extractLsb' 0 32).toNat else ((dimTable w block).map (·.1)).prod

/-- What the elements of the copy engine's commands read and write: a strided move or fill at the addresses of Tables 114 and 115, a
gather or scatter on the index that the element reads, a tile row of a `tfill` or `tdrain`. Where no earlier element of the command has
written, a read finds the bytes at their homes and a write leaves its own (R294 to R298, R302). -/
def EngineElements : Prop :=
  (∀ (e : EngineRef) (k : ECmd) (w : Cmd) (block : List Word) (i : Nat) (s : State), let ag := Agent.quad k.quad
    let nd := (w.w0.extractLsb' 44 4).toNat
    let n := 2 ^ (w.w0.extractLsb' 50 3).toNat
    let src := elemAt w.w1 (dimTable w block) (·.2.1) i
    let dst := elemAt w.w2 (dimTable w block) (·.2.2) i
    (w.cmd = 1 → nd ≤ 3 → copyElem e k w block i s = moveElem e k ag src dst n s) ∧
    (w.cmd = 2 → block.length = 2 * (nd + 1) → copyElem e k w block i s = moveElem e k ag src dst n s) ∧
    (w.cmd = 5 → nd ≤ 3 → copyElem e k w block i s = fillElem e k w ag dst n i s)) ∧
  (∀ (e : EngineRef) (k : ECmd) (w : Cmd) (block : List Word) (i : Nat) (s : State), let ag := Agent.quad k.quad
    let iw := (w.w0.extractLsb' 36 2).toNat
    let n := if iw = 2 then 8 else 4
    let len := (w.w5.extractLsb' 0 17).toNat
    let lin := fun (base : Word) => base + BitVec.ofInt 64 (i * (w.w7.extractLsb' 0 48).toInt)
    let ind := fun (base : Word) (x : Int) => base + BitVec.ofInt 64 (x * (w.w6.extractLsb' 0 48).toInt)
    let list := elemRead k ag (w.w3 + BitVec.ofNat 64 (n * i)) n s
    iw ≤ 2 → w.cmd = 3 ∨ w.cmd = 4 →
      (∀ c a v t, list = .fault c a v t → copyElem e k w block i s = .fault c a v t) ∧
      ∀ u bs, list = .ok (u, bs) → bs.length = n →
        let x : Int := if iw = 0 then leNat bs else if iw = 1 then (BitVec.ofNat 32 (leNat bs)).toInt else (BitVec.ofNat 64 (leNat bs)).toInt
        (w.cmd = 3 → copyElem e k w block i s = moveElem e k ag (ind w.w1 x) (lin w.w2) len u) ∧
        (w.cmd = 4 → copyElem e k w block i s = moveElem e k ag (lin w.w1) (ind w.w2 x) len u)) ∧
  (∀ (e : EngineRef) (k : ECmd) (w : Cmd) (block : List Word) (i j : Nat) (s : State), let ag := Agent.quad k.quad
    let rb := tcCols k.cfg * tcBits k.cfg / 8
    let va := w.w1 + BitVec.ofInt 64 (i * (w.w2.extractLsb' 0 48).toInt)
    let tile := fun (t : State) (x : Nat) => smGet Tile.reset (smGet Quad.reset t.quads k.quad).tiles x
    k.tile = some j →
      (w.cmd = 6 → (∀ c a v t, engRead ag k.asid va rb s = .fault c a v t → copyElem e k w block i s = .fault c a v t) ∧
        ∀ u bs, engRead ag k.asid va rb s = .ok (u, bs) → bs.length = rb → ∃ t, copyElem e k w block i s = .ok t ∧
          t = { u with quads := t.quads } ∧ (∀ q, q ≠ k.quad → smGet Quad.reset t.quads q = smGet Quad.reset u.quads q) ∧
          (∀ x, x ≠ j → tile t x = tile u x) ∧ tile t j = { tile u j with bytes := (tile t j).bytes } ∧
          ∀ a, smGet 0 (tile t j).bytes a = if i * rb ≤ a ∧ a < i * rb + rb then bs.getD (a - i * rb) 0 else smGet 0 (tile u j).bytes a) ∧
      (w.cmd = 7 → copyElem e k w block i s = elemWrite e k ag va (smBytes (tile s j).bytes (i * rb) rb) s)) ∧
  (∀ (e : EngineRef) (k : ECmd) (w : Cmd) (ag : Agent) (va : Word) (n i : Nat) (bs : List Byte) (s : State), k.olds = [] →
    elemRead k ag va n s = engRead ag k.asid va n s ∧
    (∀ c a v t, engWrite k.tokenSide ag k.asid va bs s = .fault c a v t → elemWrite e k ag va bs s = .fault c a v t) ∧
    (∀ t, engWrite k.tokenSide ag k.asid va bs s = .ok t → ∃ u, elemWrite e k ag va bs s = .ok u ∧ SameMemory t u) ∧
    ((∀ j, smGet false s.poison j = false) → ∀ t, engWrite k.tokenSide ag k.asid va (leBytes n w.w1.toNat) s = .ok t →
      ∃ u, fillElem e k w ag va n i s = .ok u ∧ SameMemory t u))

/-- A `clist` runs its entries: entry j is read and checked when it is reached, and runs its elements under element indices j × 2^40 + e; one
that fails its checks ends the list in error, a fault suspends it, and after the last entry it is completed (R300, R301). -/
def ListEntries : Prop :=
  ∀ (q c : Nat) (s : State) (k : ECmd), let e := EngineRef.copy q c
    let next := fun (P : State → Prop) => ∃ t, exec (.elementDelivery e) s = .next t ∧ P t
    let j := k.elem / 2 ^ 40
    let words := fun (bs : List Byte) (n : Nat) => (List.range n).map fun i => BitVec.ofNat 64 (leNat ((bs.drop (8 * i)).take 8))
    let goes := fun (t : State) (elem : Nat) (entry : Option Cmd) (block : List Word) => ∃ x, (t.ctx e).cmds = [x] ∧ x.seq = k.seq ∧
      x.w = k.w ∧ x.fin = none ∧ x.susp = none ∧ x.elem = elem ∧ x.entry = entry ∧ x.block = block
    let passed := fun (t : State) => (j + 1 = (k.w.w2.extractLsb' 0 16).toNat → EndedAs e k .completed t) ∧
      (j + 1 ≠ (k.w.w2.extractLsb' 0 16).toNat → goes t ((j + 1) * 2 ^ 40) none [])
    let opened := fun (u : State) (w : Cmd) (block : List Word) =>
      (2 ^ 40 ≤ elemsOf w block → next fun t => SameMemory u t ∧ EndedAs e k (.error 0x15) t) ∧
      (elemsOf w block = 0 → next fun t => SameMemory u t ∧ passed t) ∧
      (1 ≤ elemsOf w block → elemsOf w block < 2 ^ 40 → next fun t => SameMemory u t ∧ goes t k.elem (some w) block)
    Alone s e k → k.started = true → k.w.cmd = 8 →
    (k.entry = none → k.elem % 2 ^ 40 = 0 → let list := engRead (.quad k.quad) k.asid (k.w.w1 + BitVec.ofNat 64 (64 * j)) 64 s
      (∀ code a v u, list = .fault code a v u → next (SuspendedAt e k k.elem code a v u)) ∧
      ∀ u bs, list = .ok (u, bs) → bs.length = 64 → ∀ w : Cmd, [w.w0, w.w1, w.w2, w.w3, w.w4, w.w5, w.w6, w.w7] = words bs 8 →
        let fits := w.w0.extractLsb' 53 3 = 0 ∧ ((w.cmd = 1 ∧ copyOk w = true) ∨ (w.cmd = 2 ∧ copyxOk w = true) ∨
          ((w.cmd = 3 ∨ w.cmd = 4) ∧ gatherOk w = true) ∨ (w.cmd = 5 ∧ fillOk w = true))
        (¬fits → next fun t => SameMemory u t ∧ EndedAs e k (.error 0x15) t) ∧
        (fits → w.cmd ≠ 2 → opened u w []) ∧
        (fits → w.cmd = 2 → let nd := (w.w0.extractLsb' 44 4).toNat + 1
          (∀ code a v u', engRead (.quad k.quad) k.asid w.w3 (16 * nd) u = .fault code a v u' → next (SuspendedAt e k k.elem code a v u')) ∧
          ∀ v bb, engRead (.quad k.quad) k.asid w.w3 (16 * nd) u = .ok (v, bb) → bb.length = 16 * nd →
            ((∃ d, d < nd ∧ ((words bb (2 * nd)).getD (2 * d + 1) 0).extractLsb' 48 16 ≠ 0) →
              next fun t => SameMemory v t ∧ EndedAs e k (.error 0x15) t) ∧
            ((∀ d, d < nd → ((words bb (2 * nd)).getD (2 * d + 1) 0).extractLsb' 48 16 = 0) → opened v w (words bb (2 * nd))))) ∧
    (∀ w, k.entry = some w → 1 ≤ w.cmd.toNat → w.cmd.toNat ≤ 5 → let i := k.elem % 2 ^ 40
      let nd := (w.w0.extractLsb' 44 4).toNat
      (w.cmd = 1 ∨ w.cmd = 5 → nd ≤ 3) → (w.cmd = 2 → k.block.length = 2 * (nd + 1)) →
      (∀ code a v u, copyElem e k w k.block i s = .fault code a v u → next (SuspendedAt e k k.elem code a v u)) ∧
      ∀ u, copyElem e k w k.block i s = .ok u → next fun t => SameMemory u t ∧ (i + 1 = elemsOf w k.block → passed t) ∧
        (i + 1 ≠ elemsOf w k.block → goes t (k.elem + 1) (some w) k.block))

/-- Row i of a range of virtual rows. -/
def rowVa (v : Word) (i : Nat) : Word := v + BitVec.ofNat 64 (2048 * i)

/-- `row.copy` and `row.zero`: the checks of an element in their order, the read event, which holds the row read, and the write event; one
event when both rows lie in one subarray of one bank (R358 to R361). -/
def RowCommands : Prop :=
  ∀ (b c : Nat) (s : State) (k : ECmd), let e := EngineRef.basin b c
    let ag := Agent.die (dieOfBasin b)
    let n := (k.w.w3.extractLsb' 0 25).toNat
    let sv := rowVa k.w.w1 k.elem
    let dv := rowVa k.w.w2 k.elem
    let src := rowPlace s ag k.asid sv 2048 false
    let dst := rowPlace s ag k.asid dv 2048 true
    let zero := k.w.cmd = 5
    let next := fun (P : State → Prop) => ∃ t, exec (.elementDelivery e) s = .next t ∧ P t
    Alone s e k → k.regDone = false → (k.w.cmd = 4 ∨ zero) → k.block = [] ∨ ¬zero →
    (∀ code, ¬zero → src = .error code → next (SuspendedAt e k k.elem code 1 sv s)) ∧
    ∀ sp, (zero ∨ src = .ok sp) → (¬zero → rowClash s sp = false) →
      (∀ code, dst = .error code → next (SuspendedAt e k k.elem code 2 dv s)) ∧
      ∀ dp, dst = .ok dp → rowClash s dp = false →
        let foreign := inWindow s dp.1 = true ∧ (homeOwner s dp.1).token ≠ k.tokenSide
        let home := Machine.rowAt s (dp.1 / 2048)
        let puts := fun (bs : List Byte) (t : State) => t.sram = s.sram ∧ (∀ a, smGet 0 t.dram a = smGet 0 (smWrite s.dram dp.1 bs) a) ∧
          PastElement e k n t
        (foreign → next (SuspendedAt e k k.elem 0x0A 2 dv s)) ∧
        (¬foreign → home.rule.isSome = true → next (SuspendedAt e k k.elem 0x0B 2 dv s)) ∧
        (¬foreign → home.rule = none → ¬zero → k.block = [] → sp.1 % 2048 = 0 → Quiet s → (∀ l ∈ linesOf sp.1 2048, smGet 0 s.lineKey l = sp.2) →
          (∃ j, j < 64 ∧ smGet false s.poison (64 * (sp.1 / 2048) + j) = true) → next (SuspendedAt e k k.elem 0x14 1 sv s)) ∧
        (¬foreign → home.rule = none → dp.1 % 2048 = 0 → Settled s dp.1 2048 dp.2 →
          (home.copyout.isSome = true → (zero ∨ k.block ≠ []) → next fun t => SameMemory s t ∧
            ∃ q, (t.ctx e).cmds = [q] ∧ q.elem = k.elem ∧ q.block = k.block ∧ q.holds = some (dp.1 / 2048)) ∧
          (home.copyout = none →
            (zero → next (puts (List.replicate 2048 0))) ∧
            (¬zero → k.olds = [] → k.block.length = 256 → next (puts (k.block.flatMap fun x => leBytes 8 x.toNat))) ∧
            (¬zero → k.olds = [] → k.block = [] → sp.1 % 2048 = 0 → Settled s sp.1 2048 sp.2 →
              let one := bankOf sp.1 = bankOf dp.1 ∧ rowInBank sp.1 / 512 = rowInBank dp.1 / 512
              (one → next (puts (smBytes s.dram sp.1 2048))) ∧
              (¬one → next fun t => SameMemory s t ∧ ∃ q, (t.ctx e).cmds = [q] ∧ q.elem = k.elem ∧
                q.block.flatMap (fun x => leBytes 8 x.toNat) = smBytes s.dram sp.1 2048))))

/-- `derive.drop` and `derive.flush`, row by row: a row without translation suspends the command; a stale row whose bases are not stale is
recomputed; a drop takes the rule and the row's entries at its bases, a flush leaves them; a drop comes after the registrations before it
(R371, R372, R436). -/
def DerivedRowCommands : Prop :=
  ∀ (b c : Nat) (s : State) (k : ECmd), let e := EngineRef.basin b c
    let dv := rowVa k.w.w2 k.elem
    let n := (k.w.w3.extractLsb' 0 16).toNat + 1
    let place := rowPlace s (.die (dieOfBasin b)) k.asid dv 2048 false
    let next := fun (P : State → Prop) => ∃ t, exec (.elementDelivery e) s = .next t ∧ P t
    Alone s e k → k.started = true → k.regDone = false → (k.w.cmd = 7 ∨ k.w.cmd = 8) → (k.w.cmd = 7 → ComesFirst s ⟨b, c, k.seq⟩ k) →
    (∀ code, place = .error code → next (SuspendedAt e k k.elem code 1 dv s)) ∧
    ∀ p, place = .ok p → (∀ x ∈ registering s, x.k.w.cmd ≠ 6) →
      let r := p.1 / 2048
      let w := Machine.rowAt s r
      (w.rule = none → next fun t => SameMemory s t ∧ (∀ x, Machine.rowAt t x = Machine.rowAt s x) ∧ PastElement e k n t) ∧
      ∀ rule, w.rule = some rule → w.stale = false ∨ ( (∀ x, (smGet Bank.reset s.banks x).deferred = []) ∧
          (∀ x ∈ rule.bases, (Machine.rowAt s x).stale = false) ∧ s.lineKey = []) →
        next fun t => PastElement e k n t ∧ t.sram = s.sram ∧
          (∀ a, smGet 0 t.dram a = if w.stale then smGet 0 (smWrite s.dram (2048 * r)
            (deriveBytes rule (rule.bases.map fun x => smBytes s.dram (2048 * x) 2048))) a else smGet 0 s.dram a) ∧
          (Machine.rowAt t r).stale = false ∧
          (k.w.cmd = 8 → (Machine.rowAt t r).rule = some rule) ∧
          (k.w.cmd = 7 → (Machine.rowAt t r).rule = none ∧ ∀ x ∈ rule.bases, r ∉ (Machine.rowAt t x).deps)

/-- The commands that name another by its handle: `sweep.force`, `snap.abort` and `sweep.status` (R345, R355, R356, R357, R377). -/
def NamingCommands : Prop :=
  ∀ (b c : Nat) (s : State) (k : ECmd), let e := EngineRef.basin b c
    let next := fun (P : State → Prop) => ∃ t, exec (.elementDelivery e) s = .next t ∧ P t
    let fails := next fun t => SameMemory s t ∧ EndedAs e k (.error 0x15) t
    let done := next fun t => SameMemory s t ∧ EndedAs e k .completed t
    let named := namedCmd s k.w.w1
    Alone s e k → k.regDone = false →
    (k.w.cmd = 2 → (named = none → fails) ∧ ∀ r x, named = some (r, x) → (x.w.cmd ≠ 1 → fails) ∧
      (x.w.cmd = 1 → (r.basin, r.ctx) ≠ (b, c) → next fun t => SameMemory s t ∧ EndedAs e k .completed t ∧
        cmdOf t r = (cmdOf s r).map fun q => { q with forced := true })) ∧
    (k.w.cmd = 10 → (named = none → k.started = false → fails) ∧ ∀ r x, named = some (r, x) → (x.w.cmd ≠ 9 → fails) ∧
      (x.w.cmd = 9 → (x.fin ≠ none → done) ∧ (x.fin = none → (r.basin, r.ctx) ≠ (b, c) →
        (x.started = false → (s.ctx (.basin r.basin r.ctx)).cmds = [x] → next fun t => SameMemory s t ∧ EndedAs e k .completed t ∧
          EndedAs (.basin r.basin r.ctx) x .cancelled t) ∧
        (x.started = true → x.cancel = false → next fun t => SameMemory s t ∧ cmdOf t r = (cmdOf s r).map fun q => { q with cancel := true }) ∧
        (x.started = true → x.cancel = true →
          ((∃ y ∈ x.rows, (Machine.rowAt s y).copyout = some r) → exec (.elementDelivery e) s = .next s) ∧
          ((∀ y ∈ x.rows, (Machine.rowAt s y).copyout ≠ some r) → done))))) ∧
    (k.w.cmd = 3 → let f := (k.w.w2.extractLsb' 0 25).toNat
      (named = none → fails) ∧ ∀ r x, named = some (r, x) → let n := (x.w.w2.extractLsb' 0 25).toNat
        ((x.w.cmd ≠ 1 ∨ n ≤ f) → fails) ∧
        (x.w.cmd = 1 → f < n →
          (((∃ i, i < n ∧ i ∉ k.registered) ∨ k.block = []) → next fun t => SameMemory s t ∧ ∃ q, (t.ctx e).cmds = [q] ∧
            ((∃ i, i < n ∧ i ∉ k.registered ∧ q.registered = i :: k.registered ∧ q.block = k.block ∧
                q.turned = if ∃ y ∈ x.turned, x.rows[i]? = some y then i :: k.turned else k.turned) ∨
             (k.block = [] ∧ q.registered = k.registered ∧ q.turned = k.turned ∧ q.block.length = 1))) ∧
          ((∀ i, i < n → i ∈ k.registered) → k.block.length = 1 → ∀ u, let st := (k.block.headD 0)
            let mask := (List.range 64).foldl (fun m j => if f + j ∈ k.turned then m + 2 ^ j else m) 0
            engWrite k.tokenSide (.die (dieOfBasin b)) k.asid k.w.w3 (leBytes 8 mask ++ leBytes 8 (k.turned.length + st.toNat)) s = .ok u →
            next fun t => SameMemory u t)))

/-- Registration begins only when every check has passed, and otherwise the command ends with the lowest code met and marks nothing: `sweep`
against Table 134, `snap.arm` against R373, `derive.reg` where a translation or an owner fails. It waits for a registration or
`derive.drop` of a row that it names too and that has its place before it (R336, R366, R373, R412, R436). -/
def RegistrationChecks : Prop :=
  ∀ (b c : Nat) (s : State) (k : ECmd), let e := EngineRef.basin b c
    let ag := Agent.die (dieOfBasin b)
    let next := fun (P : State → Prop) => ∃ t, exec (.elementDelivery e) s = .next t ∧ P t
    let at_ := fun (v : Word) (step m : Nat) (write : Bool) (n : Nat) (x : Except (BitVec 8) (Nat × Nat)) =>
      ∃ i, i < m ∧ x = rowPlace s ag k.asid (v + BitVec.ofNat 64 (step * i)) n write
    let other := fun (p : Nat × Nat) => inWindow s p.1 = true ∧ (homeOwner s p.1).token ≠ k.tokenSide
    let lowest := fun (met : BitVec 8 → Prop) (code : BitVec 8) => met code ∧ ∀ x, met x → code.toNat ≤ x.toNat
    let unmarked := fun (t : State) => t.rows = s.rows ∧ SameMemory s t
    let begins := fun (rows : List (Nat × Nat) → Prop) => next fun t => unmarked t ∧ ∃ q ps, (t.ctx e).cmds = [q] ∧ q.started = true ∧ rows ps ∧
      q.rows = ps.map fun p => p.1 / 2048
    Alone s e k → k.started = false → k.regDone = false →
    ((k.w.cmd = 1 ∨ k.w.cmd = 6 ∨ k.w.cmd = 9) → ∀ x ∈ unsettled s, x.ref ≠ ⟨b, c, k.seq⟩ → x.k.place < k.place →
      (∃ r ∈ namedRows s x, r ∈ namedRows s ⟨⟨b, c, k.seq⟩, k⟩) → exec (.elementDelivery e) s = .next s) ∧
    (ComesFirst s ⟨b, c, k.seq⟩ k →
    (k.w.cmd = 1 → let n := (k.w.w2.extractLsb' 0 25).toNat
      let fn := (k.w.w0.extractLsb' 44 4).toNat
      let reads := fn == 5 || fn == 6
      let row := at_ k.w.w1 2048 n (!reads) 2048
      let slot := fun x => reads = true ∧ at_ k.w.w4 8 n true 8 x
      let met := fun (code : BitVec 8) => row (.error code) ∨ slot (.error code) ∨
        (code = 0x0A ∧ ∃ p, (row (.ok p) ∨ slot (.ok p)) ∧ other p) ∨
        (code = 0x0B ∧ reads = false ∧ ∃ p, row (.ok p) ∧ (ruleView s (p.1 / 2048)).isSome = true) ∨
        (code = 0x0E ∧ ∃ p, (row (.ok p) ∨ slot (.ok p)) ∧ p.2 ≠ 0) ∨
        (code = 0x0F ∧ ∃ p, row (.ok p) ∧ pendingView s (p.1 / 2048) = true)
      (∀ code, lowest met code → next fun t => unmarked t ∧ EndedAs e k (.error code) t) ∧
      ((∀ code, ¬met code) → begins fun ps => ps.length = n ∧ ∀ i, i < n →
        rowPlace s ag k.asid (rowVa k.w.w1 i) 2048 (!reads) = .ok (ps.getD i (0, 0)))) ∧
    (k.w.cmd = 9 → let n := (k.w.w2.extractLsb' 0 29).toNat
      let row := at_ k.w.w1 2048 n false 2048
      let room := ∃ t, smGet none s.coll.targets (k.w.w4.extractLsb' 0 4).toNat = some t ∧ (n + 1) * 2064 ≤ t.len
      let met := fun (code : BitVec 8) => row (.error code) ∨ (code = 0x0E ∧ ∃ p, row (.ok p) ∧ p.2 ≠ 0) ∨
        (code = 0x0F ∧ ∃ p, row (.ok p) ∧ snapView s (p.1 / 2048) = true) ∨ (code = 0x15 ∧ ¬room)
      (∀ code, lowest met code → next fun t => unmarked t ∧ EndedAs e k (.error code) t) ∧
      ((∀ code, ¬met code) → begins fun ps => ps.length = n ∧ ∀ i, i < n →
        rowPlace s ag k.asid (rowVa k.w.w1 i) 2048 false = .ok (ps.getD i (0, 0)))) ∧
    (k.w.cmd = 6 → let m := (k.w.w3.extractLsb' 0 16).toNat + 1
      let per := match (k.w.w0.extractLsb' 44 4).toNat with | 1 => 1 | 2 => 2 | _ => 16
      let row := at_ k.w.w2 2048 m true 2048
      let base := at_ k.w.w1 2048 (per * m) false 2048
      let met := fun (code : BitVec 8) => row (.error code) ∨ base (.error code) ∨ (code = 0x0A ∧ ∃ p, row (.ok p) ∧ other p) ∨
        (code = 0x0B ∧ ∃ p, row (.ok p) ∧ (ruleView s (p.1 / 2048)).isSome = true)
      ∀ code, lowest met code → next fun t => unmarked t ∧ EndedAs e k (.error code) t))

/-- A cancelled sweep or snapshot leaves the rows of one home at a time, and with none left it ends cancelled, or, once it has placed a
copyout, waits for its abort record; a sweep waits for a result slot that a copyout holds (R346, R377). -/
def CancelsByRow : Prop :=
  ∀ (b c : Nat) (s : State) (k : ECmd), let e := EngineRef.basin b c
    let ref : CmdRef := ⟨b, c, k.seq⟩
    let next := fun (P : State → Prop) => ∃ t, exec (.elementDelivery e) s = .next t ∧ P t
    let has := fun (x : Nat) => if k.w.cmd = 1 then ∃ f, (Machine.rowAt s x).pending = some (ref, f) else (Machine.rowAt s x).copyout = some ref
    (s.ctx e).cmds = [k] → k.started = true → k.fin = none → k.cancel = true → (k.w.cmd = 1 ∨ k.w.cmd = 9) → s.lagging = [] →
    ((∃ x ∈ k.rows, has x) → (k.w.cmd = 9 → NoSlots s) → next fun t => SameMemory s t ∧ t.ctx e = s.ctx e ∧ ∃ x ∈ k.rows, has x ∧
      ∀ y, let here := y ∈ k.rows ∧ has y ∧ basinOf (2048 * y) = basinOf (2048 * x)
        (here → Machine.rowAt t y = if k.w.cmd = 1 then { Machine.rowAt s y with pending := none } else { Machine.rowAt s y with copyout := none }) ∧
        (¬here → Machine.rowAt t y = Machine.rowAt s y)) ∧
    ((∀ x ∈ k.rows, ¬has x) → k.w.cmd = 1 → k.slots ≠ [] → exec (.elementDelivery e) s = .next s) ∧
    ((∀ x ∈ k.rows, ¬has x) → (k.w.cmd = 1 ∧ k.slots = [] ∨ k.w.cmd = 9 ∧ k.res = []) → next fun t => SameMemory s t ∧ EndedAs e k .cancelled t) ∧
    ((∀ x ∈ k.rows, ¬has x) → k.w.cmd = 9 → k.res ≠ [] → k.regDone = true → exec (.elementDelivery e) s = .next s)

/-- A firmware's choice for an iteration of a token die meets R395 and the ranges of Table 163: the budget is no more than 16,384, at most 1,024
slices go to the oldest waiting prompts and none is longer than its prompt, ND and the tokens of the slices fit the budget, and no sequence
appears twice. -/
def Fitting (wait dec : List Sequence) (i : Iteration) : Prop :=
  1 ≤ i.budget ∧ i.budget ≤ 16384 ∧ i.cnts.length ≤ wait.length ∧ i.cnts.length ≤ 1024 ∧
    (∀ (j n : Nat) (q : Sequence), i.cnts[j]? = some n → wait[j]? = some q → 1 ≤ n ∧ n ≤ q.left) ∧
    min dec.length i.budget + i.cnts.sum ≤ i.budget ∧ ((dec ++ wait).map (·.id)).Nodup ∧ ∀ q ∈ dec ++ wait, q.pos + q.left < 2 ^ 32

/-- The bytes are the descriptor of Table 163 for these waiting prompts and these sequences ready for decode, oldest first: the header,
the decode entries, the slices (R394, R395). -/
def Describes (iter : Word) (wait dec : List Sequence) (i : Iteration) (bs : List Byte) : Prop :=
  let at_ := fun (o : Nat) => leNat ((bs.drop o).take 8)
  let nd := min dec.length i.budget
  bs.length = 16 + 16 * (nd + i.cnts.length) ∧ at_ 0 = i.cnts.length * 2 ^ 32 + nd * 2 ^ 16 + i.budget ∧ at_ 8 = iter.toNat ∧
    (∀ (j : Nat) (q : Sequence), j < nd → dec[j]? = some q → at_ (16 + 16 * j) = q.id.toNat * 2 ^ 32 + q.pos ∧ at_ (24 + 16 * j) = 1) ∧
    ∀ (j n : Nat) (q : Sequence), i.cnts[j]? = some n → wait[j]? = some q →
      at_ (16 + 16 * (nd + j)) = q.id.toNat * 2 ^ 32 + q.pos ∧ at_ (24 + 16 * (nd + j)) = n

/-- The firmware sees the flag of the last handoff of the sequences that come with their whole prompt prefilled: there is none, or one, whose flag
holds at least its generation, which is not 0 (R395; notes/assumptions/74.md). -/
def FlagsSeen (i : Iteration) (k : ECmd) (s u : State) : Prop :=
  (∀ q ∈ i.come, 0 < q.left) ∧ u = s ∨ ∃ q fb, i.come.filter (·.left == 0) = [q] ∧ q.flag.2 ≠ 0 ∧
    engRead (.die 0) (lAsid k) q.flag.1 8 s = .ok (u, fb) ∧ q.flag.2.toNat ≤ leNat fb

/-- The start of a launch with an iteration: the firmware writes its descriptor where the first parameter of the launch points, once the
earlier iteration of the die has ended, the conditions of R395 hold and it has seen the flag of every sequence that enters decode; until then nothing happens. The next iteration has the next
number, an entry's tokens are behind it, and a prompt whose last token it held enters decode (R394, R395). -/
def IterationsStart : Prop :=
  ∀ (ctx : Nat) (i : Iteration) (s : State) (k : ECmd), let e := EngineRef.launch ctx
    let d := if k.w.w0.extractLsb' 48 4 = 4 then 3 else 4
    let v := smGet Serving.reset s.mgmt.serving d
    let wait := (v.waiting ++ i.come.filter (0 < ·.left)).filter fun q => q.id ∉ i.gone
    let dec := (v.decoding ++ i.come.filter (·.left == 0)).filter fun q => q.id ∉ i.gone
    (s.ctx e).head = some k → k.started = false → (s.ctx e).preempted = false → k.bad = false → k.w.cmd = 1 → s.mgmt.state ≠ 1 →
    launchOk s k = true →
    ((k.w.w0.extractLsb' 48 4 ≠ 4 ∧ k.w.w0.extractLsb' 48 4 ≠ 8) ∨ smGet none s.grids v.grid ≠ none ∨ ¬Fitting wait dec i →
      exec (.launchStart ⟨ctx, some i⟩) s = .next s) ∧
    (k.w.w0.extractLsb' 48 4 = 4 ∨ k.w.w0.extractLsb' 48 4 = 8 → smGet none s.grids v.grid = none → Fitting wait dec i →
      ((∃ q ∈ i.come, q.left = 0 ∧ q.flag.2 = 0) → exec (.launchStart ⟨ctx, some i⟩) s = .next s) ∧
      (∀ q u0 fb, q ∈ i.come → q.left = 0 → i.come.filter (·.left == 0) = [q] →
        engRead (.die 0) (lAsid k) q.flag.1 8 s = .ok (u0, fb) → leNat fb < q.flag.2.toNat →
        exec (.launchStart ⟨ctx, some i⟩) s = .next s) ∧
      ∀ u0 u pb pa, FlagsSeen i k s u0 → let va := BitVec.ofNat 64 (leNat pb)
        let len := 16 + 16 * (min dec.length i.budget + i.cnts.length)
        engRead (.die 0) (lAsid k) k.w.w3 8 u0 = .ok (u, pb) → pb.length = 8 → va.toNat % 256 + len ≤ 256 →
        engTranslate u (.die 0) (lAsid k) va len 2 = .ok (.dram pa 0) → inWindow u pa = false → Settled u pa len 0 →
        (Machine.rowAt u (pa / 2048)).rule = none → (Machine.rowAt u (pa / 2048)).copyout = none →
        ∃ t bs w, exec (.launchStart ⟨ctx, some i⟩) s = .next t ∧ Describes v.iter wait dec i bs ∧ t.sram = u.sram ∧
          (∀ a, smGet 0 t.dram a = smGet 0 (smWrite u.dram pa bs) a) ∧ smGet Serving.reset t.mgmt.serving d = w ∧
          w.iter = v.iter + 1 ∧ w.grid = gridKeyOf ctx k.seq ∧ (smGet none t.grids w.grid).isSome = true ∧
          (let ss := (wait.zip i.cnts).map fun p => { p.1 with pos := p.1.pos + p.2, left := p.1.left - p.2 }
           w.waiting = ss.filter (0 < ·.left) ++ wait.drop i.cnts.length ∧
           w.decoding = (dec.take i.budget).map (fun q => { q with pos := q.pos + 1 }) ++ dec.drop i.budget ++ ss.filter (·.left == 0)))

/-- A reclaim at the head of its context: malformed, or with a list that cannot be read or that names a page of no window, it ends in error
with no page changed; while a flag store of a handoff is still due at a page it waits; otherwise the token side's pages among those named
return to the prompt side with its generation, and it is reached when the entries are at every basin copy (R392, R421). -/
def ReclaimsReturnPages : Prop :=
  ∀ (ctx : Nat) (s : State) (k : ECmd), let e := EngineRef.launch ctx
    let n := (k.w.w2.extractLsb' 0 16).toNat
    let good := k.w.w0.extractLsb' 0 53 = 0 ∧ k.w.w2.extractLsb' 16 48 = 0 ∧ 1 ≤ n ∧ n ≤ 4096 ∧ k.w.w4 = 0 ∧ k.w.w5 = 0 ∧ k.w.w6 = 0 ∧
      k.w.w7 = 0
    let fails := ∃ t, exec (.elementDelivery e) s = .next t ∧ t.owners = s.owners ∧ SameMemory s t ∧ EndedAs e k (.error 0x15) t
    k.w.cmd = 2 → s.mgmt.state ≠ 1 →
    (Alone s e k → k.started = false →
      (¬good → fails) ∧ (good → (∀ r, engRead (.die 0) k.asid k.w.w1 (8 * n) s = .wait r → exec (.elementDelivery e) s = .next s) ∧
        (∀ c a v u, engRead (.die 0) k.asid k.w.w1 (8 * n) s = .fault c a v u → ∃ t, exec (.elementDelivery e) s = .next t ∧
          t.owners = u.owners ∧ SameMemory u t ∧ EndedAs e k (.error 0x15) t) ∧
        ∀ u bs, engRead (.die 0) k.asid k.w.w1 (8 * n) s = .ok (u, bs) → bs.length = 8 * n →
          let page := fun (i : Nat) => reclaimPage u k.asid (BitVec.ofNat 64 (leNat ((bs.drop (8 * i)).take 8)))
          let named := fun (p : Nat) => ∃ i, i < n ∧ page i = some p
          ((∃ i, i < n ∧ page i = none) → ∃ t, exec (.elementDelivery e) s = .next t ∧ t.owners = u.owners ∧ SameMemory u t ∧
            EndedAs e k (.error 0x15) t) ∧
          ((∀ i, i < n → page i ≠ none) → ∀ ps : List Nat, (∀ p, p ∈ ps ↔ named p) →
            (flagPending u ps = true → exec (.elementDelivery e) s = .next s) ∧
            (flagPending u ps = false → ∃ t, exec (.elementDelivery e) s = .next t ∧ SameMemory u t ∧
              (∀ p, (named p ∧ (smGet Owner.reset u.owners p).token = true → smGet Owner.reset t.owners p = ⟨false, k.w.w3⟩) ∧
                (¬(named p ∧ (smGet Owner.reset u.owners p).token = true) →
                  smGet Owner.reset t.owners p = smGet Owner.reset u.owners p)) ∧
              ∃ q, (t.ctx e).cmds = [q] ∧ q.seq = k.seq ∧ q.w = k.w ∧ q.started = true ∧ q.fin = none)))) ∧
    ((s.ctx e).cmds = [k] → k.started = true → k.fin = none → (s.ctx e).preempted = false →
      ∃ t, exec (.elementDelivery e) s = .next t ∧ t.owners = s.owners ∧ SameMemory s t ∧
        EndedAs e k (if k.cancel then .cancelled else .completed) t ∧
        ∀ x l, smGet none t.lagging x = some l → l.by_ ≠ k.elem)

/-! The commands of the collective engine. -/

/-- a ⊕ b of a reduction in its type: a sum rounded to nearest even, or the smaller or larger operand; integers wrap and compare by their
signedness (R405). -/
def meet (ty : BitVec 5) (op : BitVec 4) (a b : Nat) : Nat :=
  let fl := fun (f : Fmt) => let x := f.value a
    let y := f.value b
    if op = 0 then (f.sum .rne false [x, y]).1
    else (f.ofValue .rne false (if x.isNan then y else if y.isNan then x else if op = 2 then (if y.below x then x else y)
      else if y.below x then y else x)).1
  let int := fun (w : Nat) (signed : Bool) => if op = 0 then (a + b) % 2 ^ w
    else if op = 2 then (if toInt w signed a < toInt w signed b then b else a)
    else if toInt w signed a < toInt w signed b then a else b
  if ty = 0 then fl fp64 else if ty = 1 then fl fp32 else if ty = 2 then fl fp16 else if ty = 3 then fl bf16
  else if ty = 0x0A then int 32 true else if ty = 0x0B then int 64 true else int 32 false

/-- Bytes of an element of a reduction type. -/
def typeBytes (ty : BitVec 5) : Nat := if ty = 0 ∨ ty = 0x0B then 8 else if ty = 2 ∨ ty = 3 then 2 else 4

/-- The bytes that rank r writes, of sources x_0 to x_(n−1): the folds in ascending rank order, or the sources one behind the other
(R405). -/
def CollectiveBytes (w : Cmd) (n r : Nat) (x : Nat → List Byte) (out : List Byte) : Prop :=
  let m := (w.w3.extractLsb' 0 40).toNat
  let ty := w.w0.extractLsb' 35 5
  let b := typeBytes ty
  let at_ := fun (bs : List Byte) (i : Nat) => leNat ((bs.drop (b * i)).take b)
  let fold := fun (i : Nat) => (List.range (n - 1)).foldl (fun acc j => meet ty (w.w0.extractLsb' 40 4) acc (at_ (x (j + 1)) i)) (at_ (x 0) i)
  (w.cmd = 1 → out.length = b * m ∧ ∀ i, i < m → at_ out i = fold i % 2 ^ (8 * b)) ∧
  (w.cmd = 2 → out.length = b * m ∧ ∀ i, i < m → at_ out i = fold (r * m + i) % 2 ^ (8 * b)) ∧
  (w.cmd = 3 → out.length = n * m ∧ ∀ j, j < n → (out.drop (j * m)).take m = x j)

/-- The one command of a context goes on, changed so. -/
def GoesOn (e : EngineRef) (k : ECmd) (t : State) (q : ECmd) : Prop :=
  (t.ctx e).cmds = [q] ∧ q.seq = k.seq ∧ q.w = k.w ∧ q.fin = none ∧ q.susp = none

/-- A command of IO writes bytes as its next step: it waits at a row that a copyout holds, is suspended before the element by a fault, or
goes on (R82, R375, R407). -/
def Written (e : EngineRef) (k : ECmd) (elem : Nat) (va : Word) (bs : List Byte) (s : State) (P : State → State → Prop) : Prop :=
  let next := fun (P : State → Prop) => ∃ t, exec (.elementDelivery e) s = .next t ∧ P t
  (∀ r, engWrite k.tokenSide (.die 0) k.asid va bs s = .wait r → next fun t => SameMemory s t ∧ ∃ q, GoesOn e k t q ∧ q.holds = r) ∧
  (∀ c a v u, engWrite k.tokenSide (.die 0) k.asid va bs s = .fault c a v u → next (SuspendedAt e k elem c a v u)) ∧
  ∀ u, engWrite k.tokenSide (.die 0) k.asid va bs s = .ok u → next (P u)

/-- A command of the collective engine starts: it records σ; one whose COUNT or LEN is zero has ended; a `step` with a barrier counts itself
and tells the other ranks; an arm reads its command and clears the counter, or ends in error, as a malformed command does (R403, R408,
R411). -/
def CollectivesStart : Prop :=
  ∀ (c : Nat) (s : State) (k : ECmd), let e := EngineRef.coll c
    let n := (k.w.w0.extractLsb' 44 8).toNat
    let next := fun (P : State → Prop) => ∃ t, exec (.elementDelivery e) s = .next t ∧ P t
    let starts := fun (t : State) => ∃ q, GoesOn e k t q ∧ q.started = true ∧ q.sigma = s.coll.sigma ∧ q.before = s.stamp
    ((s.ctx e).head = some k → k.started = false → k.susp = none → (s.ctx e).preempted = false → k.bad = true → s.lagging = [] →
      next fun t => SameMemory s t ∧ t.ctx e = (s.ctx e).finish k.seq (.error 0x15)) ∧ (Alone s e k → k.started = false →
    (1 ≤ k.w.cmd.toNat → k.w.cmd.toNat ≤ 5 →
      (k.w.w3.extractLsb' 0 40 = 0 → next fun t => SameMemory s t ∧ t.mgmt.outbox = s.mgmt.outbox ++ (if k.host then
          [.reply k.ep 0x81 k.tag 0] else []) ∧ EndedAs e k .completed t ∧ ∃ q ∈ (t.ctx e).past, q.seq = k.seq ∧ q.sigma = s.coll.sigma) ∧
      (k.w.w3.extractLsb' 0 40 ≠ 0 → next fun t => SameMemory s t ∧ t.mgmt = s.mgmt ∧ starts t)) ∧
    (k.w.cmd = 7 →
      (k.w.w1 ≠ 1 → next fun t => SameMemory s t ∧ t.mgmt = s.mgmt ∧ t.coll.comms = s.coll.comms ∧ starts t) ∧
      (∀ m, k.w.w1 = 1 → s.comm n = some m → next fun t => SameMemory s t ∧ starts t ∧
        t.comm n = some { m with bars := smPut 0 m.bars m.rank (smGet 0 m.bars m.rank + 1) } ∧
        (∃ q ∈ (t.ctx e).cmds, q.barNo = smGet 0 m.bars m.rank + 1) ∧
        t.mgmt.outbox = s.mgmt.outbox ++ ((List.range m.eps.length).filter (· ≠ m.rank)).map fun r => Sent.peer n r 0 [])) ∧
    (k.w.cmd = 6 → ∀ s1, s1 = State.setCtx { s with stamp := s.stamp + 1 } e
          ((s.ctx e).updCmd k.seq fun q => { q with sigma := s.coll.sigma, before := s.stamp }) →
      (∀ code a v u, engRead (.die 0) k.asid k.w.w1 64 s1 = .fault code a v u → next (SuspendedAt e k 0 code a v u)) ∧
      ∀ u bs, engRead (.die 0) k.asid k.w.w1 64 s1 = .ok (u, bs) → bs.length = 64 → ∀ w : Cmd,
        [w.w0, w.w1, w.w2, w.w3, w.w4, w.w5, w.w6, w.w7] = (List.range 8).map (fun i => BitVec.ofNat 64 (leNat ((bs.drop (8 * i)).take 8))) →
        let good := (w.w0.extractLsb' 52 4).toNat = c ∧
          (((w.cmd = 1 ∨ w.cmd = 2) ∧ reduceOk w s = true) ∨ (w.cmd = 3 ∧ gatherAllOk w s = true)) ∧ smGet none s.coll.buckets n = none
        (¬good → next fun t => SameMemory u t ∧ EndedAs e k (.error 0x15) t) ∧
        (good → next fun t => SameMemory u t ∧ starts t ∧ smGet 0 t.coll.counts n = 0 ∧
          smGet none t.coll.buckets n = some ⟨(k.w.w4.extractLsb' 0 40).toNat, c, k.seq, w⟩)))

/-- A transfer that runs: the next 4,096 bytes of SRC are read and sent to the ranks that need them; a `send` ends when it is paired, a `recv`
writes what came, the shorter length, and a reduction or `allgather` writes its result when every rank's source is there (R405, R406,
R407, R410). -/
def TransfersRun : Prop :=
  ∀ (c : Nat) (s : State) (k : ECmd) (w : Cmd) (m : Comm), let e := EngineRef.coll c
    let next := fun (P : State → Prop) => ∃ t, exec (.elementDelivery e) s = .next t ∧ P t
    let n := m.eps.length
    let count := (w.w3.extractLsb' 0 40).toNat
    let b := typeBytes (w.w0.extractLsb' 35 5)
    let len := if w.cmd = 1 then count * b else if w.cmd = 2 then n * count * b else if w.cmd = 5 then 0 else count
    let out := if w.cmd = 1 ∨ w.cmd = 2 then count * b else n * count
    let segs := (len + 4095) / 4096
    let peer := (w.w4.extractLsb' 0 16).toNat
    let writes := fun (bs : List Byte) (j : Nat) (f : EndStat) =>
      (4096 * j < bs.length → Written e k k.elem (w.w2 + BitVec.ofNat 64 (4096 * j)) ((bs.drop (4096 * j)).take 4096) s fun u t =>
        SameMemory u t ∧ (bs.length ≤ 4096 * (j + 1) → EndedAs e k f t) ∧
          (4096 * (j + 1) < bs.length → ∃ q, GoesOn e k t q ∧ q.elem = k.elem + 1)) ∧
      (bs.length ≤ 4096 * j → next fun t => SameMemory s t ∧ EndedAs e k f t)
    Alone s e k → k.started = true → ((k.w.cmd ≠ 6 ∧ k.entry = none ∧ w = k.w) ∨ (k.w.cmd = 6 ∧ k.entry = some w)) →
    1 ≤ w.cmd.toNat → w.cmd.toNat ≤ 5 → (w.cmd = 1 ∨ w.cmd = 2 →
      w.w0.extractLsb' 35 5 ∈ [0#5, 1, 2, 3, 0x0A, 0x0B, 0x0E] ∧ w.w0.extractLsb' 40 4 ∈ [0#4, 1, 2]) → s.comm (w.w0.extractLsb' 44 8).toNat = some m →
    (k.elem < segs → let va := w.w1 + BitVec.ofNat 64 (4096 * k.elem)
      let size := min 4096 (len - 4096 * k.elem)
      (∀ code a v u, engRead (.die 0) k.asid va size s = .fault code a v u → next (SuspendedAt e k k.elem code a v u)) ∧
      ∀ u bs, engRead (.die 0) k.asid va size s = .ok (u, bs) → next fun t => SameMemory u t ∧ ∃ q, GoesOn e k t q ∧ q.elem = k.elem + 1 ∧
        (∀ x, smGet [] q.peers x = if x = m.rank then smGet [] k.peers x ++ bs else smGet [] k.peers x) ∧
        t.mgmt.outbox = u.mgmt.outbox ++ (if w.cmd = 4 then [peer] else (List.range n).filter (· ≠ m.rank)).map fun r =>
          Sent.peer (w.w0.extractLsb' 44 8).toNat r (if w.cmd = 4 then w.w4.extractLsb' 16 32 else 0) bs) ∧
    (segs ≤ k.elem →
      (w.cmd = 4 → (k.regDone = false → exec (.elementDelivery e) s = .next s) ∧
        (k.regDone = true → next fun t => SameMemory s t ∧ EndedAs e k .completed t)) ∧
      (w.cmd = 5 → (k.regDone = false → exec (.elementDelivery e) s = .next s) ∧
        (k.regDone = true → let data := smGet [] k.peers peer
          writes (data.take count) k.elem (if data.length = count then .completed else .error 0x15))) ∧
      (w.cmd = 1 ∨ w.cmd = 2 ∨ w.cmd = 3 →
        ((∃ r, r < n ∧ (smGet [] k.peers r).length ≠ len) → exec (.elementDelivery e) s = .next s) ∧
        ((∀ r, r < n → (smGet [] k.peers r).length = len) → m.rank < n → 1 ≤ n →
          (w.w1 = w.w2 ∨ w.w1.toNat + len ≤ w.w2.toNat ∨ w.w2.toNat + out ≤ w.w1.toNat) →
          ∃ bs, CollectiveBytes w n m.rank (smGet [] k.peers) bs ∧ writes bs (k.elem - segs) .completed)))

/-- An arm registers its rows one by one, writes its sequence number to RDY, and fires when its counter has reached T: the registrations go,
and the armed command runs in its place with the σ of that moment (R408, R409, R410, R411). -/
def ArmsFire : Prop :=
  ∀ (c : Nat) (s : State) (k : ECmd), let e := EngineRef.coll c
    let next := fun (P : State → Prop) => ∃ t, exec (.elementDelivery e) s = .next t ∧ P t
    let n := (k.w.w0.extractLsb' 44 8).toNat
    let rows := (k.w.w3.extractLsb' 0 40).toNat / 2048
    Alone s e k → k.started = true → k.w.cmd = 6 → k.entry = none →
    (k.elem < rows → let va := rowVa k.w.w2 k.elem
      (∀ code, rowPlace s (.die 0) k.asid va 2048 false = .error code → next (SuspendedAt e k k.elem code 1 va s)) ∧
      ∀ p, rowPlace s (.die 0) k.asid va 2048 false = .ok p → next fun t => SameMemory s t ∧ (∃ q, GoesOn e k t q ∧ q.elem = k.elem + 1) ∧
        (∃ x ∈ (Machine.rowAt t (p.1 / 2048)).buckets, x.1 = n) ∧
        ((∀ x ∈ (Machine.rowAt s (p.1 / 2048)).buckets, x.1 ≠ n) → (n, 0, 2048) ∈ (Machine.rowAt t (p.1 / 2048)).buckets) ∧
        ∀ r, r ≠ p.1 / 2048 → Machine.rowAt t r = Machine.rowAt s r) ∧
    (rows ≤ k.elem → k.regDone = false → let ready := fun (t : State) => ∃ q, GoesOn e k t q ∧ q.regDone = true
      (k.w.w5 = 0 → next fun t => SameMemory s t ∧ ready t) ∧
      (k.w.w5 ≠ 0 → Written e k rows k.w.w5 (leBytes 8 k.seq) s fun u t => SameMemory u t ∧ ready t)) ∧
    (rows ≤ k.elem → k.regDone = true → ∀ b, smGet none s.coll.buckets n = some b → b.ctx = c → b.seq = k.seq →
      ((smGet 0 s.coll.counts n).toNat < b.t → exec (.elementDelivery e) s = .next s) ∧
      (b.t ≤ (smGet 0 s.coll.counts n).toNat → next fun t => SameMemory s t ∧ smGet none t.coll.buckets n = none ∧
        (∀ r, ∀ x ∈ (Machine.rowAt t r).buckets, x.1 ≠ n) ∧
        (b.cmd.w3.extractLsb' 0 40 = 0 → EndedAs e k .completed t) ∧
        (b.cmd.w3.extractLsb' 0 40 ≠ 0 → ∃ q, GoesOn e k t q ∧ q.entry = some b.cmd ∧ q.elem = 0 ∧ q.regDone = false ∧
          q.sigma = s.coll.sigma)))

/-- A `step` that runs waits until every rank has started its own of the same number, advances σ as one event, waits until the snapshots
of that σ have placed their cuts, and writes σ to OUT (R374, R411). -/
def StepsAdvance : Prop :=
  ∀ (c : Nat) (s : State) (k : ECmd), let e := EngineRef.coll c
    let next := fun (P : State → Prop) => ∃ t, exec (.elementDelivery e) s = .next t ∧ P t
    let behind := k.w.w1 = 1 ∧ ∃ m, s.comm (k.w.w0.extractLsb' 44 8).toNat = some m ∧ ∃ r, r < m.eps.length ∧ smGet 0 m.bars r < k.barNo
    let open_ := ∃ x ∈ activeCmds s, x.k.w.cmd = 9 ∧ x.k.cancel = false ∧ x.k.w.w3 = k.cfg ∧ ∃ r ∈ x.k.rows, r ∉ x.k.res
    Alone s e k → k.started = true → k.w.cmd = 7 →
    (k.regDone = false → (behind → exec (.elementDelivery e) s = .next s) ∧
      (¬behind → next fun t => SameMemory s t ∧ t.coll.sigma = s.coll.sigma + 1 ∧ ∃ q, GoesOn e k t q ∧ q.regDone = true ∧
        q.cfg = s.coll.sigma + 1)) ∧
    (k.regDone = true → (open_ → exec (.elementDelivery e) s = .next s) ∧ (¬open_ →
      (k.w.w2 = 0 → next fun t => SameMemory s t ∧ EndedAs e k .completed t) ∧
      (k.w.w2 ≠ 0 → Written e k 0 k.w.w2 (leBytes 8 k.cfg.toNat) s fun u t => SameMemory u t ∧ EndedAs e k .completed t)))

/-! Passes of the matrix engine. -/

/-- Element (r, c) of an operand of an entry, by the configuration sampled at its issue (R270). -/
def operand (q : Quad) (n : MEntry) (i bits r c : Nat) : Nat := tileGet (opTile q n i) (tcCols (n.cfg.getD i 0)) bits r c

/-- An element of 32 bits takes an exact integer sum, clamped, with SA when it clamps (R111). -/
def Clamped (old new : Nat) (p : Int) (fl : Flags) : Prop :=
  let x := toInt 32 true old + p
  new = ofInt 32 (max (-(2 ^ 31)) (min x (2 ^ 31 - 1))) ∧ (x < -(2 ^ 31) ∨ 2 ^ 31 ≤ x → fl &&& fSA ≠ 0)

/-- An accumulator goes through roundings: each adds a real number, exact before the rounding (R111, R281). -/
def Accumulates (f : Fmt) (mode : Rnd) (fo : Bool) (old new steps : Nat) (term : Nat → ℝ) (fl : Flags) : Prop :=
  ∃ acc : Nat → Nat, acc 0 = old ∧ acc steps = new ∧ ∀ c, c < steps → ∀ y, Means (f.value (acc c)) y →
    (y + term c ≠ 0 → ∃ g, Rounds f mode fo (y + term c) (acc (c + 1), g) ∧ g &&& ~~~fl = 0) ∧
    (y + term c = 0 → Means (f.value (acc (c + 1))) 0)

/-- What a pass leaves: in each active row every element of the written tile takes its sums, and nothing else of the tile changes
(R111, R279 to R283). Sources are seen through the flush-input bit of their class. -/
def PassEffect (q : Quad) (n : MEntry) : Prop :=
  let new := (effect q n).1
  let fl := (effect q n).2.1
  let cols := tcCols (n.cfg.getD 0 0)
  let el := fun (b : SMap Byte) (bits r c : Nat) => tileGet b cols bits r c
  let old := opTile q n 0
  let src := fun (f : Fmt) (i bits r c : Nat) (x : ℝ) => Means (f.source (flushIn n.fpm f) (operand q n i bits r c)).1 x
  let keeps := fun (bits : Nat) => ∀ a, (∀ r c i, r < 32 → c < cols → n.mask.getLsbD r = true → i < bits → a ≠ ((r * cols + c) * bits + i) / 8) →
    smGet 0 new a = smGet 0 old a
  let each := fun (bits : Nat) (P : Nat → Nat → Prop) => keeps bits ∧ ∀ r c, r < 32 → c < cols → n.mask.getLsbD r = true → P r c
  match n.op with
  | .mma ty rs _ _ k =>
    let f := if ty = .f64 then fp64 else if ty = .f32 then fp32 else if ty = .f16 then fp16 else bf16
    let step := if ty = .f16 ∨ ty = .bf16 then 32 else k
    let g := if ty = .f64 then fp64 else fp32
    if k = 0 then new = old ∧ fl = 0
    else if ty = .s8 then each 32 fun r j => Clamped (el old 32 r j) (el new 32 r j)
      ((List.range k).map fun i => toInt 8 true (operand q n 1 8 r i) * toInt 8 true (tileGet (opTile q n 2) cols 8 i j)).sum fl
    else each g.width fun r j => ∀ a b : Nat → ℝ, (∀ i, i < k → src f 1 f.width r i (a i) ∧
        Means (f.source (flushIn n.fpm f) (tileGet (opTile q n 2) cols f.width i j)).1 (b i)) →
      Accumulates g (rndMode rs n.fpm) (flushOut n.fpm g) (el old g.width r j) (el new g.width r j) ((k + step - 1) / step)
        (fun c => ((List.range (min step (k - step * c))).map fun i => a (step * c + i) * b (step * c + i)).sum) fl
  | .mmaz q4 _ _ =>
    let bits := if q4 then 4 else 8
    let grp := 32 * 2 ^ tcGs (n.cfg.getD 1 0)
    let nb := tcCols (n.cfg.getD 2 0)
    each 32 fun r c => let g := c / nb
      Clamped (el old 32 r c) (el new 32 r c) ((List.range grp).map fun i =>
        ((operand q n 1 bits r (grp * g + i) : Int) - operand q n 3 bits r g) *
          ((operand q n 2 bits (grp * g + i) (c % nb) : Int) - operand q n 3 bits (32 + g) (c % nb))).sum fl
  | .sacc rs => each 32 fun r j => let ng := tcCols (n.cfg.getD 1 0) / cols
      ∀ a b : Nat → ℝ, (∀ g, g < ng → src fp16 2 16 r g (a g) ∧ src fp16 3 16 g j (b g)) →
        Accumulates fp32 (rndMode rs n.fpm) (flushOut n.fpm fp32) (el old 32 r j) (el new 32 r j) ng
          (fun g => toInt 32 true (operand q n 1 32 r (g * cols + j)) * a g * b g) fl
  | .tzero => new = [] ∧ fl = 0
  | .toVector j rb => new = old ∧ fl = 0 ∧ ∀ i, i < 32 → (lane (effect q n).2.2 i).toNat =
      leNat (smBytes old ((32 * rb + i) * cols * tcBits (n.cfg.getD 0 0) / 8 + 4 * j) 4)
  | .toTile j rb => let at_ := fun (i : Nat) => (32 * rb + i) * cols * tcBits (n.cfg.getD 0 0) / 8 + 4 * j
      fl = 0 ∧ (4 * j + 4 ≤ cols * tcBits (n.cfg.getD 0 0) / 8 → cols * tcBits (n.cfg.getD 0 0) % 8 = 0 →
        (∀ i, i < 32 → n.mask.getLsbD i = true → leNat (smBytes new (at_ i) 4) = (lane n.data i).toNat) ∧
        ∀ a, (∀ i, i < 32 → n.mask.getLsbD i = true → a < at_ i ∨ at_ i + 4 ≤ a) → smGet 0 new a = smGet 0 old a)

/-- The lanes of a put that land now: those named of its lanes that have not landed. -/
def PutLands (a : Acc) (lanes : BitVec 32) (n : Nat) : Prop := ∃ l ∈ a.lanes, l.lane = n ∧ l.done = false ∧ lanes.getLsbD n = true

/-- A reply of the management core joins what the device has sent. -/
def Replies (s t : State) (ty : BitVec 8) (tag : BitVec 32) (status : Word) : Prop :=
  t.mgmt.outbox = s.mgmt.outbox ++ [.reply 0 ty tag status]

end Sys2Proof.Says
open Sys2Proof Sys2Proof.Machine Sys2Proof.Says

/-! ## Commands -/

/-- A queue takes a command whose context holds fewer than 64 that have not ended: it joins the context with the next sequence number,
marked bad where its fields are not what the tables allow, and no counter moves; a full context takes none and nothing changes. A
`tfill` or `tdrain` of a tile that may be moved also sets it filling or draining. A `resume` lets the suspended command that its handle
names go on, keeps a record of it that the fault queue has not taken, and takes no number; one of a pre-empted context changes nothing,
which is the model's choice (notes/assumptions/70.md). An element delivered is the next of the context's head command, at the addresses
of its table: it ends the command after the last, and suspends it before the element where it meets a fault. A `clist` runs its entries so,
one after the other. An engine reads and writes the bytes that memory holds at the place its address translates to (R38, R82, R89, R180,
R289, R294, R295, R296, R297, R298, R299, R300, R301, R302, R303, R306, R352). -/
def Obligations.CommandsAcceptedAndDelivered : Prop :=
  (∀ p ∈ queueTable, ∀ (w : Cmd) (s : State), let e := p.2.1 w s
    (HasRoom (s.ctx e) → ∃ t, exec (p.1 w) s = .next t ∧ Accepted (s.ctx e) (t.ctx e) w (p.2.2 w s) ∧ t.g = s.g ∧ SameMemory s t) ∧
    (¬HasRoom (s.ctx e) → exec (p.1 w) s = .next s)) ∧
  (∀ (drain : Bool) (w : Cmd) (s : State) (k : Nat), let i : Instr := if drain then .tdrain w else .tfill w
    let e := EngineRef.copy (quadOfCore s.g.core) (w.w0.extractLsb' 53 3).toNat
    let old := smGet Tile.reset s.quad.tiles k
    HasRoom (s.ctx e) → s.tileReg (w.w0.extractLsb' 38 6) = some k →
    (tileFieldsOk w = true → tcCols old.ctl * tcBits old.ctl % 8 = 0 → (old.st = .ready ∨ (old.st = .empty ∧ drain = false)) →
      ∃ t, exec i s = .next t ∧ Accepted (s.ctx e) (t.ctx e) w true ∧ SameMemory s t ∧
        ∀ j, smGet Tile.reset t.quad.tiles j =
          if j = k then { old with st := if drain then .draining else .filling } else smGet Tile.reset s.quad.tiles j) ∧
    ((old.st = .filling ∨ old.st = .draining ∨ (old.st = .empty ∧ drain = true)) →
      ∃ t, exec i s = .next t ∧ Accepted (s.ctx e) (t.ctx e) w false ∧ t.quad.tiles = s.quad.tiles)) ∧
  (∀ p ∈ [(Instr.copyResume, fun (w : Cmd) (s : State) => EngineRef.copy (quadOfCore s.g.core) (w.w0.extractLsb' 53 3).toNat, 52),
      (.basinResume, fun w s => (basinRef w s).1, 47), (.collectiveResume, fun w _ => EngineRef.coll (w.w0.extractLsb' 52 4).toNat, 51)],
    ∀ (w : Cmd) (s : State) (k : ECmd), let e := p.2.1 w s
      resumeOk w p.2.2 = true → (p.1 = .basinResume → (basinRef w s).2 = false) →
      ((s.ctx e).cmds.find? fun x => handleOf e x.seq == w.w1 && x.susp.isSome && x.fin.isNone) = some k →
      ((s.ctx e).preempted = false → ∃ t, exec (p.1 w) s = .next t ∧ SameMemory s t ∧
        (k.waiting = none → t.mgmt.recsDue = s.mgmt.recsDue) ∧
        (∀ fr, k.waiting = some fr → ∃ d, t.mgmt.recsDue = s.mgmt.recsDue ++ [d] ∧ d.fr = fr ∧
          (AsksHost k.pol fr.code → d.ask = some (k.ep, k.tag)) ∧ (¬AsksHost k.pol fr.code → d.ask = none)) ∧
        t.ctx e = (s.ctx e).updCmd k.seq fun c => { c with susp := none, waiting := none }) ∧
      ((s.ctx e).preempted = true → exec (p.1 w) s = .next s)) ∧
  (∀ (q c : Nat) (s : State) (k : ECmd), let e := EngineRef.copy q c
    (s.ctx e).head = some k → k.susp = none →
    (k.started = false → (s.ctx e).preempted = false → k.bad = true → k.host = false → k.tile = none →
      ∃ t, exec (.elementDelivery e) s = .next t ∧ t.ctx e = (s.ctx e).finish k.seq (.error 0x15) ∧ SameMemory s t) ∧
    (k.started = true → (s.ctx e).preempted = false → k.w.cmd ≠ 8 →
      (∀ u, copyElem e k k.w k.block k.elem s = .ok u → exec (.elementDelivery e) s = .next (holdAt e k.seq none (
        if k.elem + 1 = elemCount k.w k.block k.cfg then endCmd e k .completed u
        else u.setCtx e ((u.ctx e).updCmd k.seq fun c => { c with elem := k.elem + 1 })))) ∧
      (∀ c a v u, copyElem e k k.w k.block k.elem s = .fault c a v u → ∃ t, exec (.elementDelivery e) s = .next t ∧ SameMemory u t ∧
        t.ctx e = (u.ctx e).updCmd k.seq fun x => { x with susp := some c, elem := k.elem, holds := none, waiting := some {
          code := c, orig := 2, imprec := false, index := 0, slot := 0, core := 0, lanes := 0, clause := BitVec.ofNat 56 k.elem
          acc := a, addr := v.truncate 56, info := handleOf e k.seq } }) ∧
      (∀ r, copyElem e k k.w k.block k.elem s = .wait r → ∃ t, exec (.elementDelivery e) s = .next t ∧ SameMemory s t ∧
        t.ctx e = (s.ctx e).updCmd k.seq fun x => { x with holds := r })) ∧
    ((s.ctx e).preempted = true → exec (.elementDelivery e) s = .next s)) ∧
  EngineElements ∧ ListEntries ∧
  (∀ (e : EngineRef) (k : ECmd) (ag : Agent) (src dst : Word) (n : Nat) (s u : State) (bs : List Byte),
    (∀ c a v t, elemRead k ag src n s = .fault c a v t → moveElem e k ag src dst n s = .fault c a v t) ∧
    (elemRead k ag src n s = .ok (u, bs) → moveElem e k ag src dst n s = elemWrite e k ag dst bs u)) ∧
  (∀ (ag : Agent) (asid : Nat) (va : Word) (n pa key : Nat) (side : Bool) (bs : List Byte) (s : State), 1 ≤ n →
    va.toNat % 256 + n ≤ 256 →
    (engTranslate s ag asid va n 1 = .ok (.dram pa key) → Settled s pa n key →
      ∃ t, engRead ag asid va n s = .ok (t, smBytes s.dram pa n) ∧ SameMemory s t) ∧
    (∀ c j, engTranslate s ag asid va n 1 = .bad c j → engRead ag asid va n s = .fault c 1 va s) ∧
    (engTranslate s ag asid va n 2 = .ok (.dram pa key) → bs.length = n → Settled s pa n key → Writable s side pa →
      (Machine.rowAt s (Machine.rowOf pa)).deps = [] → ∃ t, engWrite side ag asid va bs s = .ok t ∧ ∀ a, smGet 0 t.dram a = smGet 0 (smWrite s.dram pa bs) a) ∧
    (∀ c j, engTranslate s ag asid va n 2 = .bad c j → bs.length = n → engWrite side ag asid va bs s = .fault c 2 va s) ∧
    (∀ j, localBase ≤ va.toNat → (j = 1 ∨ j = 2) → engTranslate s ag asid va n j = .bad 0x08 5))

/-! ## Events of a group -/

/-- The vector slice takes the token at the head of its runnel: a block begins with its count or at a point not yet visited, in any
order, a mask is pushed, inverted or popped, a uniform value is deposited, a `vsync` completes, a `vget` receives its value. A token
without a block finishes at once, when the results of those before are written (R28, R43, R44, R53, R123, R142, R143, R144, R178,
R179). -/
def Obligations.TokensTaken : Prop :=
  ∀ s : State, let g := s.g.landAll
    (∀ blk c, Head s.g (.run blk c) →
      (c = 0 → ∃ t, exec .runToken s = .next t ∧ Finished s t g) ∧
      (c ≠ 0 → exec .runToken s = .next { s with g := { s.g with
        i0 := 0, i1 := 0, i2 := 0, i3 := 0
        vpos := { VPos.reset with hdr := blk.zeroExtend 64, begun := true, left := c } } })) ∧
    (∀ blk e0 e1 e2 p, Head s.g (.walk blk e0 e1 e2) →
      (e0 * e1 * e2 = 0 → ∃ t, exec (.walkToken p) s = .next t ∧ Finished s t g) ∧
      (p < e0 * e1 * e2 → exec (.walkToken p) s = .next { s with g := { s.g with
        i0 := BitVec.ofNat 32 (p % e0), i1 := BitVec.ofNat 32 (p / e0 % e1), i2 := BitVec.ofNat 32 (p / e0 / e1)
        i3 := BitVec.ofNat 32 p
        vpos := { VPos.reset with hdr := blk.zeroExtend 64, begun := true, point := true, visited := [p] } } })) ∧
    (∀ blk e0 e1 e2 p k rest, s.g.live = true → s.g.halted = false → s.g.runnel = k :: rest → k.kind = .walk blk e0 e1 e2 →
      s.g.vpos.begun = true → s.g.vpos.point = false → p < e0 * e1 * e2 → p ∉ s.g.vpos.visited →
      ∃ t, exec (.walkToken p) s = .next t ∧ t = { s with g := t.g } ∧ t.g.vpos.visited = p :: s.g.vpos.visited ∧
        t.g.vpos.point = true ∧ t.g.vpos.hdr = blk.zeroExtend 64 ∧ t.g.i0 = BitVec.ofNat 32 (p % e0) ∧
        t.g.i1 = BitVec.ofNat 32 (p / e0 % e1) ∧ t.g.i2 = BitVec.ofNat 32 (p / e0 / e1) ∧ t.g.i3 = BitVec.ofNat 32 p ∧
        t.g.runnel = s.g.runnel) ∧
    (∀ p neg, Head s.g (.maskPush p neg) → ∃ t, exec .maskPush s = .next t ∧ Finished s t { g with
      masks := (g.top &&& (if neg then ~~~ g.readP p else g.readP p)) :: g.masks, paths := (s.stamp, false) :: g.paths }) ∧
    (∀ a b rest n c ps, Head s.g .maskInvert → s.g.masks = a :: b :: rest → s.g.paths = (n, c) :: ps →
      ∃ t, exec .maskInvert s = .next t ∧ Finished s t { g with masks := (b &&& ~~~ a) :: b :: rest, paths := (n, !c) :: ps }) ∧
    (∀ a b rest, Head s.g .maskPop → s.g.masks = a :: b :: rest →
      ∃ t, exec .maskPop s = .next t ∧ Finished s t { g with masks := b :: rest, paths := g.paths.tail }) ∧
    (∀ k v, Head s.g (.deposit k v) → ∃ t, exec .deposit s = .next t ∧ Finished s t { g with k := t.g.k } ∧
      ∀ j, t.g.readK j = if j = k then v else s.g.readK j) ∧
    (Head s.g .sync → ∃ t, exec .synchronise s = .next t ∧
      Finished s t { g with block := if s.g.block = .sync then .syncDone else s.g.block }) ∧
    (∀ sel ln reg, Head s.g .ret → s.g.block = .get sel ln reg →
      let r : VReg := BitVec.ofNat 11 reg
      (s.g.tokMode.chk.getLsbD 1 = false → ∃ t v, exec .returnTok s = .next t ∧ Finished s t { g with block := .got v } ∧
        (sel = 0 → v = (lane (g.readV r) ln).zeroExtend 64) ∧
        (sel = 1 → v.extractLsb' 0 32 = lane (g.readV r) ln ∧ v.extractLsb' 32 32 = lane (g.readV (r + 1)) ln) ∧
        (sel = 2 → v = (g.readP (BitVec.ofNat 3 reg)).zeroExtend 64) ∧ (sel = 3 → v = g.top.zeroExtend 64)) ∧
      (s.g.tokMode.chk.getLsbD 1 = true → sel = 0 → g.name r = none → ∃ t x, exec .returnTok s = .next t ∧
        t.g.recs = s.g.recs ++ [x] ∧ x.fr.code = 0x05 ∧ x.fr.orig = 0 ∧ x.fr.info = r.zeroExtend 64))

/-- A free sequencer grants a clause to its oldest ready group that is not paused, a paused one only when the core has no other ready.
The clause is fetched whole first: a word is read as memory holds it; a word that no fetch may reach, or in a poisoned sector, faults
with ACC 4 at the clause and INDEX 0; a header that is none, or of the other slice, faults CLAUSE_ILLEGAL with INFO the header; a resume
beyond the last instruction TARGET_BAD. A free pipe goes to the ready vector clause of the oldest group, `delay` cycles on, with the same
faults; a held operation that its waits name faults at the clause. A pause runs out. When every group of a core waits for a bind in
a bank that has no register for it, or is blocked at a barrier, an `await` or a rendezvous in a team that holds such a group, the oldest
that waits for a bind faults REGS_EXHAUSTED with INFO the free registers of each bank, and no group that can go on stands by (R41, R77, R84, R85, R113,
R115, R141, R146, R166, R201, R203, R209, R250, R265, R423, R424). -/
def Obligations.GrantsAndPauses : Prop :=
  (∀ s, exec .pauseExpiry s = .next { s with g := { s.g with pause := 0 } }) ∧
  (∀ (core sq : Nat) (s : State), sq < 2 → smGet none (smGet Core.reset s.cores core).seqGrant sq = none →
    (pickControl s core sq = none → exec (.clauseGrant core sq) s = .next s) ∧
    (∀ k ∈ s.coreGroups core, ctlReady s k = true → k.slot % 2 = sq →
      (k.pause = 0 ∨ ∀ j ∈ s.coreGroups core, ctlReady s j = true → j.pause ≠ 0) → ∃ h, pickControl s core sq = some h) ∧
    (∀ h, pickControl s core sq = some h → ∃ t0, focusOn (some (h.core, h.slot)) s = some t0 ∧
      exec (.clauseGrant core sq) s = .next (grantControl t0)) ∧
    ∀ h t0, pickControl s core sq = some h → focusOn (some (h.core, h.slot)) s = some t0 → t0.g.pos.code ≠ [] →
      (∃ t, exec (.clauseGrant core sq) s = .next t ∧ t.g = { t0.g with ageC := s.stamp } ∧ SameMemory s t ∧
        smGet none (smGet Core.reset t.cores core).seqGrant sq = some h.slot) ∧
      h.core = core ∧ h.slot % 2 = sq ∧ ctlReady s h = true ∧
      (∀ k ∈ s.coreGroups core, ctlReady s k = true → k.slot % 2 = sq → k.pause = 0 → h.pause = 0 → h.ageC ≤ k.ageC) ∧
      (h.pause ≠ 0 → ∀ k ∈ s.coreGroups core, ctlReady s k = true → k.pause ≠ 0)) ∧
  (∀ (s t : State) (h : Word) (ws : List Word), s.g.pos.code = [] →
    fetchClause s s.g s.g.pos.hdr (clauseLen false s.g.pos.idx) = .ok t (h :: ws) →
    let faults := fun (fr : FaultRec) => Faulted { fr := fr, sent := false, held := none, act := none } t (grantControl s)
    ((decodeHeader h = none ∨ ∃ hd, decodeHeader h = some hd ∧ hd.vec = true) →
      faults { ctlRecord 0x01 0 0 h t with index := 0 }) ∧
    (∀ hd, decodeHeader h = some hd → hd.vec = false →
      (hd.n.toNat < t.g.pos.idx →
        faults (ctlRecord 0x03 0 0 ((BitVec.ofNat 64 t.g.pos.idx <<< 60) ||| (t.g.pos.hdr.truncate 56 : BitVec 56).zeroExtend 64) t)) ∧
      (t.g.pos.idx ≤ hd.n.toNat → (grantControl s).g = { t.g with ageC := t.stamp, pos := { t.g.pos with n := hd.n.toNat, code := ws } } ∧
        SameMemory t (grantControl s) ∧
        smGet none (smGet Core.reset (grantControl s).cores t.g.core).seqGrant (t.g.slot % 2) = some t.g.slot))) ∧
  (∀ (s : State), s.g.pos.code = [] →
    (∀ c i va t, fetchClause s s.g s.g.pos.hdr (clauseLen false s.g.pos.idx) = .fault c i va t →
      FetchFault t.g.pos.hdr c i va t (grantControl s)) ∧
    (fetchClause s s.g s.g.pos.hdr (clauseLen false s.g.pos.idx) = .wait → grantControl s = s)) ∧
  (∀ (s : State) (va : Word) (pa key : Nat), accessCheck s s.g va 8 4 ⟨false, true⟩ = .ok (.dram pa key) →
    (Settled s pa 8 key → Machine.rowOf pa = Machine.rowOf (pa + 7) → lineBuffered s s.g.core (pa / 128) = false →
      ∃ t, fetchHeader s s.g va = .ok t [BitVec.ofNat 64 (leNat (smBytes s.dram pa 8))] ∧ SameMemory s t) ∧
    (∀ k, Quiet s → smGet 0 s.lineKey (pa / 128) = key → firstPoison s pa 8 = some k → lineBuffered s s.g.core (pa / 128) = false →
      ∃ t, fetchHeader s s.g va = .fault 0x14 (BitVec.ofNat 64 (32 * k)) va t ∧ SameMemory s t ∧ t.g = s.g) ∧
    (lineBuffered s s.g.core (pa / 128) = true → fetchHeader s s.g va = .wait)) ∧
  (∀ (s : State) (va : Word) (c : BitVec 8) (i : Word), accessCheck s s.g va 8 4 ⟨false, true⟩ = .bad c i →
    fetchHeader s s.g va = .fault c i va s) ∧
  (∀ (core pipe delay : Nat) (s : State), pipe < 4 → smGet none (smGet Core.reset s.cores core).pipe pipe = none →
    ((∀ h ∈ s.coreGroups core, ¬PipeReady s pipe h) → exec (.pipeGrant core pipe delay) s = .next s) ∧
    ((∃ h ∈ s.coreGroups core, PipeReady s pipe h) → ∃ h ∈ s.coreGroups core, PipeReady s pipe h ∧
      (∀ k ∈ s.coreGroups core, PipeReady s pipe k → h.ageV ≤ k.ageV) ∧
      ∀ t0, focusOn (some (h.core, h.slot)) s = some t0 → exec (.pipeGrant core pipe delay) s = .next (grantPipe core pipe delay t0))) ∧
  (∀ (pipe : Nat) (s : State) (h : Word) (ws : List Word) (hd : Header), s.g.live = true → s.g.halted = false →
    s.g.vpos.begun = true → s.g.vpos.pipe = none → s.g.stall = none →
    (∀ k rest b e0 e1 e2, s.g.runnel = k :: rest → k.kind = .walk b e0 e1 e2 → s.g.vpos.point = true) →
    s.g.vpos.code = h :: ws → decodeHeader h = some hd → (ws.any fp64Word = true → pipe ≤ 1) →
    (s.g.vpos.resumed = false → ∀ j, j < 6 → hd.wait.getLsbD j = true → s.g.slotCount (j + 1) = 0) → vecReady pipe s = true) ∧
  (∀ (core pipe delay : Nat) (s t : State) (h : Word) (ws : List Word) (hd : Header), fetchVector s = .ok t (h :: ws) →
    decodeHeader h = some hd →
    let waits := t.g.vpos.resumed = false ∧ t.g.stall = none
    let u := grantPipe core pipe delay s
    (∀ x l, waits → t.g.waitHeld hd = some (x, l) → ∃ r, Faulted r t u ∧ r.fr.imprec = true ∧ r.fr.index = 0 ∧ r.held = some x.stamp ∧
      r.fr.clause = t.g.vpos.hdr.truncate 56 ∧ r.fr.code = (l.held.getD (0, 0)).1) ∧
    ((waits → t.g.waitHeld hd = none) → t.g.vpos.idx ≤ hd.n.toNat →
      u.g.vpos = { t.g.vpos with n := hd.n.toNat, code := h :: ws, last := hd.blkEnd, pipe := some pipe, granted := t.stamp } ∧ SameMemory t u ∧
      (waits → u.g.vnow = t.g.vnow + delay ∧ u.g.pend = t.g.pend) ∧
      (¬waits → u.g.vnow = t.g.landAll.vnow + delay ∧ u.g.pend = []) ∧
      smGet none (smGet Core.reset u.cores core).pipe pipe = some t.g.slot)) ∧
  (∀ (core pipe delay : Nat) (s : State),
    (∀ h t, fetchVector s = .illegal h t → Faulted { sent := false, held := none, act := none, fr := { t.g.vecRec 0x01 t.g.top 0 0 h with
      index := 0 } } t (grantPipe core pipe delay s)) ∧
    (∀ c i va t, fetchVector s = .fault c i va t → Faulted { sent := false, held := none, act := none, fr := { t.g.vecRec c t.g.top 4
      (va.truncate 56) i with index := 0 } } t (grantPipe core pipe delay s)) ∧
    (fetchVector s = .wait → grantPipe core pipe delay s = s)) ∧
  (∀ (s : State) (born : Nat), let hs := s.coreGroups s.g.core
    s.g.live = true → unstarted s s.g.core = false → Starving s s.g → born ∈ births s.g → (∀ x ∈ births s.g, born ≤ x) →
    (∀ h ∈ hs, h.halted = false ∧ (Starving s h ∨ Meeting s h ∧ ∃ k ∈ hs, k.team = h.team ∧ Starving s k) ∧
      (h = s.g ∨ ¬Starving s h ∨ ∀ x ∈ births h, born < x)) →
    ∃ t r, exec (.regsExhausted s.g.core) s = .next t ∧
      Faulted r { s with cores := smUpd Core.reset s.cores s.g.core fun c => { c with relieved := false } } t ∧
      r.fr.code = 0x06 ∧ r.fr.orig = 1 ∧ r.fr.imprec = false ∧
      ∀ b, b < 4 → r.fr.info.extractLsb' (16 * b) 16 = BitVec.ofNat 16 (freeRegs s s.g.core b)) ∧
  (∀ (s : State) (core : Nat), ∀ h ∈ s.coreGroups core, h.halted = true ∨ (h.stall = none ∧ h.arrivals = [] ∧ ctlReady s h = true) →
    exec (.regsExhausted core) s = .next s)

/-- Accesses at their homes, once the entries of the page-owner table that arrive with the event have. A load or an atomic returns the
bytes before it to its register, extended, whether its slice is control or vector: a control register, the lanes of a vector register, a
pair, `ld.turn` with its turned bit, a table read its value; an atomic leaves what Table 73 gives. A load may be served by the line its
L1 holds, and brings its line there as its hint says. A store enters its core's buffer, updating its line in L1, and then writes its bytes
and no other; it is held where the other side owns the page as its home holds the entry, or where the row is derived; a handoff's flag
store finds its entries at every home. A deferred addition joins its bank's queue. The first unit at a FIFO bank pushes or pops. A
zero-mask instruction leaves its slot; a fence completes when nothing keeps it; the TLBs are emptied, after the change of mapping that goes
with it, once no access stands that used one (notes/assumptions/48.md says where a mapping comes from) (R62, R64, R72, R80, R127, R170, R207, R214, R235, R236, R256, R257, R258, R259, R316, R319, R320, R328, R329, R347, R370, R387, R389,
R390). -/
def Obligations.AccessesServed : Prop :=
  (∀ s : State, ∃ m n, ownersArrive s = { s with lagging := m, fresh := n } ∧ (s.lagging = [] → m = [])) ∧
  (∀ (s0 : State) (stamp : Nat) (a : Acc) (l : LaneAcc), let s := ownersArrive s0
    Lane1 s stamp l.lane a l → homeReady s a l = true → 1 ≤ a.w → l.lane < 32 → (∀ k ∈ a.lanes, k ≠ l → k.done = true) →
    let end_ := exec (.resultArrival stamp (1#32 <<< l.lane) 0) s0
    let gives := fun (v : Nat) (t : State) => t.g.accs = s.g.accs.filter (fun x => x.stamp != stamp) ∧
      (∀ d bits sg, a.dst = .x d bits sg → a.lanes = [l] → t.g.readX d = if d = 0 then 0 else extended bits sg v) ∧
      (∀ r b0 b1 wide bits sg, a.dst = .v r b0 b1 wide bits sg → s.g.bindOf r = some b0 →
        (wide = true → s.g.bindOf (r + 1) = some b1) → ∀ n, n < 32 →
        (a.mask.getLsbD n = false → lane (t.g.readV r) n = lane (s.g.readV r) n) ∧
        (a.mask.getLsbD n = true → ∀ k ∈ a.lanes, k.lane = n → (∀ j ∈ a.lanes, j.lane = n → j = k) →
          let x := if k = l then v else k.data.toNat
          lane (t.g.readV r) n = (extended bits sg x).truncate 32 ∧
          (wide = true → lane (t.g.readV (r + 1)) n = (BitVec.ofNat 64 x).extractLsb' 32 32)));
    (∀ p, a.kind = .load → l.loc = .sram p → ∃ t, end_ = .next t ∧ gives (leNat (smBytes s.sram p a.w)) t ∧ SameMemory s t) ∧
    (∀ pa key, a.kind = .load → l.loc = .dram pa key → Settled s pa a.w key → ∃ t, end_ = .next t ∧
      gives (leNat (smBytes s.dram pa a.w)) t ∧ SameMemory s t ∧
      ((a.hint = .dflt ∨ a.hint = .keep) → (a.acq = false ∨ a.lanes = [l]) → hasL1 (smGet Core.reset s.cores s.g.core) = true →
        ∃ i, l1Find (smGet Core.reset t.cores s.g.core) (pa / 128) =
          some (i, BitVec.ofNat 1024 (leNat (smBytes s.dram (128 * (pa / 128)) 128)))) ∧
      (a.hint = .nol1 → l1Find (smGet Core.reset s.cores s.g.core) (pa / 128) = none →
        l1Find (smGet Core.reset t.cores s.g.core) (pa / 128) = none) ∧
      (a.hint = .nol1 → (a.acq = true → scopeCode a.scope < 2) →
        (smGet Core.reset t.cores s.g.core).l1 = (smGet Core.reset s.cores s.g.core).l1)) ∧
    (∀ pa key r b0 b1 bt wide, a.kind = .turn → l.loc = .dram pa key → Settled s pa a.w key → a.dst = .vturn r b0 b1 bt wide →
      a.lanes = [l] → s.g.bindOf r = some b0 → a.mask.getLsbD l.lane = true → l.lane < 32 →
      ∃ t, end_ = .next t ∧ SameMemory s t ∧
        lane (t.g.readV r) l.lane = (BitVec.ofNat 64 (leNat (smBytes s.dram pa a.w))).truncate 32 ∧
        let bit : Lane := if (Machine.rowAt s (Machine.rowOf pa)).pending.isNone then 1 else 0
        (wide = false → s.g.bindOf (r + 1) = some bt → lane (t.g.readV (r + 1)) l.lane = bit) ∧
        (wide = true → s.g.bindOf (r + 1) = some b1 → s.g.bindOf (r + 2) = some bt →
          lane (t.g.readV (r + 1)) l.lane = (BitVec.ofNat 64 (leNat (smBytes s.dram pa a.w))).extractLsb' 32 32 ∧
          lane (t.g.readV (r + 2)) l.lane = bit)) ∧
    (∀ p enc h fpm, a.kind = .qtab enc h fpm → l.loc = .sram p → ∃ t, end_ = .next t ∧ SameMemory s t ∧
      gives (q8Result enc h fpm l (smBytes s.sram p a.w)).1.toNat t) ∧
    (∀ op sn, a.kind = .atom op sn →
      let new := fun (old : Nat) => table73 op sn a.w old (l.data.toNat % 2 ^ (8 * a.w)) (l.cmp.toNat % 2 ^ (8 * a.w));
      (∀ p, l.loc = .sram p → ∃ t, end_ = .next t ∧
        let old := leNat (smBytes s.sram p a.w)
        gives old t ∧ t.dram = s.dram ∧
        t.sram = (if (new old).2 then smWrite s.sram p (leBytes a.w (new old).1) else s.sram)) ∧
      (∀ pa key, l.loc = .dram pa key → Settled s pa a.w key → Writable s (tokenCore s.g.core) pa → ∃ t, end_ = .next t ∧
        let old := leNat (smBytes s.dram pa a.w)
        gives old t ∧ t.sram = s.sram ∧
        t.dram = (if (new old).2 then smWrite s.dram pa (leBytes a.w (new old).1) else s.dram)))) ∧
  (∀ (s0 : State) (stamp : Nat) (a : Acc) (l : LaneAcc) (d : XReg) (bits : Nat) (sg : Bool) (pa key i : Nat) (v : Lanes),
    let s := ownersArrive s0
    Lane1 s stamp 0 a l → a.lanes = [l] → a.kind = .load → a.dst = .x d bits sg → l.loc = .dram pa key → a.hint ≠ .nol1 →
    ¬(a.acq = true ∧ 2 ≤ scopeCode a.scope) → l1Find (smGet Core.reset s.cores s.g.core) (pa / 128) = some (i, v) →
    ∃ t, exec (.resultArrival stamp 1 1) s0 = .next t ∧ SameMemory s t ∧
      t.g.readX d = if d = 0 then 0 else extended bits sg (v.toNat / 2 ^ (8 * (pa % 128)) % 2 ^ (8 * a.w))) ∧
  (∀ (s0 : State) (stamp lane : Nat) (a : Acc) (l : LaneAcc), let s := ownersArrive s0
    let done := exec (.writePerformed stamp ⟨lane, false⟩) s0
    let alone := locBuffered s s.g.core l.loc a.w none = false ∧ l.sent = none
    Lane1 s stamp lane a l →
    (∀ p, a.kind = .store → l.loc = .sram p → alone → ∃ t, done = .next t ∧ t.dram = s.dram ∧
      t.sram = smWrite s.sram p (leBytes a.w l.data.toNat)) ∧
    (∀ pa key, a.kind = .store → l.loc = .dram pa key → alone → Settled s pa a.w key → Writable s (tokenCore s.g.core) pa →
      ∃ t, done = .next t ∧ t.sram = s.sram ∧ t.dram = smWrite s.dram pa (leBytes a.w l.data.toNat)) ∧
    (∀ pa key, a.kind = .flagStore → l.loc = .dram pa key → alone → Settled s pa a.w key →
      Writable (ownersArrived stamp s) (tokenCore s.g.core) pa → ∃ t, done = .next t ∧ t.sram = s.sram ∧
        t.dram = smWrite s.dram pa (leBytes a.w l.data.toNat) ∧ ∀ e ∈ t.lagging, ∀ x, e.2 = some x → x.by_ ≠ stamp) ∧
    (∀ pa key, a.kind.isStore = true → l.loc = .dram pa key → l.sent = none → ∃ t, exec (.writePerformed stamp ⟨lane, true⟩) s0 = .next t ∧
      SameMemory s t ∧ (∃ b ∈ t.g.accs, b.stamp = stamp ∧ ∃ k ∈ b.lanes, k.lane = lane ∧ k.sent = some s.stamp ∧ k.done = false) ∧
      (a.hint ≠ .nol1 → ∀ i v, l1Find (smGet Core.reset s.cores s.g.core) (pa / 128) = some (i, v) →
        l1Find (smGet Core.reset t.cores s.g.core) (pa / 128) = some (i, lineWrite v (pa % 128) (leBytes a.w l.data.toNat)))) ∧
    (∀ pa key, a.kind = .store → l.loc = .dram pa key → alone → Quiet s → (∀ k, smGet false s.poison k = false) →
      let held := fun (c : BitVec 8) (i : Word) => ∃ t, done = .next t ∧ SameMemory s t ∧
        ∃ b ∈ t.g.accs, b.stamp = stamp ∧ ∃ k ∈ b.lanes, k.lane = lane ∧ k.held = some (c, i) ∧ k.done = false;
      (inWindow s pa = true → (homeOwner s pa).token ≠ tokenCore s.g.core → held 0x0A (homeOwner s pa).gen) ∧
      ((inWindow s pa = false ∨ (homeOwner s pa).token = tokenCore s.g.core) →
        (Machine.rowAt s (Machine.rowOf pa)).rule.isSome = true → held 0x0B (BitVec.ofNat 64 (2048 * Machine.rowOf pa)))) ∧
    (∀ op sn, a.kind = .red op sn → homeReady s a l = true →
      let new := fun (old : Nat) => table73 op sn a.w old (l.data.toNat % 2 ^ (8 * a.w)) (l.cmp.toNat % 2 ^ (8 * a.w));
      (∀ p, l.loc = .sram p → ∃ t, done = .next t ∧ t.dram = s.dram ∧
        let r := new (leNat (smBytes s.sram p a.w))
        t.sram = if r.2 then smWrite s.sram p (leBytes a.w r.1) else s.sram) ∧
      (∀ pa key, l.loc = .dram pa key → Settled s pa a.w key → Writable s (tokenCore s.g.core) pa → ∃ t, done = .next t ∧
        t.sram = s.sram ∧
        let r := new (leNat (smBytes s.dram pa a.w))
        t.dram = if r.2 then smWrite s.dram pa (leBytes a.w r.1) else s.dram)) ∧
    (∀ pa ty, a.kind = .defer ty → l.loc = .dram pa 0 → homeReady s a l = true → (∀ k, smGet false s.poison k = false) →
      Writable s (tokenCore s.g.core) pa → (smGet Bank.reset s.banks (bankOf pa)).deferred.length < 64 →
      ∃ t, exec (.deferredAccept stamp lane) s0 = .next t ∧ t.dram = s.dram ∧
        (smGet Bank.reset t.banks (bankOf pa)).deferred = (smGet Bank.reset s.banks (bankOf pa)).deferred ++ [⟨pa, ty, l.data⟩])) ∧
  (∀ (s0 : State) (core bank stamp : Nat) (us : List (Nat × Nat × Nat)) (a : Acc) (l : LaneAcc), let s := reachBank core bank s0
    let c := smGet Core.reset s.cores core
    s.g.live = true → smGet [] c.units bank = (s.g.core, s.g.slot, stamp) :: us → accAt s stamp = some a → a.stamp = stamp →
    a.lanes = [l] → l.loc = .fifo core bank → l.done = false → renewLane s a l = l → l.held = none → a.w = 4 → setLane stamp l s = s →
    (a.kind = .fifoPush → a.dst = .none → (smGet [] c.fifo bank).length < 8192 → ∃ t, exec (.fifoUnit core bank) s0 = .next t ∧
      smGet [] (smGet Core.reset t.cores core).fifo bank = smGet [] c.fifo bank ++ [l.data.truncate 32] ∧
      smGet [] (smGet Core.reset t.cores core).units bank = us) ∧
    (∀ x rest d, a.kind = .fifoPop → a.dst = .x d 32 false → smGet [] c.fifo bank = x :: rest →
      ∃ t, exec (.fifoUnit core bank) s0 = .next t ∧ smGet [] (smGet Core.reset t.cores core).fifo bank = rest ∧
        t.g.readX d = (if d = 0 then 0 else x.zeroExtend 64) ∧ smGet [] (smGet Core.reset t.cores core).units bank = us)) ∧
  (∀ (s : State) (stamp : Nat) (a : Acc), accAt s stamp = some a → a.kind = .zeroMask →
    exec (.zeroMaskSlotFall stamp) s = .next { s with g := { s.g with accs := s.g.accs.filter fun x => x.stamp != stamp } }) ∧
  (∀ (s0 : State) (stamp : Nat) (lanes l1 : BitVec 32) (a : Acc), let s := ownersArrive s0
    accAt s stamp = some a → a.kind = .fence → a.stamp = stamp →
    ((fencesDone s.g a && fenceOpen s s.g a) = false → exec (.resultArrival stamp lanes l1) s0 = .next s) ∧
    ((fencesDone s.g a && fenceOpen s s.g a) = true → ∃ t, exec (.resultArrival stamp lanes l1) s0 = .next t ∧ SameMemory s t ∧
      t.g.accs = s.g.accs.filter (fun x => x.stamp != stamp) ∧ t.g.x = s.g.x ∧ t.g.v = s.g.v ∧ t.g.pos = s.g.pos ∧
      (a.acq = true → t.g.acquired = s.stamp ∧ (2 ≤ scopeCode a.scope → (smGet Core.reset t.cores s.g.core).l1 = [])))) ∧
  (∀ s : State, s.mgmt.changing = true ∨ s.mgmt.mappings = [] →
    (Unused s → ∃ t, exec .tlbInvalidation s = .next t ∧
      t = { s with tlb := [], cores := t.cores, quads := t.quads, mgmt := { s.mgmt with changing := false } } ∧
      (∀ n, (smGet Core.reset t.cores n).tlb = []) ∧ ∀ n, (smGet Quad.reset t.quads n).tlb = []) ∧
    (¬Unused s → exec .tlbInvalidation s = .next { s with mgmt := { s.mgmt with changing := true } })) ∧
  (∀ (s : State) (m : Mapping) (ms : List Mapping), s.mgmt.changing = false → s.mgmt.mappings = m :: ms → m.changes = true →
    (∀ w, OneWrite m w s → ∃ t, exec .tlbInvalidation s = .next t ∧ t.mgmt.mappings = ms ∧ Mapped w s t ∧
      (Unused s → t.tlb = []) ∧ (¬Unused s → t.mgmt.changing = true)) ∧
    (∀ w ∈ m.parts, (Machine.rowAt s (Machine.rowOf w.pa)).copyout.isSome = true → exec .tlbInvalidation s = .next s))

/-- The oldest record of a slice that the fault queue has not taken, and that queue has room for, is written to it and counts as sent, and
the grid keeps its first code; so is the record of a command, suspended or not any more. The firmware resolves a sent record in the way
that Table 31 and POL give it, and asks the host about the others: a replay leaves the slice at its instruction, its held lanes
presented again, a continue moves it past, and acquires after a wait, a discard drops the held lanes, a terminate keeps the group halted
and ends its grid. It ends a suspended command with its code. The host resolves by message 0x06, in the ways of Table 31: it restarts a
suspended command only where that allows a replay of its code, once the mapping that is to come with the answer is made; an answer that is
refused gets TARGET_BAD, a malformed body ENGINE_COMMAND. A record that a discarded group or an ended command has left is written too (R73,
R76, R78, R80, R81, R82, R83, R308, R415, R425). Which codes notify the host (notes/assumptions/39.md), what makes a body malformed
(notes/assumptions/83.md), and where a mapping comes from (notes/assumptions/48.md) are the model's choice. -/
def Obligations.FaultsRecordedAndResolved : Prop :=
  (∀ (vec : Bool) (s : State) (r : HaltRec) (pre post : List HaltRec), let o : BitVec 2 := if vec then 1 else 0
    s.g.recs = pre ++ r :: post → r.fr.orig = o → r.sent = false → (∀ x ∈ pre, x.fr.orig = o → x.sent = true) →
    s.mgmt.faultQueue.length < s.mgmt.faultCap →
    ∃ t, exec (.faultRecord (if vec then .vec else .ctl)) s = .next t ∧ t.mgmt.faultQueue = s.mgmt.faultQueue ++ [r.fr] ∧
      t.g = { s.g with late := none, recs := pre ++ { r with sent := true } :: post } ∧ SameMemory s t ∧
      (∀ gr, smGet none s.grids s.team.grid = some gr →
        smGet none t.grids s.team.grid = some { gr with err := some (gr.err.getD r.fr.code) }) ∧
      (AsksHost (gridNotify s).2.2 r.fr.code →
        t.mgmt.outbox = s.mgmt.outbox ++ [.notify (gridNotify s).1 (gridNotify s).2.1 r.fr.words]) ∧
      (¬AsksHost (gridNotify s).2.2 r.fr.code → t.mgmt.outbox = s.mgmt.outbox)) ∧
  (∀ (vec : Bool) (s : State) (d : DueRec) (rest : List DueRec), let o : BitVec 2 := if vec then 1 else 0
    s.mgmt.faultQueue.length < s.mgmt.faultCap → (∀ r ∈ s.g.recs, r.fr.orig = o → r.sent = true) → s.mgmt.recsDue = d :: rest →
    d.fr.orig = o → ∃ t, exec (.faultRecord (if vec then .vec else .ctl)) s = .next t ∧ Left d rest s t ∧ t.g = s.g) ∧
  (∀ (e : EngineRef) (s : State), s.mgmt.faultQueue.length < s.mgmt.faultCap →
    (∀ k fr, ((s.ctx e).cmds.find? fun k => k.waiting.isSome) = some k → k.waiting = some fr →
      ∃ t, exec (.faultRecord (.engine e)) s = .next t ∧ t.mgmt.faultQueue = s.mgmt.faultQueue ++ [fr] ∧ SameMemory s t ∧
        t.ctx e = (s.ctx e).updCmd k.seq fun c => { c with waiting := none }) ∧
    (∀ d rest seq, (∀ k ∈ (s.ctx e).cmds, k.waiting = none) → s.mgmt.recsDue = d :: rest → d.fr.orig = 2 →
      handleRef d.fr.info = some (e, seq) → ∃ t, exec (.faultRecord (.engine e)) s = .next t ∧ Left d rest s t)) ∧
  (∀ (vec : Bool) (s : State) (r : HaltRec), Stopped vec r s →
    ∀ p ∈ [(Instr.replayHalt vec, Action.replay), (.continueHalt vec, .continue), (.discardHalt vec, .discard),
      (.terminateHalt vec, .terminate)],
    (ByFirmware (gridNotify s).2.2 r p.2 s → ∃ t, exec p.1 s = .next t ∧ Acts vec r p.2 s t) ∧
    (¬ByFirmware (gridNotify s).2.2 r p.2 s → exec p.1 s = .next s)) ∧
  (∀ (e : EngineRef) (s : State) (k : ECmd) (c : BitVec 8),
    ((s.ctx e).cmds.find? fun k => k.susp.isSome && k.fin.isNone && k.waiting.isNone) = some k → k.susp = some c →
    (¬AsksHost k.pol c → ∃ t, exec (.commandEndedInError e) s = .next t ∧ EndedIn e k (.error c) s t) ∧
    (AsksHost k.pol c → exec (.commandEndedInError e) s = .next s)) ∧
  (∀ (tag : BitVec 32) (w0 w1 w2 : Word) (s : State),
    (s.mgmt.state = 1 → exec (.resolveHalt tag w0 w1 w2) s = .next s) ∧
    (s.mgmt.state ≠ 1 → (2 ≤ w0.toNat ∨ 4 ≤ w2.toNat) →
      ∃ t, exec (.resolveHalt tag w0 w1 w2) s = .next t ∧ Replies s t 0x86 tag 0x15 ∧ t.g = s.g ∧ SameMemory s t) ∧
    (∀ e seq k, s.mgmt.state ≠ 1 → (∀ m ∈ s.mgmt.mappings, m.changes = true) → handleRef w1 = some (e, seq) →
      ((s.ctx e).cmds.find? fun k => k.seq % 2 ^ 48 == seq && k.susp.isSome && k.fin.isNone) = some k →
      ∀ c, k.susp = some c →
      (c ∈ [0x06#8, 0x08, 0x09, 0x10, 0x11] → ∃ t, exec (.resolveHalt tag 1 w1 0) s = .next t ∧
        Replies s t 0x86 tag 0 ∧ t.mgmt.recsDue.map (·.fr) = s.mgmt.recsDue.map (·.fr) ++ k.waiting.toList ∧
        t.ctx e = (s.ctx e).updCmd k.seq fun c => { c with susp := none, waiting := none }) ∧
      (c ∉ [0x06#8, 0x08, 0x09, 0x10, 0x11] → ∃ t, exec (.resolveHalt tag 1 w1 0) s = .next t ∧
        Replies s t 0x86 tag 3 ∧ t.ctx e = s.ctx e) ∧
      (∀ a, a = 1 ∨ a = 2 → ∃ t, exec (.resolveHalt tag 1 w1 a) s = .next t ∧ Replies s t 0x86 tag 3 ∧ t.ctx e = s.ctx e) ∧
      ∃ t, exec (.resolveHalt tag 1 w1 3) s = .next t ∧ EndedIn e k (.error c) s t) ∧
    (∀ e seq k c m ms w, s.mgmt.state ≠ 1 → s.mgmt.mappings = m :: ms → m.changes = false → handleRef w1 = some (e, seq) →
      ((s.ctx e).cmds.find? fun k => k.seq % 2 ^ 48 == seq && k.susp.isSome && k.fin.isNone) = some k → k.susp = some c →
      c ∈ [0x06#8, 0x08, 0x09, 0x10, 0x11] → OneWrite m w s → ∃ t, exec (.resolveHalt tag 1 w1 0) s = .next t ∧
        Replies s t 0x86 tag 0 ∧ t.mgmt.mappings = ms ∧ Mapped w s t ∧
        t.ctx e = (s.ctx e).updCmd k.seq fun c => { c with susp := none, waiting := none }) ∧
    (∀ vec r, s.mgmt.state ≠ 1 → (∀ m ∈ s.mgmt.mappings, m.changes = true) → s.g.live = true → Stopped vec r s →
      w1 = BitVec.ofNat 64 (r.fr.orig.toNat * 2 ^ 24 + r.fr.slot.toNat * 2 ^ 16 + r.fr.core.toNat) →
      ∀ p ∈ [(0, Action.replay), (1, .continue), (2, .discard), (3, .terminate)],
      (p.2 ∈ actionsOf r → ∃ t, exec (.resolveHalt tag 0 w1 p.1) s = .next t ∧ Replies s t 0x86 tag 0 ∧ Acts vec r p.2 s t) ∧
      (p.2 ∉ actionsOf r → ∃ t, exec (.resolveHalt tag 0 w1 p.1) s = .next t ∧ Replies s t 0x86 tag 3 ∧ t.g = s.g ∧ SameMemory s t)))

/-! ## Pre-emption -/

/-- A request halts the groups of a core that holds a team of a cluster the firmware may pre-empt, and of no other: one that yields to a
waiting team of a lower-numbered context, or one that holds the most recently placed team of a core that has trapped for want of registers.
They halt at an instruction boundary in both slices: grant and pipe are given up, results in flight
are written, and withdrawn are an instruction stalled on allocation, an arrival at an open team barrier, and the group's entries of the
reservation table, which it keeps. A cluster all of whose groups have halted, with no store, put or granted pass of theirs outstanding,
is saved as a whole and leaves its cores; until they have halted nothing happens, and while a pass runs nothing either. A saved cluster
resumes as a whole on cores that fit it. An engine context stops at a command boundary, and resumes (R71, R86, R87, R88, R89, R210, R286,
R307, R312, R417, R425). When the firmware may pre-empt (notes/assumptions/41.md), what a save waits for beyond R87 and what a resumed cluster keeps are the model's choice (notes/assumptions/44.md). -/
def Obligations.PreemptionSavesAndResumes : Prop :=
  (∀ (core : Nat) (s : State), (∃ p ∈ coreTeams s core, mayYield s p.2.cluster = true) → s.g.live = true →
    ((s.g :: s.others).map fun h => (h.core, h.slot)).Nodup →
    ∃ t, exec (.preemptionRequest core) s = .next t ∧ SameMemory s t ∧ ∀ h ∈ s.coreGroups core, ∃ k ∈ t.coreGroups core, k.slot = h.slot ∧
      (h.preempted = true → k = h) ∧
      (h.preempted = false → k.preempted = true ∧ k.late = none ∧ k.stall = none ∧ k.pend = [] ∧ k.vpos.pipe = none ∧ k.pos = h.pos ∧
        k.accs = h.accs ∧ k.recs = h.recs ∧ k.x = h.x ∧
        smGet none (smGet Core.reset t.cores core).seqGrant (h.slot % 2) ≠ some h.slot)) ∧
  (∀ (core : Nat) (s : State), s.mgmt.saved = [] → (∀ h ∈ s.g :: s.others, ∀ r ∈ h.recs, r.fr.code ≠ 0x06) →
    (∀ p ∈ coreTeams s core, ∀ c, c < (smGet Cluster.reset s.clusters p.2.cluster).grid / 2 ^ 48 → (s.ctx (.launch c)).cmds = []) →
    exec (.preemptionRequest core) s = .next s) ∧
  (∀ s : State, s.others = [] → s.g.live = true → s.g.preempted = false →
    (∃ p ∈ coreTeams s s.g.core, mayYield s p.2.cluster = true) →
    let mine := fun (m : MEntry) => m.core == s.g.core && m.slot == s.g.slot && m.team == s.g.team && s.g.accs.any (·.stamp == m.acc)
    ∃ t, exec (.preemptionRequest s.g.core) s = .next t ∧ t.g.preempted = true ∧ t.g.stall = none ∧ t.g.pend = [] ∧
      t.g.vpos.pipe = none ∧ t.g.pos = s.g.pos ∧ t.g.accs = s.g.accs ∧ t.g.recs = s.g.recs ∧
      t.g.entries = s.g.entries ++ s.quad.table.filter mine ∧ t.quad.table = s.quad.table.filter (fun m => !mine m) ∧
      (∀ r, t.g.readX r = s.g.readX r) ∧ SameMemory s t ∧
      smGet none (smGet Core.reset t.cores s.g.core).seqGrant (s.g.slot % 2) ≠ some s.g.slot ∧
      (∀ p, s.g.vpos.pipe = some p → smGet none (smGet Core.reset t.cores s.g.core).pipe p = none) ∧
      ∀ b ph, s.g.block = .bar b ph → (smGet Barrier.reset s.team.bars b).phase = ph → t.g.block = .none ∧
        (smGet Barrier.reset t.team.bars b).arrived = (smGet Barrier.reset s.team.bars b).arrived.erase s.g.id.grp) ∧
  (∀ (core lead : Nat) (go : Bool) (s : State) (id : Nat) (tm : Team),
    (s.teams.find? fun p => p.2.core == core && p.2.slots.head? == some lead && p.2.alive) = some (id, tm) →
    let c := smGet Cluster.reset s.clusters tm.cluster
    let hs := clusterGroups s c
    (mayYield s tm.cluster = false → go = false → exec (.contextSave core lead go) s = .next s) ∧
    (mayYield s tm.cluster = true →
    ((∃ h ∈ hs, h.preempted = false) → exec (.contextSave core lead go) s = .next s) ∧
    ((∀ h ∈ hs, h.preempted = true ∧ h.accs = []) → (∃ i ∈ c.teams, matrixRuns s i = true) →
      exec (.contextSave core lead go) s = .next s) ∧
    ((∀ h ∈ hs, h.preempted = true ∧ h.accs = [] ∧ othersBuffered s h h.acquired = false) → c.puts = [] →
      (∀ i ∈ c.teams, matrixRuns s i = false) →
      (∀ i ∈ c.teams, (teamGroups s i).length + (smGet Team.reset s.teams i).ended.length = (smGet Team.reset s.teams i).slots.length) →
      ∃ t sv, exec (.contextSave core lead go) s = .next t ∧ t.mgmt.saved = s.mgmt.saved ++ [sv] ∧ sv.id = tm.cluster ∧
        sv.cluster = c ∧ sv.teams.map (·.id) = c.teams ∧ t.dram = s.dram ∧
        smGet Cluster.reset t.clusters tm.cluster = Cluster.reset ∧ (go = false → ∀ i ∈ c.teams, smGet Team.reset t.teams i = Team.reset) ∧
        ∀ w ∈ sv.teams, (smGet Team.reset s.teams w.id).alive = true → w.team = smGet Team.reset s.teams w.id ∧
          w.entries = (smGet Quad.reset s.quads (quadOfCore w.team.core)).table.filter (fun m => m.team == w.id) ∧
          w.groups.map (fun g => (g.x, g.c, g.a, g.v, g.p, g.k, g.masks, g.levels, g.runnel, g.mode, g.pos.idx)) =
            (teamGroups s w.id).map fun g => (g.x, g.c, g.a, g.v, g.p, g.k, g.masks, g.levels, g.runnel, g.mode, g.pos.idx)))) ∧
  (∀ (n : Nat) (place : Placement) (s : State) (c : SavedCluster) (gr : Grid), s.mgmt.saved[n]? = some c →
    smGet none s.grids c.cluster.grid = some gr → gr.term = false → shapeOk s gr.w place = true → tilesApart place = true →
    ((∀ x ∈ c.teams.zip place.teams, coreFits s (savedNeed x.1) x.2 (tileBack s x.1 x.2) = true ∧ ownerFits s x.1 x.2 = true) →
      ∃ t, exec (.contextResume n place) s = .next t ∧ t.mgmt.saved = s.mgmt.saved.eraseIdx n ∧ t.dram = s.dram ∧
        (∃ ps, smGet Cluster.reset t.clusters c.id = { c.cluster with die := place.die, puts := ps } ∧
          ps.map (·.acc) = c.cluster.puts.map (·.acc)) ∧
        ((c.teams.map (·.id)).Nodup → ∀ x ∈ c.teams.zip place.teams, (smGet Team.reset t.teams x.1.id).core = x.2.core ∧
          (smGet Team.reset t.teams x.1.id).tiles = x.2.tiles)) ∧
    ((∃ x ∈ c.teams.zip place.teams, coreFits s (savedNeed x.1) x.2 (tileBack s x.1 x.2) = false) →
      exec (.contextResume n place) s = .next s)) ∧
  (∀ (e : EngineRef) (s : State),
    ((∀ k ∈ (s.ctx e).cmds, k.started = true → k.fin ≠ none ∨ k.susp ≠ none) →
      exec (.engineContextPreemption e) s = .next (s.setCtx e { s.ctx e with preempted := true })) ∧
    (∀ q c, e = .copy q c → (∃ k ∈ (s.ctx e).cmds, k.started = true ∧ k.fin = none ∧ k.susp = none) →
      exec (.engineContextPreemption e) s = .next s) ∧
    exec (.engineContextResume e) s = .next (s.setCtx e { s.ctx e with preempted := false }))

/-! ## Rows at their homes -/

/-- A refresh restores the row at its pointer, turns it, and moves the pointer on; a row with nothing pending is as it was. A forced
sweep turns its waiting row that the pointer reaches first by an activation, passing by a row whose copyout finds no room in the drain. A row
whose copyout holds a write is captured when the drain has room: its bytes join the drain. A recompute reads the bases and writes the derived row. A
registration reaches the home of a row, after the checks that its command makes. The drain sends a captured row's records, one for each
index, then the end record, or the abort record of a cancelled snapshot, and a snapshot ends when its target acknowledges it. The row
commands, `derive.drop`, `derive.flush`, `sweep.force`, `sweep.status` and `snap.abort` have their effects element by element (R331, R333,
R334, R335, R338, R340, R345, R346, R355 to R361, R365, R369, R371 to R377, R412). That each of these is one step is the model's reading
(notes/assumptions/12.md), and so is that a snapshot places its copyouts in one event (notes/assumptions/72.md). -/
def Obligations.RowsTurnRecomputeAndDrain : Prop :=
  (∀ (bank : Nat) (s : State), let b := smGet Bank.reset s.banks bank
    let r := rowOfBank bank b.ptr
    (∃ t, exec (.refreshRestore bank) s = .next t ∧ (smGet Bank.reset t.banks bank).ptr = (b.ptr + 1) % 65536 ∧
      ((Machine.rowAt s r).pending = none → (Machine.rowAt s r).copyout = none → t = { s with banks := t.banks }) ∧
      ((Machine.rowAt s r).copyout.isSome = true → s.mgmt.drainCap ≤ (smGet Basin.reset s.basins (basinOf (r * 2048))).drain.length →
        t = { s with banks := t.banks }) ∧
      ((Machine.rowAt s r).pending = none → Captures r s t)) ∧
    Turns (.refreshRestore bank) r s) ∧
  (∀ (bank r : Nat) (s : State),
    let forced := fun x => bankOf (x * 2048) = bank ∧ ∃ ref f k, (Machine.rowAt s x).pending = some (ref, f) ∧
      cmdOf s ref = some k ∧ k.forced = true
    let after := fun x => (rowInBank (x * 2048) + 65536 - (smGet Bank.reset s.banks bank).ptr) % 65536;
    ((∀ x, ¬forced x) → exec (.forcedActivation bank) s = .next s) ∧
    (forced r → (∀ x, forced x → x ≠ r → after r < after x ∨ (Machine.rowAt s x).copyout.isSome = true ∧
        s.mgmt.drainCap ≤ (smGet Basin.reset s.basins (basinOf (x * 2048))).drain.length) →
      Turns (.forcedActivation bank) r s)) ∧
  (∀ (r : Nat) (s : State), let b := basinOf (r * 2048)
    ((Machine.rowAt s r).copyout = none → exec (.demandCapture r) s = .next s) ∧
    (s.mgmt.drainCap ≤ (smGet Basin.reset s.basins b).drain.length → exec (.demandCapture r) s = .next s) ∧
    (WriteHeld s r → ∀ t, exec (.demandCapture r) s = .next t → Captures r s t) ∧
    (∀ ref k x q pa v, (Machine.rowAt s r).copyout = some ref → cmdOf s ref = some k →
      (smGet Basin.reset s.basins b).drain.length < s.mgmt.drainCap → Settled s (2048 * r) 2048 0 → slotHolders s r = [(x, q)] →
      q.slots = [(pa, v)] → pa % 8 = 0 → pa / 2048 = r → ∃ t, exec (.demandCapture r) s = .next t ∧
        (smGet Basin.reset t.basins b).drain.map (·.data) = (smGet Basin.reset s.basins b).drain.map (·.data) ++ [smBytes s.dram (2048 * r) 2048] ∧
        (Machine.rowAt t r).copyout = none ∧ ∀ a, smGet 0 t.dram a = smGet 0 (smWrite s.dram pa (leBytes 8 v.toNat)) a)) ∧
  (∀ (r b : Nat) (s : State) (rule : DRule), let w := Machine.rowAt s r
    w.rule = some rule → w.stale = true → rule.bases[w.part.length]? = some b →
    ((Machine.rowAt s b).stale = true → exec (.recompute r) s = .next s) ∧
    ((Machine.rowAt s b).stale = false → (∀ n, (smGet Bank.reset s.banks n).deferred = []) → s.lineKey = [] →
      let bases := w.part ++ [smBytes s.dram (2048 * b) 2048]
      let f := if rule.fmt = 2 then fp16 else bf16
      let at_ := fun (t : State) (n m : Nat) => leNat (smBytes t.dram (2048 * r + n * m) n)
      let from_ := fun (j n m : Nat) => leNat (((bases.getD j []).drop (n * m)).take n)
      (w.part.length + 1 < rule.bases.length → exec (.recompute r) s = .next (s.updRow r fun x => { x with
        part := bases, taint := x.taint ++ [(List.range 64).filter fun j => smGet false s.poison (64 * b + j)] })) ∧
      (w.part.length + 1 = rule.bases.length → ∃ t, exec (.recompute r) s = .next t ∧ (Machine.rowAt t r).stale = w.remark.isSome ∧
        (∀ a, ¬(2048 * r ≤ a ∧ a < 2048 * r + 2048) → smGet 0 t.dram a = smGet 0 s.dram a) ∧
        (rule.fn = 1 → ∀ m, m < 1024 → at_ t 2 m = from_ 0 2 (32 * (m % 32) + m / 32)) ∧
        (rule.fn = 2 → ∀ m, m < 1024 → at_ t 2 m = (f.ofValue .rne false (fp32.value (from_ (m / 512) 4 (m % 512)))).1) ∧
        (rule.fn = 3 → ∀ m, m < 512 → at_ t 4 m =
          (fp32.sum .rne false ((List.range 32).map fun c => f.value (from_ (m / 32) 2 (32 * (m % 32) + c)))).1)))) ∧
  (∀ (basin ctx row : Nat) (s : State) (k : ECmd), let e := EngineRef.basin basin ctx
    let ref : CmdRef := ⟨basin, ctx, k.seq⟩
    let next := fun (P : State → Prop) => ∃ t, exec (.registration basin ctx row) s = .next t ∧ SameMemory s t ∧ P t
    (s.ctx e).cmds = [k] → k.started = true → k.fin = none → row ∈ k.rows →
    (k.cancel = false → k.w.cmd = 1 → row ∉ k.registered → next fun t =>
      (Machine.rowAt t row).pending = some (ref, ⟨(k.w.w0.extractLsb' 44 4).toNat, (k.w.w0.extractLsb' 39 5).toNat,
        k.w.w3.extractLsb' 0 32, k.w.w3.extractLsb' 32 32⟩)) ∧
    (∀ rule, k.w.cmd = 6 → row ∉ k.registered → (Machine.rowAt s row).copyout = none → newRule k row = some rule → next fun t =>
      (Machine.rowAt t row).rule = some rule ∧ (Machine.rowAt t row).stale = true ∧ (∀ b ∈ rule.bases, row ∈ (Machine.rowAt t b).deps) ∧
      (∀ d ∈ (smGet Bank.reset t.banks (bankOf (row * 2048))).deferred, d.pa / 2048 ≠ row) ∧
      ((∀ x ∈ k.rows, x = row ∨ x ∈ k.registered) → EndedAs e k (if k.cancel then .cancelled else .completed) t)) ∧
    (k.cancel = false → k.w.cmd = 9 → row ∉ k.registered → next fun t => t.rows = s.rows) ∧
    (k.cancel = false → k.w.cmd = 9 → row ∈ k.registered → k.regDone = true → row ∉ k.res → (s.coll.sigma - k.w.w3).toNat < 2 ^ 63 →
      next fun t => ∀ x, Machine.rowAt t x = if x ∈ k.rows then { Machine.rowAt s x with copyout := some ref } else Machine.rowAt s x)) ∧
  (∀ (basin : Nat) (s : State) (c : Captured) (cs : List Captured) (i : Nat) (is : List Nat),
    (smGet Basin.reset s.basins basin).drain = c :: cs → c.indices = i :: is → c.data.length = 2048 →
    ∃ t, exec (.snapshotDrainRecord basin) s = .next t ∧ SameMemory s t ∧
      t.mgmt.outbox = s.mgmt.outbox ++ [.drain c.target (2064 * i) (leBytes 8 c.s.toNat ++ leBytes 8 i ++ c.data)] ∧
      (smGet Basin.reset t.basins basin).drain = if is = [] then cs else { c with indices := is } :: cs) ∧
  (∀ (basin : Nat) (s : State) (ref : CmdRef) (k : ECmd), let e := EngineRef.basin ref.basin ref.ctx
    (smGet Basin.reset s.basins basin).drain = [] → recordDue s basin = some (ref, k) →
    let sends := fun (i : Nat) (body : List Byte) (t : State) => SameMemory s t ∧
      t.mgmt.outbox = s.mgmt.outbox ++ [.drain (k.w.w4.extractLsb' 0 4).toNat (2064 * k.rows.length)
        (leBytes 8 k.w.w3.toNat ++ leBytes 8 i ++ body)];
    (k.cancel = false → ∃ t, exec (.snapshotDrainRecord basin) s = .next t ∧
      sends (2 ^ 64 - 2) (leBytes 8 k.rows.length ++ List.replicate 2040 0) t) ∧
    (k.cancel = true → k.host = false → ∃ t, exec (.snapshotDrainRecord basin) s = .next t ∧ sends (2 ^ 64 - 1) (List.replicate 2048 0) t ∧
      EndedIn e k .cancelled s t)) ∧
  (∀ (slot basin ctx : Nat) (s : State) (k : ECmd), let e := EngineRef.basin basin ctx
    ((basinCmds s).find? fun p => p.2.active && !p.2.cancel && p.2.w.cmd == 9 && p.2.elem == 1 && bits p.2.w.w4 3 0 == slot) = some (e, k) →
    ∃ t, exec (.drainAcknowledgement slot) s = .next t ∧ SameMemory s t ∧ EndedIn e k .completed s t) ∧
  RowCommands ∧ DerivedRowCommands ∧ NamingCommands ∧ RegistrationChecks ∧ CancelsByRow

/-! ## Launches -/

/-- A launch message joins its context and is answered with its handle, or with TARGET_BAD by a full context. A message of a reserved
TYPE, or one whose body is malformed or of another length, is answered ENGINE_COMMAND and changes nothing else; in state 1 none is
answered. A launch that passes the checks starts its grid, one that does not ends in error and places nothing; the launch of an iteration
also has its descriptor written. A reclaim returns pages to the prompt side. A cluster is placed as a whole, once no cluster of a
lower-numbered context waits that fits: its teams hold the chosen cores, slots and tiles, and their bind records are valid. A group starts
with Table 17's state, as an acquire, its core's L1 empty. A group that has exited and finished ends, and its puts in flight and the registers it leaves bound stay with its
cluster and team; one with a store held at a home that no release has answered for halts instead. A grid all of whose clusters have ended
completes its launch; a terminated one ends in error with its first recorded code, and the records of its groups that the fault queue has
not taken stay due. Barrier phases complete when every group has arrived or ended, that of a cluster barrier when no release issued
before an arrival is incomplete, and a halted group has not arrived at a team barrier (R32, R33, R34, R35, R37, R40, R59, R61, R73, R80,
R81, R186, R187, R392, R394, R395, R415, R417, R419, R421). Which messages arrive as their words, the order of decode and where the descriptor stands are the model's choice
(notes/assumptions/74.md, 75.md), and so is the moment of a placement (notes/assumptions/41.md). What the end of a
group waits for and the moment at which a terminated grid's accesses are discarded are the model's reading (notes/assumptions/42.md);
so is that the arrival of a halted group counts again when it resumes (notes/assumptions/54.md), that the start of a group is an acquire
(notes/assumptions/85.md), and which releases a cluster barrier waits for (notes/assumptions/78.md). -/
def Obligations.LaunchesRunTheirGrids : Prop :=
  (∀ (tag : BitVec 32) (ep : Nat) (w : Cmd) (s : State), let e := EngineRef.launch (w.w0.extractLsb' 53 3).toNat
    let body := [w.w0, w.w1, w.w2, w.w3, w.w4, w.w5, w.w6, w.w7]
    s.mgmt.state ≠ 1 →
    (HasRoom (s.ctx e) → ∃ t, exec (.launchMessage 1 tag ep body) s = .next t ∧ t.g = s.g ∧ SameMemory s t ∧
      Accepted (s.ctx e) (t.ctx e) w (w.cmd == 1 || w.cmd == 2) ∧
      t.mgmt.outbox = s.mgmt.outbox ++ [.reply ep 0x81 tag (handleOf e ((s.ctx e).seq + 1))]) ∧
    (¬HasRoom (s.ctx e) → ∃ t, exec (.launchMessage 1 tag ep body) s = .next t ∧ t.ctx e = s.ctx e ∧
      t.mgmt.outbox = s.mgmt.outbox ++ [.reply ep 0x81 tag 3])) ∧
  (∀ (ty : BitVec 8) (tag : BitVec 32) (ep : Nat) (body : List (BitVec 64)) (s : State), s.mgmt.state ≠ 1 →
    ¬(ty = 1 ∧ body.length = 8) → ¬(ty = 6 ∧ body.length = 3) →
    exec (.launchMessage ty tag ep body) s = .next { s with
      mgmt := { s.mgmt with outbox := s.mgmt.outbox ++ [.reply ep (ty + 0x80) tag 0x15] } }) ∧
  (∀ (ty : BitVec 8) (tag : BitVec 32) (ep : Nat) (body : List (BitVec 64)) (s : State), s.mgmt.state = 1 →
    exec (.launchMessage ty tag ep body) s = .next s) ∧
  IterationsStart ∧ ReclaimsReturnPages ∧
  (∀ (ctx : Nat) (s : State) (k : ECmd), let e := EngineRef.launch ctx
    (s.ctx e).head = some k → k.started = false → (s.ctx e).preempted = false → k.bad = false → k.w.cmd = 1 → s.mgmt.state ≠ 1 →
    (launchOk s k = true → ∃ t, exec (.launchStart ⟨ctx, none⟩) s = .next t ∧ SameMemory s t ∧
      t.ctx e = (s.ctx e).updCmd k.seq (fun c => { c with started := true }) ∧
      ∃ gr, smGet none t.grids (gridKeyOf ctx k.seq) = some gr ∧ gr.w = k.w ∧ gr.handle = handleOf e k.seq ∧ gr.next = 0 ∧
        gr.open_ = 0 ∧ gr.term = false) ∧
    (launchOk s k = false → ∀ it, ∃ t, exec (.launchStart ⟨ctx, it⟩) s = .next t ∧ t.ctx e = (s.ctx e).finish k.seq (.error 0x15) ∧
      t.grids = s.grids ∧ t.teams = s.teams)) ∧
  (∀ (ctx : Nat) (place : Placement) (s : State) (k : ECmd) (g : Grid), runningLaunch s ctx = some (k, g) → g.term = false →
    g.next < lClusters g.w → lowerFits s ctx = false → shapeOk s g.w place = true → tilesApart place = true →
    (∀ p ∈ place.teams, coreFits s (launchNeed g.w) p (fun _ x => tileFree s (quadOfCore p.core) x) = true) →
    ∃ t, exec (.teamPlacement ctx place) s = .next t ∧ t.dram = s.dram ∧ t.g = s.g ∧
      smGet none t.grids (gridKeyOf ctx k.seq) = some { g with next := g.next + 1, open_ := g.open_ + 1 } ∧
      ∃ cid ids, smGet Cluster.reset t.clusters cid = ⟨gridKeyOf ctx k.seq, place.die, lCW g.w, lCH g.w, ids, [], []⟩ ∧
        ids.length = place.teams.length ∧ ∀ i p id, place.teams[i]? = some p → ids[i]? = some id →
          (let m := smGet Team.reset t.teams id
           m.placed = id ∧ m.cluster = cid ∧ m.core = p.core ∧ m.slots = p.slots ∧ m.tiles = p.tiles ∧ m.ended = [] ∧ m.kept = [] ∧ m.row = i / lCW g.w ∧
             m.col = i % lCW g.w) ∧
          ∀ x ∈ p.slots, let b := smGet Bind.reset (smGet Core.reset t.cores p.core).bind x
            b.v = true ∧ b.pc = g.w.w1.truncate 56 ∧ b.cx = g.next % lGX g.w ∧ b.cy = g.next / lGX g.w % lGY g.w ∧
              b.cz = g.next / lGX g.w / lGY g.w) ∧
  (∀ (core slot id : Nat) (s : State) (tm : Team) (gr : Grid), let b := smGet Bind.reset (smGet Core.reset s.cores core).bind slot
    ((coreTeams s core).find? fun p => p.2.slots.contains slot) = some (id, tm) → smGet none s.grids tm.grid = some gr → b.v = true →
    s.groupAt core slot = none → b.grp ∉ tm.ended →
    ∃ t, exec (.groupStart core slot) s = .next t ∧ SameMemory s t ∧ t.g.live = true ∧ t.g.core = core ∧ t.g.slot = slot ∧
      t.g.team = id ∧ t.g.pos = ⟨b.pc.zeroExtend 64, 0, 0, []⟩ ∧ (∀ r, t.g.readX r = 0) ∧ (∀ c, c ≠ 7 → t.g.readC c = false) ∧
      (∀ r, t.g.name r = none) ∧ t.g.runnel = [] ∧ t.g.accs = [] ∧ t.g.recs = [] ∧ t.g.levels = [] ∧ t.g.id.grp = b.grp ∧
      t.g.acquired = s.stamp + 1 ∧ (smGet Core.reset t.cores core).l1 = [] ∧
      t.g.id.nlane = lLanes gr.w ∧ t.g.mode.chk = BitVec.ofNat 64 (gr.w.w5.extractLsb' 9 2).toNat ∧
      ∃ m, t.g.masks = [m] ∧ ∀ n, n < 32 → (m.getLsbD n = true ↔ 32 * b.grp + n < lLanes gr.w)) ∧
  (∀ s : State, s.g.live = true → s.g.exited = true → s.g.halted = false → s.g.runnel = [] → s.g.vpos.begun = false →
    let put := fun (a : Acc) => a.wset = 0 ∧ ∃ d, a.kind = .rput d
    ((∀ a ∈ s.g.accs, a.isHeld = false ∧ (put a ∨ (a.kind = .matrix ∧ a.wset = 0))) → ∃ t, exec .groupEnd s = .next t ∧ t.g.live = false ∧
      t.dram = s.dram ∧ t.host = s.host ∧ (s.team.ended.length + 1 < s.team.slots.length →
        smGet Team.reset t.teams s.g.team = { s.team with ended := s.g.id.grp :: s.team.ended, kept := s.g.v :: s.team.kept } ∧
        ∃ ps, (smGet Cluster.reset t.clusters s.team.cluster).puts = (smGet Cluster.reset s.clusters s.team.cluster).puts ++ ps ∧
          ∀ p, p ∈ ps ↔ p.core = s.g.core ∧ p.slot = s.g.slot ∧ p.acc ∈ s.g.accs ∧ put p.acc)) ∧
    ((∀ a ∈ s.g.accs, a.isHeld = false) → (∃ a ∈ s.g.accs, ¬put a ∧ ¬(a.kind = .matrix ∧ a.wset = 0)) → exec .groupEnd s = .next s) ∧
    (∀ a l, s.g.accs.find? Acc.isHeld = some a → a.heldLane = some l → (∀ x ∈ s.g.accs, x.rel = true → a.coveredBy x = false) →
      ∃ t r, exec .groupEnd s = .next t ∧ SameMemory s t ∧ t.g.live = true ∧ t.g.recs = s.g.recs ++ [r] ∧ r.fr.imprec = true ∧
      r.fr.code = (l.held.getD (0, 0)).1 ∧ r.fr.orig = (if a.ctl then 0 else 1) ∧ r.fr.index = BitVec.ofNat 4 s.g.pos.idx ∧
      r.fr.clause = s.g.pos.hdr.truncate 56 ∧ r.fr.addr = l.va.truncate 56 ∧ r.held = some a.stamp ∧ r.past = true)) ∧
  (∀ (ctx : Nat) (s : State) (k : ECmd) (g : Grid), let e := EngineRef.launch ctx
    runningLaunch s ctx = some (k, g) →
    (g.term = false → g.next = lClusters g.w → g.open_ = 0 → ∃ t, exec (.gridEnd ctx) s = .next t ∧ SameMemory s t ∧
      t.ctx e = (s.ctx e).finish k.seq .completed ∧ smGet none t.grids (gridKeyOf ctx k.seq) = none ∧
      t.mgmt.outbox = s.mgmt.outbox ++ if k.host then [.reply k.ep 0x81 k.tag 0] else []) ∧
    (g.term = true → ∃ t, exec (.gridEnd ctx) s = .next t ∧ t.dram = s.dram ∧
      t.ctx e = (s.ctx e).finish k.seq (if g.cancelled then .cancelled else .error (g.err.getD 0)) ∧
      smGet none t.grids (gridKeyOf ctx k.seq) = none ∧ (∀ p ∈ t.teams, p.2.grid ≠ gridKeyOf ctx k.seq) ∧
      let due := fun (h : Group) => ∀ r ∈ h.recs, r.sent = false → ∃ d ∈ t.mgmt.recsDue, d.fr = r.fr
      (((s.g :: s.others).map fun h => (h.core, h.slot)).Nodup →
        ∀ h ∈ s.g :: s.others, h.live = true → (smGet Team.reset s.teams h.team).grid = gridKeyOf ctx k.seq → due h) ∧
      ∀ c ∈ s.mgmt.saved, c.cluster.grid = gridKeyOf ctx k.seq → ∀ w ∈ c.teams, ∀ h ∈ w.groups, due h) ∧
    (g.term = false → (g.next ≠ lClusters g.w ∨ g.open_ ≠ 0) → exec (.gridEnd ctx) s = .next s)) ∧
  (∀ (b : Nat) (s : State), let bar := smGet Barrier.reset s.team.bars b
    let here := ∀ g, g < s.team.slots.length → (g ∈ bar.arrived ∧
      ∀ h ∈ s.g :: s.others, h.live = true → h.team = s.g.team → h.id.grp = g → h.halted = false) ∨ g ∈ s.team.ended;
    ((bar.arrived = [] ∨ ¬here) → exec (.barPhaseComplete b) s = .next s) ∧
    (bar.arrived ≠ [] → here → ∃ t, exec (.barPhaseComplete b) s = .next t ∧ t = { s with teams := t.teams } ∧
      ∀ j, smGet Barrier.reset t.team.bars j = if j = b then ⟨bar.phase + 1, []⟩ else smGet Barrier.reset s.team.bars j)) ∧
  (∀ (b : Nat) (s : State), let cb := s.cbar b
    let here := ∀ i ∈ (smGet Cluster.reset s.clusters s.team.cluster).teams, ∀ g, g < (smGet Team.reset s.teams i).slots.length →
      (i, g) ∈ cb.2 ∨ g ∈ (smGet Team.reset s.teams i).ended
    let late := ∃ h ∈ s.g :: s.others, h.live = true ∧ (smGet Team.reset s.teams h.team).cluster = s.team.cluster ∧
      (h.team, h.id.grp) ∈ cb.2 ∧ releaseOpen s h (smGet 0 h.cbarAt b) = true;
    ((cb.2 = [] ∨ ¬here ∨ late) → exec (.clusterBarrierPhase b) s = .next s) ∧
    (cb.2 ≠ [] → here → ¬late → ∃ t, exec (.clusterBarrierPhase b) s = .next t ∧ t = { s with clusters := t.clusters } ∧
      ∀ j, t.cbar j = if j = b then (cb.1 + 1, []) else s.cbar j))

/-! ## Bring-up -/

/-- Power-up leaves state 1, no grid and no group, and the ROM tries the lowest present port; a timeout goes to the next present
port, the lowest after the highest; a trained port becomes the boot port. An image that passes every check starts the firmware in
state 2, any other is discarded with ENGINE_COMMAND; the signature is ECDSA's over the SHA-256 of header and body. State 2 gives way to
state 3 when no grid is resident: units that failed training are absent, the minimum version does not fall, and the handoff windows are
those of the store. A fault at any stage returns the device to state 1 with the boot port up. The endpoint answers a request with a nonce
with the report of R433 and an ECDSA signature, one without with the capability block of Table 183. A sensor sample makes
a core hot at 95.0 °C or 60 mV and cool at 85.0 °C and 35 mV. An uncorrectable soft error poisons its sector, a corrected one is
counted (R76, R77, R385, R422, R426, R427, R428, R430, R431, R433, R434, R435). The order of the report's bytes and a request without a
nonce are the model's choice (notes/assumptions/9.md, 46.md), and so is a window setting that R385 does not allow, which leaves the
window closed (notes/assumptions/76.md); which units fail and what the image asks for come from Mgmt.trainings (notes/assumptions/79.md). -/
def Obligations.BringUpAndItsEvents : Prop :=
  (∀ s : State, ∃ t, exec .powerUp s = .next t ∧ t.mgmt.state = 1 ∧ t.mgmt.bootPort = none ∧ t.mgmt.image = none ∧ t.grids = [] ∧
    t.g.live = false ∧ t.others = [] ∧ t.mgmt.minVersion = s.mgmt.minVersion ∧ t.mgmt.keyHash = s.mgmt.keyHash ∧
    t.mgmt.identity = s.mgmt.identity ∧ t.mgmt.fused = s.mgmt.fused ∧ t.mgmt.absentDies = s.mgmt.fused.dies ∧
    t.mgmt.absentPorts = s.mgmt.fused.ports ∧ t.mgmt.absentCores = s.mgmt.fused.cores ∧ t.mgmt.absentQuads = s.mgmt.fused.quads ∧
    t.mgmt.absentBasins = s.mgmt.fused.basins ∧ t.mgmt.setWin0 = s.mgmt.setWin0 ∧ t.mgmt.setWin1 = s.mgmt.setWin1 ∧ t.mgmt.win0 = (0, 0) ∧
    t.mgmt.win1 = (0, 0) ∧ t.mgmt.softErrors = 0 ∧
    ∀ p, p < 8 → p ∉ s.mgmt.fused.ports → (∀ q, q < p → q ∈ s.mgmt.fused.ports) → t.mgmt.trying = p) ∧
  (∀ (s : State), let present := fun q => q < 8 ∧ q ∉ s.mgmt.absentPorts;
    ((s.mgmt.state ≠ 1 ∨ s.mgmt.bootPort ≠ none) →
      exec .portTrainingTimeout s = .next s ∧ exec .bootPortTrained s = .next s) ∧
    (s.mgmt.state = 1 → s.mgmt.bootPort = none →
      (present s.mgmt.trying →
        exec .bootPortTrained s = .next { s with mgmt := { s.mgmt with bootPort := some s.mgmt.trying } }) ∧
      ∀ q, present q → ((s.mgmt.trying < q ∧ ∀ r, present r → s.mgmt.trying < r → q ≤ r) ∨
          ((∀ r, present r → r ≤ s.mgmt.trying) ∧ ∀ r, present r → q ≤ r)) →
        exec .portTrainingTimeout s = .next { s with mgmt := { s.mgmt with trying := q } })) ∧
  (∀ (img : List Byte) (s : State), let at_ := fun (i n : Nat) => leNat ((img.drop i).take n);
    let good := at_ 0 4 = 0x50594E41 ∧ 64 ≤ at_ 8 8 ∧ at_ 8 8 ≤ 2 ^ 26 ∧ at_ 8 8 % 64 = 0 ∧ img.length = 128 + at_ 8 8 ∧
      s.mgmt.minVersion.toNat ≤ at_ 4 4 ∧ ecdsaVerify (Config.imageKey s.mgmt.keyHash) (sha256 (img.take (64 + at_ 8 8))).toNat
        (beNat ((img.drop (64 + at_ 8 8)).take 32)) (beNat ((img.drop (96 + at_ 8 8)).take 32)) = true;
    ((s.mgmt.state ≠ 1 ∨ s.mgmt.bootPort = none) → exec (.imageDownload img) s = .next s) ∧
    (s.mgmt.state = 1 → s.mgmt.bootPort ≠ none →
      (good → ∃ t im, exec (.imageDownload img) s = .next t ∧ t.mgmt.state = 2 ∧ t.mgmt.image = some im ∧
        im.ver = BitVec.ofNat 32 (at_ 4 4) ∧ im.hash = sha256 (img.take (64 + at_ 8 8)) ∧
        t.mgmt.outbox = s.mgmt.outbox ++ [.image 0] ∧ t.g = s.g ∧ SameMemory s t) ∧
      (¬good → exec (.imageDownload img) s = .next { s with mgmt := { s.mgmt with outbox := s.mgmt.outbox ++ [.image 0x15] } }))) ∧
  (∀ (f : Units) (raise : BitVec 32) (rest : List Training) (s : State),
    s.mgmt.trainings = ⟨f, raise⟩ :: rest ∨ (s.mgmt.trainings = [] ∧ rest = [] ∧ f = ⟨[], [], [], [], []⟩ ∧ raise = 0) →
    (s.mgmt.state = 2 → s.grids = [] → ∃ t, exec .fullService s = .next t ∧ t = { s with mgmt := t.mgmt } ∧ t.mgmt.state = 3 ∧
      t.mgmt.trainings = rest ∧
      t.mgmt.minVersion.toNat = max s.mgmt.minVersion.toNat raise.toNat ∧
      (∀ u, (u ∈ t.mgmt.absentDies ↔ u ∈ s.mgmt.absentDies ∨ u ∈ f.dies) ∧ (u ∈ t.mgmt.absentPorts ↔ u ∈ s.mgmt.absentPorts ∨ u ∈ f.ports) ∧
        (u ∈ t.mgmt.absentCores ↔ u ∈ s.mgmt.absentCores ∨ u ∈ f.cores) ∧
        (u ∈ t.mgmt.absentQuads ↔ u ∈ s.mgmt.absentQuads ∨ u ∈ f.quads) ∧
        (u ∈ t.mgmt.absentBasins ↔ u ∈ s.mgmt.absentBasins ∨ u ∈ f.basins)) ∧
      (let fits := fun (w : Nat × Nat) (die lo : Nat) => w.1 % 2 ^ 30 = 0 ∧ w.2 % 65536 = 0 ∧ w.2 ≤ 2 ^ 37 ∧ lo ≤ w.1 ∧
          w.1 + w.2 ≤ lo + 2 ^ 38 ∧ die ∉ t.mgmt.absentDies;
       (fits s.mgmt.setWin0 3 (2 ^ 38) → t.mgmt.win0 = s.mgmt.setWin0) ∧ (¬fits s.mgmt.setWin0 3 (2 ^ 38) → t.mgmt.win0 = (0, 0)) ∧
       (fits s.mgmt.setWin1 4 (2 ^ 39) → t.mgmt.win1 = s.mgmt.setWin1) ∧ (¬fits s.mgmt.setWin1 4 (2 ^ 39) → t.mgmt.win1 = (0, 0)))) ∧
    ((s.mgmt.state ≠ 2 ∨ s.grids ≠ []) → exec .fullService s = .next s)) ∧
  (∀ s : State, ∃ t, exec .bringUpFault s = .next t ∧ t.mgmt.state = 1 ∧ t.mgmt.bootPort = s.mgmt.bootPort ∧
    t.mgmt.trying = s.mgmt.trying ∧ t.mgmt.softErrors = s.mgmt.softErrors ∧ t.mgmt.minVersion = s.mgmt.minVersion ∧
    t.mgmt.keyHash = s.mgmt.keyHash ∧ t.mgmt.identity = s.mgmt.identity ∧ t.mgmt.fused = s.mgmt.fused ∧ t.mgmt.image = none ∧
    t.grids = [] ∧ t.g.live = false ∧ t.others = []) ∧
  (∀ (req : Option (BitVec 256)) (s : State),
    let sent := fun (bs : List Byte) =>
      exec (.attestationRequest req) s = .next { s with
        fresh := s.fresh + 1, mgmt := { s.mgmt with outbox := s.mgmt.outbox ++ [.report bs] } }
    (s.mgmt.bootPort = none → exec (.attestationRequest req) s = .next s) ∧ (s.mgmt.bootPort ≠ none →
      (req = none → ∃ bs, sent bs ∧ bs.length = 256 ∧ bs[0]? = some s.mgmt.state ∧
        (∀ d, d < 4 → ((bs.getD 1 0).getLsbD d = true ↔ d + 1 ∉ s.mgmt.absentDies)) ∧
        (∀ p, p < 8 → ((bs.getD 2 0).getLsbD p = true ↔ p ∉ s.mgmt.absentPorts)) ∧
        (∀ b, b < 192 → ((bs.getD (168 + b / 8) 0).getLsbD (b % 8) = true ↔ basinPresent s b = true)) ∧
        leNat ((bs.drop 240).take 8) = s.mgmt.softErrors.toNat) ∧
      ∀ nonce, req = some nonce → ∃ body n, let m := s.mgmt
        let sig := ecdsaSign m.identity.toNat (sha256 body).toNat n
        sent (body ++ beBytes 32 sig.1 ++ beBytes 32 sig.2) ∧ body.length = 165 ∧ body.take 32 = beBytes 32 nonce.toNat ∧
        body[32]? = some m.state ∧ (body.drop 33).take 32 = beBytes 32 ((m.image.map fun i => i.hash.toNat).getD 0) ∧
        leNat ((body.drop 65).take 4) = (m.image.map fun i => i.ver.toNat).getD 0 ∧
        (body.drop 69).take 32 = beBytes 32 (sha256 (capabilityBlock s)).toNat ∧
        body.drop 101 = beBytes 64 (pubOf m.identity.toNat).toNat)) ∧
  (∀ d hash draw : Nat, let k := draw % (p256n - 1) + 1
    let x := ecdsaAt d hash k
    1 ≤ k ∧ k < p256n ∧ (x.1 ≠ 0 → x.2 ≠ 0 → ecdsaSign d hash draw = x)) ∧
  (∀ (core droop : Nat) (deg : Int) (s : State), ∃ t, exec (.sensorSample core deg droop) s = .next t ∧
    t = { s with cores := t.cores } ∧ ∀ n, smGet Core.reset t.cores n = if n = core then
        { smGet Core.reset s.cores n with hot := if 4 * 95 ≤ deg ∨ 60 ≤ droop then true
          else if deg ≤ 4 * 85 ∧ droop ≤ 35 then false else (smGet Core.reset s.cores n).hot }
      else smGet Core.reset s.cores n) ∧
  (∀ (pa : Nat) (s : State),
    exec (.uncorrectableSoftError pa true) s = .next { s with mgmt := { s.mgmt with softErrors := s.mgmt.softErrors + 1 } } ∧
    (isMemory s pa = true → ∃ t, exec (.uncorrectableSoftError pa false) s = .next t ∧ t = { s with poison := t.poison } ∧
      ∀ k, smGet false t.poison k = if k = pa / 32 then true else smGet false s.poison k) ∧
    (isMemory s pa = false → exec (.uncorrectableSoftError pa false) s = .next s))

/-! ## Host messages and peers -/

/-- The management core answers each host message: a number or body out of range with ENGINE_COMMAND, a window already open, a
communicator, drain target or key slot in use with TARGET_BAD, and otherwise with 0 and the effect; in state 1 it answers none. An
RMA read returns bytes of an open window's range. The close of a window waits for a publish in flight, and a key for the registrations in
progress. A peer joins whose features are all supported, once a port has trained and not in state 1, and only such a peer delivers anything; what it sends reaches the running
command of the collective engine, a `send` or `recv` on its PEER and TAG, and a packet that cannot be delivered ends it in error. The
commands of the collective engine start, transfer, fold, fire and count as R403 to R411 fix (R336, R400, R401, R403, R404, R405, R406,
R407, R408, R409, R410, R411, R412, R413, R414, R415, R426, R432). What loading a key does to lines held under its slot is the model's choice
(notes/assumptions/77.md). The endpoint of the replies, the silence of state 1, and the close of a window that is not open are the model's
choice (notes/assumptions/40.md, 45.md, 49.md). -/
def Obligations.HostMessagesAndPeers : Prop :=
  (∀ (tag : BitVec 32) (win len vaddr : Nat) (grid base : Word) (s : State), let i := Instr.openWindow tag win grid base len vaddr
    (s.mgmt.state = 1 → exec i s = .next s ∧ exec (.closeWindow tag win) s = .next s) ∧ (s.mgmt.state ≠ 1 →
      (256 ≤ win → ∃ t, exec i s = .next t ∧ Replies s t 0x82 tag 0x15 ∧ t.coll = s.coll ∧ SameMemory s t) ∧
      (256 ≤ win → ∃ t, exec (.closeWindow tag win) s = .next t ∧ Replies s t 0x83 tag 0x15 ∧ t.coll = s.coll) ∧
      (win < 256 → (smGet none s.coll.windows win).isSome = true →
        ∃ t, exec i s = .next t ∧ Replies s t 0x82 tag 3 ∧ t.coll = s.coll ∧ SameMemory s t) ∧
      (win < 256 → smGet none s.coll.windows win = none → ∃ t w, exec i s = .next t ∧ Replies s t 0x82 tag 0 ∧
        smGet none t.coll.windows win = some w ∧ w.grid = grid ∧ w.base = base ∧ w.len = len ∧ w.vaddr = vaddr ∧ w.version = 0 ∧
        t.host = smWrite s.host vaddr (List.replicate 8 0) ∧ t.dram = s.dram) ∧
      (win < 256 → publishing s win = true → exec (.closeWindow tag win) s = .next s) ∧
      (win < 256 → publishing s win = false → ∃ t, exec (.closeWindow tag win) s = .next t ∧ Replies s t 0x83 tag 0 ∧ SameMemory s t ∧
        ∀ w, smGet none t.coll.windows w = if w = win then none else smGet none s.coll.windows w))) ∧
  (∀ (tag : BitVec 32) (num rank : Nat) (ports : BitVec 8) (eps : List Nat) (s : State),
    let i := Instr.setCommunicator tag num rank ports eps
    let good := num < 256 ∧ 1 ≤ eps.length ∧ eps.length ≤ 65536 ∧ rank < eps.length ∧
      ∀ p, p < 8 → ports.getLsbD p = true → p ∉ s.mgmt.absentPorts;
    (s.mgmt.state = 1 → exec i s = .next s) ∧ (s.mgmt.state ≠ 1 →
      (¬good → ∃ t, exec i s = .next t ∧ Replies s t 0x84 tag 0x15 ∧ t.coll = s.coll) ∧
      (good → commNamed s num = true → ∃ t, exec i s = .next t ∧ Replies s t 0x84 tag 3 ∧ t.coll = s.coll) ∧
      (good → commNamed s num = false → ∃ t, exec i s = .next t ∧ Replies s t 0x84 tag 0 ∧ SameMemory s t ∧
        t.comm num = some ⟨eps, rank, ports, []⟩))) ∧
  (∀ (tag : BitVec 32) (slot ep base len key : Nat) (ports : BitVec 8) (s : State),
    let i := Instr.setDrainTarget tag slot ep ports base len key
    let good := slot < 16 ∧ ∀ p, p < 8 → ports.getLsbD p = true → p ∉ s.mgmt.absentPorts;
    (s.mgmt.state = 1 → exec i s = .next s) ∧ (s.mgmt.state ≠ 1 →
      (¬good → ∃ t, exec i s = .next t ∧ Replies s t 0x85 tag 0x15 ∧ t.coll = s.coll) ∧
      (good → slotUsed s slot = true → ∃ t, exec i s = .next t ∧ Replies s t 0x85 tag 3 ∧ t.coll = s.coll) ∧
      (good → slotUsed s slot = false → ∃ t, exec i s = .next t ∧ Replies s t 0x85 tag 0 ∧ SameMemory s t ∧
        smGet none t.coll.targets slot = some ⟨ep, ports, base, len, key⟩))) ∧
  (∀ (tag : BitVec 32) (slot : Nat) (key : KeyLoad) (s : State), let i := Instr.loadKeySlot tag slot key
    (s.mgmt.state = 1 → exec i s = .next s) ∧ (s.mgmt.state ≠ 1 →
      ((slot = 0 ∨ 16 ≤ slot) → ∃ t, exec i s = .next t ∧ Replies s t 0x87 tag 0x15 ∧ t.mgmt.keySlots = s.mgmt.keySlots) ∧
      (1 ≤ slot → slot < 16 → slotMapped s slot = true →
        ∃ t, exec i s = .next t ∧ Replies s t 0x87 tag 3 ∧ t.mgmt.keySlots = s.mgmt.keySlots) ∧
      (1 ≤ slot → slot < 16 → slotMapped s slot = false → registering s ≠ [] → exec i s = .next s) ∧
      (1 ≤ slot → slot < 16 → slotMapped s slot = false → registering s = [] → ∀ got : Option (BitVec 512),
        got = (match key with | .generated => some (Config.freeKey s.fresh) | .wrapped p b => unwrapKey s p b slot) →
        (∀ v, got = some v → ∃ t, exec i s = .next t ∧ Replies s t 0x87 tag 0 ∧
          (∀ n, smGet none t.mgmt.keySlots n = if n = slot then some v else smGet none s.mgmt.keySlots n) ∧
          (∀ j l, smGet none t.l2 j = some l → l.key ≠ slot) ∧ ((∀ p ∈ s.lineKey, p.2 ≠ slot) → SameMemory s t)) ∧
        (got = none → ∃ t, exec i s = .next t ∧ Replies s t 0x87 tag 0x15 ∧ t.mgmt.keySlots = s.mgmt.keySlots)))) ∧
  (∀ (win off len : Nat) (s : State),
    (smGet none s.coll.windows win = none → exec (.hostRmaRead win off len) s = .next s) ∧
    ∀ w, smGet none s.coll.windows win = some w → (w.len < off + len → exec (.hostRmaRead win off len) s = .next s) ∧
      (off + len ≤ w.len → (∀ x, engRead (.die 0) w.asid (w.base + BitVec.ofNat 64 off) len s ≠ .ok x) →
        exec (.hostRmaRead win off len) s = .next s) ∧
      ∀ u bs, off + len ≤ w.len → engRead (.die 0) w.asid (w.base + BitVec.ofNat 64 off) len s = .ok (u, bs) →
        exec (.hostRmaRead win off len) s = .next { u with mgmt := { u.mgmt with outbox := u.mgmt.outbox ++ [.rma bs] } }) ∧
  (∀ (peer : Nat) (fs : List Feature) (s : State),
    let good := ∀ f ∈ fs, f ∈ [Feature.uetIp, .semanticSub, .rud, .rod, .senderCc, .llr];
    (good → peer ∉ s.mgmt.peers → s.mgmt.bootPort ≠ none → s.mgmt.state ≠ 1 →
      exec (.connectionSetUp peer fs) s = .next { s with mgmt := { s.mgmt with peers := s.mgmt.peers ++ [peer] } }) ∧
    (¬good ∨ s.mgmt.bootPort = none ∨ s.mgmt.state = 1 → exec (.connectionSetUp peer fs) s = .next s)) ∧
  (∀ (ctx rank : Nat) (tag : BitVec 32) (data : List Byte) (s : State) (k : ECmd) (w : Cmd) (c : Comm) (ep : Nat),
    let e := EngineRef.coll ctx
    let i := Instr.peerDelivery ctx rank ⟨tag, data⟩
    let upd := fun (f : ECmd → ECmd) => exec i s = .next (s.setCtx e ((s.ctx e).updCmd k.seq f))
    let m := (w.w3.extractLsb' 0 40).toNat
    let len := if w.cmd = 3 then m else (if w.cmd = 2 then c.eps.length else 1) * m * typeBytes (w.w0.extractLsb' 35 5)
    (s.ctx e).head = some k → ((k.w.cmd ≠ 6 ∧ k.entry = none ∧ w = k.w) ∨ (k.w.cmd = 6 ∧ k.entry = some w)) →
    s.comm (w.w0.extractLsb' 44 8).toNat = some c → c.eps[rank]? = some ep →
    (k.started = false ∨ k.susp ≠ none ∨ ep ∉ s.mgmt.peers → exec i s = .next s) ∧
    (k.started = true → k.susp = none → ep ∈ s.mgmt.peers →
      (w.cmd = 1 ∨ w.cmd = 2 ∨ w.cmd = 3 → rank ≠ c.rank →
        (w.cmd = 3 ∨ w.w0.extractLsb' 35 5 ∈ [0#5, 1, 2, 3, 0x0A, 0x0B, 0x0E]) →
        upd fun q => { q with peers := smUpd [] q.peers rank fun d => (d ++ data).take len }) ∧
      (w.cmd = 4 ∨ w.cmd = 5 →
        let mine := rank = (w.w4.extractLsb' 0 16).toNat ∧ tag = w.w4.extractLsb' 16 32 ∧ k.regDone = false ∧ pairedLater s k = false
        (¬mine → exec i s = .next s) ∧ (mine → w.cmd = 4 → upd fun q => { q with regDone := true }) ∧
        (mine → w.cmd = 5 → upd fun q => { q with regDone := true, peers := smPut [] q.peers rank data })) ∧
      (w = k.w → w.cmd = 7 → w.w1 = 1 → rank ≠ c.rank → ∃ t, exec i s = .next t ∧
        t.comm (w.w0.extractLsb' 44 8).toNat = some { c with bars := smUpd 0 c.bars rank (· + 1) } ∧ t.g = s.g ∧ SameMemory s t) ∧
      (w = k.w → w.cmd = 7 → (w.w1 ≠ 1 ∨ rank = c.rank) → exec i s = .next s))) ∧
  (∀ (ctx : Nat) (s : State) (k : ECmd) (w : Cmd), let e := EngineRef.coll ctx
    let moves := k.started = true ∧ ((1 ≤ w.cmd.toNat ∧ w.cmd.toNat ≤ 5) ∨ (w.cmd = 7 ∧ w.w1 = 1 ∧ k.regDone = false))
    (s.ctx e).head = some k → (k.entry = none ∧ w = k.w ∨ k.entry = some w) →
    (moves → ∃ t, exec (.retransmissionFailure ctx) s = .next t ∧ t.ctx e = (s.ctx e).finish k.seq (.error 0x15) ∧ SameMemory s t) ∧
    (¬moves → exec (.retransmissionFailure ctx) s = .next s)) ∧
  CollectivesStart ∧ TransfersRun ∧ ArmsFire ∧ StepsAdvance

/-! ## The matrix engine, rendezvous and register puts -/

/-- The arbiter grants a ready entry, one of high priority before the others and the oldest of its class first: it leaves the table for the
array, each ready entry that it passes counts the grant, and the collector keeps what it says. The oldest granted entry takes effect on
the tile it writes, with the sums that its pass fixes, and its group counts it. The first sender of a slot pairs with the first receiver:
the receiver's name takes the lanes active on both sides. A put lands in the target's register, each lane in its own time, and with the
last lane adds 1 to the counter; it waits at a group that has not started or that has no register for it, and to a group that has ended it
does nothing (R111, R246, R247, R248, R273, R274, R275, R279, R280, R281, R282, R283, R284, R437). The sign of a zero product and a put
beyond the target's base mask are the model's choice (notes/assumptions/66.md, 67.md). -/
def Obligations.GrantsPairsAndPuts : Prop :=
  (∀ (b : SMap Byte) (cols r c bits i : Nat), bits ∈ [4, 8, 16, 32, 64] → i < bits →
    let o := (r * cols + c) * bits + i
    tileGet b cols bits r c < 2 ^ bits ∧ (tileGet b cols bits r c).testBit i = (smGet 0 b (o / 8)).getLsbD (o % 8)) ∧
  (∀ (q : Quad) (n : MEntry), PassEffect q n) ∧
  (∀ (quad : Nat) (s : State), let q := smGet Quad.reset s.quads quad
    let ready := fun (n : MEntry) => ∀ m ∈ q.running ++ q.table, m.stamp < n.stamp → conflict m n = false;
    let high := fun (n : MEntry) => q.owner = some (n.core, n.slot) ∨ 64 ≤ n.passed;
    ((∀ n ∈ q.table, ¬ready n) → exec (.matrixGrant quad) s = .next s) ∧
    (∀ old n young, q.table = old ++ n :: young → ready n →
      (high n ∧ ∀ m ∈ old, ready m → ¬high m) ∨ ((∀ m ∈ q.table, ready m → ¬high m) ∧ ∀ m ∈ old, ¬ready m) →
      ∃ t, exec (.matrixGrant quad) s = .next t ∧ t = { s with quads := t.quads } ∧
      (smGet Quad.reset t.quads quad).running = q.running ++ [n] ∧ (smGet Quad.reset t.quads quad).tiles = q.tiles ∧
      (let ab := match n.op with | .mma _ _ ra rb _ => (ra, rb) | .mmaz _ ra rb => (ra, rb) | _ => (false, false)
       (smGet Quad.reset t.quads quad).keepA = (if ab.1 then n.tiles[1]? else none) ∧
       (smGet Quad.reset t.quads quad).keepB = (if ab.2 then n.tiles[2]? else none)) ∧
      (∀ m ∈ (smGet Quad.reset t.quads quad).table, m.stamp ≠ n.stamp ∧ ∃ o ∈ q.table, m = { o with passed := m.passed } ∧
        (ready o → m.passed = o.passed + 1) ∧ (¬ready o → m.passed = o.passed)))) ∧
  (∀ (quad : Nat) (s : State), let q := smGet Quad.reset s.quads quad
    (q.running = [] → exec (.matrixCompletion quad) s = .next s) ∧
    ∀ n rest, q.running = n :: rest → ∃ t, exec (.matrixCompletion quad) s = .next t ∧ SameMemory s t ∧
      (smGet Quad.reset t.quads quad).running = rest ∧ (smGet Quad.reset t.quads quad).table = q.table ∧
      (∀ k ∈ n.writes, smGet Tile.reset (smGet Quad.reset t.quads quad).tiles k =
        { smGet Tile.reset q.tiles k with bytes := (effect q n).1 }) ∧
      (∀ k, k ∉ n.writes → smGet Tile.reset (smGet Quad.reset t.quads quad).tiles k = smGet Tile.reset q.tiles k) ∧
      (∀ a r k b1 w bits sg, (s.g.accs.find? fun x => x.stamp == n.acc && x.kind == .matrix) = some a → s.g.live = true → s.g.core = n.core →
        s.g.slot = n.slot → a.dst = .v r k b1 w bits sg → s.g.bindOf r = some k → ∀ i, i < 32 → lane (t.g.readV r) i =
          if a.mask.getLsbD i then lane (effect q n).2.2 i else lane (s.g.readV r) i) ∧
      (s.g.live = true → s.g.core = n.core → s.g.slot = n.slot →
        t.g.accs = s.g.accs.filter (fun a => a.stamp != n.acc) ∨ ∀ a ∈ s.g.accs, a.kind = .matrix → a.stamp ≠ n.acc)) ∧
  (∀ (slot : Nat) (s : State), let r := smGet Rdv.reset s.team.rdv slot
    waitingPairs s slot = [] →
    ((r.send = [] ∨ r.recv = []) → exec (.rendezvousPairing slot) s = .next s) ∧
    ∀ a b ss rs h x y reg, r.send = a :: ss → r.recv = b :: rs → s.groupAt s.g.core a.1 = some h →
      (h.accs.find? fun k => k.stamp == a.2) = some x → s.g.live = true → b.1 = s.g.slot →
      (s.g.accs.find? fun k => k.stamp == b.2) = some y → y.dst = .recv reg false → (∀ o ∈ s.others, o.live = true) →
      (∃ nm, s.g.name reg = some nm ∧ nm.comp = false) → s.g.arrivals = [] →
      ∃ t, exec (.rendezvousPairing slot) s = .next t ∧ SameMemory s t ∧ smGet Rdv.reset t.team.rdv slot = ⟨ss, rs⟩ ∧
        (∀ k ∈ t.g.accs, k.stamp ≠ b.2) ∧ ∀ n, n < 32 → lane (t.g.readV reg) n =
          if (x.mask &&& y.mask).getLsbD n then
            ((x.lanes.find? fun l => l.lane == n).elim 0 fun l => l.data.extractLsb' 0 32)
          else lane (s.g.readV reg) n) ∧
  (∀ (stamp : Nat) (lanes : BitVec 32) (s : State) (cid : Nat) (p : Put) (mine : Bool) (d : BitVec 32),
    findPut s stamp = some (cid, p, mine) → p.acc.stamp = stamp → p.acc.kind = .rput d → (mine = true → s.g.live = true) →
    (∀ o ∈ s.others, o.live = true) →
    let i := Instr.rputArrival ⟨stamp, lanes⟩
    let next := fun (P : State → Prop) => ∃ t, exec i s = .next t ∧ SameMemory s t ∧ P t
    let grp := (d.extractLsb' 11 5).toNat
    let reg := d.extractLsb' 0 11
    let ctr := (d.extractLsb' 20 3).toNat
    let tm := smGet Team.reset s.teams ((smGet Cluster.reset s.clusters cid).teams.getD (d.extractLsb' 16 4).toNat 0)
    let there := fun (t : State) => t.groupAt tm.core (tm.slots.getD grp 0)
    let gone := fun (t : State) => if mine = true then ∀ a ∈ t.g.accs, a.stamp ≠ stamp
      else ∀ x ∈ (smGet Cluster.reset t.clusters cid).puts, x.acc.stamp ≠ stamp
    let src := (p.core, p.slot, stamp)
    (mine = true → accEnabled s s.g p.acc = false → exec i s = .next s) ∧ ((mine = false ∨ accEnabled s s.g p.acc = true) →
      ((tm.slots = [] ∨ grp ∈ tm.ended) → next fun t => gone t ∧ t = { s with g := { s.g with accs := t.g.accs }, clusters := t.clusters }) ∧
      (tm.slots ≠ [] → grp ∉ tm.ended → there s = none → exec i s = .next s) ∧
      ∀ h, tm.slots ≠ [] → grp ∉ tm.ended → there s = some h → p.acc.w = 4 → (p.acc.lanes.map (·.lane)).Nodup →
        (∀ n, p.acc.mask.getLsbD n = true ↔ ∃ l ∈ p.acc.lanes, l.lane = n) →
        let first := h.arrivals = [] ∧ (∀ l ∈ p.acc.lanes, l.done = false) ∧ ∃ nm, h.name reg = some nm ∧ nm.comp = false
        let again := ∃ x k, h.arrivals = [x] ∧ x.src = src ∧ x.dst = 0 ∧ x.names = [(reg, k)] ∧ h.bindOf reg = some k
        let all := ∀ l ∈ p.acc.lanes, l.done = false → lanes.getLsbD l.lane = true
        let value := fun (n : Nat) => (p.acc.lanes.find? fun l => l.lane == n).elim 0 fun l => l.data.extractLsb' 0 32
        let lands := fun (h' : Group) => ∀ n, n < 32 → (PutLands p.acc lanes n → lane (h'.readV reg) n = value n) ∧
          (¬PutLands p.acc lanes n → lane (h'.readV reg) n = lane (h.readV reg) n)
        ((first ∨ again) → all → next fun t => gone t ∧ ∃ h', there t = some h' ∧ lands h' ∧ smGet 0 h'.a ctr = smGet 0 h.a ctr + 1 ∧
          h'.arrivals = []) ∧
        ((first ∨ again) → ¬all → ¬(p.acc.mask = 0xFFFF_FFFF ∧ ∃ v, ∀ n, n < 32 → value n = v) → next fun t => ∃ h', there t = some h' ∧
          lands h' ∧ h'.a = h.a ∧ (∃ x k, h'.arrivals = [x] ∧ x.src = src ∧ x.dst = 0 ∧ x.names = [(reg, k)]) ∧
          (mine = true → ∀ a ∈ t.g.accs, a.stamp = stamp → ∀ l ∈ a.lanes, lanes.getLsbD l.lane = true → l.done = true)) ∧
        (∀ t0 : State, focusOn (some (tm.core, tm.slots.getD grp 0)) s = some t0 → t0.g = h → h.arrivals = [] → p.acc.mask ≠ 0 →
          bindAll t0 t0.stamp [(reg, p.acc.mask, some (carried p.acc.lanes false))] t0 = none → next fun t => ∃ h' x, there t = some h' ∧
            h' = { h with arrivals := [x] } ∧ x.born = s.stamp ∧ x.src = src ∧ x.dst = 0 ∧ x.names = [])))
end

