-- ==== Sys2Proof/Laws/Lanes.lean ====
section
/-! SUPPORT. Lanes of registers and masks built lane by lane read back, and a blend takes each lane from its side. -/
namespace Sys2Proof.Machine

theorem foldl_or_getLsbD {w : Nat} (h : Nat → BitVec w) (l : List Nat) (a : BitVec w) (i : Nat) :
    (l.foldl (fun v n => v ||| h n) a).getLsbD i = (a.getLsbD i || l.any fun n => (h n).getLsbD i) := by
  induction l generalizing a with
  | nil => simp
  | cons n l ih => simp [ih, BitVec.getLsbD_or, Bool.or_assoc]

theorem getLsbD_shifted (x : Lane) (k n j : Nat) (hn : n < 32) (hj : j < 32) :
    (x.zeroExtend 1024 <<< (32 * k)).getLsbD (32 * n + j) = (decide (k = n) && x.getLsbD j) := by
  simp only [BitVec.truncate_eq_setWidth, BitVec.getLsbD_shiftLeft, BitVec.getLsbD_setWidth]
  by_cases hk : k = n
  · subst hk
    have h1 : 32 * k + j < 1024 := by omega
    have h2 : ¬ 32 * k + j < 32 * k := by omega
    have h3 : 32 * k + j - 32 * k = j := by omega
    have h4 : j < 1024 := by omega
    simp [h1, h2, h3, h4]
  · by_cases hlt : 32 * n + j < 32 * k
    · simp [hlt, hk]
    · have h : x.getLsbD (32 * n + j - 32 * k) = false := BitVec.getLsbD_of_ge _ _ (by omega)
      simp [h, hk]

/-- Lane n of a register built from lanes. -/
@[simp] theorem lane_mkLanes (f : Nat → Lane) (n : Nat) (hn : n < 32) : lane (mkLanes f) n = f n := by
  apply BitVec.eq_of_getLsbD_eq
  intro j hj
  unfold lane mkLanes
  rw [BitVec.getLsbD_extractLsb', foldl_or_getLsbD]
  have hany : ((List.range 32).any fun k => (((f k).zeroExtend 1024) <<< (32 * k)).getLsbD (32 * n + j)) = (f n).getLsbD j := by
    simp only [getLsbD_shifted _ _ n j hn hj]
    rw [Bool.eq_iff_iff]
    simp only [List.any_eq_true, List.mem_range, Bool.and_eq_true, decide_eq_true_eq]
    constructor
    · rintro ⟨k, -, rfl, h⟩; exact h
    · intro h; exact ⟨n, hn, rfl, h⟩
  rw [hany]
  simp [hj]

/-- Bit n of a mask built from a test. -/
@[simp] theorem getLsbD_mkMask (f : Nat → Bool) (n : Nat) (hn : n < 32) : (mkMask f).getLsbD n = f n := by
  have h : mkMask f = (List.range 32).foldl (fun m k => m ||| (if f k then 1#32 <<< k else 0)) 0 := by
    unfold mkMask
    congr 1
    funext m k
    cases f k <;> simp
  have h0 : (0 : Mask).getLsbD n = false := by simp
  rw [h, foldl_or_getLsbD, h0, Bool.false_or, Bool.eq_iff_iff, List.any_eq_true]
  simp only [List.mem_range]
  constructor
  · rintro ⟨k, hk, hb⟩
    cases hf : f k with
    | false => simp [hf] at hb
    | true =>
      simp only [hf, if_true, BitVec.getLsbD_shiftLeft, BitVec.getLsbD_one, Bool.and_eq_true, decide_eq_true_eq] at hb
      have : k = n := by simp at hb; omega
      rw [← this, hf]
  · intro hf
    exact ⟨n, hn, by simp [hf, hn]⟩

/-- A blend takes an active lane from the new value and any other from the old (R4). -/
@[simp] theorem lane_blend (m : Mask) (x y : Lanes) (n : Nat) (hn : n < 32) :
    lane (blend m x y) n = if m.getLsbD n then lane x n else lane y n := by simp [blend, hn]

/-- Every lane of a splat is its value. -/
@[simp] theorem lane_splat (x : Lane) (n : Nat) (hn : n < 32) : lane (splat x) n = x := by simp [splat, hn]

end Sys2Proof.Machine
end

