-- ==== Sys2Proof/Laws/Sparse.lean ====
section
/-! SUPPORT. Laws of sparse maps: a write is read back and leaves every other key alone, and every operation keeps the canonical
form. -/
namespace Sys2Proof.Machine

section
variable {α : Type} (d : α)

@[simp] theorem smGet_nil (i : Nat) : smGet d ([] : SMap α) i = d := rfl

theorem smGet_smDel (m : SMap α) (i j : Nat) : smGet d (smDel m i) j = if j = i then d else smGet d m j := by
  induction m with
  | nil => simp [smDel]
  | cons e m ih =>
    obtain ⟨k, v⟩ := e
    simp only [smDel, List.filter_cons, bne_iff_ne, ne_eq] at ih ⊢
    by_cases hk : k = i
    · subst hk
      simp only [not_true_eq_false, if_false, smGet]
      rw [ih]
      by_cases hj : j = k
      · simp [hj]
      · simp [hj, Ne.symm hj]
    · simp only [hk, not_false_eq_true, if_true, smGet, ih]
      by_cases hj : k = j
      · subst hj; simp [hk]
      · simp [hj]

theorem smGet_smIns (m : SMap α) (i j : Nat) (v : α) (h : ∀ e ∈ m, e.1 ≠ i) :
    smGet d (smIns i v m) j = if j = i then v else smGet d m j := by
  induction m with
  | nil =>
    simp only [smIns, smGet]
    by_cases hj : j = i
    · simp [hj]
    · simp [hj, Ne.symm hj]
  | cons e m ih =>
    obtain ⟨k, w⟩ := e
    have hk : k ≠ i := h (k, w) (by simp)
    simp only [smIns]
    by_cases hlt : i < k
    · simp only [hlt, if_true, smGet]
      by_cases hj : j = i
      · simp [hj]
      · simp [hj, Ne.symm hj]
    · simp only [hlt, if_false, smGet]
      rw [ih fun e he => h e (by simp [he])]
      by_cases hj : k = j
      · subst hj; simp [hk]
      · simp [hj]

theorem smDel_ne (m : SMap α) (i : Nat) : ∀ e ∈ smDel m i, e.1 ≠ i := by
  intro e he
  simp [smDel] at he
  exact he.2

variable [DecidableEq α]

/-- A write is read back, and every other key reads as before. -/
@[simp] theorem smGet_smPut (m : SMap α) (i j : Nat) (v : α) :
    smGet d (smPut d m i v) j = if j = i then v else smGet d m j := by
  unfold smPut
  split
  · rename_i h; rw [smGet_smDel, h]
  · rw [smGet_smIns d _ _ _ _ (smDel_ne m i), smGet_smDel]
    by_cases hj : j = i <;> simp [hj]

/-- An update is read back, and every other key reads as before. -/
@[simp] theorem smGet_smUpd (m : SMap α) (i j : Nat) (f : α → α) :
    smGet d (smUpd d m i f) j = if j = i then f (smGet d m i) else smGet d m j := smGet_smPut d m i j _

/-! ## The canonical form -/

theorem smWfFrom_mono {m : SMap α} {lo lo' : Option Nat} (h : smWfFrom d lo m = true)
    (hl : ∀ b, lo' = some b → ∃ c, lo = some c ∧ b ≤ c) : smWfFrom d lo' m = true := by
  cases m with
  | nil => rfl
  | cons e m =>
    obtain ⟨k, v⟩ := e
    simp only [smWfFrom, Bool.and_eq_true] at h ⊢
    refine ⟨⟨?_, h.1.2⟩, h.2⟩
    cases lo' with
    | none => rfl
    | some b =>
      obtain ⟨c, hc, hbc⟩ := hl b rfl
      subst hc
      have := h.1.1
      simp only [decide_eq_true_eq] at this ⊢
      omega

theorem smWfFrom_filter (m : SMap α) (lo : Option Nat) (p : Nat × α → Bool) (h : smWfFrom d lo m = true) :
    smWfFrom d lo (m.filter p) = true := by
  induction m generalizing lo with
  | nil => exact h
  | cons e m ih =>
    obtain ⟨k, v⟩ := e
    simp only [smWfFrom, Bool.and_eq_true] at h
    simp only [List.filter_cons]
    split
    · simp only [smWfFrom, Bool.and_eq_true]
      exact ⟨h.1, ih _ h.2⟩
    · refine ih _ (smWfFrom_mono d h.2 ?_)
      intro b hb
      subst hb
      exact ⟨k, rfl, by have := h.1.1; simp only [decide_eq_true_eq] at this; omega⟩

theorem smWfFrom_smIns (m : SMap α) (lo : Option Nat) (i : Nat) (v : α) (hv : v ≠ d) (hi : ∀ e ∈ m, e.1 ≠ i)
    (hlo : ∀ b, lo = some b → b < i) (h : smWfFrom d lo m = true) : smWfFrom d lo (smIns i v m) = true := by
  induction m generalizing lo with
  | nil =>
    simp only [smIns, smWfFrom, Bool.and_eq_true, decide_eq_true_eq]
    refine ⟨⟨?_, by simpa using hv⟩, trivial⟩
    cases lo with
    | none => rfl
    | some b => simpa using hlo b rfl
  | cons e m ih =>
    obtain ⟨k, w⟩ := e
    have hk : k ≠ i := hi (k, w) (by simp)
    simp only [smWfFrom, Bool.and_eq_true] at h
    simp only [smIns]
    split
    · rename_i hlt
      simp only [smWfFrom, Bool.and_eq_true, decide_eq_true_eq]
      refine ⟨⟨?_, by simpa using hv⟩, ⟨hlt, ?_⟩, h.2⟩
      · cases lo with
        | none => rfl
        | some b => simpa using hlo b rfl
      · simpa using h.1.2
    · rename_i hlt
      simp only [smWfFrom, Bool.and_eq_true]
      exact ⟨h.1, ih _ (fun e he => hi e (by simp [he])) (by intro b hb; cases hb; omega) h.2⟩

/-- A removal keeps the canonical form. -/
theorem smWf_filter {m : SMap α} (p : Nat × α → Bool) (h : smWf d m = true) : smWf d (m.filter p) = true :=
  smWfFrom_filter d m none p h

/-- A write keeps the canonical form. -/
theorem smWf_smPut {m : SMap α} (i : Nat) (v : α) (h : smWf d m = true) : smWf d (smPut d m i v) = true := by
  unfold smPut
  split
  · exact smWf_filter d _ h
  · rename_i hv
    exact smWfFrom_smIns d _ none i v hv (smDel_ne m i) (by simp) (smWf_filter d _ h)

/-- An update keeps the canonical form. -/
theorem smWf_smUpd {m : SMap α} (i : Nat) (f : α → α) (h : smWf d m = true) : smWf d (smUpd d m i f) = true :=
  smWf_smPut d i _ h

/-- The empty map is in canonical form. -/
@[simp] theorem smWf_nil : smWf d ([] : SMap α) = true := rfl

end

/-! ## Bytes -/

/-- A write of consecutive bytes is read back, and every other byte reads as before. -/
theorem smGet_smWrite (m : SMap Byte) (a j : Nat) (bs : List Byte) :
    smGet 0 (smWrite m a bs) j = if a ≤ j ∧ j < a + bs.length then bs.getD (j - a) 0 else smGet 0 m j := by
  induction bs generalizing m a with
  | nil => have : ¬(a ≤ j ∧ j < a) := by omega
           simp [smWrite, this]
  | cons b bs ih =>
    simp only [smWrite, ih, List.length_cons, smGet_smPut]
    by_cases h1 : j = a
    · subst h1
      have h2 : ¬(j + 1 ≤ j ∧ j < j + 1 + bs.length) := by omega
      have h3 : j ≤ j ∧ j < j + (bs.length + 1) := by omega
      simp only [h2, h3, if_true, if_false, and_self, Nat.sub_self, List.getD_cons_zero]
    · by_cases h2 : a + 1 ≤ j ∧ j < a + 1 + bs.length
      · have h3 : a ≤ j ∧ j < a + (bs.length + 1) := by omega
        have h4 : j - a = (j - (a + 1)) + 1 := by omega
        simp only [h2, h3, if_true, and_self, h4, List.getD_cons_succ]
      · have h3 : ¬(a ≤ j ∧ j < a + (bs.length + 1)) := by omega
        simp only [h2, h3, h1, if_false]

/-- A write of consecutive bytes keeps the canonical form. -/
theorem smWf_smWrite {m : SMap Byte} (a : Nat) (bs : List Byte) (h : smWf 0 m = true) : smWf 0 (smWrite m a bs) = true := by
  induction bs generalizing m a with
  | nil => exact h
  | cons b bs ih => exact ih _ (smWf_smPut 0 a b h)

@[simp] theorem leBytes_length (n v : Nat) : (leBytes n v).length = n := by
  induction n generalizing v with
  | zero => rfl
  | succ n ih => simp [leBytes, ih]

@[simp] theorem smBytes_length (m : SMap Byte) (a n : Nat) : (smBytes m a n).length = n := by
  induction n generalizing a with
  | zero => rfl
  | succ n ih => simp [smBytes, ih]

/-- The number that the bytes of a number hold. -/
theorem leNat_leBytes (n v : Nat) : leNat (leBytes n v) = v % 256 ^ n := by
  induction n generalizing v with
  | zero => simp [leBytes, leNat, Nat.mod_one]
  | succ n ih =>
    have h : 256 ^ (n + 1) = 256 * 256 ^ n := by ring
    simp only [leBytes, leNat, ih, BitVec.toNat_ofNat, h, Nat.mod_mul]

end Sys2Proof.Machine
end

