-- ==== Sys2Proof/Laws/State.lean ====
section
/-! SUPPORT. One lemma for each field and each named update of the state and of a group, so that no later proof unfolds an update. -/
namespace Sys2Proof.Machine

/-! ## State.withG -/

@[simp] theorem withG_g (s : State) (g : Group) : (s.withG g).g = g := rfl
@[simp] theorem withG_others (s : State) (g : Group) : (s.withG g).others = s.others := rfl
@[simp] theorem withG_teams (s : State) (g : Group) : (s.withG g).teams = s.teams := rfl
@[simp] theorem withG_clusters (s : State) (g : Group) : (s.withG g).clusters = s.clusters := rfl
@[simp] theorem withG_grids (s : State) (g : Group) : (s.withG g).grids = s.grids := rfl
@[simp] theorem withG_cores (s : State) (g : Group) : (s.withG g).cores = s.cores := rfl
@[simp] theorem withG_quads (s : State) (g : Group) : (s.withG g).quads = s.quads := rfl
@[simp] theorem withG_basins (s : State) (g : Group) : (s.withG g).basins = s.basins := rfl
@[simp] theorem withG_banks (s : State) (g : Group) : (s.withG g).banks = s.banks := rfl
@[simp] theorem withG_rows (s : State) (g : Group) : (s.withG g).rows = s.rows := rfl
@[simp] theorem withG_dram (s : State) (g : Group) : (s.withG g).dram = s.dram := rfl
@[simp] theorem withG_lineKey (s : State) (g : Group) : (s.withG g).lineKey = s.lineKey := rfl
@[simp] theorem withG_l2 (s : State) (g : Group) : (s.withG g).l2 = s.l2 := rfl
@[simp] theorem withG_poison (s : State) (g : Group) : (s.withG g).poison = s.poison := rfl
@[simp] theorem withG_sram (s : State) (g : Group) : (s.withG g).sram = s.sram := rfl
@[simp] theorem withG_owners (s : State) (g : Group) : (s.withG g).owners = s.owners := rfl
@[simp] theorem withG_lagging (s : State) (g : Group) : (s.withG g).lagging = s.lagging := rfl
@[simp] theorem withG_tlb (s : State) (g : Group) : (s.withG g).tlb = s.tlb := rfl
@[simp] theorem withG_host (s : State) (g : Group) : (s.withG g).host = s.host := rfl
@[simp] theorem withG_coll (s : State) (g : Group) : (s.withG g).coll = s.coll := rfl
@[simp] theorem withG_mgmt (s : State) (g : Group) : (s.withG g).mgmt = s.mgmt := rfl
@[simp] theorem withG_agenda (s : State) (g : Group) : (s.withG g).agenda = s.agenda := rfl
@[simp] theorem withG_fresh (s : State) (g : Group) : (s.withG g).fresh = s.fresh := rfl
@[simp] theorem withG_stamp (s : State) (g : Group) : (s.withG g).stamp = s.stamp := rfl
/-! ## State.updRow -/

@[simp] theorem updRow_g (s : State) (r : Nat) (u : Row → Row) : (s.updRow r u).g = s.g := rfl
@[simp] theorem updRow_others (s : State) (r : Nat) (u : Row → Row) : (s.updRow r u).others = s.others := rfl
@[simp] theorem updRow_teams (s : State) (r : Nat) (u : Row → Row) : (s.updRow r u).teams = s.teams := rfl
@[simp] theorem updRow_clusters (s : State) (r : Nat) (u : Row → Row) : (s.updRow r u).clusters = s.clusters := rfl
@[simp] theorem updRow_grids (s : State) (r : Nat) (u : Row → Row) : (s.updRow r u).grids = s.grids := rfl
@[simp] theorem updRow_cores (s : State) (r : Nat) (u : Row → Row) : (s.updRow r u).cores = s.cores := rfl
@[simp] theorem updRow_quads (s : State) (r : Nat) (u : Row → Row) : (s.updRow r u).quads = s.quads := rfl
@[simp] theorem updRow_basins (s : State) (r : Nat) (u : Row → Row) : (s.updRow r u).basins = s.basins := rfl
@[simp] theorem updRow_banks (s : State) (r : Nat) (u : Row → Row) : (s.updRow r u).banks = s.banks := rfl
@[simp] theorem updRow_dram (s : State) (r : Nat) (u : Row → Row) : (s.updRow r u).dram = s.dram := rfl
@[simp] theorem updRow_lineKey (s : State) (r : Nat) (u : Row → Row) : (s.updRow r u).lineKey = s.lineKey := rfl
@[simp] theorem updRow_l2 (s : State) (r : Nat) (u : Row → Row) : (s.updRow r u).l2 = s.l2 := rfl
@[simp] theorem updRow_poison (s : State) (r : Nat) (u : Row → Row) : (s.updRow r u).poison = s.poison := rfl
@[simp] theorem updRow_sram (s : State) (r : Nat) (u : Row → Row) : (s.updRow r u).sram = s.sram := rfl
@[simp] theorem updRow_owners (s : State) (r : Nat) (u : Row → Row) : (s.updRow r u).owners = s.owners := rfl
@[simp] theorem updRow_lagging (s : State) (r : Nat) (u : Row → Row) : (s.updRow r u).lagging = s.lagging := rfl
@[simp] theorem updRow_tlb (s : State) (r : Nat) (u : Row → Row) : (s.updRow r u).tlb = s.tlb := rfl
@[simp] theorem updRow_host (s : State) (r : Nat) (u : Row → Row) : (s.updRow r u).host = s.host := rfl
@[simp] theorem updRow_coll (s : State) (r : Nat) (u : Row → Row) : (s.updRow r u).coll = s.coll := rfl
@[simp] theorem updRow_mgmt (s : State) (r : Nat) (u : Row → Row) : (s.updRow r u).mgmt = s.mgmt := rfl
@[simp] theorem updRow_agenda (s : State) (r : Nat) (u : Row → Row) : (s.updRow r u).agenda = s.agenda := rfl
@[simp] theorem updRow_fresh (s : State) (r : Nat) (u : Row → Row) : (s.updRow r u).fresh = s.fresh := rfl
@[simp] theorem updRow_stamp (s : State) (r : Nat) (u : Row → Row) : (s.updRow r u).stamp = s.stamp := rfl
@[simp] theorem rowAt_updRow (s : State) (r q : Nat) (u : Row → Row) :
    rowAt (s.updRow r u) q = if q = r then u (rowAt s r) else rowAt s q := by simp [rowAt, State.updRow]
/-! ## State.updQuad -/

@[simp] theorem updQuad_g (s : State) (u : Quad → Quad) : (s.updQuad u).g = s.g := rfl
@[simp] theorem updQuad_others (s : State) (u : Quad → Quad) : (s.updQuad u).others = s.others := rfl
@[simp] theorem updQuad_teams (s : State) (u : Quad → Quad) : (s.updQuad u).teams = s.teams := rfl
@[simp] theorem updQuad_clusters (s : State) (u : Quad → Quad) : (s.updQuad u).clusters = s.clusters := rfl
@[simp] theorem updQuad_grids (s : State) (u : Quad → Quad) : (s.updQuad u).grids = s.grids := rfl
@[simp] theorem updQuad_cores (s : State) (u : Quad → Quad) : (s.updQuad u).cores = s.cores := rfl
@[simp] theorem updQuad_basins (s : State) (u : Quad → Quad) : (s.updQuad u).basins = s.basins := rfl
@[simp] theorem updQuad_banks (s : State) (u : Quad → Quad) : (s.updQuad u).banks = s.banks := rfl
@[simp] theorem updQuad_rows (s : State) (u : Quad → Quad) : (s.updQuad u).rows = s.rows := rfl
@[simp] theorem updQuad_dram (s : State) (u : Quad → Quad) : (s.updQuad u).dram = s.dram := rfl
@[simp] theorem updQuad_lineKey (s : State) (u : Quad → Quad) : (s.updQuad u).lineKey = s.lineKey := rfl
@[simp] theorem updQuad_l2 (s : State) (u : Quad → Quad) : (s.updQuad u).l2 = s.l2 := rfl
@[simp] theorem updQuad_poison (s : State) (u : Quad → Quad) : (s.updQuad u).poison = s.poison := rfl
@[simp] theorem updQuad_sram (s : State) (u : Quad → Quad) : (s.updQuad u).sram = s.sram := rfl
@[simp] theorem updQuad_owners (s : State) (u : Quad → Quad) : (s.updQuad u).owners = s.owners := rfl
@[simp] theorem updQuad_lagging (s : State) (u : Quad → Quad) : (s.updQuad u).lagging = s.lagging := rfl
@[simp] theorem updQuad_tlb (s : State) (u : Quad → Quad) : (s.updQuad u).tlb = s.tlb := rfl
@[simp] theorem updQuad_host (s : State) (u : Quad → Quad) : (s.updQuad u).host = s.host := rfl
@[simp] theorem updQuad_coll (s : State) (u : Quad → Quad) : (s.updQuad u).coll = s.coll := rfl
@[simp] theorem updQuad_mgmt (s : State) (u : Quad → Quad) : (s.updQuad u).mgmt = s.mgmt := rfl
@[simp] theorem updQuad_agenda (s : State) (u : Quad → Quad) : (s.updQuad u).agenda = s.agenda := rfl
@[simp] theorem updQuad_fresh (s : State) (u : Quad → Quad) : (s.updQuad u).fresh = s.fresh := rfl
@[simp] theorem updQuad_stamp (s : State) (u : Quad → Quad) : (s.updQuad u).stamp = s.stamp := rfl
@[simp] theorem quad_updQuad (s : State) (u : Quad → Quad) : (s.updQuad u).quad = u s.quad := by
  simp [State.quad, State.updQuad, State.quadNo]
/-! ## State.setCtx -/

@[simp] theorem setCtx_g (s : State) (e : EngineRef) (x : EngCtx) : (s.setCtx e x).g = s.g := by cases e <;> rfl
@[simp] theorem setCtx_others (s : State) (e : EngineRef) (x : EngCtx) : (s.setCtx e x).others = s.others := by cases e <;> rfl
@[simp] theorem setCtx_teams (s : State) (e : EngineRef) (x : EngCtx) : (s.setCtx e x).teams = s.teams := by cases e <;> rfl
@[simp] theorem setCtx_clusters (s : State) (e : EngineRef) (x : EngCtx) : (s.setCtx e x).clusters = s.clusters := by cases e <;> rfl
@[simp] theorem setCtx_grids (s : State) (e : EngineRef) (x : EngCtx) : (s.setCtx e x).grids = s.grids := by cases e <;> rfl
@[simp] theorem setCtx_cores (s : State) (e : EngineRef) (x : EngCtx) : (s.setCtx e x).cores = s.cores := by cases e <;> rfl
@[simp] theorem setCtx_banks (s : State) (e : EngineRef) (x : EngCtx) : (s.setCtx e x).banks = s.banks := by cases e <;> rfl
@[simp] theorem setCtx_rows (s : State) (e : EngineRef) (x : EngCtx) : (s.setCtx e x).rows = s.rows := by cases e <;> rfl
@[simp] theorem setCtx_dram (s : State) (e : EngineRef) (x : EngCtx) : (s.setCtx e x).dram = s.dram := by cases e <;> rfl
@[simp] theorem setCtx_lineKey (s : State) (e : EngineRef) (x : EngCtx) : (s.setCtx e x).lineKey = s.lineKey := by cases e <;> rfl
@[simp] theorem setCtx_l2 (s : State) (e : EngineRef) (x : EngCtx) : (s.setCtx e x).l2 = s.l2 := by cases e <;> rfl
@[simp] theorem setCtx_poison (s : State) (e : EngineRef) (x : EngCtx) : (s.setCtx e x).poison = s.poison := by cases e <;> rfl
@[simp] theorem setCtx_sram (s : State) (e : EngineRef) (x : EngCtx) : (s.setCtx e x).sram = s.sram := by cases e <;> rfl
@[simp] theorem setCtx_owners (s : State) (e : EngineRef) (x : EngCtx) : (s.setCtx e x).owners = s.owners := by cases e <;> rfl
@[simp] theorem setCtx_lagging (s : State) (e : EngineRef) (x : EngCtx) : (s.setCtx e x).lagging = s.lagging := by cases e <;> rfl
@[simp] theorem setCtx_tlb (s : State) (e : EngineRef) (x : EngCtx) : (s.setCtx e x).tlb = s.tlb := by cases e <;> rfl
@[simp] theorem setCtx_host (s : State) (e : EngineRef) (x : EngCtx) : (s.setCtx e x).host = s.host := by cases e <;> rfl
@[simp] theorem setCtx_agenda (s : State) (e : EngineRef) (x : EngCtx) : (s.setCtx e x).agenda = s.agenda := by cases e <;> rfl
@[simp] theorem setCtx_fresh (s : State) (e : EngineRef) (x : EngCtx) : (s.setCtx e x).fresh = s.fresh := by cases e <;> rfl
@[simp] theorem setCtx_stamp (s : State) (e : EngineRef) (x : EngCtx) : (s.setCtx e x).stamp = s.stamp := by cases e <;> rfl
/-- The context set is read back. -/
@[simp] theorem ctx_setCtx (s : State) (e : EngineRef) (x : EngCtx) : (s.setCtx e x).ctx e = x := by
  cases e <;> simp [State.ctx, State.setCtx]
/-! ## Control registers and predicates -/

@[simp] theorem writeX_live (g : Group) (r : XReg) (v : Word) : (g.writeX r v).live = g.live := by
  unfold Group.writeX; split <;> rfl
@[simp] theorem writeX_core (g : Group) (r : XReg) (v : Word) : (g.writeX r v).core = g.core := by
  unfold Group.writeX; split <;> rfl
@[simp] theorem writeX_slot (g : Group) (r : XReg) (v : Word) : (g.writeX r v).slot = g.slot := by
  unfold Group.writeX; split <;> rfl
@[simp] theorem writeX_team (g : Group) (r : XReg) (v : Word) : (g.writeX r v).team = g.team := by
  unfold Group.writeX; split <;> rfl
@[simp] theorem writeX_asid (g : Group) (r : XReg) (v : Word) : (g.writeX r v).asid = g.asid := by
  unfold Group.writeX; split <;> rfl
@[simp] theorem writeX_id (g : Group) (r : XReg) (v : Word) : (g.writeX r v).id = g.id := by
  unfold Group.writeX; split <;> rfl
@[simp] theorem writeX_c (g : Group) (r : XReg) (v : Word) : (g.writeX r v).c = g.c := by
  unfold Group.writeX; split <;> rfl
@[simp] theorem writeX_a (g : Group) (r : XReg) (v : Word) : (g.writeX r v).a = g.a := by
  unfold Group.writeX; split <;> rfl
@[simp] theorem writeX_mode (g : Group) (r : XReg) (v : Word) : (g.writeX r v).mode = g.mode := by
  unfold Group.writeX; split <;> rfl
@[simp] theorem writeX_flagsDone (g : Group) (r : XReg) (v : Word) : (g.writeX r v).flagsDone = g.flagsDone := by
  unfold Group.writeX; split <;> rfl
@[simp] theorem writeX_flagsLate (g : Group) (r : XReg) (v : Word) : (g.writeX r v).flagsLate = g.flagsLate := by
  unfold Group.writeX; split <;> rfl
@[simp] theorem writeX_fseq (g : Group) (r : XReg) (v : Word) : (g.writeX r v).fseq = g.fseq := by
  unfold Group.writeX; split <;> rfl
@[simp] theorem writeX_tseq (g : Group) (r : XReg) (v : Word) : (g.writeX r v).tseq = g.tseq := by
  unfold Group.writeX; split <;> rfl
@[simp] theorem writeX_tlog (g : Group) (r : XReg) (v : Word) : (g.writeX r v).tlog = g.tlog := by
  unfold Group.writeX; split <;> rfl
@[simp] theorem writeX_epochSent (g : Group) (r : XReg) (v : Word) : (g.writeX r v).epochSent = g.epochSent := by
  unfold Group.writeX; split <;> rfl
@[simp] theorem writeX_epoch (g : Group) (r : XReg) (v : Word) : (g.writeX r v).epoch = g.epoch := by
  unfold Group.writeX; split <;> rfl
@[simp] theorem writeX_pos (g : Group) (r : XReg) (v : Word) : (g.writeX r v).pos = g.pos := by
  unfold Group.writeX; split <;> rfl
@[simp] theorem writeX_levels (g : Group) (r : XReg) (v : Word) : (g.writeX r v).levels = g.levels := by
  unfold Group.writeX; split <;> rfl
@[simp] theorem writeX_spin (g : Group) (r : XReg) (v : Word) : (g.writeX r v).spin = g.spin := by
  unfold Group.writeX; split <;> rfl
@[simp] theorem writeX_pause (g : Group) (r : XReg) (v : Word) : (g.writeX r v).pause = g.pause := by
  unfold Group.writeX; split <;> rfl
@[simp] theorem writeX_block (g : Group) (r : XReg) (v : Word) : (g.writeX r v).block = g.block := by
  unfold Group.writeX; split <;> rfl
@[simp] theorem writeX_exited (g : Group) (r : XReg) (v : Word) : (g.writeX r v).exited = g.exited := by
  unfold Group.writeX; split <;> rfl
@[simp] theorem writeX_preempted (g : Group) (r : XReg) (v : Word) : (g.writeX r v).preempted = g.preempted := by
  unfold Group.writeX; split <;> rfl
@[simp] theorem writeX_recs (g : Group) (r : XReg) (v : Word) : (g.writeX r v).recs = g.recs := by
  unfold Group.writeX; split <;> rfl
@[simp] theorem writeX_accs (g : Group) (r : XReg) (v : Word) : (g.writeX r v).accs = g.accs := by
  unfold Group.writeX; split <;> rfl
@[simp] theorem writeX_runnel (g : Group) (r : XReg) (v : Word) : (g.writeX r v).runnel = g.runnel := by
  unfold Group.writeX; split <;> rfl
@[simp] theorem writeX_masks (g : Group) (r : XReg) (v : Word) : (g.writeX r v).masks = g.masks := by
  unfold Group.writeX; split <;> rfl
@[simp] theorem writeX_paths (g : Group) (r : XReg) (v : Word) : (g.writeX r v).paths = g.paths := by
  unfold Group.writeX; split <;> rfl
@[simp] theorem writeX_v (g : Group) (r : XReg) (v : Word) : (g.writeX r v).v = g.v := by
  unfold Group.writeX; split <;> rfl
@[simp] theorem writeX_p (g : Group) (r : XReg) (v : Word) : (g.writeX r v).p = g.p := by
  unfold Group.writeX; split <;> rfl
@[simp] theorem writeX_k (g : Group) (r : XReg) (v : Word) : (g.writeX r v).k = g.k := by
  unfold Group.writeX; split <;> rfl
@[simp] theorem writeX_i0 (g : Group) (r : XReg) (v : Word) : (g.writeX r v).i0 = g.i0 := by
  unfold Group.writeX; split <;> rfl
@[simp] theorem writeX_i1 (g : Group) (r : XReg) (v : Word) : (g.writeX r v).i1 = g.i1 := by
  unfold Group.writeX; split <;> rfl
@[simp] theorem writeX_i2 (g : Group) (r : XReg) (v : Word) : (g.writeX r v).i2 = g.i2 := by
  unfold Group.writeX; split <;> rfl
@[simp] theorem writeX_i3 (g : Group) (r : XReg) (v : Word) : (g.writeX r v).i3 = g.i3 := by
  unfold Group.writeX; split <;> rfl
@[simp] theorem writeX_latch (g : Group) (r : XReg) (v : Word) : (g.writeX r v).latch = g.latch := by
  unfold Group.writeX; split <;> rfl
@[simp] theorem writeX_vpos (g : Group) (r : XReg) (v : Word) : (g.writeX r v).vpos = g.vpos := by
  unfold Group.writeX; split <;> rfl
@[simp] theorem writeX_vnow (g : Group) (r : XReg) (v : Word) : (g.writeX r v).vnow = g.vnow := by
  unfold Group.writeX; split <;> rfl
@[simp] theorem writeX_pend (g : Group) (r : XReg) (v : Word) : (g.writeX r v).pend = g.pend := by
  unfold Group.writeX; split <;> rfl
@[simp] theorem writeX_stall (g : Group) (r : XReg) (v : Word) : (g.writeX r v).stall = g.stall := by
  unfold Group.writeX; split <;> rfl
@[simp] theorem writeX_arrivals (g : Group) (r : XReg) (v : Word) : (g.writeX r v).arrivals = g.arrivals := by
  unfold Group.writeX; split <;> rfl
@[simp] theorem writeX_ageC (g : Group) (r : XReg) (v : Word) : (g.writeX r v).ageC = g.ageC := by
  unfold Group.writeX; split <;> rfl
@[simp] theorem writeX_ageV (g : Group) (r : XReg) (v : Word) : (g.writeX r v).ageV = g.ageV := by
  unfold Group.writeX; split <;> rfl
@[simp] theorem writeX_fenceD (g : Group) (r : XReg) (v : Word) : (g.writeX r v).fenceD = g.fenceD := by
  unfold Group.writeX; split <;> rfl
@[simp] theorem writeX_pushes (g : Group) (r : XReg) (v : Word) : (g.writeX r v).pushes = g.pushes := by
  unfold Group.writeX; split <;> rfl
@[simp] theorem writeX_acquired (g : Group) (r : XReg) (v : Word) : (g.writeX r v).acquired = g.acquired := by
  unfold Group.writeX; split <;> rfl
@[simp] theorem writeX_icPending (g : Group) (r : XReg) (v : Word) : (g.writeX r v).icPending = g.icPending := by
  unfold Group.writeX; split <;> rfl
@[simp] theorem writeX_loose (g : Group) (r : XReg) (v : Word) : (g.writeX r v).loose = g.loose := by
  unfold Group.writeX; split <;> rfl
@[simp] theorem writeX_entries (g : Group) (r : XReg) (v : Word) : (g.writeX r v).entries = g.entries := by
  unfold Group.writeX; split <;> rfl
@[simp] theorem writeC_live (g : Group) (i : BitVec 3) (b : Bool) : (g.writeC i b).live = g.live := by
  unfold Group.writeC; split <;> rfl
@[simp] theorem writeC_core (g : Group) (i : BitVec 3) (b : Bool) : (g.writeC i b).core = g.core := by
  unfold Group.writeC; split <;> rfl
@[simp] theorem writeC_slot (g : Group) (i : BitVec 3) (b : Bool) : (g.writeC i b).slot = g.slot := by
  unfold Group.writeC; split <;> rfl
@[simp] theorem writeC_team (g : Group) (i : BitVec 3) (b : Bool) : (g.writeC i b).team = g.team := by
  unfold Group.writeC; split <;> rfl
@[simp] theorem writeC_asid (g : Group) (i : BitVec 3) (b : Bool) : (g.writeC i b).asid = g.asid := by
  unfold Group.writeC; split <;> rfl
@[simp] theorem writeC_id (g : Group) (i : BitVec 3) (b : Bool) : (g.writeC i b).id = g.id := by
  unfold Group.writeC; split <;> rfl
@[simp] theorem writeC_x (g : Group) (i : BitVec 3) (b : Bool) : (g.writeC i b).x = g.x := by
  unfold Group.writeC; split <;> rfl
@[simp] theorem writeC_a (g : Group) (i : BitVec 3) (b : Bool) : (g.writeC i b).a = g.a := by
  unfold Group.writeC; split <;> rfl
@[simp] theorem writeC_mode (g : Group) (i : BitVec 3) (b : Bool) : (g.writeC i b).mode = g.mode := by
  unfold Group.writeC; split <;> rfl
@[simp] theorem writeC_flagsDone (g : Group) (i : BitVec 3) (b : Bool) : (g.writeC i b).flagsDone = g.flagsDone := by
  unfold Group.writeC; split <;> rfl
@[simp] theorem writeC_flagsLate (g : Group) (i : BitVec 3) (b : Bool) : (g.writeC i b).flagsLate = g.flagsLate := by
  unfold Group.writeC; split <;> rfl
@[simp] theorem writeC_fseq (g : Group) (i : BitVec 3) (b : Bool) : (g.writeC i b).fseq = g.fseq := by
  unfold Group.writeC; split <;> rfl
@[simp] theorem writeC_tseq (g : Group) (i : BitVec 3) (b : Bool) : (g.writeC i b).tseq = g.tseq := by
  unfold Group.writeC; split <;> rfl
@[simp] theorem writeC_tlog (g : Group) (i : BitVec 3) (b : Bool) : (g.writeC i b).tlog = g.tlog := by
  unfold Group.writeC; split <;> rfl
@[simp] theorem writeC_epochSent (g : Group) (i : BitVec 3) (b : Bool) : (g.writeC i b).epochSent = g.epochSent := by
  unfold Group.writeC; split <;> rfl
@[simp] theorem writeC_epoch (g : Group) (i : BitVec 3) (b : Bool) : (g.writeC i b).epoch = g.epoch := by
  unfold Group.writeC; split <;> rfl
@[simp] theorem writeC_pos (g : Group) (i : BitVec 3) (b : Bool) : (g.writeC i b).pos = g.pos := by
  unfold Group.writeC; split <;> rfl
@[simp] theorem writeC_levels (g : Group) (i : BitVec 3) (b : Bool) : (g.writeC i b).levels = g.levels := by
  unfold Group.writeC; split <;> rfl
@[simp] theorem writeC_spin (g : Group) (i : BitVec 3) (b : Bool) : (g.writeC i b).spin = g.spin := by
  unfold Group.writeC; split <;> rfl
@[simp] theorem writeC_pause (g : Group) (i : BitVec 3) (b : Bool) : (g.writeC i b).pause = g.pause := by
  unfold Group.writeC; split <;> rfl
@[simp] theorem writeC_block (g : Group) (i : BitVec 3) (b : Bool) : (g.writeC i b).block = g.block := by
  unfold Group.writeC; split <;> rfl
@[simp] theorem writeC_exited (g : Group) (i : BitVec 3) (b : Bool) : (g.writeC i b).exited = g.exited := by
  unfold Group.writeC; split <;> rfl
@[simp] theorem writeC_preempted (g : Group) (i : BitVec 3) (b : Bool) : (g.writeC i b).preempted = g.preempted := by
  unfold Group.writeC; split <;> rfl
@[simp] theorem writeC_recs (g : Group) (i : BitVec 3) (b : Bool) : (g.writeC i b).recs = g.recs := by
  unfold Group.writeC; split <;> rfl
@[simp] theorem writeC_accs (g : Group) (i : BitVec 3) (b : Bool) : (g.writeC i b).accs = g.accs := by
  unfold Group.writeC; split <;> rfl
@[simp] theorem writeC_runnel (g : Group) (i : BitVec 3) (b : Bool) : (g.writeC i b).runnel = g.runnel := by
  unfold Group.writeC; split <;> rfl
@[simp] theorem writeC_masks (g : Group) (i : BitVec 3) (b : Bool) : (g.writeC i b).masks = g.masks := by
  unfold Group.writeC; split <;> rfl
@[simp] theorem writeC_paths (g : Group) (i : BitVec 3) (b : Bool) : (g.writeC i b).paths = g.paths := by
  unfold Group.writeC; split <;> rfl
@[simp] theorem writeC_v (g : Group) (i : BitVec 3) (b : Bool) : (g.writeC i b).v = g.v := by
  unfold Group.writeC; split <;> rfl
@[simp] theorem writeC_p (g : Group) (i : BitVec 3) (b : Bool) : (g.writeC i b).p = g.p := by
  unfold Group.writeC; split <;> rfl
@[simp] theorem writeC_k (g : Group) (i : BitVec 3) (b : Bool) : (g.writeC i b).k = g.k := by
  unfold Group.writeC; split <;> rfl
@[simp] theorem writeC_i0 (g : Group) (i : BitVec 3) (b : Bool) : (g.writeC i b).i0 = g.i0 := by
  unfold Group.writeC; split <;> rfl
@[simp] theorem writeC_i1 (g : Group) (i : BitVec 3) (b : Bool) : (g.writeC i b).i1 = g.i1 := by
  unfold Group.writeC; split <;> rfl
@[simp] theorem writeC_i2 (g : Group) (i : BitVec 3) (b : Bool) : (g.writeC i b).i2 = g.i2 := by
  unfold Group.writeC; split <;> rfl
@[simp] theorem writeC_i3 (g : Group) (i : BitVec 3) (b : Bool) : (g.writeC i b).i3 = g.i3 := by
  unfold Group.writeC; split <;> rfl
@[simp] theorem writeC_latch (g : Group) (i : BitVec 3) (b : Bool) : (g.writeC i b).latch = g.latch := by
  unfold Group.writeC; split <;> rfl
@[simp] theorem writeC_vpos (g : Group) (i : BitVec 3) (b : Bool) : (g.writeC i b).vpos = g.vpos := by
  unfold Group.writeC; split <;> rfl
@[simp] theorem writeC_vnow (g : Group) (i : BitVec 3) (b : Bool) : (g.writeC i b).vnow = g.vnow := by
  unfold Group.writeC; split <;> rfl
@[simp] theorem writeC_pend (g : Group) (i : BitVec 3) (b : Bool) : (g.writeC i b).pend = g.pend := by
  unfold Group.writeC; split <;> rfl
@[simp] theorem writeC_stall (g : Group) (i : BitVec 3) (b : Bool) : (g.writeC i b).stall = g.stall := by
  unfold Group.writeC; split <;> rfl
@[simp] theorem writeC_arrivals (g : Group) (i : BitVec 3) (b : Bool) : (g.writeC i b).arrivals = g.arrivals := by
  unfold Group.writeC; split <;> rfl
@[simp] theorem writeC_ageC (g : Group) (i : BitVec 3) (b : Bool) : (g.writeC i b).ageC = g.ageC := by
  unfold Group.writeC; split <;> rfl
@[simp] theorem writeC_ageV (g : Group) (i : BitVec 3) (b : Bool) : (g.writeC i b).ageV = g.ageV := by
  unfold Group.writeC; split <;> rfl
@[simp] theorem writeC_fenceD (g : Group) (i : BitVec 3) (b : Bool) : (g.writeC i b).fenceD = g.fenceD := by
  unfold Group.writeC; split <;> rfl
@[simp] theorem writeC_pushes (g : Group) (i : BitVec 3) (b : Bool) : (g.writeC i b).pushes = g.pushes := by
  unfold Group.writeC; split <;> rfl
@[simp] theorem writeC_acquired (g : Group) (i : BitVec 3) (b : Bool) : (g.writeC i b).acquired = g.acquired := by
  unfold Group.writeC; split <;> rfl
@[simp] theorem writeC_icPending (g : Group) (i : BitVec 3) (b : Bool) : (g.writeC i b).icPending = g.icPending := by
  unfold Group.writeC; split <;> rfl
@[simp] theorem writeC_loose (g : Group) (i : BitVec 3) (b : Bool) : (g.writeC i b).loose = g.loose := by
  unfold Group.writeC; split <;> rfl
@[simp] theorem writeC_entries (g : Group) (i : BitVec 3) (b : Bool) : (g.writeC i b).entries = g.entries := by
  unfold Group.writeC; split <;> rfl
/-- x0 reads as zero (R136). -/
@[simp] theorem readX_zero (g : Group) : g.readX 0 = 0 := by simp [Group.readX]

/-- A control register reads back what was written, but for x0; every other register reads as before. -/
@[simp] theorem readX_writeX (g : Group) (d r : XReg) (v : Word) :
    (g.writeX d v).readX r = if r = 0 then 0 else if r = d then v else g.readX r := by
  unfold Group.readX Group.writeX
  by_cases hr : r = 0
  · simp only [hr, if_true]
  · by_cases hd : d = 0
    · simp only [hr, hd, if_true, if_false]
    · by_cases h : r = d
      · subst h; simp only [hr, if_false, smGet_smPut, if_true]
      · have : r.toNat ≠ d.toNat := fun e => h (BitVec.eq_of_toNat_eq e)
        simp only [hr, hd, h, if_false, smGet_smPut, this]

/-- c7 reads as true (R137). -/
@[simp] theorem readC_seven (g : Group) : g.readC 7 = true := by simp [Group.readC]

@[simp] theorem readX_withX (g : Group) (r : XReg) (p : CPos) (b : Block) : Group.readX { g with pos := p, block := b } r = g.readX r := rfl

/-! ## Grants, pipes and the advance of the control slice -/

@[simp] theorem endGrant_g (s : State) : (endGrant s).g = s.g := rfl
@[simp] theorem endGrant_others (s : State) : (endGrant s).others = s.others := rfl
@[simp] theorem endGrant_teams (s : State) : (endGrant s).teams = s.teams := rfl
@[simp] theorem endGrant_clusters (s : State) : (endGrant s).clusters = s.clusters := rfl
@[simp] theorem endGrant_grids (s : State) : (endGrant s).grids = s.grids := rfl
@[simp] theorem endGrant_quads (s : State) : (endGrant s).quads = s.quads := rfl
@[simp] theorem endGrant_basins (s : State) : (endGrant s).basins = s.basins := rfl
@[simp] theorem endGrant_banks (s : State) : (endGrant s).banks = s.banks := rfl
@[simp] theorem endGrant_rows (s : State) : (endGrant s).rows = s.rows := rfl
@[simp] theorem endGrant_dram (s : State) : (endGrant s).dram = s.dram := rfl
@[simp] theorem endGrant_lineKey (s : State) : (endGrant s).lineKey = s.lineKey := rfl
@[simp] theorem endGrant_l2 (s : State) : (endGrant s).l2 = s.l2 := rfl
@[simp] theorem endGrant_poison (s : State) : (endGrant s).poison = s.poison := rfl
@[simp] theorem endGrant_sram (s : State) : (endGrant s).sram = s.sram := rfl
@[simp] theorem endGrant_owners (s : State) : (endGrant s).owners = s.owners := rfl
@[simp] theorem endGrant_lagging (s : State) : (endGrant s).lagging = s.lagging := rfl
@[simp] theorem endGrant_tlb (s : State) : (endGrant s).tlb = s.tlb := rfl
@[simp] theorem endGrant_host (s : State) : (endGrant s).host = s.host := rfl
@[simp] theorem endGrant_coll (s : State) : (endGrant s).coll = s.coll := rfl
@[simp] theorem endGrant_mgmt (s : State) : (endGrant s).mgmt = s.mgmt := rfl
@[simp] theorem endGrant_agenda (s : State) : (endGrant s).agenda = s.agenda := rfl
@[simp] theorem endGrant_fresh (s : State) : (endGrant s).fresh = s.fresh := rfl
@[simp] theorem endGrant_stamp (s : State) : (endGrant s).stamp = s.stamp := rfl
@[simp] theorem endPipe_others (s : State) : (endPipe s).others = s.others := by
  unfold endPipe; split <;> rfl
@[simp] theorem endPipe_teams (s : State) : (endPipe s).teams = s.teams := by
  unfold endPipe; split <;> rfl
@[simp] theorem endPipe_clusters (s : State) : (endPipe s).clusters = s.clusters := by
  unfold endPipe; split <;> rfl
@[simp] theorem endPipe_grids (s : State) : (endPipe s).grids = s.grids := by
  unfold endPipe; split <;> rfl
@[simp] theorem endPipe_quads (s : State) : (endPipe s).quads = s.quads := by
  unfold endPipe; split <;> rfl
@[simp] theorem endPipe_basins (s : State) : (endPipe s).basins = s.basins := by
  unfold endPipe; split <;> rfl
@[simp] theorem endPipe_banks (s : State) : (endPipe s).banks = s.banks := by
  unfold endPipe; split <;> rfl
@[simp] theorem endPipe_rows (s : State) : (endPipe s).rows = s.rows := by
  unfold endPipe; split <;> rfl
@[simp] theorem endPipe_dram (s : State) : (endPipe s).dram = s.dram := by
  unfold endPipe; split <;> rfl
@[simp] theorem endPipe_lineKey (s : State) : (endPipe s).lineKey = s.lineKey := by
  unfold endPipe; split <;> rfl
@[simp] theorem endPipe_l2 (s : State) : (endPipe s).l2 = s.l2 := by
  unfold endPipe; split <;> rfl
@[simp] theorem endPipe_poison (s : State) : (endPipe s).poison = s.poison := by
  unfold endPipe; split <;> rfl
@[simp] theorem endPipe_sram (s : State) : (endPipe s).sram = s.sram := by
  unfold endPipe; split <;> rfl
@[simp] theorem endPipe_owners (s : State) : (endPipe s).owners = s.owners := by
  unfold endPipe; split <;> rfl
@[simp] theorem endPipe_lagging (s : State) : (endPipe s).lagging = s.lagging := by
  unfold endPipe; split <;> rfl
@[simp] theorem endPipe_tlb (s : State) : (endPipe s).tlb = s.tlb := by
  unfold endPipe; split <;> rfl
@[simp] theorem endPipe_host (s : State) : (endPipe s).host = s.host := by
  unfold endPipe; split <;> rfl
@[simp] theorem endPipe_coll (s : State) : (endPipe s).coll = s.coll := by
  unfold endPipe; split <;> rfl
@[simp] theorem endPipe_mgmt (s : State) : (endPipe s).mgmt = s.mgmt := by
  unfold endPipe; split <;> rfl
@[simp] theorem endPipe_agenda (s : State) : (endPipe s).agenda = s.agenda := by
  unfold endPipe; split <;> rfl
@[simp] theorem endPipe_fresh (s : State) : (endPipe s).fresh = s.fresh := by
  unfold endPipe; split <;> rfl
@[simp] theorem endPipe_stamp (s : State) : (endPipe s).stamp = s.stamp := by
  unfold endPipe; split <;> rfl
@[simp] theorem ctlAdvance_others (s : State) : (ctlAdvance s).others = s.others := by
  unfold ctlAdvance; dsimp only; split <;> rfl
@[simp] theorem ctlAdvance_teams (s : State) : (ctlAdvance s).teams = s.teams := by
  unfold ctlAdvance; dsimp only; split <;> rfl
@[simp] theorem ctlAdvance_clusters (s : State) : (ctlAdvance s).clusters = s.clusters := by
  unfold ctlAdvance; dsimp only; split <;> rfl
@[simp] theorem ctlAdvance_grids (s : State) : (ctlAdvance s).grids = s.grids := by
  unfold ctlAdvance; dsimp only; split <;> rfl
@[simp] theorem ctlAdvance_quads (s : State) : (ctlAdvance s).quads = s.quads := by
  unfold ctlAdvance; dsimp only; split <;> rfl
@[simp] theorem ctlAdvance_basins (s : State) : (ctlAdvance s).basins = s.basins := by
  unfold ctlAdvance; dsimp only; split <;> rfl
@[simp] theorem ctlAdvance_banks (s : State) : (ctlAdvance s).banks = s.banks := by
  unfold ctlAdvance; dsimp only; split <;> rfl
@[simp] theorem ctlAdvance_rows (s : State) : (ctlAdvance s).rows = s.rows := by
  unfold ctlAdvance; dsimp only; split <;> rfl
@[simp] theorem ctlAdvance_dram (s : State) : (ctlAdvance s).dram = s.dram := by
  unfold ctlAdvance; dsimp only; split <;> rfl
@[simp] theorem ctlAdvance_lineKey (s : State) : (ctlAdvance s).lineKey = s.lineKey := by
  unfold ctlAdvance; dsimp only; split <;> rfl
@[simp] theorem ctlAdvance_l2 (s : State) : (ctlAdvance s).l2 = s.l2 := by
  unfold ctlAdvance; dsimp only; split <;> rfl
@[simp] theorem ctlAdvance_poison (s : State) : (ctlAdvance s).poison = s.poison := by
  unfold ctlAdvance; dsimp only; split <;> rfl
@[simp] theorem ctlAdvance_sram (s : State) : (ctlAdvance s).sram = s.sram := by
  unfold ctlAdvance; dsimp only; split <;> rfl
@[simp] theorem ctlAdvance_owners (s : State) : (ctlAdvance s).owners = s.owners := by
  unfold ctlAdvance; dsimp only; split <;> rfl
@[simp] theorem ctlAdvance_lagging (s : State) : (ctlAdvance s).lagging = s.lagging := by
  unfold ctlAdvance; dsimp only; split <;> rfl
@[simp] theorem ctlAdvance_tlb (s : State) : (ctlAdvance s).tlb = s.tlb := by
  unfold ctlAdvance; dsimp only; split <;> rfl
@[simp] theorem ctlAdvance_host (s : State) : (ctlAdvance s).host = s.host := by
  unfold ctlAdvance; dsimp only; split <;> rfl
@[simp] theorem ctlAdvance_coll (s : State) : (ctlAdvance s).coll = s.coll := by
  unfold ctlAdvance; dsimp only; split <;> rfl
@[simp] theorem ctlAdvance_mgmt (s : State) : (ctlAdvance s).mgmt = s.mgmt := by
  unfold ctlAdvance; dsimp only; split <;> rfl
@[simp] theorem ctlAdvance_agenda (s : State) : (ctlAdvance s).agenda = s.agenda := by
  unfold ctlAdvance; dsimp only; split <;> rfl
@[simp] theorem ctlAdvance_fresh (s : State) : (ctlAdvance s).fresh = s.fresh := by
  unfold ctlAdvance; dsimp only; split <;> rfl
@[simp] theorem ctlAdvance_stamp (s : State) : (ctlAdvance s).stamp = s.stamp := by
  unfold ctlAdvance; dsimp only; split <;> rfl
/-- The advance moves the position and clears the block, and changes nothing else of the group (R113). -/
@[simp] theorem ctlAdvance_g (s : State) : (ctlAdvance s).g = { s.g with pos := s.g.pos.next, block := .none } := by
  unfold ctlAdvance; dsimp only; split <;> rfl
@[simp] theorem ctlBlock_others (b : Block) (s : State) : (ctlBlock b s).others = s.others := rfl
@[simp] theorem ctlBlock_teams (b : Block) (s : State) : (ctlBlock b s).teams = s.teams := rfl
@[simp] theorem ctlBlock_clusters (b : Block) (s : State) : (ctlBlock b s).clusters = s.clusters := rfl
@[simp] theorem ctlBlock_grids (b : Block) (s : State) : (ctlBlock b s).grids = s.grids := rfl
@[simp] theorem ctlBlock_quads (b : Block) (s : State) : (ctlBlock b s).quads = s.quads := rfl
@[simp] theorem ctlBlock_basins (b : Block) (s : State) : (ctlBlock b s).basins = s.basins := rfl
@[simp] theorem ctlBlock_banks (b : Block) (s : State) : (ctlBlock b s).banks = s.banks := rfl
@[simp] theorem ctlBlock_rows (b : Block) (s : State) : (ctlBlock b s).rows = s.rows := rfl
@[simp] theorem ctlBlock_dram (b : Block) (s : State) : (ctlBlock b s).dram = s.dram := rfl
@[simp] theorem ctlBlock_lineKey (b : Block) (s : State) : (ctlBlock b s).lineKey = s.lineKey := rfl
@[simp] theorem ctlBlock_l2 (b : Block) (s : State) : (ctlBlock b s).l2 = s.l2 := rfl
@[simp] theorem ctlBlock_poison (b : Block) (s : State) : (ctlBlock b s).poison = s.poison := rfl
@[simp] theorem ctlBlock_sram (b : Block) (s : State) : (ctlBlock b s).sram = s.sram := rfl
@[simp] theorem ctlBlock_owners (b : Block) (s : State) : (ctlBlock b s).owners = s.owners := rfl
@[simp] theorem ctlBlock_lagging (b : Block) (s : State) : (ctlBlock b s).lagging = s.lagging := rfl
@[simp] theorem ctlBlock_tlb (b : Block) (s : State) : (ctlBlock b s).tlb = s.tlb := rfl
@[simp] theorem ctlBlock_host (b : Block) (s : State) : (ctlBlock b s).host = s.host := rfl
@[simp] theorem ctlBlock_coll (b : Block) (s : State) : (ctlBlock b s).coll = s.coll := rfl
@[simp] theorem ctlBlock_mgmt (b : Block) (s : State) : (ctlBlock b s).mgmt = s.mgmt := rfl
@[simp] theorem ctlBlock_agenda (b : Block) (s : State) : (ctlBlock b s).agenda = s.agenda := rfl
@[simp] theorem ctlBlock_fresh (b : Block) (s : State) : (ctlBlock b s).fresh = s.fresh := rfl
@[simp] theorem ctlBlock_stamp (b : Block) (s : State) : (ctlBlock b s).stamp = s.stamp := rfl
@[simp] theorem ctlBlock_g (b : Block) (s : State) : (ctlBlock b s).g = { s.g with block := b } := rfl
@[simp] theorem ctlJump_others (x : Word) (s : State) : (ctlJump x s).others = s.others := rfl
@[simp] theorem ctlJump_teams (x : Word) (s : State) : (ctlJump x s).teams = s.teams := rfl
@[simp] theorem ctlJump_clusters (x : Word) (s : State) : (ctlJump x s).clusters = s.clusters := rfl
@[simp] theorem ctlJump_grids (x : Word) (s : State) : (ctlJump x s).grids = s.grids := rfl
@[simp] theorem ctlJump_quads (x : Word) (s : State) : (ctlJump x s).quads = s.quads := rfl
@[simp] theorem ctlJump_basins (x : Word) (s : State) : (ctlJump x s).basins = s.basins := rfl
@[simp] theorem ctlJump_banks (x : Word) (s : State) : (ctlJump x s).banks = s.banks := rfl
@[simp] theorem ctlJump_rows (x : Word) (s : State) : (ctlJump x s).rows = s.rows := rfl
@[simp] theorem ctlJump_dram (x : Word) (s : State) : (ctlJump x s).dram = s.dram := rfl
@[simp] theorem ctlJump_lineKey (x : Word) (s : State) : (ctlJump x s).lineKey = s.lineKey := rfl
@[simp] theorem ctlJump_l2 (x : Word) (s : State) : (ctlJump x s).l2 = s.l2 := rfl
@[simp] theorem ctlJump_poison (x : Word) (s : State) : (ctlJump x s).poison = s.poison := rfl
@[simp] theorem ctlJump_sram (x : Word) (s : State) : (ctlJump x s).sram = s.sram := rfl
@[simp] theorem ctlJump_owners (x : Word) (s : State) : (ctlJump x s).owners = s.owners := rfl
@[simp] theorem ctlJump_lagging (x : Word) (s : State) : (ctlJump x s).lagging = s.lagging := rfl
@[simp] theorem ctlJump_tlb (x : Word) (s : State) : (ctlJump x s).tlb = s.tlb := rfl
@[simp] theorem ctlJump_host (x : Word) (s : State) : (ctlJump x s).host = s.host := rfl
@[simp] theorem ctlJump_coll (x : Word) (s : State) : (ctlJump x s).coll = s.coll := rfl
@[simp] theorem ctlJump_mgmt (x : Word) (s : State) : (ctlJump x s).mgmt = s.mgmt := rfl
@[simp] theorem ctlJump_agenda (x : Word) (s : State) : (ctlJump x s).agenda = s.agenda := rfl
@[simp] theorem ctlJump_fresh (x : Word) (s : State) : (ctlJump x s).fresh = s.fresh := rfl
@[simp] theorem ctlJump_stamp (x : Word) (s : State) : (ctlJump x s).stamp = s.stamp := rfl
@[simp] theorem ctlJump_g (x : Word) (s : State) :
    (ctlJump x s).g = { s.g with pos := { hdr := x, n := 0, idx := 0, code := [] }, block := .none } := rfl
/-! ## Halting

A halt withdraws what the group had waiting at its core, its team and its quad; the rest of the machine stays (R79). -/

@[simp] theorem withdraw_others (w : Acc → Bool) (s : State) : (withdraw w s).others = s.others := rfl
@[simp] theorem withdraw_clusters (w : Acc → Bool) (s : State) : (withdraw w s).clusters = s.clusters := rfl
@[simp] theorem withdraw_grids (w : Acc → Bool) (s : State) : (withdraw w s).grids = s.grids := rfl
@[simp] theorem withdraw_basins (w : Acc → Bool) (s : State) : (withdraw w s).basins = s.basins := rfl
@[simp] theorem withdraw_banks (w : Acc → Bool) (s : State) : (withdraw w s).banks = s.banks := rfl
@[simp] theorem withdraw_rows (w : Acc → Bool) (s : State) : (withdraw w s).rows = s.rows := rfl
@[simp] theorem withdraw_dram (w : Acc → Bool) (s : State) : (withdraw w s).dram = s.dram := rfl
@[simp] theorem withdraw_lineKey (w : Acc → Bool) (s : State) : (withdraw w s).lineKey = s.lineKey := rfl
@[simp] theorem withdraw_l2 (w : Acc → Bool) (s : State) : (withdraw w s).l2 = s.l2 := rfl
@[simp] theorem withdraw_poison (w : Acc → Bool) (s : State) : (withdraw w s).poison = s.poison := rfl
@[simp] theorem withdraw_sram (w : Acc → Bool) (s : State) : (withdraw w s).sram = s.sram := rfl
@[simp] theorem withdraw_owners (w : Acc → Bool) (s : State) : (withdraw w s).owners = s.owners := rfl
@[simp] theorem withdraw_lagging (w : Acc → Bool) (s : State) : (withdraw w s).lagging = s.lagging := rfl
@[simp] theorem withdraw_tlb (w : Acc → Bool) (s : State) : (withdraw w s).tlb = s.tlb := rfl
@[simp] theorem withdraw_host (w : Acc → Bool) (s : State) : (withdraw w s).host = s.host := rfl
@[simp] theorem withdraw_coll (w : Acc → Bool) (s : State) : (withdraw w s).coll = s.coll := rfl
@[simp] theorem withdraw_mgmt (w : Acc → Bool) (s : State) : (withdraw w s).mgmt = s.mgmt := rfl
@[simp] theorem withdraw_agenda (w : Acc → Bool) (s : State) : (withdraw w s).agenda = s.agenda := rfl
@[simp] theorem withdraw_fresh (w : Acc → Bool) (s : State) : (withdraw w s).fresh = s.fresh := rfl
@[simp] theorem withdraw_stamp (w : Acc → Bool) (s : State) : (withdraw w s).stamp = s.stamp := rfl
/-- A halt keeps everything of the group but its matrix entries, which it takes back from the table (R286). -/
theorem withdraw_g (w : Acc → Bool) (s : State) : (withdraw w s).g = { s.g with entries := (withdraw w s).g.entries } := rfl
@[simp] theorem haltWith_others (r : HaltRec) (s : State) : (haltWith r s).others = s.others := by
  unfold haltWith; simp
@[simp] theorem haltWith_clusters (r : HaltRec) (s : State) : (haltWith r s).clusters = s.clusters := by
  unfold haltWith; simp
@[simp] theorem haltWith_grids (r : HaltRec) (s : State) : (haltWith r s).grids = s.grids := by
  unfold haltWith; simp
@[simp] theorem haltWith_basins (r : HaltRec) (s : State) : (haltWith r s).basins = s.basins := by
  unfold haltWith; simp
@[simp] theorem haltWith_banks (r : HaltRec) (s : State) : (haltWith r s).banks = s.banks := by
  unfold haltWith; simp
@[simp] theorem haltWith_rows (r : HaltRec) (s : State) : (haltWith r s).rows = s.rows := by
  unfold haltWith; simp
@[simp] theorem haltWith_dram (r : HaltRec) (s : State) : (haltWith r s).dram = s.dram := by
  unfold haltWith; simp
@[simp] theorem haltWith_lineKey (r : HaltRec) (s : State) : (haltWith r s).lineKey = s.lineKey := by
  unfold haltWith; simp
@[simp] theorem haltWith_l2 (r : HaltRec) (s : State) : (haltWith r s).l2 = s.l2 := by
  unfold haltWith; simp
@[simp] theorem haltWith_poison (r : HaltRec) (s : State) : (haltWith r s).poison = s.poison := by
  unfold haltWith; simp
@[simp] theorem haltWith_sram (r : HaltRec) (s : State) : (haltWith r s).sram = s.sram := by
  unfold haltWith; simp
@[simp] theorem haltWith_owners (r : HaltRec) (s : State) : (haltWith r s).owners = s.owners := by
  unfold haltWith; simp
@[simp] theorem haltWith_lagging (r : HaltRec) (s : State) : (haltWith r s).lagging = s.lagging := by
  unfold haltWith; simp
@[simp] theorem haltWith_tlb (r : HaltRec) (s : State) : (haltWith r s).tlb = s.tlb := by
  unfold haltWith; simp
@[simp] theorem haltWith_host (r : HaltRec) (s : State) : (haltWith r s).host = s.host := by
  unfold haltWith; simp
@[simp] theorem haltWith_coll (r : HaltRec) (s : State) : (haltWith r s).coll = s.coll := by
  unfold haltWith; simp
@[simp] theorem haltWith_mgmt (r : HaltRec) (s : State) : (haltWith r s).mgmt = s.mgmt := by
  unfold haltWith; simp
@[simp] theorem haltWith_agenda (r : HaltRec) (s : State) : (haltWith r s).agenda = s.agenda := by
  unfold haltWith; simp
@[simp] theorem haltWith_fresh (r : HaltRec) (s : State) : (haltWith r s).fresh = s.fresh := by
  unfold haltWith; simp
@[simp] theorem haltWith_stamp (r : HaltRec) (s : State) : (haltWith r s).stamp = s.stamp := by
  unfold haltWith; simp
@[simp] theorem takeFault_others (fr : FaultRec) (h : Option Nat) (s : State) : (takeFault fr h s).others = s.others := haltWith_others _ s
@[simp] theorem takeFault_clusters (fr : FaultRec) (h : Option Nat) (s : State) : (takeFault fr h s).clusters = s.clusters := haltWith_clusters _ s
@[simp] theorem takeFault_grids (fr : FaultRec) (h : Option Nat) (s : State) : (takeFault fr h s).grids = s.grids := haltWith_grids _ s
@[simp] theorem takeFault_basins (fr : FaultRec) (h : Option Nat) (s : State) : (takeFault fr h s).basins = s.basins := haltWith_basins _ s
@[simp] theorem takeFault_banks (fr : FaultRec) (h : Option Nat) (s : State) : (takeFault fr h s).banks = s.banks := haltWith_banks _ s
@[simp] theorem takeFault_rows (fr : FaultRec) (h : Option Nat) (s : State) : (takeFault fr h s).rows = s.rows := haltWith_rows _ s
@[simp] theorem takeFault_dram (fr : FaultRec) (h : Option Nat) (s : State) : (takeFault fr h s).dram = s.dram := haltWith_dram _ s
@[simp] theorem takeFault_lineKey (fr : FaultRec) (h : Option Nat) (s : State) : (takeFault fr h s).lineKey = s.lineKey := haltWith_lineKey _ s
@[simp] theorem takeFault_l2 (fr : FaultRec) (h : Option Nat) (s : State) : (takeFault fr h s).l2 = s.l2 := haltWith_l2 _ s
@[simp] theorem takeFault_poison (fr : FaultRec) (h : Option Nat) (s : State) : (takeFault fr h s).poison = s.poison := haltWith_poison _ s
@[simp] theorem takeFault_sram (fr : FaultRec) (h : Option Nat) (s : State) : (takeFault fr h s).sram = s.sram := haltWith_sram _ s
@[simp] theorem takeFault_owners (fr : FaultRec) (h : Option Nat) (s : State) : (takeFault fr h s).owners = s.owners := haltWith_owners _ s
@[simp] theorem takeFault_lagging (fr : FaultRec) (h : Option Nat) (s : State) : (takeFault fr h s).lagging = s.lagging := haltWith_lagging _ s
@[simp] theorem takeFault_tlb (fr : FaultRec) (h : Option Nat) (s : State) : (takeFault fr h s).tlb = s.tlb := haltWith_tlb _ s
@[simp] theorem takeFault_host (fr : FaultRec) (h : Option Nat) (s : State) : (takeFault fr h s).host = s.host := haltWith_host _ s
@[simp] theorem takeFault_coll (fr : FaultRec) (h : Option Nat) (s : State) : (takeFault fr h s).coll = s.coll := haltWith_coll _ s
@[simp] theorem takeFault_mgmt (fr : FaultRec) (h : Option Nat) (s : State) : (takeFault fr h s).mgmt = s.mgmt := haltWith_mgmt _ s
@[simp] theorem takeFault_agenda (fr : FaultRec) (h : Option Nat) (s : State) : (takeFault fr h s).agenda = s.agenda := haltWith_agenda _ s
@[simp] theorem takeFault_fresh (fr : FaultRec) (h : Option Nat) (s : State) : (takeFault fr h s).fresh = s.fresh := haltWith_fresh _ s
@[simp] theorem takeFault_stamp (fr : FaultRec) (h : Option Nat) (s : State) : (takeFault fr h s).stamp = s.stamp := haltWith_stamp _ s
/-- The record joins those of the group (R73). -/
@[simp] theorem takeFault_recs (fr : FaultRec) (h : Option Nat) (s : State) :
    (takeFault fr h s).g.recs = s.g.recs ++ [{ fr := fr, sent := false, held := h, act := none }] := by
  unfold takeFault haltWith; rw [withdraw_g]; unfold endPipe; split <;> rfl
/-- A halt keeps the position of the control slice (R79). -/
@[simp] theorem takeFault_pos (fr : FaultRec) (h : Option Nat) (s : State) : (takeFault fr h s).g.pos = s.g.pos := by
  unfold takeFault haltWith; rw [withdraw_g]; unfold endPipe; split <;> rfl

end Sys2Proof.Machine
end

