-- ==== Sys2Proof/Laws/Walks.lean ====
section
/-! SUPPORT. What the walks and the fetches of an agent leave unchanged: they bring lines and translations into caches, merge and
recompute rows as every read does, and change nothing else. -/
namespace Sys2Proof.Machine

/-- Two states that agree but for caches and the rows of memory. -/
structure Steady (s t : State) : Prop where
  g : t.g = s.g
  others : t.others = s.others
  teams : t.teams = s.teams
  clusters : t.clusters = s.clusters
  grids : t.grids = s.grids
  basins : t.basins = s.basins
  sram : t.sram = s.sram
  owners : t.owners = s.owners
  lagging : t.lagging = s.lagging
  host : t.host = s.host
  coll : t.coll = s.coll
  mgmt : t.mgmt = s.mgmt
  agenda : t.agenda = s.agenda
  stamp : t.stamp = s.stamp

theorem Steady.refl (s : State) : Steady s s := ⟨rfl, rfl, rfl, rfl, rfl, rfl, rfl, rfl, rfl, rfl, rfl, rfl, rfl, rfl⟩

theorem Steady.trans {s t u : State} (h : Steady s t) (k : Steady t u) : Steady s u :=
  ⟨k.g.trans h.g, k.others.trans h.others, k.teams.trans h.teams, k.clusters.trans h.clusters, k.grids.trans h.grids,
    k.basins.trans h.basins, k.sram.trans h.sram, k.owners.trans h.owners, k.lagging.trans h.lagging, k.host.trans h.host,
    k.coll.trans h.coll, k.mgmt.trans h.mgmt, k.agenda.trans h.agenda, k.stamp.trans h.stamp⟩

theorem foldl_steady {α : Type} (f : State → α → State) (hf : ∀ s x, Steady s (f s x)) (l : List α) (s : State) :
    Steady s (l.foldl f s) := by
  induction l generalizing s with
  | nil => exact .refl s
  | cons x l ih => exact (hf s x).trans (ih _)

theorem rekeyLine_steady (s : State) (line key : Nat) : Steady s (rekeyLine s line key) := by
  unfold rekeyLine; dsimp only
  split <;> constructor <;> rfl

theorem rawRow_steady (s : State) (r : Nat) : Steady s (rawRow s r) := by
  unfold rawRow
  split
  · exact .refl s
  · exact foldl_steady _ (fun t i => rekeyLine_steady t _ _) _ _

theorem mergeEntry_steady (s : State) (e : Defer) : Steady s (mergeEntry s e) := by
  unfold mergeEntry; dsimp only
  split <;> constructor <;> rfl

theorem markStale_steady (f : Nat) (s : State) (r : Nat) : Steady s (markStale s f r) := by
  induction f generalizing s r with
  | zero => exact .refl s
  | succ f ih =>
    exact foldl_steady _ (fun t d => Steady.trans (t := t.updRow d _) ⟨rfl, rfl, rfl, rfl, rfl, rfl, rfl, rfl, rfl, rfl, rfl, rfl, rfl, rfl⟩
      (ih _ _)) _ _

theorem mergeRow_steady (s : State) (r : Nat) : Steady s (mergeRow s r) := by
  unfold mergeRow; dsimp only
  split
  · exact .refl s
  · have h := (rawRow_steady s r).trans (foldl_steady _ mergeEntry_steady
      ((smGet Bank.reset s.banks (bankOf (r * 2048))).deferred.filter fun e => rowOf e.pa = r) _)
    generalize List.foldl mergeEntry (rawRow s r) _ = m at *
    exact h.trans (Steady.trans (t := dropL2 r { m with banks := _ })
      ⟨rfl, rfl, rfl, rfl, rfl, rfl, rfl, rfl, rfl, rfl, rfl, rfl, rfl, rfl⟩ (markStale_steady _ _ _))

theorem finishRecompute_steady (s : State) (r : Nat) (rule : DRule) (bs : List (List Byte)) (ks : List (List Nat)) :
    Steady s (finishRecompute s r rule bs ks) :=
  (rawRow_steady s r).trans (by constructor <;> rfl)

theorem recomputeRow_steady (f : Nat) (s : State) (r : Nat) : Steady s (recomputeRow s f r) := by
  induction f generalizing s r with
  | zero => exact .refl s
  | succ f ih =>
    unfold recomputeRow
    split
    · exact .refl s
    · split
      · exact .refl s
      · rename_i rule _ _
        have h := foldl_steady (fun t b => rawRow (mergeRow (recomputeRow t f b) b) b)
          (fun t b => ((ih t b).trans (mergeRow_steady _ _)).trans (rawRow_steady _ _)) rule.bases s
        dsimp only
        generalize List.foldl _ s rule.bases = m at *
        exact Steady.trans (h.trans (Steady.trans (t := m.updRow r _)
          ⟨rfl, rfl, rfl, rfl, rfl, rfl, rfl, rfl, rfl, rfl, rfl, rfl, rfl, rfl⟩ (.refl _))) (finishRecompute_steady _ _ _ _ _)

theorem touchLine_steady (s : State) (line key : Nat) (w : Bool) : Steady s (touchLine s line key w) := by
  unfold touchLine; dsimp only
  split
  · exact (rekeyLine_steady s line key).trans (by constructor <;> rfl)
  · split <;> exact (rekeyLine_steady s line key).trans (by constructor <;> rfl)

theorem arriveAt_steady (s : State) (pa key : Nat) : Steady s (arriveAt s pa key) :=
  ((recomputeRow_steady _ _ _).trans (mergeRow_steady _ _)).trans (touchLine_steady _ _ _ _)

theorem walkReads_steady (f : Nat) (s : State) (va table level : Nat) : Steady s (walkReads s va table level f) := by
  induction f generalizing s table level with
  | zero => exact .refl s
  | succ f ih =>
    unfold walkReads; dsimp only
    split
    · exact arriveAt_steady _ _ _
    · exact (arriveAt_steady _ _ _).trans (ih _ _ _)

/-- The TLBs take a translation; the walk for it reads the page tables. -/
theorem fillTlb_steady (s : State) (ag : Agent) (asid va : Nat) : Steady s (fillTlb s ag asid va) := by
  unfold fillTlb
  split
  · exact .refl s
  · dsimp only
    have h : Steady s (if (cached s ag asid va).isNone = true then (match smGet none s.mgmt.spaces asid with
        | some root => walkReads s va root 0 5 | none => s) else s) := by
      split
      · split
        · exact walkReads_steady _ _ _ _ _
        · exact .refl s
      · exact .refl s
    generalize (if (cached s ag asid va).isNone = true then (match smGet none s.mgmt.spaces asid with
        | some root => walkReads s va root 0 5 | none => s) else s) = m at *
    cases ag <;> exact h.trans ⟨rfl, rfl, rfl, rfl, rfl, rfl, rfl, rfl, rfl, rfl, rfl, rfl, rfl, rfl⟩

theorem keepTlbs_steady (a : Acc) (s : State) : Steady s (keepTlbs a s) :=
  foldl_steady _ (fun t _ => fillTlb_steady t _ _ _) _ _

/-- A fetch reads memory and changes nothing but what its walks and its lines do. -/
theorem fetchFrom_steady (s : State) (g : Group) (va : Word) (n : Nat) (u : State) (ws : List Word)
    (h : fetchFrom s g va n = .ok u ws) : Steady s u := by
  induction n generalizing s va u ws with
  | zero => cases h; exact .refl s
  | succ n ih =>
    unfold fetchFrom at h
    split at h
    · cases h
    · split at h
      · cases h
      · dsimp only at h
        split at h
        · cases h
        · split at h
          · rename_i v xs hv
            cases h
            exact ((fillTlb_steady _ _ _ _).trans (arriveAt_steady _ _ _)).trans (ih _ _ _ _ hv)
          · rename_i hv
            exact absurd h (hv u ws)

/-- A translation that the agent's TLBs hold needs no walk: no byte of memory moves (R326, R328). -/
theorem fillTlb_dram_of_cached (s : State) (ag : Agent) (asid va : Nat) (h : (cached s ag asid va).isSome = true) :
    (fillTlb s ag asid va).dram = s.dram := by
  unfold fillTlb
  split
  · rfl
  · cases hc : cached s ag asid va with
    | none => simp [hc] at h
    | some l => cases ag <;> rfl

end Sys2Proof.Machine
end

