-- ==== Sys2Proof/Laws/Ops.lean ====
section
/-! SUPPORT. What each shared operation can do, said once: the shape of a control instruction, releases, the issue of an access, the
checks and the binding of a vector instruction, and the acceptance of a command. -/
namespace Sys2Proof.Machine

/-! ## Control instructions -/

/-- A control instruction under a false guard, blocked on a register, or with its own effect (R141, R156). -/
theorem ctlInstr_cases (cg : CGuard) (regs : List XReg) (s : State) (k : State → State) :
    (s.g.guard cg = false ∧ ctlInstr cg regs s k = .next (ctlAdvance s)) ∨
    (s.g.guard cg = true ∧ (∃ r ∈ regs, s.g.busy r = true ∧ ctlInstr cg regs s k = .next (ctlBlock (.reg r) s))) ∨
    (s.g.guard cg = true ∧ (∀ r ∈ regs, s.g.busy r = false) ∧ ctlInstr cg regs s k = .next (k s)) := by
  unfold ctlInstr
  cases hg : s.g.guard cg with
  | false => exact .inl ⟨rfl, by simp⟩
  | true =>
    right
    cases hf : regs.find? fun r => s.g.busy r with
    | some r =>
      exact .inl ⟨rfl, r, List.mem_of_find?_eq_some hf, by simpa using List.find?_some hf, by simp⟩
    | none =>
      refine .inr ⟨rfl, fun r hr => ?_, by simp⟩
      simpa using List.find?_eq_none.mp hf r hr

/-- A control instruction whose guard is true and whose registers are at hand has its own effect. -/
theorem ctlInstr_run {cg : CGuard} {regs : List XReg} {s : State} (k : State → State) (hg : s.g.guard cg = true)
    (hr : ∀ r ∈ regs, s.g.busy r = false) : ctlInstr cg regs s k = .next (k s) := by
  obtain ⟨h, -⟩ | ⟨-, r, h, hb, -⟩ | ⟨-, -, h⟩ := ctlInstr_cases cg regs s k
  · simp [hg] at h
  · simp [hr r h] at hb
  · exact h

/-- A false guard completes with no effect (R156). -/
theorem ctlInstr_false {cg : CGuard} {s : State} (regs : List XReg) (k : State → State) (hg : s.g.guard cg = false) :
    ctlInstr cg regs s k = .next (ctlAdvance s) := by simp [ctlInstr, hg]

/-- A control instruction always answers a next state. -/
theorem ctlInstr_next (cg : CGuard) (regs : List XReg) (s : State) (k : State → State) : ∃ t, ctlInstr cg regs s k = .next t :=
  ⟨_, rfl⟩

/-- The record of an access that a release answers for: at the release, which a continue does not pass over (R80, R81). -/
def heldAt (s : State) (a x : Acc) (l : LaneAcc) : HaltRec :=
  { fr := s.g.heldRec x l a.index a.clause, sent := false, held := some x.stamp, act := none, past := true }

/-- A release meets what a home holds and halts the group, or goes on (R72, R80). -/
theorem relCheckAt_cases (waits : Bool) (a : Acc) (s : State) (k : State → State) :
    (∃ x l, s.g.firstHeld a waits = some (x, l) ∧ relCheckAt waits a s k = haltWith (heldAt s a x l) s) ∨
    (s.g.firstHeld a waits = none ∧ relCheckAt waits a s k = k s) := by
  unfold relCheckAt
  cases h : s.g.firstHeld a waits with
  | some p => exact .inl ⟨p.1, p.2, rfl, rfl⟩
  | none => exact .inr ⟨rfl, rfl⟩

/-- A release halts the group, blocks, or goes on (R72, R80). -/
theorem ctlRelease_cases (sc : Scope) (s : State) (k : State → State) :
    (∃ x l, s.g.firstHeld (s.g.probe true sc) true = some (x, l) ∧
      ctlRelease sc s k = haltWith (heldAt s (s.g.probe true sc) x l) s) ∨
    (s.g.firstHeld (s.g.probe true sc) true = none ∧ releaseWaits s s.g (s.g.probe true sc) = true ∧
      ctlRelease sc s k = ctlBlock (.release sc) s) ∨
    (s.g.firstHeld (s.g.probe true sc) true = none ∧ releaseWaits s s.g (s.g.probe true sc) = false ∧ ctlRelease sc s k = k s) := by
  unfold ctlRelease
  dsimp only
  obtain ⟨x, l, h, e⟩ | ⟨h, e⟩ := relCheckAt_cases true (s.g.probe true sc) s fun t =>
    if releaseWaits t t.g (s.g.probe true sc) then ctlBlock (.release sc) t else k t
  · exact .inl ⟨x, l, h, e⟩
  · right
    rw [e]
    cases hw : releaseWaits s s.g (s.g.probe true sc) with
    | true => exact .inl ⟨h, rfl, by simp⟩
    | false => exact .inr ⟨h, rfl, by simp⟩

/-- A register whose result is still to come takes a later write, and the result goes nowhere; the others stay. -/
@[simp] theorem readX_setX (g : Group) (d r : XReg) (v : Word) :
    (g.setX d v).readX r = if r = 0 then 0 else if r = d then v else g.readX r := by
  unfold Group.setX
  split
  · rw [readX_writeX]; rfl
  · exact readX_writeX g d r v

/-- With no result to come for it a register is only written. -/
theorem setX_of_free {g : Group} {d : XReg} (v : Word) (h : g.busy d = false) : g.setX d v = g.writeX d v := by
  simp [Group.setX, h]

/-- The write of a control register and the advance, field by field. -/
@[simp] theorem ctlWrite_g (d : XReg) (v : Word) (s : State) :
    (ctlWrite d v s).g = { s.g.setX d v with pos := s.g.pos.next, block := .none } := by
  have : (s.g.setX d v).pos = s.g.pos := by unfold Group.setX; split <;> simp [Group.forget]
  simp [ctlWrite, this]

@[simp] theorem ctlWrite_dram (d : XReg) (v : Word) (s : State) : (ctlWrite d v s).dram = s.dram := by simp [ctlWrite]
@[simp] theorem ctlWrite_sram (d : XReg) (v : Word) (s : State) : (ctlWrite d v s).sram = s.sram := by simp [ctlWrite]
@[simp] theorem ctlWrite_host (d : XReg) (v : Word) (s : State) : (ctlWrite d v s).host = s.host := by simp [ctlWrite]

/-! ## The issue of an access -/

/-- A line leaves the L1 of the group's core: only the cores change. -/
theorem dropLoc_frame (l : Loc) (s : State) : dropLoc l s = { s with cores := (dropLoc l s).cores } := by
  unfold dropLoc dropLine; split <;> rfl

/-- A store that enters the write-through buffer reaches the L1 of its core only (R319). -/
theorem storeL1_frame (h : Hint) (w : Nat) (l : LaneAcc) (s : State) :
    storeL1 h w l s = { s with cores := (storeL1 h w l s).cores } := by
  unfold storeL1 dropLine
  split
  · split
    · rfl
    · dsimp only; split <;> rfl
  · rfl

theorem foldl_frame {α : Type} (f : State → α → State) (hf : ∀ s x, f s x = { s with cores := (f s x).cores }) (l : List α)
    (s : State) : l.foldl f s = { s with cores := (l.foldl f s).cores } := by
  induction l generalizing s with
  | nil => rfl
  | cons x l ih =>
    simp only [List.foldl_cons]
    rw [ih, hf s x]

theorem issueL1_frame (a : Acc) (s : State) : issueL1 a s = { s with cores := (issueL1 a s).cores } := by
  unfold issueL1
  split
  · exact foldl_frame _ (fun t l => dropLoc_frame l.loc t) _ _
  · rfl

/-- Units that reach a bank join its queue: only the cores change (R316). -/
theorem reachBank_frame (core bank : Nat) (s : State) :
    reachBank core bank s = { s with cores := (reachBank core bank s).cores } := by
  unfold reachBank
  exact foldl_frame _ (fun t x => by split <;> rfl) _ _

/-- The issue of an access: it joins the accesses of the group, the stamp counts it, its translations come into the TLBs, and
besides these only L1 lines and FIFO queues of cores change. -/
theorem issueAcc_frame (a : Acc) (s : State) :
    issueAcc a s = { keepTlbs a s with
      g := { s.g with accs := s.g.accs ++ [a] }, stamp := s.stamp + 1, cores := (issueAcc a s).cores } := by
  obtain ⟨c, hc⟩ : ∃ c, issueL1 a (keepTlbs a s) = { keepTlbs a s with cores := c } := ⟨_, issueL1_frame _ _⟩
  have hg := (keepTlbs_steady a s).g
  unfold issueAcc
  rw [hc]
  generalize keepTlbs a s = m at *
  have h := foldl_frame (fun t (cb : Nat × Nat) => reachBank cb.1 cb.2 t) (fun t cb => reachBank_frame cb.1 cb.2 t) a.fifos
    { m with cores := c, stamp := s.stamp + 1, g := { m.g with accs := m.g.accs ++ [a] } }
  rw [hg] at h
  simp only [hg]
  generalize List.foldl _ _ _ = r at *
  exact h

@[simp] theorem issueAcc_g (a : Acc) (s : State) : (issueAcc a s).g = { s.g with accs := s.g.accs ++ [a] } := by
  rw [issueAcc_frame]
/-- Memory after an issue is as the walks for its translations leave it. -/
@[simp] theorem issueAcc_dram (a : Acc) (s : State) : (issueAcc a s).dram = (keepTlbs a s).dram := by rw [issueAcc_frame]
@[simp] theorem issueAcc_sram (a : Acc) (s : State) : (issueAcc a s).sram = s.sram := by
  rw [issueAcc_frame]; exact (keepTlbs_steady a s).sram
@[simp] theorem issueAcc_host (a : Acc) (s : State) : (issueAcc a s).host = s.host := by
  rw [issueAcc_frame]; exact (keepTlbs_steady a s).host
@[simp] theorem issueAcc_others (a : Acc) (s : State) : (issueAcc a s).others = s.others := by
  rw [issueAcc_frame]; exact (keepTlbs_steady a s).others
@[simp] theorem issueAcc_teams (a : Acc) (s : State) : (issueAcc a s).teams = s.teams := by
  rw [issueAcc_frame]; exact (keepTlbs_steady a s).teams
@[simp] theorem issueAcc_mgmt (a : Acc) (s : State) : (issueAcc a s).mgmt = s.mgmt := by
  rw [issueAcc_frame]; exact (keepTlbs_steady a s).mgmt
@[simp] theorem issueAcc_stamp (a : Acc) (s : State) : (issueAcc a s).stamp = s.stamp + 1 := by rw [issueAcc_frame]

/-! ## Vector instructions -/

/-- With no fault met an instruction goes on. -/
theorem check_none {e : VEnv} {own : List VFault} (go : State) (h : own ++ e.bad = []) : e.check own go = go := by
  simp [VEnv.check, h, lowest]

/-- Binding succeeds and the instruction goes on, or it stalls (R208). -/
theorem vbind_cases (e : VEnv) (ws : List NameWrite) (s : State) (go : State → State) :
    (∃ u, bindAll e.base e.born ws s = some u ∧ vbind e ws s go = go u) ∨
    (bindAll e.base e.born ws s = none ∧ vbind e ws s go = allocStall e ws s) := by
  unfold vbind
  cases h : bindAll e.base e.born ws s with
  | some u => exact .inl ⟨u, rfl, rfl⟩
  | none => exact .inr ⟨rfl, rfl⟩

/-- A fixed-latency instruction that meets no fault, under a zero mask (R214). -/
theorem vfixed_zero {v : VForm} {s : State} (lat : Nat) (f : VEnv → VRes) (hb : (v.env s).bad = []) (hm : (v.env s).m = 0) :
    vfixed v lat f s = .next (vdone (v.env s) (v.start s)) := by
  simp only [vfixed, vissue, check_none _ (show [] ++ (v.env s).bad = [] by simpa using hb), if_pos hm]

/-- A variable-latency instruction that meets no fault and finds its wait slot not full goes on to its effect. -/
theorem vvar_run {v : VForm} {s : State} (own : VEnv → List VFault) (k : VEnv → State → State) (hs : (v.env s).slotFull = false)
    (hb : own (v.env s) ++ (v.env s).bad = []) : vvar v own s k = .next (k (v.env s) (v.start s)) := by
  simp [vvar, vissue, hs, check_none _ hb]

/-- A memory instruction that meets no fault, finds its wait slot not full and no earlier fence open goes on to its effect. -/
theorem vmem_run {v : VForm} {s : State} (own : VEnv → List VFault) (k : VEnv → State → State) (hs : (v.env s).slotFull = false)
    (hf : (v.env s).base.g.fenced = false) (hb : own (v.env s) ++ (v.env s).bad = []) :
    vmem v own s k = .next (k (v.env s) (v.start s)) := by
  simp [vmem, vissue, hs, hf, check_none _ hb]

/-! ## Commands -/

/-- A queue accepts a command unless its context is full (R38, R180). -/
theorem accept_cases (e : EngineRef) (w : Cmd) (bad : Bool) (tile : Option Nat) (cfg : Word) (s : State) :
    (64 ≤ (s.ctx e).load ∧ accept e w bad tile cfg s = none) ∨
    ((s.ctx e).load < 64 ∧ accept e w bad tile cfg s = some ({ s.setCtx e { s.ctx e with
        seq := (s.ctx e).seq + 1
        cmds := (s.ctx e).cmds ++ [{ newCmd w bad tile cfg ((s.ctx e).seq + 1) s with place := s.stamp }] } with
      stamp := s.stamp + 1 }, handleOf e ((s.ctx e).seq + 1))) := by
  unfold accept
  by_cases h : 64 ≤ (s.ctx e).load
  · exact .inl ⟨h, by simp [h]⟩
  · exact .inr ⟨by omega, by simp [h]⟩

end Sys2Proof.Machine
end

