-- ==== Sys2Proof/Laws/Memory.lean ====
section
/-! SUPPORT. Every operation over memory keeps its canonical form; the form holds after reset. -/
namespace Sys2Proof.Machine

/-- Memory after reset is in canonical form. -/
theorem reset_memWf : State.reset.memWf = true := by decide

theorem memWf_iff (s : State) : s.memWf = true ↔ smWf 0 s.dram = true ∧ smWf 0 s.sram = true ∧ smWf 0 s.host = true := by
  simp [State.memWf, and_assoc]

/-- A state with the same memories has the same form. -/
theorem memWf_of_eq {s t : State} (h : s.memWf = true) (hd : t.dram = s.dram) (hs : t.sram = s.sram) (hh : t.host = s.host) :
    t.memWf = true := by rw [memWf_iff] at *; rw [hd, hs, hh]; exact h

/-- A write of DRAM bytes keeps the form. -/
theorem memWf_dram {s t : State} (a : Nat) (bs : List Byte) (h : s.memWf = true) (hd : t.dram = smWrite s.dram a bs)
    (hs : t.sram = s.sram) (hh : t.host = s.host) : t.memWf = true := by
  rw [memWf_iff] at *; rw [hd, hs, hh]; exact ⟨smWf_smWrite a bs h.1, h.2⟩

theorem foldl_memWf {α : Type} (f : State → α → State) (hf : ∀ s x, s.memWf = true → (f s x).memWf = true) (l : List α) (s : State)
    (h : s.memWf = true) : (l.foldl f s).memWf = true := by
  induction l generalizing s with
  | nil => exact h
  | cons x l ih => exact ih _ (hf s x h)

theorem updRow_memWf (s : State) (r : Nat) (f : Row → Row) (h : s.memWf = true) : (s.updRow r f).memWf = true := h

theorem mergeEntry_memWf (s : State) (e : Defer) (h : s.memWf = true) : (mergeEntry s e).memWf = true := by
  unfold mergeEntry
  split
  · exact h
  · exact memWf_dram _ _ h rfl rfl rfl

theorem markStale_memWf (f : Nat) (s : State) (r : Nat) (h : s.memWf = true) : (markStale s f r).memWf = true := by
  induction f generalizing s r with
  | zero => exact h
  | succ f ih => exact foldl_memWf _ (fun t d ht => ih _ _ (updRow_memWf _ _ _ ht)) _ _ h

theorem rekeyLine_memWf (s : State) (line key : Nat) (h : s.memWf = true) : (rekeyLine s line key).memWf = true := by
  unfold rekeyLine
  dsimp only
  split
  · exact h
  · exact memWf_dram _ _ h rfl rfl rfl

theorem rawRow_memWf (s : State) (r : Nat) (h : s.memWf = true) : (rawRow s r).memWf = true := by
  unfold rawRow
  split
  · exact h
  · exact foldl_memWf _ (fun t i ht => rekeyLine_memWf t _ _ ht) _ _ h

theorem mergeRow_memWf (s : State) (r : Nat) (h : s.memWf = true) : (mergeRow s r).memWf = true := by
  unfold mergeRow
  dsimp only
  split
  · exact h
  · exact markStale_memWf _ _ _ (memWf_of_eq (foldl_memWf _ mergeEntry_memWf _ _ (rawRow_memWf s r h)) rfl rfl rfl)

theorem finishRecompute_memWf (s : State) (r : Nat) (rule : DRule) (bs : List (List Byte)) (ks : List (List Nat))
    (h : s.memWf = true) : (finishRecompute s r rule bs ks).memWf = true := memWf_dram _ _ (rawRow_memWf s r h) rfl rfl rfl

theorem recomputeRow_memWf (f : Nat) (s : State) (r : Nat) (h : s.memWf = true) : (recomputeRow s f r).memWf = true := by
  induction f generalizing s r with
  | zero => exact h
  | succ f ih =>
    unfold recomputeRow
    split
    · exact h
    · split
      · exact h
      · exact finishRecompute_memWf _ _ _ _ _ (updRow_memWf _ _ _
          (foldl_memWf _ (fun t b ht => rawRow_memWf _ _ (mergeRow_memWf _ _ (ih _ _ ht))) _ _ h))

theorem recomputeStep_memWf (s : State) (r : Nat) (h : s.memWf = true) : (recomputeStep s r).memWf = true := by
  unfold recomputeStep
  dsimp only
  split
  · exact h
  · split
    · exact h
    · split
      · exact finishRecompute_memWf _ _ _ _ _ h
      · split
        · exact h
        · split
          · exact finishRecompute_memWf _ _ _ _ _ (updRow_memWf _ _ _ (rawRow_memWf _ _ (mergeRow_memWf _ _ h)))
          · exact updRow_memWf _ _ _ (rawRow_memWf _ _ (mergeRow_memWf _ _ h))

theorem touchLine_memWf (s : State) (l k : Nat) (w : Bool) (h : s.memWf = true) : (touchLine s l k w).memWf = true := by
  unfold touchLine
  dsimp only
  split
  · exact rekeyLine_memWf s l k h
  · split <;> exact rekeyLine_memWf s l k h

/-- A read at a home keeps the form. -/
theorem homeRead_memWf {s t : State} {pa n key stamp : Nat} {bs : List Byte} (h : s.memWf = true)
    (hr : homeRead s pa n key stamp = .ok (t, bs)) : t.memWf = true := by
  unfold homeRead at hr
  dsimp only at hr
  split at hr
  · cases hr
  · split at hr
    · cases hr
    · cases hr
      exact foldl_memWf _ (fun t l ht => touchLine_memWf t l key _ ht) _ _ (mergeRow_memWf _ _ h)

theorem countBuckets_memWf (s : State) (pa n : Nat) (h : s.memWf = true) : (countBuckets s pa n).memWf = true :=
  foldl_memWf _ (fun t b ht => by exact ht) _ _ h

/-- The bytes of a basin's own write keep the form. -/
theorem placeBytes_memWf (s : State) (pa key : Nat) (bs : List Byte) (h : s.memWf = true) : (placeBytes s pa key bs).memWf = true :=
  memWf_dram _ _ (markStale_memWf _ _ _
    (foldl_memWf _ (fun t l ht => touchLine_memWf t l key _ ht) _ _ (mergeRow_memWf _ _ h))) rfl rfl rfl

/-- The bytes of a write keep the form. -/
theorem putBytes_memWf (s : State) (pa key : Nat) (bs : List Byte) (h : s.memWf = true) : (putBytes s pa key bs).memWf = true :=
  countBuckets_memWf _ _ _ (placeBytes_memWf s pa key bs h)

/-- A mapping keeps the form. -/
theorem mapNext_memWf {s t : State} {c : Bool} (h : s.memWf = true) (hm : mapNext c s = some t) : t.memWf = true := by
  unfold mapNext at hm
  split at hm
  · split at hm
    · cases hm; exact h
    · split at hm
      · cases hm
      · cases hm; exact foldl_memWf _ (fun u w hu => placeBytes_memWf u _ _ _ hu) _ _ (memWf_of_eq h rfl rfl rfl)
  · cases hm; exact h

/-- A write at a home keeps the form. -/
theorem homeWrite_memWf {s t : State} {side : Option Bool} {pa key : Nat} {bs : List Byte} (h : s.memWf = true)
    (hw : homeWrite s side pa key bs = .ok t) : t.memWf = true := by
  unfold homeWrite at hw
  split at hw
  · cases hw
  · split at hw
    · cases hw
    · cases hw; exact putBytes_memWf _ _ _ _ h

/-- An atomic at a home keeps the form. -/
theorem atomHome_memWf {s t : State} {a : Acc} {op : AOp} {sg : Bool} {l : LaneAcc} {old : Nat} (h : s.memWf = true)
    (ha : atomHome s a op sg l = .ok (t, old)) : t.memWf = true := by
  unfold atomHome at ha
  dsimp only at ha
  split at ha
  · split at ha
    · cases ha
    · split at ha
      · cases ha
      · split at ha
        · cases ha
        · cases ha
        · rename_i hr
          cases ha
          split
          · exact putBytes_memWf _ _ _ _ (homeRead_memWf h hr)
          · exact homeRead_memWf h hr
  · cases ha
    split
    · rw [memWf_iff] at *; exact ⟨h.1, smWf_smWrite _ _ h.2.1, h.2.2⟩
    · exact h
  · cases ha

theorem arriveAt_memWf (s : State) (pa key : Nat) (h : s.memWf = true) : (arriveAt s pa key).memWf = true :=
  touchLine_memWf _ _ _ _ (mergeRow_memWf _ _ (recomputeRow_memWf _ _ _ h))

theorem walkReads_memWf (f : Nat) (s : State) (va table level : Nat) (h : s.memWf = true) :
    (walkReads s va table level f).memWf = true := by
  induction f generalizing s table level with
  | zero => exact h
  | succ f ih =>
    unfold walkReads; dsimp only
    split
    · exact arriveAt_memWf _ _ _ h
    · exact ih _ _ _ (arriveAt_memWf _ _ _ h)

theorem fillTlb_memWf (s : State) (ag : Agent) (asid va : Nat) (h : s.memWf = true) : (fillTlb s ag asid va).memWf = true := by
  unfold fillTlb
  split
  · exact h
  · dsimp only
    have k : (if (cached s ag asid va).isNone = true then (match smGet none s.mgmt.spaces asid with
        | some root => walkReads s va root 0 5 | none => s) else s).memWf = true := by
      split
      · split
        · exact walkReads_memWf _ _ _ _ _ h
        · exact h
      · exact h
    generalize (if (cached s ag asid va).isNone = true then (match smGet none s.mgmt.spaces asid with
        | some root => walkReads s va root 0 5 | none => s) else s) = m at *
    cases ag <;> exact k

theorem keepTlbs_memWf (a : Acc) (s : State) (h : s.memWf = true) : (keepTlbs a s).memWf = true :=
  foldl_memWf _ (fun t _ ht => fillTlb_memWf t _ _ _ ht) _ _ h

/-- The issue of an access keeps the form. -/
theorem issueAcc_memWf (a : Acc) (s : State) (h : s.memWf = true) : (issueAcc a s).memWf = true := by
  rw [issueAcc_frame]; exact memWf_of_eq (keepTlbs_memWf a s h) rfl rfl rfl

end Sys2Proof.Machine
end

