-- ==== Sys2Proof/Laws/PerInstr.lean ====
section
/-! SUPPORT. The family Kind: every instruction is exactly one of an event, a control word, a vector word and an engine command, so
the encoders together miss none and share none. -/
namespace Sys2Proof.Laws.Kind
open Sys2Proof

/-- How many of the four kinds an instruction is. -/
def count (i : Instr) : Nat :=
  (if Machine.isEvent i then 1 else 0) + (if (encodeCtl i).isSome then 1 else 0) + (if (encodeVec i).isSome then 1 else 0) +
    (if (encodeCmd i).isSome then 1 else 0)

/-- An instruction is exactly one of an event, a control word, a vector word and an engine command. -/
def Statement (i : Instr) : Prop := count i = 1

theorem launch (w : Cmd) : Statement (.launch w) := rfl
theorem reclaim (w : Cmd) : Statement (.reclaim w) := rfl
theorem addCr (g : CGuard) (d : XReg) (a : XReg) (b : XReg) : Statement (.addCr g d a b) := rfl
theorem subCr (g : CGuard) (d : XReg) (a : XReg) (b : XReg) : Statement (.subCr g d a b) := rfl
theorem mulCr (g : CGuard) (d : XReg) (a : XReg) (b : XReg) : Statement (.mulCr g d a b) := rfl
theorem mulhiS64Cr (g : CGuard) (d : XReg) (a : XReg) (b : XReg) : Statement (.mulhiS64Cr g d a b) := rfl
theorem mulhiN64Cr (g : CGuard) (d : XReg) (a : XReg) (b : XReg) : Statement (.mulhiN64Cr g d a b) := rfl
theorem andCr (g : CGuard) (d : XReg) (a : XReg) (b : XReg) : Statement (.andCr g d a b) := rfl
theorem orCr (g : CGuard) (d : XReg) (a : XReg) (b : XReg) : Statement (.orCr g d a b) := rfl
theorem xorCr (g : CGuard) (d : XReg) (a : XReg) (b : XReg) : Statement (.xorCr g d a b) := rfl
theorem shlCr (g : CGuard) (d : XReg) (a : XReg) (b : XReg) : Statement (.shlCr g d a b) := rfl
theorem shrN64Cr (g : CGuard) (d : XReg) (a : XReg) (b : XReg) : Statement (.shrN64Cr g d a b) := rfl
theorem shrS64Cr (g : CGuard) (d : XReg) (a : XReg) (b : XReg) : Statement (.shrS64Cr g d a b) := rfl
theorem minS64Cr (g : CGuard) (d : XReg) (a : XReg) (b : XReg) : Statement (.minS64Cr g d a b) := rfl
theorem minN64Cr (g : CGuard) (d : XReg) (a : XReg) (b : XReg) : Statement (.minN64Cr g d a b) := rfl
theorem maxS64Cr (g : CGuard) (d : XReg) (a : XReg) (b : XReg) : Statement (.maxS64Cr g d a b) := rfl
theorem maxN64Cr (g : CGuard) (d : XReg) (a : XReg) (b : XReg) : Statement (.maxN64Cr g d a b) := rfl
theorem addCi (g : CGuard) (d : XReg) (a : XReg) (imm : BitVec 32) : Statement (.addCi g d a imm) := rfl
theorem subCi (g : CGuard) (d : XReg) (a : XReg) (imm : BitVec 32) : Statement (.subCi g d a imm) := rfl
theorem mulCi (g : CGuard) (d : XReg) (a : XReg) (imm : BitVec 32) : Statement (.mulCi g d a imm) := rfl
theorem mulhiS64Ci (g : CGuard) (d : XReg) (a : XReg) (imm : BitVec 32) : Statement (.mulhiS64Ci g d a imm) := rfl
theorem mulhiN64Ci (g : CGuard) (d : XReg) (a : XReg) (imm : BitVec 32) : Statement (.mulhiN64Ci g d a imm) := rfl
theorem andCi (g : CGuard) (d : XReg) (a : XReg) (imm : BitVec 32) : Statement (.andCi g d a imm) := rfl
theorem orCi (g : CGuard) (d : XReg) (a : XReg) (imm : BitVec 32) : Statement (.orCi g d a imm) := rfl
theorem xorCi (g : CGuard) (d : XReg) (a : XReg) (imm : BitVec 32) : Statement (.xorCi g d a imm) := rfl
theorem shlCi (g : CGuard) (d : XReg) (a : XReg) (imm : BitVec 32) : Statement (.shlCi g d a imm) := rfl
theorem shrN64Ci (g : CGuard) (d : XReg) (a : XReg) (imm : BitVec 32) : Statement (.shrN64Ci g d a imm) := rfl
theorem shrS64Ci (g : CGuard) (d : XReg) (a : XReg) (imm : BitVec 32) : Statement (.shrS64Ci g d a imm) := rfl
theorem minS64Ci (g : CGuard) (d : XReg) (a : XReg) (imm : BitVec 32) : Statement (.minS64Ci g d a imm) := rfl
theorem minN64Ci (g : CGuard) (d : XReg) (a : XReg) (imm : BitVec 32) : Statement (.minN64Ci g d a imm) := rfl
theorem maxS64Ci (g : CGuard) (d : XReg) (a : XReg) (imm : BitVec 32) : Statement (.maxS64Ci g d a imm) := rfl
theorem maxN64Ci (g : CGuard) (d : XReg) (a : XReg) (imm : BitVec 32) : Statement (.maxN64Ci g d a imm) := rfl
theorem cmpCr (g : CGuard) (cc : Cond) (pd : BitVec 3) (a : XReg) (b : XReg) : Statement (.cmpCr g cc pd a b) := rfl
theorem cmpCi (g : CGuard) (cc : Cond) (pd : BitVec 3) (a : XReg) (imm : BitVec 32) : Statement (.cmpCi g cc pd a imm) := rfl
theorem lea (g : CGuard) (d : XReg) (a : XReg) (b : XReg) (pcRel : Bool) (sh : BitVec 3) (disp : BitVec 28) : Statement (.lea g d a b pcRel sh disp) := rfl
theorem movi (g : CGuard) (d : XReg) (imm : BitVec 32) : Statement (.movi g d imm) := rfl
theorem movhi (g : CGuard) (d : XReg) (a : XReg) (imm : BitVec 32) : Statement (.movhi g d a imm) := rfl
theorem br (g : CGuard) (imm : BitVec 32) : Statement (.br g imm) := rfl
theorem brc (g : CGuard) (cc : Cond) (a : XReg) (b : XReg) (imm : BitVec 32) : Statement (.brc g cc a b imm) := rfl
theorem loop (g : CGuard) (d : XReg) (imm : BitVec 32) : Statement (.loop g d imm) := rfl
theorem jmp (g : CGuard) (a : XReg) : Statement (.jmp g a) := rfl
theorem call (g : CGuard) (d : XReg) (imm : BitVec 32) : Statement (.call g d imm) := rfl
theorem ret (g : CGuard) (a : XReg) : Statement (.ret g a) := rfl
theorem exit (g : CGuard) : Statement (.exit g) := rfl
theorem ldS8 (g : CGuard) (d : XReg) (a : XReg) (h : Hint) (imm : BitVec 32) : Statement (.ldS8 g d a h imm) := rfl
theorem ldN8 (g : CGuard) (d : XReg) (a : XReg) (h : Hint) (imm : BitVec 32) : Statement (.ldN8 g d a h imm) := rfl
theorem ldS16 (g : CGuard) (d : XReg) (a : XReg) (h : Hint) (imm : BitVec 32) : Statement (.ldS16 g d a h imm) := rfl
theorem ldN16 (g : CGuard) (d : XReg) (a : XReg) (h : Hint) (imm : BitVec 32) : Statement (.ldN16 g d a h imm) := rfl
theorem ldS32 (g : CGuard) (d : XReg) (a : XReg) (h : Hint) (imm : BitVec 32) : Statement (.ldS32 g d a h imm) := rfl
theorem ldN32 (g : CGuard) (d : XReg) (a : XReg) (h : Hint) (imm : BitVec 32) : Statement (.ldN32 g d a h imm) := rfl
theorem ldB64 (g : CGuard) (d : XReg) (a : XReg) (h : Hint) (imm : BitVec 32) : Statement (.ldB64 g d a h imm) := rfl
theorem ldAcqN32 (g : CGuard) (d : XReg) (a : XReg) (sc : Scope) (h : Hint) (imm : BitVec 32) : Statement (.ldAcqN32 g d a sc h imm) := rfl
theorem ldAcqB64 (g : CGuard) (d : XReg) (a : XReg) (sc : Scope) (h : Hint) (imm : BitVec 32) : Statement (.ldAcqB64 g d a sc h imm) := rfl
theorem stB8 (g : CGuard) (d : XReg) (a : XReg) (h : Hint) (imm : BitVec 32) : Statement (.stB8 g d a h imm) := rfl
theorem stB16 (g : CGuard) (d : XReg) (a : XReg) (h : Hint) (imm : BitVec 32) : Statement (.stB16 g d a h imm) := rfl
theorem stB32 (g : CGuard) (d : XReg) (a : XReg) (h : Hint) (imm : BitVec 32) : Statement (.stB32 g d a h imm) := rfl
theorem stB64 (g : CGuard) (d : XReg) (a : XReg) (h : Hint) (imm : BitVec 32) : Statement (.stB64 g d a h imm) := rfl
theorem stRelB32 (g : CGuard) (d : XReg) (a : XReg) (sc : Scope) (h : Hint) (imm : BitVec 32) : Statement (.stRelB32 g d a sc h imm) := rfl
theorem stRelB64 (g : CGuard) (d : XReg) (a : XReg) (sc : Scope) (h : Hint) (imm : BitVec 32) : Statement (.stRelB64 g d a sc h imm) := rfl
theorem controlAtomAdd (g : CGuard) (d : XReg) (a : XReg) (b : XReg) (o : Order) (sc : Scope) (ty : ATy) (h : Hint) : Statement (.controlAtomAdd g d a b o sc ty h) := rfl
theorem controlAtomMin (g : CGuard) (d : XReg) (a : XReg) (b : XReg) (o : Order) (sc : Scope) (ty : ATy) (h : Hint) : Statement (.controlAtomMin g d a b o sc ty h) := rfl
theorem controlAtomMax (g : CGuard) (d : XReg) (a : XReg) (b : XReg) (o : Order) (sc : Scope) (ty : ATy) (h : Hint) : Statement (.controlAtomMax g d a b o sc ty h) := rfl
theorem controlAtomAnd (g : CGuard) (d : XReg) (a : XReg) (b : XReg) (o : Order) (sc : Scope) (ty : ATy) (h : Hint) : Statement (.controlAtomAnd g d a b o sc ty h) := rfl
theorem controlAtomOr (g : CGuard) (d : XReg) (a : XReg) (b : XReg) (o : Order) (sc : Scope) (ty : ATy) (h : Hint) : Statement (.controlAtomOr g d a b o sc ty h) := rfl
theorem controlAtomXor (g : CGuard) (d : XReg) (a : XReg) (b : XReg) (o : Order) (sc : Scope) (ty : ATy) (h : Hint) : Statement (.controlAtomXor g d a b o sc ty h) := rfl
theorem controlAtomExch (g : CGuard) (d : XReg) (a : XReg) (b : XReg) (o : Order) (sc : Scope) (ty : ATy) (h : Hint) : Statement (.controlAtomExch g d a b o sc ty h) := rfl
theorem controlAtomCas (g : CGuard) (d : XReg) (a : XReg) (b : XReg) (tr : XReg) (o : Order) (sc : Scope) (ty : ATy) (h : Hint) : Statement (.controlAtomCas g d a b tr o sc ty h) := rfl
theorem fence (g : CGuard) (sc : Scope) : Statement (.fence g sc) := rfl
theorem fenceAcq (g : CGuard) (sc : Scope) : Statement (.fenceAcq g sc) := rfl
theorem fenceRel (g : CGuard) (sc : Scope) : Statement (.fenceRel g sc) := rfl
theorem pause (g : CGuard) (n : BitVec 16) : Statement (.pause g n) := rfl
theorem icinv (g : CGuard) (sc : Scope) : Statement (.icinv g sc) := rfl
theorem vrun (g : CGuard) (a : XReg) (cnt : RunCount) : Statement (.vrun g a cnt) := by cases cnt <;> rfl
theorem vwalk (g : CGuard) (a : XReg) (b : XReg) : Statement (.vwalk g a b) := rfl
theorem vmpush (g : CGuard) (p : BitVec 3) (neg : Bool) (dem : Bool) (sib : BitVec 24) : Statement (.vmpush g p neg dem sib) := rfl
theorem vmelse (g : CGuard) : Statement (.vmelse g) := rfl
theorem vmpop (g : CGuard) : Statement (.vmpop g) := rfl
theorem vput (g : CGuard) (k : BitVec 6) (a : XReg) (imm : BitVec 32) : Statement (.vput g k a imm) := rfl
theorem vget (g : CGuard) (d : XReg) (lane : BitVec 5) (reg : BitVec 11) : Statement (.vget g d lane reg) := rfl
theorem vgetB64 (g : CGuard) (d : XReg) (lane : BitVec 5) (reg : BitVec 11) : Statement (.vgetB64 g d lane reg) := rfl
theorem vgetPredicate (g : CGuard) (d : XReg) (lane : BitVec 5) (reg : BitVec 11) : Statement (.vgetPredicate g d lane reg) := rfl
theorem vgetMask (g : CGuard) (d : XReg) (lane : BitVec 5) (reg : BitVec 11) : Statement (.vgetMask g d lane reg) := rfl
theorem vsync (g : CGuard) : Statement (.vsync g) := rfl
theorem push (g : CGuard) (d : XReg) (a : XReg) (q : BitVec 2) (full : BitVec 3) : Statement (.push g d a q full) := rfl
theorem fwait (g : CGuard) (a : XReg) : Statement (.fwait g a) := rfl
theorem ftest (g : CGuard) (d : XReg) (a : XReg) : Statement (.ftest g d a) := rfl
theorem fcancel (g : CGuard) (a : XReg) : Statement (.fcancel g a) := rfl
theorem tlwait (g : CGuard) (a : XReg) (b : XReg) : Statement (.tlwait g a b) := rfl
theorem handoff (g : CGuard) (d : XReg) (a : XReg) (b : XReg) (n : BitVec 16) : Statement (.handoff g d a b n) := rfl
theorem publish (g : CGuard) (w : BitVec 8) : Statement (.publish g w) := rfl
theorem bar (g : CGuard) (b : BitVec 4) : Statement (.bar g b) := rfl
theorem cbarArr (g : CGuard) (d : XReg) (b : BitVec 2) : Statement (.cbarArr g d b) := rfl
theorem cbarWait (g : CGuard) (a : XReg) (b : BitVec 2) : Statement (.cbarWait g a b) := rfl
theorem await (g : CGuard) (ctr : BitVec 3) (a : XReg) (imm : BitVec 32) : Statement (.await g ctr a imm) := rfl
theorem mxacq (g : CGuard) : Statement (.mxacq g) := rfl
theorem mxrel (g : CGuard) : Statement (.mxrel g) := rfl
theorem tcfg (g : CGuard) (a : XReg) (t : BitVec 6) : Statement (.tcfg g a t) := rfl
theorem csrr (g : CGuard) (d : XReg) (sel : BitVec 12) : Statement (.csrr g d sel) := rfl
theorem csrwFpm (g : CGuard) (a : XReg) : Statement (.csrwFpm g a) := rfl
theorem csrwFlags (g : CGuard) (a : XReg) : Statement (.csrwFlags g a) := rfl
theorem csrwQtab (g : CGuard) (a : XReg) : Statement (.csrwQtab g a) := rfl
theorem csrwChk (g : CGuard) (a : XReg) : Statement (.csrwChk g a) := rfl
theorem csrwPart (g : CGuard) (a : XReg) : Statement (.csrwPart g a) := rfl
theorem csrwArrivalCounter (g : CGuard) (a : XReg) (n : BitVec 3) : Statement (.csrwArrivalCounter g a n) := rfl
theorem csrw (g : CGuard) (a : XReg) (sel : BitVec 12) : Statement (.csrw g a sel) := rfl
theorem trap (g : CGuard) (imm : BitVec 32) : Statement (.trap g imm) := rfl
theorem nop (g : CGuard) : Statement (.nop g) := rfl
theorem fadd (c : VCtl) (t : FTy) (m : FMods) (d : VReg) (a : VSrc) (b : VSrc) : Statement (.fadd c t m d a b) := rfl
theorem fsub (c : VCtl) (t : FTy) (m : FMods) (d : VReg) (a : VSrc) (b : VSrc) : Statement (.fsub c t m d a b) := rfl
theorem fmul (c : VCtl) (t : FTy) (m : FMods) (d : VReg) (a : VSrc) (b : VSrc) : Statement (.fmul c t m d a b) := rfl
theorem ffma (c : VCtl) (t : FTy) (m : FMods) (d : VReg) (a : VSrc) (b : VSrc) (cc : VSrc) : Statement (.ffma c t m d a b cc) := rfl
theorem fmin (c : VCtl) (t : FTy) (m : SMods) (d : VReg) (a : VSrc) (b : VSrc) : Statement (.fmin c t m d a b) := rfl
theorem fmax (c : VCtl) (t : FTy) (m : SMods) (d : VReg) (a : VSrc) (b : VSrc) : Statement (.fmax c t m d a b) := rfl
theorem fcmp (c : VCtl) (t : FTy) (m : SMods) (cond : FCond) (pd : BitVec 3) (a : VSrc) (b : VSrc) : Statement (.fcmp c t m cond pd a b) := rfl
theorem fclass (c : VCtl) (t : FTy) (neg : Bool) (abs : Bool) (d : VReg) (a : VSrc) : Statement (.fclass c t neg abs d a) := rfl
theorem frcp (c : VCtl) (t : FTy) (r : RndSel) (neg : Bool) (abs : Bool) (d : VReg) (a : VSrc) : Statement (.frcp c t r neg abs d a) := rfl
theorem frsq (c : VCtl) (t : FTy) (r : RndSel) (neg : Bool) (abs : Bool) (d : VReg) (a : VSrc) : Statement (.frsq c t r neg abs d a) := rfl
theorem fsqrt (c : VCtl) (t : FTy) (r : RndSel) (neg : Bool) (abs : Bool) (d : VReg) (a : VSrc) : Statement (.fsqrt c t r neg abs d a) := rfl
theorem fexp2 (c : VCtl) (t : FTy) (r : RndSel) (neg : Bool) (abs : Bool) (d : VReg) (a : VSrc) : Statement (.fexp2 c t r neg abs d a) := rfl
theorem flog2 (c : VCtl) (t : FTy) (r : RndSel) (neg : Bool) (abs : Bool) (d : VReg) (a : VSrc) : Statement (.flog2 c t r neg abs d a) := rfl
theorem fsin (c : VCtl) (t : FTy) (r : RndSel) (neg : Bool) (abs : Bool) (d : VReg) (a : VSrc) : Statement (.fsin c t r neg abs d a) := rfl
theorem fcos (c : VCtl) (t : FTy) (r : RndSel) (neg : Bool) (abs : Bool) (d : VReg) (a : VSrc) : Statement (.fcos c t r neg abs d a) := rfl
theorem add (c : VCtl) (t : ITy) (sat : Bool) (d : VReg) (a : VSrc) (b : VSrc) : Statement (.add c t sat d a b) := rfl
theorem sub (c : VCtl) (t : ITy) (sat : Bool) (d : VReg) (a : VSrc) (b : VSrc) : Statement (.sub c t sat d a b) := rfl
theorem mul (c : VCtl) (t : ITy) (d : VReg) (a : VSrc) (b : VSrc) : Statement (.mul c t d a b) := rfl
theorem mad (c : VCtl) (t : ITy) (d : VReg) (a : VSrc) (b : VSrc) (cc : VSrc) : Statement (.mad c t d a b cc) := rfl
theorem mulhi (c : VCtl) (t : ITy) (d : VReg) (a : VSrc) (b : VSrc) : Statement (.mulhi c t d a b) := rfl
theorem min (c : VCtl) (t : ITy) (d : VReg) (a : VSrc) (b : VSrc) : Statement (.min c t d a b) := rfl
theorem max (c : VCtl) (t : ITy) (d : VReg) (a : VSrc) (b : VSrc) : Statement (.max c t d a b) := rfl
theorem cmp (c : VCtl) (t : ITy) (cond : ICond) (pd : BitVec 3) (a : VSrc) (b : VSrc) : Statement (.cmp c t cond pd a b) := rfl
theorem andB32 (c : VCtl) (d : VReg) (a : VSrc) (b : VSrc) : Statement (.andB32 c d a b) := rfl
theorem orB32 (c : VCtl) (d : VReg) (a : VSrc) (b : VSrc) : Statement (.orB32 c d a b) := rfl
theorem xorB32 (c : VCtl) (d : VReg) (a : VSrc) (b : VSrc) : Statement (.xorB32 c d a b) := rfl
theorem andnB32 (c : VCtl) (d : VReg) (a : VSrc) (b : VSrc) : Statement (.andnB32 c d a b) := rfl
theorem shlB32 (c : VCtl) (d : VReg) (a : VSrc) (b : VSrc) : Statement (.shlB32 c d a b) := rfl
theorem shrN32 (c : VCtl) (d : VReg) (a : VSrc) (b : VSrc) : Statement (.shrN32 c d a b) := rfl
theorem shrS32 (c : VCtl) (d : VReg) (a : VSrc) (b : VSrc) : Statement (.shrS32 c d a b) := rfl
theorem popcB32 (c : VCtl) (d : VReg) (a : VSrc) : Statement (.popcB32 c d a) := rfl
theorem clzB32 (c : VCtl) (d : VReg) (a : VSrc) : Statement (.clzB32 c d a) := rfl
theorem bfeN32 (c : VCtl) (d : VReg) (a : VSrc) (b : VSrc) (cc : VSrc) : Statement (.bfeN32 c d a b cc) := rfl
theorem bfeS32 (c : VCtl) (d : VReg) (a : VSrc) (b : VSrc) (cc : VSrc) : Statement (.bfeS32 c d a b cc) := rfl
theorem selB32 (c : VCtl) (p : BitVec 3) (d : VReg) (a : VSrc) (b : VSrc) : Statement (.selB32 c p d a b) := rfl
theorem acsH2 (c : VCtl) (j : BitVec 2) (d : VReg) (a : VSrc) (b : VSrc) : Statement (.acsH2 c j d a b) := rfl
theorem cvt (c : VCtl) (dty : CvtTy) (sty : CvtTy) (r : RndSel) (d : VReg) (a : VSrc) : Statement (.cvt c dty sty r d a) := rfl
theorem pack4 (c : VCtl) (d : VReg) (a : VSrc) (b : VSrc) (cc : VSrc) (e : VSrc) : Statement (.pack4 c d a b cc e) := rfl
theorem unpack4 (c : VCtl) (h : BitVec 2) (d : VReg) (a : VSrc) : Statement (.unpack4 c h d a) := rfl
theorem q8t (c : VCtl) (h : BitVec 2) (d : VReg) (a : VSrc) (b : VSrc) : Statement (.q8t c h d a b) := rfl
theorem q8e (c : VCtl) (h : BitVec 2) (d : VReg) (a : VSrc) (b : VSrc) (cc : VSrc) : Statement (.q8e c h d a b cc) := rfl
theorem movB32 (c : VCtl) (d : VReg) (a : VSrc) : Statement (.movB32 c d a) := rfl
theorem movB64 (c : VCtl) (d : VReg) (a : VSrc) : Statement (.movB64 c d a) := rfl
theorem moviB32 (c : VCtl) (d : VReg) (imm : BitVec 21) : Statement (.moviB32 c d imm) := rfl
theorem laneid (c : VCtl) (d : VReg) : Statement (.laneid c d) := rfl
theorem shflIdx (c : VCtl) (d : VReg) (a : VSrc) (b : ShB) : Statement (.shflIdx c d a b) := by cases b <;> rfl
theorem shflUp (c : VCtl) (d : VReg) (a : VSrc) (b : ShB) : Statement (.shflUp c d a b) := by cases b <;> rfl
theorem shflDown (c : VCtl) (d : VReg) (a : VSrc) (b : ShB) : Statement (.shflDown c d a b) := by cases b <;> rfl
theorem shflXor (c : VCtl) (d : VReg) (a : VSrc) (b : ShB) : Statement (.shflXor c d a b) := by cases b <;> rfl
theorem bflyLo (c : VCtl) (k : BitVec 3) (d : VReg) (a : VSrc) (b : VSrc) : Statement (.bflyLo c k d a b) := rfl
theorem bflyHi (c : VCtl) (k : BitVec 3) (d : VReg) (a : VSrc) (b : VSrc) : Statement (.bflyHi c k d a b) := rfl
theorem voteAny (c : VCtl) (pd : BitVec 3) (p : BitVec 3) (neg : Bool) : Statement (.voteAny c pd p neg) := rfl
theorem voteAll (c : VCtl) (pd : BitVec 3) (p : BitVec 3) (neg : Bool) : Statement (.voteAll c pd p neg) := rfl
theorem voteBallot (c : VCtl) (d : VReg) (p : BitVec 3) (neg : Bool) : Statement (.voteBallot c d p neg) := rfl
theorem voteEq (c : VCtl) (pd : BitVec 3) (p : BitVec 3) (neg : Bool) : Statement (.voteEq c pd p neg) := rfl
theorem redtAdd (c : VCtl) (ty : RTy) (r : RndSel) (d : VReg) (a : VSrc) : Statement (.redtAdd c ty r d a) := rfl
theorem redtMin (c : VCtl) (ty : RTy) (r : RndSel) (d : VReg) (a : VSrc) : Statement (.redtMin c ty r d a) := rfl
theorem redtMax (c : VCtl) (ty : RTy) (r : RndSel) (d : VReg) (a : VSrc) : Statement (.redtMax c ty r d a) := rfl
theorem redtAnd (c : VCtl) (ty : RTy) (r : RndSel) (d : VReg) (a : VSrc) : Statement (.redtAnd c ty r d a) := rfl
theorem redtOr (c : VCtl) (ty : RTy) (r : RndSel) (d : VReg) (a : VSrc) : Statement (.redtOr c ty r d a) := rfl
theorem redtXor (c : VCtl) (ty : RTy) (r : RndSel) (d : VReg) (a : VSrc) : Statement (.redtXor c ty r d a) := rfl
theorem matchLanes (c : VCtl) (fp : Bool) (d : VReg) (a : VSrc) : Statement (.matchLanes c fp d a) := rfl
theorem xsend (c : VCtl) (slot : BitVec 4) (wide : Bool) (a : VSrc) : Statement (.xsend c slot wide a) := rfl
theorem xrecv (c : VCtl) (slot : BitVec 4) (wide : Bool) (d : VReg) : Statement (.xrecv c slot wide d) := rfl
theorem rput (c : VCtl) (wide : Bool) (a : VSrc) (k : BitVec 6) : Statement (.rput c wide a k) := rfl
theorem ld (c : VCtl) (ty : LdTy) (d : VReg) (a : VSrc) (off : BitVec 18) : Statement (.ld c ty d a off) := rfl
theorem ldTurn (c : VCtl) (wide : Bool) (d : VReg) (a : VSrc) (off : BitVec 18) : Statement (.ldTurn c wide d a off) := rfl
theorem ldAcq (c : VCtl) (wide : Bool) (sc : Scope) (d : VReg) (a : VSrc) (off : BitVec 18) : Statement (.ldAcq c wide sc d a off) := rfl
theorem st (c : VCtl) (w : StW) (d : VSrc) (a : VSrc) (off : BitVec 18) : Statement (.st c w d a off) := rfl
theorem stRel (c : VCtl) (wide : Bool) (sc : Scope) (d : VSrc) (a : VSrc) (off : BitVec 18) : Statement (.stRel c wide sc d a off) := rfl
theorem prefetch (c : VCtl) (a : VSrc) (off : BitVec 18) : Statement (.prefetch c a off) := rfl
theorem atomAdd (c : VCtl) (o : Order) (sc : Scope) (ty : ATy) (d : VReg) (a : VSrc) (b : VSrc) : Statement (.atomAdd c o sc ty d a b) := rfl
theorem atomMin (c : VCtl) (o : Order) (sc : Scope) (ty : ATy) (d : VReg) (a : VSrc) (b : VSrc) : Statement (.atomMin c o sc ty d a b) := rfl
theorem atomMax (c : VCtl) (o : Order) (sc : Scope) (ty : ATy) (d : VReg) (a : VSrc) (b : VSrc) : Statement (.atomMax c o sc ty d a b) := rfl
theorem atomAnd (c : VCtl) (o : Order) (sc : Scope) (ty : ATy) (d : VReg) (a : VSrc) (b : VSrc) : Statement (.atomAnd c o sc ty d a b) := rfl
theorem atomOr (c : VCtl) (o : Order) (sc : Scope) (ty : ATy) (d : VReg) (a : VSrc) (b : VSrc) : Statement (.atomOr c o sc ty d a b) := rfl
theorem atomXor (c : VCtl) (o : Order) (sc : Scope) (ty : ATy) (d : VReg) (a : VSrc) (b : VSrc) : Statement (.atomXor c o sc ty d a b) := rfl
theorem atomExch (c : VCtl) (o : Order) (sc : Scope) (ty : ATy) (d : VReg) (a : VSrc) (b : VSrc) : Statement (.atomExch c o sc ty d a b) := rfl
theorem atomCas (c : VCtl) (o : Order) (sc : Scope) (ty : ATy) (d : VReg) (a : VSrc) (b : VSrc) (cc : VSrc) : Statement (.atomCas c o sc ty d a b cc) := rfl
theorem atomAddF32 (c : VCtl) (o : Order) (sc : Scope) (d : VReg) (a : VSrc) (b : VSrc) : Statement (.atomAddF32 c o sc d a b) := rfl
theorem redAdd (c : VCtl) (rel : Bool) (sc : Scope) (ty : ATy) (a : VSrc) (b : VSrc) : Statement (.redAdd c rel sc ty a b) := rfl
theorem redMin (c : VCtl) (rel : Bool) (sc : Scope) (ty : ATy) (a : VSrc) (b : VSrc) : Statement (.redMin c rel sc ty a b) := rfl
theorem redMax (c : VCtl) (rel : Bool) (sc : Scope) (ty : ATy) (a : VSrc) (b : VSrc) : Statement (.redMax c rel sc ty a b) := rfl
theorem redAnd (c : VCtl) (rel : Bool) (sc : Scope) (ty : ATy) (a : VSrc) (b : VSrc) : Statement (.redAnd c rel sc ty a b) := rfl
theorem redOr (c : VCtl) (rel : Bool) (sc : Scope) (ty : ATy) (a : VSrc) (b : VSrc) : Statement (.redOr c rel sc ty a b) := rfl
theorem redXor (c : VCtl) (rel : Bool) (sc : Scope) (ty : ATy) (a : VSrc) (b : VSrc) : Statement (.redXor c rel sc ty a b) := rfl
theorem redAddF32 (c : VCtl) (rel : Bool) (sc : Scope) (a : VSrc) (b : VSrc) : Statement (.redAddF32 c rel sc a b) := rfl
theorem redDefer (c : VCtl) (ty : DTy) (a : VSrc) (b : VSrc) : Statement (.redDefer c ty a b) := rfl
theorem vectorFence (c : VCtl) (sc : Scope) : Statement (.vectorFence c sc) := rfl
theorem vectorFenceAcq (c : VCtl) (sc : Scope) : Statement (.vectorFenceAcq c sc) := rfl
theorem vectorFenceRel (c : VCtl) (sc : Scope) : Statement (.vectorFenceRel c sc) := rfl
theorem fenceD (c : VCtl) : Statement (.fenceD c) := rfl
theorem mma (c : VCtl) (ty : MTy) (r : RndSel) (ra : Bool) (rb : Bool) (d : TileNo) (a : TileNo) (b : TileNo) (k : BitVec 9) : Statement (.mma c ty r ra rb d a b k) := rfl
theorem mmaz (c : VCtl) (q4 : Bool) (ra : Bool) (rb : Bool) (d : TileNo) (a : TileNo) (b : TileNo) (z : TileNo) : Statement (.mmaz c q4 ra rb d a b z) := rfl
theorem sacc (c : VCtl) (r : RndSel) (d : TileNo) (a : TileNo) (b : TileNo) (cc : TileNo) : Statement (.sacc c r d a b cc) := rfl
theorem tzero (c : VCtl) (d : TileNo) : Statement (.tzero c d) := rfl
theorem tmovToVector (c : VCtl) (d : VReg) (t : TileNo) (j : BitVec 7) (rb : BitVec 4) : Statement (.tmovToVector c d t j rb) := rfl
theorem tmovToTile (c : VCtl) (t : TileNo) (a : VSrc) (j : BitVec 7) (rb : BitVec 4) : Statement (.tmovToTile c t a j rb) := rfl
theorem vectorNop (stall : BitVec 3) : Statement (.vectorNop stall) := rfl
theorem copy (w : Cmd) : Statement (.copy w) := rfl
theorem copyx (w : Cmd) : Statement (.copyx w) := rfl
theorem gather (w : Cmd) : Statement (.gather w) := rfl
theorem scatter (w : Cmd) : Statement (.scatter w) := rfl
theorem fill (w : Cmd) : Statement (.fill w) := rfl
theorem tfill (w : Cmd) : Statement (.tfill w) := rfl
theorem tdrain (w : Cmd) : Statement (.tdrain w) := rfl
theorem clist (w : Cmd) : Statement (.clist w) := rfl
theorem copyResume (w : Cmd) : Statement (.copyResume w) := rfl
theorem sweepScale (w : Cmd) : Statement (.sweepScale w) := rfl
theorem sweepAffine (w : Cmd) : Statement (.sweepAffine w) := rfl
theorem sweepClamp (w : Cmd) : Statement (.sweepClamp w) := rfl
theorem sweepFill (w : Cmd) : Statement (.sweepFill w) := rfl
theorem sweepAbsmax (w : Cmd) : Statement (.sweepAbsmax w) := rfl
theorem sweepSum (w : Cmd) : Statement (.sweepSum w) := rfl
theorem sweepForce (w : Cmd) : Statement (.sweepForce w) := rfl
theorem sweepStatus (w : Cmd) : Statement (.sweepStatus w) := rfl
theorem rowCopy (w : Cmd) : Statement (.rowCopy w) := rfl
theorem rowZero (w : Cmd) : Statement (.rowZero w) := rfl
theorem deriveRegTranspose (w : Cmd) : Statement (.deriveRegTranspose w) := rfl
theorem deriveRegCast (w : Cmd) : Statement (.deriveRegCast w) := rfl
theorem deriveRegRowsum (w : Cmd) : Statement (.deriveRegRowsum w) := rfl
theorem deriveDrop (w : Cmd) : Statement (.deriveDrop w) := rfl
theorem deriveFlush (w : Cmd) : Statement (.deriveFlush w) := rfl
theorem snapArm (w : Cmd) : Statement (.snapArm w) := rfl
theorem snapAbort (w : Cmd) : Statement (.snapAbort w) := rfl
theorem basinResume (w : Cmd) : Statement (.basinResume w) := rfl
theorem allreduce (w : Cmd) : Statement (.allreduce w) := rfl
theorem reducescatter (w : Cmd) : Statement (.reducescatter w) := rfl
theorem allgather (w : Cmd) : Statement (.allgather w) := rfl
theorem sendCmd (w : Cmd) : Statement (.sendCmd w) := rfl
theorem recvCmd (w : Cmd) : Statement (.recvCmd w) := rfl
theorem bucketArm (w : Cmd) : Statement (.bucketArm w) := rfl
theorem stepCmd (w : Cmd) : Statement (.stepCmd w) := rfl
theorem collectiveResume (w : Cmd) : Statement (.collectiveResume w) := rfl
theorem powerUp : Statement (.powerUp) := rfl
theorem portTrainingTimeout : Statement (.portTrainingTimeout) := rfl
theorem imageDownload (img : List Byte) : Statement (.imageDownload img) := rfl
theorem fullService : Statement .fullService := rfl
theorem attestationRequest (nonce : Option (BitVec 256)) : Statement (.attestationRequest nonce) := rfl
theorem sensorSample (core : Nat) (quarterDeg : Int) (droop : Nat) : Statement (.sensorSample core quarterDeg droop) := rfl
theorem uncorrectableSoftError (pa : Nat) (corrected : Bool) : Statement (.uncorrectableSoftError pa corrected) := rfl
theorem launchMessage (ty : BitVec 8) (tag : BitVec 32) (ep : Nat) (body : List (BitVec 64)) : Statement (.launchMessage ty tag ep body) := rfl
theorem openWindow (tag : BitVec 32) (win : Nat) (grid : BitVec 64) (base : BitVec 64) (len : Nat) (vaddr : Nat) : Statement (.openWindow tag win grid base len vaddr) := rfl
theorem closeWindow (tag : BitVec 32) (win : Nat) : Statement (.closeWindow tag win) := rfl
theorem setCommunicator (tag : BitVec 32) (num : Nat) (rank : Nat) (ports : BitVec 8) (eps : List Nat) : Statement (.setCommunicator tag num rank ports eps) := rfl
theorem setDrainTarget (tag : BitVec 32) (slot : Nat) (endpoint : Nat) (ports : BitVec 8) (base : Nat) (len : Nat) (key : Nat) : Statement (.setDrainTarget tag slot endpoint ports base len key) := rfl
theorem resolveHalt (tag : BitVec 32) (w0 : BitVec 64) (w1 : BitVec 64) (w2 : BitVec 64) : Statement (.resolveHalt tag w0 w1 w2) := rfl
theorem loadKeySlot (tag : BitVec 32) (slot : Nat) (key : KeyLoad) : Statement (.loadKeySlot tag slot key) := rfl
theorem hostRmaRead (win : Nat) (off : Nat) (len : Nat) : Statement (.hostRmaRead win off len) := rfl
theorem launchStart (go : Starting) : Statement (.launchStart go) := rfl
theorem teamPlacement (ctx : Nat) (place : Placement) : Statement (.teamPlacement ctx place) := rfl
theorem tlbInvalidation : Statement (.tlbInvalidation) := rfl
theorem groupStart (core : Nat) (slot : Nat) : Statement (.groupStart core slot) := rfl
theorem groupEnd : Statement (.groupEnd) := rfl
theorem gridEnd (ctx : Nat) : Statement (.gridEnd ctx) := rfl
theorem clauseGrant (core : Nat) (sq : Nat) : Statement (.clauseGrant core sq) := rfl
theorem pipeGrant (core : Nat) (pipe : Nat) (delay : Nat) : Statement (.pipeGrant core pipe delay) := rfl
theorem pauseExpiry : Statement (.pauseExpiry) := rfl
theorem resultArrival (stamp : Nat) (lanes : BitVec 32) (l1 : BitVec 32) : Statement (.resultArrival stamp lanes l1) := rfl
theorem zeroMaskSlotFall (stamp : Nat) : Statement (.zeroMaskSlotFall stamp) := rfl
theorem regsExhausted (core : Nat) : Statement (.regsExhausted core) := rfl
theorem faultRecord (who : Faulter) : Statement (.faultRecord who) := rfl
theorem replayHalt (vec : Bool) : Statement (.replayHalt vec) := rfl
theorem continueHalt (vec : Bool) : Statement (.continueHalt vec) := rfl
theorem discardHalt (vec : Bool) : Statement (.discardHalt vec) := rfl
theorem terminateHalt (vec : Bool) : Statement (.terminateHalt vec) := rfl
theorem preemptionRequest (core : Nat) : Statement (.preemptionRequest core) := rfl
theorem contextSave (core : Nat) (lead : Nat) (go : Bool) : Statement (.contextSave core lead go) := rfl
theorem contextResume (n : Nat) (place : Placement) : Statement (.contextResume n place) := rfl
theorem writePerformed (stamp : Nat) (lane : LaneWrite) : Statement (.writePerformed stamp lane) := rfl
theorem demandCapture (row : Nat) : Statement (.demandCapture row) := rfl
theorem deferredAccept (stamp : Nat) (lane : Nat) : Statement (.deferredAccept stamp lane) := rfl
theorem recompute (row : Nat) : Statement (.recompute row) := rfl
theorem fifoUnit (core : Nat) (bank : Nat) : Statement (.fifoUnit core bank) := rfl
theorem refreshRestore (bank : Nat) : Statement (.refreshRestore bank) := rfl
theorem forcedActivation (bank : Nat) : Statement (.forcedActivation bank) := rfl
theorem registration (basin : Nat) (ctx : Nat) (row : Nat) : Statement (.registration basin ctx row) := rfl
theorem snapshotDrainRecord (basin : Nat) : Statement (.snapshotDrainRecord basin) := rfl
theorem drainAcknowledgement (slot : Nat) : Statement (.drainAcknowledgement slot) := rfl
theorem elementDelivery (e : EngineRef) : Statement (.elementDelivery e) := rfl
theorem matrixGrant (quad : Nat) : Statement (.matrixGrant quad) := rfl
theorem matrixCompletion (quad : Nat) : Statement (.matrixCompletion quad) := rfl
theorem rendezvousPairing (slot : Nat) : Statement (.rendezvousPairing slot) := rfl
theorem rputArrival (part : PutLanes) : Statement (.rputArrival part) := rfl
theorem barPhaseComplete (b : Nat) : Statement (.barPhaseComplete b) := rfl
theorem clusterBarrierPhase (b : Nat) : Statement (.clusterBarrierPhase b) := rfl
theorem runToken : Statement (.runToken) := rfl
theorem walkToken (point : Nat) : Statement (.walkToken point) := rfl
theorem maskPush : Statement (.maskPush) := rfl
theorem maskInvert : Statement (.maskInvert) := rfl
theorem maskPop : Statement (.maskPop) := rfl
theorem deposit : Statement (.deposit) := rfl
theorem synchronise : Statement (.synchronise) := rfl
theorem returnTok : Statement (.returnTok) := rfl
theorem bootPortTrained : Statement (.bootPortTrained) := rfl
theorem bringUpFault : Statement (.bringUpFault) := rfl
theorem connectionSetUp (peer : Nat) (features : List Feature) : Statement (.connectionSetUp peer features) := rfl
theorem peerDelivery (ctx : Nat) (rank : Nat) (data : Packet) : Statement (.peerDelivery ctx rank data) := rfl
theorem retransmissionFailure (ctx : Nat) : Statement (.retransmissionFailure ctx) := rfl
theorem engineContextPreemption (e : EngineRef) : Statement (.engineContextPreemption e) := rfl
theorem engineContextResume (e : EngineRef) : Statement (.engineContextResume e) := rfl
theorem commandEndedInError (e : EngineRef) : Statement (.commandEndedInError e) := rfl

end Sys2Proof.Laws.Kind
end

