-- ==== Sys2Proof/Tests/Slice0.lean ====
section
/-! SUPPORT. The model's own tests: ill-formed terms that each check refuses, words written out from the encoding tables, and for
every statement with hypotheses a state and operands that meet them, with the result of one step there worked out from the rule. -/
namespace Sys2Proof.Tests
set_option Elab.async false
open Sys2Proof Sys2Proof.Machine Sys2Proof.Says

/-! ## States -/

/-- The guard that is always true. -/
def al : CGuard := ⟨7, false⟩

/-- A guard that is false in the world. -/
def fg : CGuard := ⟨1, false⟩

/-- What an outcome must satisfy. -/
def given (o : Out) (p : State → Bool) : Bool := match o with | .next t => p t | _ => false

/-- Two outcomes are the same state. -/
def same (o : Out) (s : State) : Bool := given o fun t => t == s

/-- Memory, scratch and host bytes are as they were. -/
def still (s t : State) : Bool := t.dram == s.dram && t.sram == s.sram && t.host == s.host

/-- One team of one group, alone on core 0: bank 0 its scratch, bank 1 its FIFO, addresses 0x4000_0000 to 0x7FFF_FFFF mapped to
themselves by three page-table entries, full service. -/
def world : State :=
  { State.reset with
    g := { Group.reset with live := true, pos := ⟨0x4000_0000, 3, 1, []⟩ }
    teams := [(0, { Team.reset with slots := [0] })]
    clusters := [(0, { Cluster.reset with teams := [0] })]
    cores := [(0, { Core.reset with bankMode := [(0, 1), (1, 2)], seqGrant := [(0, some 0)] })]
    dram := [(0x10000, 0x01), (0x10002, 0x02), (0x20000, 0x01), (0x20002, 0x03), (0x30008, 0x0F), (0x3000B, 0x40)]
    mgmt := { Mgmt.reset with state := 3, spaces := [(0, some 0x10000)] } }

/-- The world with its group changed. -/
def here (f : Group → Group) : State := { world with g := f world.g }

/-- The world with these control registers. -/
def regs (xs : SMap Word) : State := here fun g => { g with x := xs }

/-- A control fault of the group, with nothing else but the halt. -/
def trapped (s : State) (code : BitVec 8) (acc : BitVec 4) (addr : BitVec 56) (info : Word) (t : State) : Bool :=
  t.g.recs == [⟨s.g.ctlRec code acc addr info, false, none, none, false, false⟩] && t.g.pos == s.g.pos && t.g.x == s.g.x && still s t

/-- A wait that traps with the code of its future's end (R76). -/
def waitTrapped (s : State) (code : BitVec 8) (info : Word) (t : State) : Bool :=
  t.g.recs == [⟨s.g.ctlRec code 0 0 info, false, none, none, false, true⟩] && t.g.pos == s.g.pos && still s t

/-- The instruction after the current one of the clause is next. -/
def went (s t : State) : Bool := t.g.pos == { s.g.pos with idx := s.g.pos.idx + 1 } && t.g.block == .none && still s t

/-- Control goes to this address. -/
def wentTo (x : Word) (s t : State) : Bool := t.g.pos == ⟨x, 0, 0, []⟩ && t.g.block == .none && still s t

/-! ## Words written out from the tables -/

/-- Control words of spec/06, spec/07, spec/08, spec/14 and spec/22, each beside its fields there. -/
theorem test_words_control : ∀ p ∈ [
    (0x100C_4178_0000_0000#64, Instr.addCr al 3 4 5), (0x200C_4038_0000_0064#64, .addCi al 3 4 100),
    (0x200C_4010_0000_0064#64, .addCi ⟨2, false⟩ 3 4 100), (0x44F8_0038_0000_0025#64, .call al 62 0x25),
    (0x4503_E038_0000_0000#64, .ret al 62), (0x3104_5038_0000_0000#64, .cmpCi al .eq 1 5 0),
    (0x4000_0008_FFFF_FFFA#64, .br fg 0xFFFF_FFFA), (0x5714_4078_0000_0008#64, .ldAcqN32 al 5 4 .team .dflt 8),
    (0x5F14_61F8_21F5_8000#64, .controlAtomCas al 5 6 7 8 .ar .clu .n64 .dflt), (0x6000_0038_0000_0014#64, .fenceRel al .pkg),
    (0x6100_0038_0000_0020#64, .pause al 32), (0x7000_6278_0001_0000#64, .vrun al 6 (.reg 9)),
    (0x7200_0038_0000_0C11#64, .vmpush al 1 false true 12), (0x7200_0038_0000_0001#64, .vmpush al 1 false false 0),
    (0x761C_0038_0000_2882#64, .vget al 7 5 130), (0x8050_8038_0000_000D#64, .push al 20 8 1 3),
    (0x8101_4038_0000_0000#64, .fwait al 20), (0x8518_4178_0000_0002#64, .handoff al 6 4 5 2),
    (0x5824_5138_0000_0000#64, .ldAcqB64 al 9 5 .pkg .dflt 0), (0x8600_0038_0000_0003#64, .publish al 3)],
    decodeCtl p.1 = .ok p.2 := by decide +kernel

/-- No guard, STALL 0, nothing held, last or counted. -/
def c0 : VCtl := ⟨7, false, 7, false, .dflt, 0, .none, false, false, false, 0⟩

/-- The windows of the clause of spec/06's example: WD, WA and WC 2. -/
def win2 : Wins := ⟨2, 2, 0, 2, 0⟩

/-- The windows all zero but WB, which names the k registers. -/
def winK : Wins := ⟨0, 0, 16, 0, 0⟩

/-- Vector words of spec/06, spec/09, spec/10, spec/11, spec/12 and spec/13, each under its clause's windows. -/
theorem test_words_vector : ∀ p ∈ [
    (win2, 0x1958_1010_001D_C400#64,
      Instr.fmul { c0 with stall := 4 } .f32 ⟨.dyn, ⟨false, false, false, false⟩⟩ 300 (.v 260) (.v 2)),
    (win2, 0x095A_B018_045D_C440#64,
      .fadd { c0 with stall := 4, hold := .a } .f32 ⟨.rz, ⟨false, false, true, false⟩⟩ 301 (.v 300) (.v 3)),
    (win2, 0x215E_B012_D01D_C028#64, .ffma { c0 with lastA := true, lastC := true } .f32 ⟨.dyn, ⟨false, false, false, false⟩⟩
      303 (.v 300) (.v 2) (.v 301)),
    (Wins.mk 0 0 0 0 0, 0xC208_0000_0C9D_C000#64, .moviB32 c0 4 100), (.mk 0 0 0 0 0, 0xC30A_0000_001D_C000#64, .laneid c0 5),
    (.mk 0 0 0 0 0, 0x6808_1028_0005_C010#64, .add { c0 with g0 := 1, lastB := true } .s32 false 4 (.v 4) (.v 5)),
    (.mk 0 0 0 0 0, 0x2028_2860_E31D_C200#64, .ffma { c0 with stall := 2 } .f64 ⟨.rne, ⟨true, false, false, false⟩⟩ 20 (.v 10) (.v 12) (.v 14)),
    (.mk 0 0 0 0 0, 0x3906_1430_203D_C000#64, .fcmp c0 .f32 ⟨false, false, false, true⟩ .lt 3 (.v 5) (.v 6)),
    (winK, 0x6C50_A418_003D_C000#64, .add c0 .s16x2 true 40 (.v 41) (.k 3)),
    (.mk 0 0 0 0 0, 0xB418_2048_101D_C000#64, .acsH2 c0 1 12 (.v 8) (.v 9)),
    (.mk 0 0 0 0 0, 0xB80E_1850_141D_C000#64, .cvt c0 .s32 .f32 .rz 7 (.v 6)),
    (.mk 0 0 0 0 0, 0xBB3C_7D00_201D_C004#64, .q8t { c0 with wset := 4 } 2 30 (.v 31) (.v 32)),
    (.mk 0 0 0 0 0, 0xD014_5000_409D_C802#64, .ld { c0 with hint := .str, wset := 2 } .b32 10 (.v 20) 64),
    (.mk 0 0 0 0 0, 0xD516_53FF_F85D_C000#64, .stRel c0 false .clu (.v 11) (.v 20) 0x3_FFF8),
    (.mk 0 0 0 0 0, 0xDF3C_5102_2DFD_C003#64, .atomCas { c0 with wset := 3 } .ar .die .n64 30 (.v 20) (.v 32) (.v 34)),
    (.mk 0 0 0 0 0, 0xE800_5060_041D_C000#64, .redDefer c0 .bf16 (.v 20) (.v 12)),
    (.mk 0 0 0 0 0, 0xE900_0001_401D_C000#64, .vectorFenceRel c0 .pkg),
    (.mk 0 0 0 0 0, 0xC450_A408_701D_C000#64, .shflXor c0 40 (.v 41) (.imm 1)),
    (.mk 0 0 0 0 0, 0xC564_2858_A01D_C000#64, .bflyHi c0 2 50 (.v 10) (.v 11)),
    (winK, 0xCB00_F028_001D_C006#64, .rput { c0 with wset := 6 } false (.v 60) 5),
    (.mk 0 0 0 16 0, 0x815E_B8A0_501D_C200#64, .mad { c0 with stall := 2 } .n32 47 (.v 46) (.v 20) (.k 5)),
    (.mk 0 0 0 0 0, 0xC412_2010_001D_C000#64, .shflIdx c0 9 (.v 8) (.reg (.v 2))),
    (.mk 0 0 0 0 0, 0xC620_0800_201D_C000#64, .voteBallot c0 16 2 false),
    (.mk 0 0 0 0 0, 0xD420_A800_085D_C000#64, .st c0 .b32 (.v 16) (.v 42) 8),
    (.mk 0 0 0 0 0, 0xF300_0414_001D_C002#64, .mma { c0 with wset := 2 } .bf16 .dyn false false 0 1 2 64),
    (.mk 0 0 0 0 0, 0xF400_0417_F07D_C002#64, .mma { c0 with wset := 2 } .s8 .dyn false false 0 1 2 511),
    (.mk 0 0 0 0 0, 0xF608_1430_709D_C003#64, .mmaz { c0 with wset := 3 } true false true 4 5 6 7),
    (.mk 0 0 0 0 0, 0xF710_1048_A21D_C004#64, .sacc { c0 with wset := 4 } .rne 8 4 9 10),
    (.mk 0 0 0 0 0, 0xF808_0000_001D_C000#64, .tzero c0 4),
    (.mk 0 0 0 0 0, 0xF90E_0C00_503D_C002#64, .tmovToVector { c0 with wset := 2 } 7 3 5 1),
    (.mk 0 0 0 0 0, 0xFA06_1C00_503D_C000#64, .tmovToTile c0 3 (.v 7) 5 1),
    (.mk 0 0 0 0 0, 0xFA06_1C00_503D_C002#64, .tmovToTile { c0 with wset := 2 } 3 (.v 7) 5 1),
    (.mk 0 0 0 0 0, 0xC530_4088_001D_C000#64, .bflyLo c0 0 24 (.v 16) (.v 17))],
    decodeVec p.1 p.2.1 = .ok p.2.2 := by decide +kernel

/-- Clause headers of spec/06, spec/12 and spec/13. -/
theorem test_words_header : ∀ p ∈ [
    (0x9210_8020_0500_0000#64, Header.mk true 2 win2 2 true false), (0x9D00_0100_0380_0000#64, ⟨true, 13, ⟨0, 0, 0, 16, 0⟩, 1, true, true⟩),
    (0x9A00_2000_0000_0000#64, ⟨true, 10, winK, 0, false, false⟩), (0x9F00_0000_0100_0000#64, ⟨true, 15, ⟨0, 0, 0, 0, 0⟩, 0, true, false⟩)],
    decodeHeader p.1 = some p.2 := by decide +kernel

/-- spec/14: word 0 of the `tfill` at queue 0, and of the `gather`; spec/24: CMD 1 at the launch queue. -/
theorem test_words_commands :
    let w := fun (x : Word) => (⟨x, 0, 0, 0, 0, 0, 0, 0⟩ : Cmd)
    decodeCmd 0 (w 0x0620_00C0_0000_0000) = some (.tfill (w 0x0620_00C0_0000_0000)) ∧
    decodeCmd 0 (w 0x0300_0000_0000_0000) = some (.gather (w 0x0300_0000_0000_0000)) := by decide +kernel

/-- Words no row reads: opcode 0, CG 7 negated, a nonzero field of `nop`. -/
theorem test_words_illegal :
    ([0#64, 0x8101_403C_0000_0000, 0x100C_4178_0000_0001].all fun w => !(decodeCtl w).isOk) = true := by decide +kernel

/-! ## Ill-formed terms, one for each check -/

/-- An instruction that no word may carry. -/
theorem test_wf_refuses : ∀ i ∈ [
    Instr.addCr ⟨7, true⟩ 1 2 3, .shlCi al 1 2 64, .lea al 1 2 3 true 0 0, .loop al 0 1, .vmpush al 0 false false 1,
    .push al 1 57 0 0, .handoff al 1 2 3 0, .handoff al 1 2 3 4097, .csrw al 1 4, .csrw al 1 8,
    .fadd { c0 with g0 := 7, g0n := true } .f32 ⟨.dyn, ⟨false, false, false, false⟩⟩ 0 (.v 0) (.v 0),
    .fadd { c0 with g1 := 7, g1n := true } .f32 ⟨.dyn, ⟨false, false, false, false⟩⟩ 0 (.v 0) (.v 0),
    .fadd { c0 with hint := .str } .f32 ⟨.dyn, ⟨false, false, false, false⟩⟩ 0 (.v 0) (.v 0),
    .fadd { c0 with wset := 1 } .f32 ⟨.dyn, ⟨false, false, false, false⟩⟩ 0 (.v 0) (.v 0),
    .fadd { c0 with hold := .a } .f32 ⟨.dyn, ⟨false, false, false, false⟩⟩ 0 (.k 0) (.v 0),
    .fadd { c0 with lastB := true } .f32 ⟨.dyn, ⟨false, false, false, false⟩⟩ 0 (.v 0) (.k 0),
    .fadd { c0 with lastC := true } .f32 ⟨.dyn, ⟨false, false, false, false⟩⟩ 0 (.v 0) (.v 0),
    .fadd c0 .f64 ⟨.dyn, ⟨false, false, false, false⟩⟩ 1 (.v 0) (.v 0), .fadd c0 .f64 ⟨.dyn, ⟨false, false, false, false⟩⟩ 0 (.v 1) (.v 0),
    .fadd c0 .f64 ⟨.dyn, ⟨false, false, false, false⟩⟩ 0 (.i 0) (.v 0), .fcmp c0 .f16x2 ⟨false, false, false, false⟩ .eq 0 (.v 0) (.v 0),
    .frcp c0 .f16x2 .dyn false false 0 (.v 0), .cmp c0 .s16x2 .eq 1 (.v 0) (.v 0), .acsH2 c0 3 0 (.v 0) (.v 0),
    .cvt c0 .f32 .f16 .rz 0 (.v 0), .cvt c0 .s32 .s32 .dyn 0 (.v 0), .q8t c0 0 0 (.v 0) (.v 0), .q8t { c0 with wset := 7 } 0 0 (.v 0) (.v 0),
    .bflyLo c0 5 0 (.v 0) (.v 0), .redtAnd c0 .f32 .dyn 0 (.v 0), .redtMin c0 .f32 .rz 0 (.v 0), .xrecv { c0 with wset := 1 } 0 true 1,
    .ld c0 .b32 0 (.v 0) 0, .ld { c0 with wset := 1 } .b32 0 (.v 1) 0, .ldTurn { c0 with wset := 1 } true 126 (.v 0) 0,
    .mma c0 .s8 .rz false false 0 0 0 0, .tzero { c0 with wset := 1 } 0, .copy ⟨0, 0, 0, 0, 0, 0, 0, 0⟩,
    .sensorSample 1024 0 0, .closeWindow 0 256, .loadKeySlot 0 16 .generated, .launchStart ⟨8, none⟩, .groupStart 0 32, .clauseGrant 0 2,
    .pipeGrant 0 4 0, .registration 192 0 0, .registration 0 4 0, .matrixGrant 256, .barPhaseComplete 16, .clusterBarrierPhase 4,
    .peerDelivery 16 0 ⟨0, []⟩], i.wf = false := by decide +kernel

/-! ## Steps, words, round trips -/

/-- StepRunsTheDecodedInstruction, a control issue: `fwait x20` of the null future, placed and run. -/
theorem wit_step_control :
    let s := State.withFetchWord world 64 0x8101_4038_0000_0000
    s.agenda = [{ focus := none, act := .issueControl }] ∧ focusOn none { s with agenda := [] } = some { s with agenda := [] } ∧
      nextControl { s with agenda := [] } = some 0x8101_4038_0000_0000#64 ∧
      given (step s) (fun t => t.agenda == [] && t.g.pos.hdr == 0x4000_0010) = true := by decide +kernel

/-- The same, a vector issue: `laneid v5`. -/
theorem wit_step_vector :
    let s := State.withFetchWord world 64 0xC30A_0000_001D_C000
    s.agenda = [{ focus := none, act := .issueVector }] ∧
      nextVector { s with agenda := [] } = some (⟨0, 0, 0, 0, 0⟩, 0xC30A_0000_001D_C000#64) ∧
      decodeVec ⟨0, 0, 0, 0, 0⟩ 0xC30A_0000_001D_C000#64 = .ok (.laneid c0 5) ∧
      given (step s) (fun t => t.g.pend.map (·.ready) == [4]) = true := by decide +kernel

/-- The same, an event: a group in focus by core and slot. -/
theorem wit_step_event :
    let s : State := { world with agenda := [{ focus := some (0, 0), act := .event .pauseExpiry }], g := { world.g with pause := 3 } }
    (focusOn (some (0, 0)) { s with agenda := [] }).isSome = true ∧ isEvent .pauseExpiry = true ∧
      given (step s) (fun t => t.g.pause == 0 && t.agenda == []) = true := by decide +kernel

/-- The three round trips: a well-formed term of each class with an encoding, and a header at the highest windows. -/
theorem wit_round_trips :
    ((Instr.addCi al 3 4 100).wf = true ∧ encodeCtl (.addCi al 3 4 100) = some 0x200C_4038_0000_0064#64) ∧
    ((Instr.laneid c0 5).wf = true ∧ encodeVec (.laneid c0 5) = some (⟨0, 0, 0, 0, 0⟩, 0xC30A_0000_001D_C000#64)) ∧
    ((Instr.tfill ⟨0x0620_00C0_0000_0000, 0, 0, 0, 0, 0, 0, 0⟩).wf = true ∧
      (encodeCmd (.tfill ⟨0x0620_00C0_0000_0000, 0, 0, 0, 0, 0, 0, 0⟩)).map (·.1) = some 0) ∧
    (let h : Header := ⟨true, 15, ⟨17, 17, 17, 17, 17⟩, 63, true, true⟩
     (h.wins.wd.toNat ≤ 17 ∧ h.wins.we.toNat ≤ 17) ∧ (h.vec = false → h.wait = 0) ∧ decodeHeader (encodeHeader h) = some h) := by
  decide +kernel

/-- EveryStepKeepsMemoryCanonical: a step of the world that stores. -/
theorem wit_memory_canonical : world.memWf = true ∧ given (step world) (fun t => t.memWf) = true := by decide +kernel

/-! ## Control arithmetic -/

/-- ControlArithmeticResults and ControlArithmeticFrame, form CR: 7 and -3 (R159), and x0 discards. -/
theorem wit_alu_cr :
    let s := regs [(1, 7), (2, -3)]
    Issues al [1, 2, 3] s ∧
    (∀ p ∈ [(Instr.addCr al 3 1 2, (4 : Word)), (.subCr al 3 1 2, 10), (.mulCr al 3 1 2, -21), (.mulhiS64Cr al 3 1 2, -1),
      (.mulhiN64Cr al 3 1 2, 6), (.andCr al 3 1 2, 5), (.orCr al 3 1 2, -1), (.xorCr al 3 1 2, -6), (.shlCr al 3 1 2, 7 <<< 61),
      (.shrN64Cr al 3 2 1, 0x01FF_FFFF_FFFF_FFFF), (.shrS64Cr al 3 2 1, -1), (.minS64Cr al 3 1 2, -3), (.minN64Cr al 3 1 2, 7),
      (.maxS64Cr al 3 1 2, 7), (.maxN64Cr al 3 1 2, -3)],
      given (exec p.1 s) (fun t => t.g.readX 3 == p.2 && t.g.readX 1 == 7 && t.g.readX 2 == -3 && went s t) = true) ∧
    given (exec (.addCr al 0 1 2) s) (fun t => t.g.x == s.g.x && went s t) = true := by unfold Issues; decide +kernel

/-- The same, form CI: x1 = 7, the immediate sign-extended. -/
theorem wit_alu_ci :
    let s := regs [(1, 7)]
    Issues al [1, 3] s ∧
    (∀ p ∈ [(Instr.addCi al 3 1 0xFFFF_FFFD, (4 : Word)), (.subCi al 3 1 0xFFFF_FFFD, 10), (.mulCi al 3 1 0xFFFF_FFFD, -21),
      (.mulhiS64Ci al 3 1 0xFFFF_FFFD, -1), (.mulhiN64Ci al 3 1 0xFFFF_FFFD, 6), (.andCi al 3 1 0xFFFF_FFFD, 5),
      (.orCi al 3 1 0x8000_0000, 0xFFFF_FFFF_8000_0007), (.xorCi al 3 1 1, 6), (.shlCi al 3 1 63, 1 <<< 63), (.shrN64Ci al 3 1 1, 3),
      (.shrS64Ci al 3 1 1, 3), (.minS64Ci al 3 1 0xFFFF_FFFD, -3), (.minN64Ci al 3 1 0xFFFF_FFFD, 7), (.maxS64Ci al 3 1 0xFFFF_FFFD, 7),
      (.maxN64Ci al 3 1 0xFFFF_FFFD, -3)],
      given (exec p.1 s) (fun t => t.g.readX 3 == p.2 && went s t) = true) := by unfold Issues; decide +kernel

/-- CompareAndMoveResults: `cmp`, `lea` in both forms, and the pair of R162 that builds 0x0123_4567_89AB_CDEF. -/
theorem wit_compare_move :
    let s := regs [(1, 7), (2, -3), (5, 0xFFFF_FFFF_89AB_CDEF)]
    Issues al [1, 2] s ∧ Issues al [5] s ∧
    given (exec (.cmpCr al .ltS 2 2 1) s) (fun t => t.g.readC 2 && !t.g.readC 3 && went s t) = true ∧
    given (exec (.cmpCr al .ltN 2 2 1) s) (fun t => !t.g.readC 2 && went s t) = true ∧
    given (exec (.cmpCi al .eq 7 1 0) s) (fun t => t.g.readC 7) = true ∧
    given (exec (.lea al 3 1 2 false 2 0xFFF_FFFF) s) (fun t => t.g.readX 3 == -6 && went s t) = true ∧
    given (exec (.lea al 3 0 0 true 0 8) s) (fun t => t.g.readX 3 == 0x4000_0018) = true ∧
    given (exec (.movi al 5 0x89AB_CDEF) s) (fun t => t.g.readX 5 == 0xFFFF_FFFF_89AB_CDEF) = true ∧
    given (exec (.movhi al 5 5 0x0123_4567) s) (fun t => t.g.readX 5 == 0x0123_4567_89AB_CDEF) = true ∧
    given (exec (.nop al) s) (fun t => t.g.x == s.g.x && went s t) = true := by unfold Issues; decide +kernel

/-- FalseGuardAndXZero: a guard that is false; a store under it makes no access. -/
theorem wit_false_guard :
    guardOf (.stB64 fg 1 2 .dflt 0) = some fg ∧ world.g.guard fg = false ∧
      given (exec (.stB64 fg 1 2 .dflt 0) world) (fun t => t.g.accs == [] && went world t) = true := by decide +kernel

/-- An outstanding access of the control slice: what it does, its width, its one lane, its destination. -/
def acc1 (kind : AccKind) (w : Nat) (va : Word) (l : Loc) (data : Word) (dst : ADest) (done : Bool) (held : Option (BitVec 8 × Word)) :
    Acc :=
  { stamp := 5, ctl := true, epoch := 0, path := [], kind := kind, w := w, acq := false, rel := false, scope := .grp, hint := .dflt
    lanes := [⟨0, va, l, data, 0, done, held, none, false, none⟩], dst := dst, mask := 1, wset := 0, fseq := 0, clause := 0, index := 0 }

/-- A group that awaits x3 from a load. -/
def awaiting : State := here fun g => { g with accs := [acc1 .load 4 0x4000_0000 (.dram 0x4000_0000 0) 0 (.x 3 32 false) false none] }

/-- AwaitedRegisterBlocks: each place that reads x3, in forms CR and CI, a store, a `push` of the registers from x60; a mere write goes on. -/
theorem wit_awaited : awaiting.g.guard al = true ∧ awaiting.g.busy 3 = true ∧
    (∀ i ∈ [Instr.addCr al 1 3 2, .addCr al 1 2 3, .addCi al 1 3 0, .stB32 al 3 1 .dflt 0, .vput al 0 3 0, .push al 1 60 0 0],
      guardOf i = some al ∧ (∃ r ∈ readsOf i, awaiting.g.busy r = true) ∧
      given (exec i awaiting) (fun t => t.g.block == .reg 3 && t.g.pos == awaiting.g.pos && t.g.x == [] && still awaiting t) = true) ∧
    (∀ r ∈ readsOf (Instr.addCi al 3 1 5), awaiting.g.busy r = false) ∧
    given (exec (.addCi al 3 1 5) awaiting) (fun t => t.g.readX 3 == 5 && t.g.accs.map (·.dst) == [.none] && went awaiting t) = true := by
  decide +kernel

/-! ## Control and status registers, traps -/

/-- CsrsReadAndWritten: listed selectors, an arrival counter, and unlisted selectors at the edges of the list. -/
theorem wit_csr_reads :
    let s := here fun g => { g with a := [(7, 9)], id := { g.id with row := 2, col := 3, capa := 0x80 } }
    Issues al [1] s ∧
    given (exec (.csrr al 1 0) s) (fun t => t.g.readX 1 == 1 && went s t) = true ∧
    given (exec (.csrr al 1 5) s) (fun t => t.g.readX 1 == 1) = true ∧ given (exec (.csrr al 1 15) s) (fun t => t.g.readX 1 == 9) = true ∧
    given (exec (.csrr al 1 0x23) s) (fun t => t.g.readX 1 == 0x203) = true ∧
    given (exec (.csrr al 1 0x2D) s) (fun t => t.g.readX 1 == 0x80) = true ∧
    (∀ sel ∈ [6#12, 7, 16, 0x1F, 0x2E, 0xFFF], sel ≠ 1 ∧ sel ∉ csrTable.map Prod.fst ∧ ¬(8 ≤ sel.toNat ∧ sel.toNat ≤ 15)) ∧
    ([6#12, 7, 16, 0x1F, 0x2E, 0xFFF].all fun sel => given (exec (.csrr al 1 sel) s) (trapped s 3 0 0 (sel.zeroExtend 64))) = true := by
  unfold Issues; decide +kernel

/-- The same: for each CSR the lowest and highest valid value and the values beside them. -/
theorem wit_csr_writes :
    let s := fun (v : Word) => regs [(1, v)]
    (∀ v, Issues al [1] (s v)) ∧
    ([(Instr.csrwFpm al 1, [1, 4, 0x1FC], [0, 5, 0x201]), (.csrwFlags al 1, [0, 0xFF], [0x100]),
        (.csrwQtab al 1, [0, 0x400, 0x3_FC00], [0x200, 0x4_0000]), (.csrwChk al 1, [0, 3], [4]), (.csrwPart al 1, [1, 5], [0, 6]),
        (.csrwArrivalCounter al 1 7, [0, 0xFFFF_FFFF], [0x1_0000_0000])].all fun p =>
      (p.2.1.all fun v => given (exec p.1 (s v)) fun t => went (s v) t && t.g.recs == []) &&
        p.2.2.all fun v => given (exec p.1 (s v)) (trapped (s v) 3 0 0 v)) = true ∧
    given (exec (.csrwFlags al 1) { s 0x11 with g := { (s 0x11).g with flagsLate := 2 } })
      (fun t => t.g.flagsDone == 0x11 && t.g.flagsLate == 0) = true ∧
    given (exec (.csrw al 1 5) (s 1)) (trapped (s 1) 3 0 0 5) = true := by
  refine ⟨fun v => ?_, by decide +kernel⟩
  exact ⟨rfl, fun r _ => by simp [Group.busy, regs, here, world, Group.reset]⟩

/-- TrapsPausesAndIllegalWords: `trap`, `pause` of 0 and of 1, and a step at a word no row reads. -/
theorem wit_traps :
    Issues al [] world ∧ granted world = true ∧
    given (exec (.trap al 0xFFFF_FFFF) world) (trapped world 0x16 0 0 0xFFFF_FFFF) = true ∧
    given (exec (.pause al 0) world) (fun t => t.g.pause == 0 && went world t && granted t) = true ∧
    given (exec (.pause al 1) world) (fun t => t.g.pause == 1 && went world t && !granted t) = true ∧
    (let s : State := { world with g := { world.g with pos := ⟨0x4000_0000, 0, 0, [0]⟩ }
                                   agenda := [{ focus := none, act := .issueControl }] }
     nextControl { s with agenda := [] } = some 0 ∧ (decodeCtl 0).isOk = false ∧ given (step s) (trapped s 2 0 0 0) = true) := by
  unfold Issues; decide +kernel

/-- A clause of this word in a granted pipe, under a top mask of two lanes, with p1 = 1 lane and another value of it in flight. -/
def vecCode (w : Word) : State :=
  here fun g => { g with
    masks := [3], p := [(1, 2)], pend := [⟨90, .pred 1, 3, 0, 2, 0⟩]
    runnel := [⟨.run 0x4000_0100 1, VMode.reset, 0, 0, 0⟩]
    vpos := { VPos.reset with begun := true, hdr := 0x4000_0100, n := 0, left := 1, pipe := some 0, code := [0x9000_0000_0000_0000, w] } }

/-- The same, a vector word that no row reads under p1, which a result in flight is still to change, and one whose guard field is 7 with
its negate bit. -/
theorem wit_illegal_vector :
    let s := fun (w : Word) => ({ vecCode w with agenda := [{ focus := none, act := .issueVector }] } : State)
    let w : Word := 0x0000_0000_0005_C000
    let took := fun (w : Word) (m : BitVec 32) => given (step (s w)) fun t => still (s w) t &&
      t.g.recs.map (fun r => (r.fr.code, r.fr.orig, r.fr.lanes, r.fr.info)) == [(2, 1, m, w)]
    nextVector { s w with agenda := [] } = some (⟨0, 0, 0, 0, 0⟩, w) ∧ (decodeVec ⟨0, 0, 0, 0, 0⟩ w).isOk = false ∧
    w.extractLsb' 18 3 = 1 ∧ w.extractLsb' 14 3 = 7 ∧ took w 2 = true ∧ took 0x001E_0000 3 = true ∧ took 0x001D_E000 3 = true := by
  decide +kernel

/-! ## Branches -/

/-- BranchResults: forward, to itself, not taken; `loop` at 1, 2 and 0; `call` within a clause and at its end. pc is 0x4000_0010. -/
theorem wit_branches :
    let s := regs [(1, 1), (2, 2)]
    Issues al [] s ∧ Issues al [1, 2] s ∧ Issues al [1] s ∧ s.g.pc = 0x4000_0010 ∧
    given (exec (.br al 1) s) (wentTo 0x4000_0018 s) = true ∧ Stays s [1] ∧
    given (exec (.br al 0) s) (fun t => wentTo 0x4000_0010 s t && t.g.spin == some ⟨0x4000_0010, [1], false⟩) = true ∧
    (¬condTable .eq (s.g.readX 1) (s.g.readX 2)) ∧ given (exec (.brc al .eq 1 2 1) s) (went s) = true ∧
    condTable .ne (s.g.readX 1) (s.g.readX 2) ∧ given (exec (.brc al .ne 1 2 1) s) (wentTo 0x4000_0018 s) = true ∧
    Stays s [s.g.readX 1, s.g.readX 2, 1] ∧ given (exec (.brc al .ne 1 2 0xFFFF_FFFF) s)
      (fun t => wentTo 0x4000_0008 s t && t.g.spin == some ⟨0x4000_0010, [1, 2, 1], false⟩) = true ∧
    given (exec (.loop al 1 0xFFFF_FFFF) s) (fun t => went s t && t.g.readX 1 == 0) = true ∧
    given (exec (.loop al 2 0xFFFF_FFFF) s) (fun t => wentTo 0x4000_0008 s t && t.g.readX 2 == 1) = true ∧
    given (exec (.loop al 3 0xFFFF_FFFF) s) (fun t => wentTo 0x4000_0008 s t && t.g.readX 3 == -1) = true ∧
    given (exec (.call al 62 0x25) s) (fun t => wentTo 0x4000_0138 s t && t.g.readX 62 == 0x2000_0000_4000_0000) = true ∧
    (let e := here fun g => { g with pos := ⟨0x4000_0000, 3, 3, []⟩ }
     given (exec (.call al 62 1) e) (fun t => t.g.readX 62 == 0x4000_0028) = true) := by
  refine ⟨⟨by decide, by decide⟩, ⟨by decide, by decide⟩, ⟨by decide, by decide⟩, by decide, by decide +kernel, .inl rfl, by decide +kernel,
    by unfold condTable; decide, by decide +kernel, by unfold condTable; decide, by decide +kernel, .inl rfl, by decide +kernel,
    by decide +kernel, by decide +kernel, by decide +kernel, by decide +kernel, by decide +kernel⟩

/-- The second and third ways of `Stays`: another spin record, a level that may not be demoted. -/
theorem wit_stays :
    let l : Level := ⟨0, 0x4000_0100, false, false, .notStarted⟩
    let s := here fun g => { g with levels := [l], spin := some ⟨0x4000_0010, [1], true⟩ }
    let u := here fun g => { g with levels := [l], spin := some ⟨0x4000_0010, [1], false⟩ }
    Stays s [1] ∧ Stays u [1] ∧ given (exec (.br al 0) u) (wentTo 0x4000_0010 u) = true := by
  refine ⟨.inr (.inl (by decide)), .inr (.inr ⟨_, _, rfl, .inl rfl⟩), by decide +kernel⟩

/-- BackEdgeDemotes: path 1 not yet left, and a suspended path. -/
theorem wit_demotes :
    let s := fun (l : Level) (vals : List Word) => here fun g => { g with levels := [l], spin := some ⟨0x4000_0010, vals, false⟩ }
    let a : Level := ⟨0, 0x4000_0100, true, false, .notStarted⟩
    let b : Level := ⟨0, 0x4000_0100, true, true, .susp 0x4000_0200⟩
    Issues al [] (s a [1]) ∧ (s a [1]).g.runnel.length < 64 ∧
    given (exec (.br al 0) (s a [1])) (fun t => wentTo 0x4000_0100 (s a [1]) t && t.g.spin == none &&
      t.g.levels == [{ a with path2 := true, other := .susp 0x4000_0010 }] && t.g.runnel.map (·.kind) == [.maskInvert]) = true ∧
    condTable .eq (s b [0, 0, 1]).g.c.toNat (s b [0, 0, 1]).g.c.toNat ∧
    given (exec (.brc al .eq 0 0 0) (s b [0, 0, 1])) (fun t => wentTo 0x4000_0200 (s b [0, 0, 1]) t &&
      t.g.levels == [{ b with path2 := false, other := .susp 0x4000_0010 }]) = true := by
  refine ⟨⟨by decide, by decide⟩, by decide, by decide +kernel, rfl, by decide +kernel⟩

/-- JmpFaultsAndJumps: the three kinds of target, at the lowest bit of each field. -/
theorem wit_jmp :
    let s := fun (x : Word) => regs [(1, x)]
    Issues al [1] (s 0x4000_0008) ∧
    given (exec (.jmp al 1) (s 0x0100_0000_0000_0000)) (trapped (s 0x0100_0000_0000_0000) 3 0 0 0x0100_0000_0000_0000) = true ∧
    given (exec (.jmp al 1) (s 0x4000_0001)) (trapped (s 0x4000_0001) 7 4 0x4000_0001 0) = true ∧
    given (exec (.jmp al 1) (s 0x4000_0008)) (wentTo 0x4000_0008 (s 0x4000_0008)) = true := by unfold Issues; decide +kernel

/-- The world with one byte at the top of a word of its mapped memory: a header when it is 0x8N. -/
def coded (b : Byte) (x : Word) : State :=
  let s := regs [(1, x)]
  { s with dram := s.dram ++ [(0x4000_0107, b)] }

/-- RetAndExit: a link's bits [59:56] and [2:0], no translation, no header, a vector header, IDX beyond N and at N + 0, and `exit`. -/
theorem wit_ret_exit :
    Issues al [1] (coded 0x80 0x4000_0100) ∧
    given (exec (.ret al 1) (coded 0x80 0x0100_0000_4000_0100)) (fun t => t.g.recs.map (·.fr.code) == [3]) = true ∧
    given (exec (.ret al 1) (coded 0x80 0x4000_0104)) (fun t => t.g.recs.map (fun r => (r.fr.code, r.fr.acc)) == [(7, 4)]) = true ∧
    given (exec (.ret al 1) (coded 0x80 0)) (fun t => t.g.recs.map (fun r => (r.fr.code, r.fr.acc, r.fr.info)) == [(8, 4, 2)]) = true ∧
    given (exec (.ret al 1) (coded 0 0x4000_0100)) (fun t => t.g.recs.map (·.fr.code) == [1]) = true ∧
    given (exec (.ret al 1) (coded 0x90 0x4000_0100)) (fun t => t.g.recs.map (·.fr.code) == [1]) = true ∧
    given (exec (.ret al 1) (coded 0x82 0x3000_0000_4000_0100)) (fun t => t.g.recs.map (·.fr.code) == [3]) = true ∧
    given (exec (.ret al 1) (coded 0x82 0x2000_0000_4000_0100))
      (fun t => t.g.recs == [] && t.g.pos == ⟨0x4000_0100, 0, 2, []⟩ && !granted t) = true ∧
    Released world .pkg ∧ given (exec (.exit al) world) (fun t => t.g.exited && still world t) = true := by
  unfold Issues Released Unheld; decide +kernel

/-- The same: a link whose header lies in a line that the core's write-through buffer holds. -/
theorem wit_ret_waits :
    let a := acc1 .store 4 0x4000_0104 (.dram 0x4000_0104 0) 0 .none false none
    let s0 := coded 0x82 0x4000_0100
    let s : State := { s0 with g := { s0.g with accs := [{ a with lanes := a.lanes.map fun l => { l with sent := some 0 } }] } }
    (match fetchHeader s s.g 0x4000_0100 with | .wait => true | _ => false) = true ∧
    given (exec (.ret al 1) s) (fun t => t.g == s.g && still s t) = true ∧
    (match fetchHeader s0 s0.g 0x4000_0100 with | .ok u ws => ws == [0x8200_0000_0000_0000] && still s0 u | _ => false) = true := by decide +kernel

/-! ## Control memory -/

/-- The world with x1 at an address of its mapped memory, x2 the first byte of its scratch bank, x3 of its FIFO bank, x4 data. -/
def mem : State :=
  regs [(1, 0x4000_0008), (2, 0x00FF_FF00_0000_0000), (3, 0x00FF_FF00_0000_8000), (4, 0x1122_3344_5566_7788), (5, 0x4000_0001),
    (6, 0x0100_0000_0000_0000), (7, 0x00FF_FF00_0004_0000)]

/-- One new access, of this kind, width, address and place, carrying this value; nothing performed. -/
def issued (s : State) (kind : AccKind) (w : Nat) (va : Word) (l : Loc) (data : Word) (t : State) : Bool :=
  went s t && t.g.accs.map (fun a => (a.kind, a.w, a.ctl, a.lanes)) == [(kind, w, true, [⟨0, va, l, data, 0, false, none, none, false, none⟩])]

/-- ControlLoadsIssue: every load at a mapped address, `ld.b64` at scratch, `ld.n32` at the FIFO bank, a pop (R168, R317). -/
theorem wit_loads :
    Issues al [1, 8] mem ∧ accessCheck mem mem.g 0x4000_0008 8 1 ⟨true, true⟩ = .ok (.dram 0x4000_0008 0) ∧
    poisonedLoc mem (.dram 0x4000_0008 0) 8 = none ∧
    ([(Instr.ldS8 al 8 1 .dflt 0, 1, true), (.ldN8 al 8 1 .dflt 0, 1, false), (.ldS16 al 8 1 .dflt 0, 2, true),
        (.ldN16 al 8 1 .dflt 0, 2, false), (.ldS32 al 8 1 .dflt 0, 4, true), (.ldN32 al 8 1 .dflt 0, 4, false),
        (.ldB64 al 8 1 .dflt 0, 8, false), (.ldAcqN32 al 8 1 .pkg .dflt 0, 4, false), (.ldAcqB64 al 8 1 .pkg .dflt 0, 8, false)].all
      fun p => given (exec p.1 mem) fun t => issued mem .load p.2.1 0x4000_0008 (.dram 0x4000_0008 0) 0 t &&
        t.g.accs.map (·.dst) == [.x 8 (8 * p.2.1) p.2.2]) = true ∧
    given (exec (.ldB64 al 8 2 .dflt 0xFFFF_FFF8) mem) (fun t => t.g.recs.map (·.fr.code) == [8]) = true ∧
    given (exec (.ldB64 al 8 2 .dflt 8) mem) (issued mem .load 8 0x00FF_FF00_0000_0008 (.sram 8) 0) = true ∧
    given (exec (.ldN32 al 8 3 .dflt 0) mem) (fun t => issued mem .fifoPop 4 0x00FF_FF00_0000_8000 (.fifo 0 1) 0 t &&
      t.g.accs.map (fun a => (a.acq, a.scope)) == [(true, .clu)]) = true := by unfold Issues; decide +kernel

/-- ControlStoresIssue: every store at a mapped address, and a push. -/
theorem wit_stores :
    Issues al [1, 4] mem ∧ accessCheck mem mem.g 0x4000_0008 8 2 ⟨true, true⟩ = .ok (.dram 0x4000_0008 0) ∧ Released mem .clu ∧
    Released mem .sys ∧
    ([(Instr.stB8 al 4 1 .dflt 0, 1), (.stB16 al 4 1 .dflt 0, 2), (.stB32 al 4 1 .dflt 0, 4), (.stB64 al 4 1 .dflt 0, 8),
        (.stRelB32 al 4 1 .sys .dflt 0, 4), (.stRelB64 al 4 1 .sys .dflt 0, 8)].all
      fun p => given (exec p.1 mem) (issued mem .store p.2 0x4000_0008 (.dram 0x4000_0008 0) 0x1122_3344_5566_7788)) = true ∧
    given (exec (.stB64 al 4 3 .dflt 0) mem) (fun t => issued mem .fifoPush 8 0x00FF_FF00_0000_8000 (.fifo 0 1) 0x1122_3344_5566_7788 t &&
      t.g.accs.map (·.rel) == [true]) = true := by unfold Issues Released Unheld; decide +kernel

/-- ControlAtomicsIssue: the eight operations; `cas` carries its compare value. -/
theorem wit_atomics :
    Issues al [1, 4, 0, 8] mem ∧ accessCheck mem mem.g 0x4000_0008 8 3 ⟨false, true⟩ = .ok (.dram 0x4000_0008 0) ∧
    ([(Instr.controlAtomAdd al 8 1 4 .ar .sys .s64 .dflt, AOp.add), (.controlAtomMin al 8 1 4 .rel .sys .s64 .dflt, .min),
        (.controlAtomMax al 8 1 4 .acq .sys .s64 .dflt, .max), (.controlAtomAnd al 8 1 4 .rlx .sys .s64 .dflt, .and),
        (.controlAtomOr al 8 1 4 .rlx .sys .s64 .dflt, .or), (.controlAtomXor al 8 1 4 .rlx .sys .s64 .dflt, .xor),
        (.controlAtomExch al 8 1 4 .rlx .sys .s64 .dflt, .exch)].all
      fun p => given (exec p.1 mem) (issued mem (.atom p.2 true) 8 0x4000_0008 (.dram 0x4000_0008 0) 0x1122_3344_5566_7788)) = true ∧
    given (exec (.controlAtomCas al 8 1 4 5 .rlx .sys .n32 .dflt) mem) (fun t =>
      t.g.accs.map (fun a => (a.kind, a.w, a.lanes.map (fun l => (l.data, l.cmp)))) ==
        [(.atom .cas false, 4, [(0x1122_3344_5566_7788, 0x4000_0001)])]) = true := by unfold Issues; decide +kernel

/-- ControlAccessFaults: bits [63:56], a misaligned address, the address after the window, no translation, a table's bank, poison. -/
theorem wit_access_faults :
    (mem.g.readX 6).extractLsb' 56 8 ≠ 0 ∧ ((mem.g.readX 5).extractLsb' 56 8 = 0 ∧ (mem.g.readX 5).toNat % 4 ≠ 0) ∧
    accessCheck mem mem.g (mem.g.readX 7) 4 1 ⟨true, true⟩ = .bad 8 5 ∧
    given (exec (.ldN32 al 8 6 .dflt 0) mem) (trapped mem 8 1 0 5) = true ∧
    given (exec (.ldN32 al 8 5 .dflt 0) mem) (trapped mem 7 1 0x4000_0001 0) = true ∧
    given (exec (.stB32 al 4 7 .dflt 0) mem) (trapped mem 8 2 0x00FF_FF00_0004_0000 5) = true ∧
    given (exec (.controlAtomAdd al 8 0 4 .rlx .grp .n64 .dflt) mem) (trapped mem 8 3 0 2) = true ∧
    (let p : State := { mem with poison := [(0x200_0000, true)] }
     accessCheck p p.g 0x4000_0008 4 1 ⟨true, true⟩ = .ok (.dram 0x4000_0008 0) ∧
     poisonedLoc p (.dram 0x4000_0008 0) 4 = some 0x4000_0000 ∧
     given (exec (.ldN32 al 8 1 .dflt 0) p) (trapped p 0x14 1 0x4000_0008 0x4000_0000) = true) := by decide +kernel

/-- FencesAndIcinv: nothing outstanding, at each scope; a load before an acquire half, a store held before a release half; an
instruction cache that holds a clause. -/
theorem wit_fences :
    let s : State := { world with
      g := { world.g with icPending := [.die, .clu] }
      cores := [(0, { Core.reset with bankMode := [(0, 1), (1, 2)], l1 := [(1, some ⟨1, 0⟩)], icache := [(8, [1])] }),
        (9, { Core.reset with icache := [(8, [1])] })] }
    let a := fun (acq rel : Bool) (sc : Scope) (s : State) => ({ s.g.probe true sc with stamp := s.stamp, acq := acq, rel := rel } : Acc)
    let now := fun (acq rel : Bool) (sc : Scope) (s : State) => fencesDone s.g (a acq rel sc s) && fenceOpen s s.g (a acq rel sc s)
    let late : State := { awaiting with stamp := 9 }
    let stuck : State := { here fun g => { g with accs := [acc1 .store 4 0x4000_0000 (.dram 0x4000_0000 0) 0 .none false (some (9, 5))] } with stamp := 9 }
    Issues al [] s ∧ now true true .clu s = true ∧ s.g.runnel = [] ∧
    ([Instr.fence al .clu, .fenceAcq al .clu].all fun i => given (exec i s) fun t => went s t && (smGet Core.reset t.cores 0).l1 == []) = true ∧
    given (exec (.fence al .team) s) (fun t => (smGet Core.reset t.cores 0).l1 == [(1, some ⟨1, 0⟩)] && t.g.icPending == [.die, .clu]) = true ∧
    given (exec (.fenceRel al .sys) s) (fun t => went s t && t.g.icPending == [] && (smGet Core.reset t.cores 0).icache == []) = true ∧
    now true false .clu late = false ∧ given (exec (.fenceAcq al .clu) late) (fun t => went late t && t.g.accs.map (·.kind) == [.load, .fence]) = true ∧
    (stuck.g.firstHeld (a false true .clu stuck) false).isSome = true ∧
    given (exec (.fenceRel al .clu) stuck) (fun t => t.g.recs.map (fun r => (r.fr.code, r.fr.imprec, r.held)) == [(9, true, some 5)]) = true ∧
    given (exec (.icinv al .grp) s) (fun t => (smGet Core.reset t.cores 0).icache == [] && (smGet Core.reset t.cores 9).icache != []) = true ∧
    given (exec (.icinv al .die) s) (fun t => (smGet Core.reset t.cores 9).icache == []) = true := by
  unfold Issues; decide +kernel

/-! ## Tokens and the shadow mask stack -/

/-- A runnel of n tokens. -/
def full (n : Nat) (g : Group) : Group := { g with runnel := List.replicate n ⟨.sync, VMode.reset, 0, 0, 0⟩ }

/-- TokensAreSent: the count in a register at its highest value, extents, a deposit, a level at depth 15; with 63 and 64 tokens. -/
theorem wit_tokens :
    let s := here fun g => full 63 { g with x := [(1, 0x4000_0100), (2, 65535), (3, 0x0003_0002_0001)], levels := List.replicate 14 ⟨0, 0, false, false, .done none⟩ }
    let f := here fun g => full 64 { g with x := [(1, 0x4000_0100), (2, 65535), (3, 0x0003_0002_0001)] }
    let sent := fun (k : TokKind) (t : State) => t.g.runnel.getLast? == some ⟨k, VMode.reset, 0, 0, 0⟩ && t.g.runnel.length == 64 && went s t
    Issues al [1, 2] s ∧ Issues al [1, 3] s ∧ s.g.runnel.length < 64 ∧ (s.g.readX 2).toNat ≤ 65535 ∧ Aligned (s.g.readX 1) ∧
    (s.g.readX 3).extractLsb' 48 16 = 0 ∧ s.g.levels.length < 15 ∧
    given (exec (.vrun al 1 (.reg 2)) s) (sent (.run 0x4000_0100 65535)) = true ∧
    given (exec (.vrun al 1 (.imm 0)) s) (sent (.run 0x4000_0100 0)) = true ∧
    given (exec (.vwalk al 1 3) s) (sent (.walk 0x4000_0100 1 2 3)) = true ∧
    given (exec (.vput al 63 2 1) s) (sent (.deposit 63 0x10000)) = true ∧
    given (exec (.vmpush al 1 true true 12) s) (fun t => sent (.maskPush 1 true) t && t.g.levels.length == 15 &&
      t.g.levels.head? == some ⟨0, 0x4000_0070, true, false, .notStarted⟩) = true ∧
    64 ≤ f.g.runnel.length ∧
    ([Instr.vrun al 1 (.reg 2), .vwalk al 1 3, .vput al 63 2 1, .vmpush al 1 true true 12, .vsync al, .vget al 1 0 0].all fun i =>
      given (exec i f) fun t => t.g.runnel == f.g.runnel && t.g.block == .runnel && t.g.pos == f.g.pos) = true := by
  unfold Issues Aligned; decide +kernel

/-- The same, the operands that `vrun` and `vwalk` refuse, at the lowest bit of each field; the address before the count. -/
theorem wit_token_faults :
    let s := regs [(1, 0x0100_0000_0000_0000), (2, 65536), (3, 0x4000_0100), (4, 0x0001_0000_0000_0000), (5, 0x4000_0101)]
    ([(Instr.vrun al 1 (.reg 2), (3 : BitVec 8), (0x0100_0000_0000_0000 : Word)), (.vrun al 3 (.reg 2), 3, 65536),
        (.vwalk al 1 4, 3, 0x0100_0000_0000_0000), (.vwalk al 3 4, 3, 0x0001_0000_0000_0000)].all fun p => given (exec p.1 s) (trapped s p.2.1 0 0 p.2.2)) = true ∧
    ([Instr.vrun al 5 (.imm 1), .vwalk al 5 0].all fun i => given (exec i s) (trapped s 7 4 0x4000_0101 0)) = true := by decide +kernel

/-- ShadowStackTransitions: each row of Table 63, depth 1 and depth 16. -/
theorem wit_shadow_stack :
    let s := fun (ls : List Level) => here fun g => { g with levels := ls }
    let l := fun (two : Bool) (o : Other) => s [⟨0, 0x4000_0100, false, two, o⟩]
    let kinds := fun (t : State) => t.g.runnel.map (·.kind)
    (∀ ls, Issues al [] (s ls)) ∧ (s []).g.levels = [] ∧
    ([Instr.vmelse al, .vmpop al].all fun i => given (exec i (s [])) (trapped (s []) 0x12 0 0 1)) = true ∧
    (let f := s (List.replicate 15 ⟨0, 0, false, false, .done none⟩)
     15 ≤ f.g.levels.length ∧ given (exec (.vmpush al 0 false false 0) f) (trapped f 0x12 0 0 16) = true) ∧
    given (exec (.vmelse al) (l true .notStarted)) (trapped (l true .notStarted) 0x12 0 0 2) = true ∧
    given (exec (.vmelse al) (l false .notStarted)) (fun t => kinds t == [.maskInvert] && went world t &&
      t.g.levels == [⟨0, 0x4000_0100, false, true, .done none⟩]) = true ∧
    given (exec (.vmelse al) (l false (.susp 0x4000_0200))) (fun t => kinds t == [.maskInvert] && t.g.pos.hdr == 0x4000_0200) = true ∧
    given (exec (.vmelse al) (l false (.done (some (0x4000_0300, 2))))) (fun t => kinds t == [] && t.g.pos == ⟨0x4000_0300, 0, 2, []⟩) = true ∧
    given (exec (.vmelse al) (l false (.done none))) (fun t => kinds t == [] && went world t) = true ∧
    given (exec (.vmpop al) (l false (.susp 0x4000_0200))) (fun t => t.g.recs.map (·.fr.code) == [0x12]) = true ∧
    given (exec (.vmpop al) (l true (.susp 0x4000_0200))) (fun t => kinds t == [.maskInvert] && t.g.pos.hdr == 0x4000_0200 &&
      t.g.levels == [⟨0, 0x4000_0100, false, false, .done (some (0x4000_0000, 1))⟩]) = true ∧
    given (exec (.vmpop al) (l true (.done none))) (fun t => kinds t == [.maskPop] && t.g.levels == [] && went world t) = true := by
  refine ⟨fun ls => ⟨rfl, by simp⟩, by decide +kernel⟩

/-- SyncAndReturn: a `vsync` and the four forms of `vget`, sent and completed. -/
theorem wit_sync_return :
    let s := fun (b : Block) => here fun g => { g with block := b, flagsLate := 4 }
    Issues al [] (s .none) ∧ Issues al [2] (s (.got 7)) ∧
    given (exec (.vsync al) (s .syncDone)) (fun t => went world t && t.g.flagsDone == 4 && t.g.flagsLate == 0) = true ∧
    given (exec (.vsync al) (s .none)) (fun t => t.g.block == .sync && t.g.epochSent == 1 && t.g.runnel.map (·.kind) == [.sync]) = true ∧
    ([(Instr.vget al 2 5 130, 0), (.vgetB64 al 2 5 130, 1), (.vgetPredicate al 2 0 7, 2), (.vgetMask al 2 0 0, 3)].all fun p =>
      given (exec p.1 (s (.got 7))) (fun t => went world t && t.g.readX 2 == 7 && t.g.flagsDone == 4) &&
      given (exec p.1 (s .none)) (fun t => t.g.runnel.map (·.kind) == [.ret] &&
        (match t.g.block with | .get k _ _ => k == p.2 | _ => false))) = true := by unfold Issues; decide +kernel

/-- The same, fields that a form of `vget` does not use, and an odd register for a pair. -/
theorem wit_return_faults :
    ([(Instr.vgetB64 al 2 0 1, (0x1_0001 : Word)), (.vgetPredicate al 2 1 0, 0x2_0800), (.vgetPredicate al 2 0 8, 0x2_0008), (.vgetMask al 2 1 0, 0x3_0800),
        (.vgetMask al 2 0 1, 0x3_0001)].all fun p => given (exec p.1 world) (trapped world 3 0 0 p.2)) = true := by decide +kernel

/-! ## Futures and engines -/

/-- A command that is none of the fields a test names. -/
def cmd0 : ECmd :=
  { seq := 1, w := ⟨0, 0, 0, 0, 0, 0, 0, 0⟩, bad := false, asid := 0, grid := 0, tokenSide := false, quad := 0, tile := none, cfg := 0
    before := 0, started := false, fin := none, elem := 0, susp := none, waiting := none, cancel := false, block := [], entry := none
    rows := [], res := [], registered := [], regDone := false, turned := [], peers := [], sigma := 0, barNo := 0, forced := false
    host := false, ep := 0, tag := 0, pol := 0, olds := [], holds := none }

/-- Context 0 of the copy engine of quad 0: commands 1 to 3 have ended, in three ways, command 4 is suspended, command 5 waits; x1
to x6 their handles and one that names no context. -/
def engine : State :=
  (regs [(1, 0x4000_0000_0000_0001), (2, 0x4000_0000_0000_0002), (3, 0x4000_0000_0000_0003), (4, 0x4000_0000_0000_0004),
    (5, 0x4000_0000_0000_0005), (6, 0x7F00_0000_0000_0001), (7, 0x0001_0000_0000_0000)]).setCtx (.copy 0 0)
    { EngCtx.reset with
      counter := 3, seq := 5, ends := [(2, .error 0x15), (3, .cancelled)]
      cmds := [{ cmd0 with seq := 4, started := true, susp := some 0x08 }, { cmd0 with seq := 5 }] }

/-- FuturesWaitedTestedCancelled: the null future, a reserved kind, and each end and report of Table 78. -/
theorem wit_futures :
    Issues al [1, 8] engine ∧ Issues al [0] engine ∧ handleRef (engine.g.readX 6) = none ∧
    handleRef (engine.g.readX 3) = some (.copy 0 0, 3) ∧ (engine.ctx (.copy 0 0)).reached 3 = true ∧
    (engine.ctx (.copy 0 0)).reached 4 = false ∧ (engine.ctx (.copy 0 0)).endStat 1 = .completed ∧
    (engine.ctx (.copy 0 0)).endStat 2 = .error 0x15 ∧ (engine.ctx (.copy 0 0)).endStat 3 = .cancelled ∧
    given (exec (.fwait al 0) engine) (went engine) = true ∧
    given (exec (.fwait al 6) engine) (trapped engine 3 0 0 0x7F00_0000_0000_0001) = true ∧
    given (exec (.fwait al 4) engine) (fun t => t.g.block == .future 0x4000_0000_0000_0004 && t.g.pos == engine.g.pos) = true ∧
    given (exec (.fwait al 1) engine) (went engine) = true ∧
    given (exec (.fwait al 2) engine) (waitTrapped engine 0x15 0x4000_0000_0000_0002) = true ∧
    given (exec (.fwait al 3) engine) (waitTrapped engine 0x13 0x4000_0000_0000_0003) = true ∧
    (engine.g.readX 8).extractLsb' 48 16 = 0 ∧ given (exec (.tlwait al 1 8) engine) (went engine) = true ∧
    (engine.g.readX 7).extractLsb' 48 16 ≠ 0 ∧ given (exec (.tlwait al 1 7) engine) (trapped engine 3 0 0 0x0001_0000_0000_0000) = true := by
  unfold Issues; decide +kernel

/-- The same, `ftest` and `fcancel`. -/
theorem wit_futures_test :
    ([(0, 1), (1, 1), (2, 0x1502), (3, 3), (4, 0x0802), (5, 0)].all fun (p : XReg × Word) =>
      given (exec (.ftest al 8 p.1) engine) fun t => t.g.readX 8 == p.2 && went engine t) = true ∧
    (engine.ctx (.copy 0 0)).cmd 4 = some { cmd0 with seq := 4, started := true, susp := some 0x08 } ∧
    given (exec (.ftest al 8 6) engine) (trapped engine 3 0 0 0x7F00_0000_0000_0001) = true ∧
    given (exec (.fcancel al 0) engine) (went engine) = true ∧
    given (exec (.fcancel al 6) engine) (trapped engine 3 0 0 0x7F00_0000_0000_0001) = true ∧
    given (exec (.fcancel al 4) engine) (fun t => went engine t && (t.ctx (.copy 0 0)).counter == 4 &&
      (t.ctx (.copy 0 0)).endStat 4 == .cancelled) = true := by decide +kernel

/-- The same: a started sweep is cancelled row by row, a running launch has its grid terminated, a command that has ended is left alone. -/
theorem wit_futures_cancelled :
    let b := EngineRef.basin 0 1
    let l := EngineRef.launch 0
    let k := { cmd0 with started := true, rows := [5], w := ⟨0x0140_0000_0000_0000, 0, 0, 0, 0, 0, 0, 0⟩ }
    let s0 : State := { ((regs [(1, handleOf b 1), (2, handleOf l 1)]).setCtx b { EngCtx.reset with seq := 1, cmds := [k] }) with
      grids := [(1, some ⟨⟨0, 0, 0, 0, 0, 0, 0, 0⟩, 0, 0, 0, 0, 0, 0, none, false, false⟩)] }
    let s := s0.setCtx l { EngCtx.reset with seq := 1, cmds := [k] }
    handleRef (s.g.readX 1) = some (b, 1) ∧ handleRef (s.g.readX 2) = some (l, 1) ∧ (s.ctx b).cmd 1 = some k ∧ (s.ctx l).cmd 1 = some k ∧
    gridKeyOf 0 1 = 1 ∧
    given (exec (.fcancel al 1) s) (fun t => went s t && (t.ctx b).cmds == [{ k with cancel := true }]) = true ∧
    given (exec (.fcancel al 2) s) (fun t => went s t && t.ctx l == s.ctx l && (smGet none t.grids 1).map (fun g => (g.term, g.cancelled)) == some (true, true)) = true := by
  decide +kernel

/-- PushAnswers: room, and a context of 64 commands; the handle is spec/14's for quad 0. -/
theorem wit_push :
    let s := fun (n : Nat) => (regs [(8, 0x0520_0000_0000_0000)]).setCtx (.copy 0 1)
      { EngCtx.reset with seq := 4, cmds := List.replicate n cmd0 }
    Issues al [8, 9, 10, 11, 12, 13, 14, 15, 20] (s 63) ∧ pushWaits (s 63) (s 63).stamp = false ∧
    (offer 0 ((s 63).g.cmdAt 8) (s 63)).isSome = true ∧ offer 0 ((s 64).g.cmdAt 8) (s 64) = none ∧
    given (exec (.push al 20 8 0 3) (s 63)) (fun t => t.g.readX 20 == 0x4100_0000_0000_0005 && !t.g.readC 3 && went (s 63) t &&
      (t.ctx (.copy 0 1)).cmds.length == 64) = true ∧
    given (exec (.push al 20 8 0 3) (s 64)) (fun t => t.g.readX 20 == 0 && t.g.readC 3 && went (s 64) t) = true := by
  unfold Issues; decide +kernel

/-- PushAnswers: a context of 63 commands and one of 64, and a `resume`. -/
theorem wit_push_room :
    let e := EngineRef.copy 0 1
    let s := fun (w0 : Word) (cs : List ECmd) => (regs [(8, w0), (9, 0x4100_0000_0000_0001)]).setCtx e { EngCtx.reset with seq := 4, cmds := cs }
    let c := fun (n : Nat) => s 0x0520_0000_0000_0000 (List.replicate n cmd0)
    let r := s 0x0920_0000_0000_0000 [{ cmd0 with started := true, susp := some 8 }]
    contextAt 0 ((c 63).g.cmdAt 8) (c 63) = e ∧ ¬isResume 0 ((c 63).g.cmdAt 8) ∧ HasRoom ((c 63).ctx e) ∧ ¬HasRoom ((c 64).ctx e) ∧
    given (exec (.push al 20 8 0 3) (c 63)) (fun t => t.g.readX 20 == handleOf e 5 && (t.ctx e).cmds.getLast?.map (·.seq) == some 5) = true ∧
    isResume 0 (r.g.cmdAt 8) ∧ contextAt 0 (r.g.cmdAt 8) r = e ∧
    given (exec (.push al 20 8 0 3) r) (fun t => t.g.readX 20 == 0 && !t.g.readC 3 && (t.ctx e).seq == 4 && (t.ctx e).cmds.map (·.susp) == [none]) = true := by
  unfold HasRoom isResume; decide +kernel

/-! ## Pages and windows -/

/-- A page of the window of token die T0 at 0x4001_0000, listed at 0x4000_0000; the flag word at 0x4000_0100; x3 a generation. -/
def pages : State :=
  let s := regs [(1, 0x4000_0000), (2, 0x4000_0100), (3, 7)]
  { s with dram := s.dram ++ [(0x4000_0002, 0x01), (0x4000_0003, 0x40)], mgmt := { s.mgmt with win0 := (0x4001_0000, 0x20000) } }

/-- HandoffAndPublish: one page; a list not yet readable, a page held, a page that the token side has, a token die; the checks of a
page at the last page of the window and beside it; a window whose version goes from 1 to 2, and one that is not open. -/
theorem wit_handoff_publish :
    let r := readList pages (pages.g.readX 1) 1
    let tok : State := { pages with owners := [(0x4001, ⟨true, 6⟩)] }
    let die : State := { pages with g := { pages.g with core := 700 } }
    Issues al [1, 2, 3] pages ∧ tokenCore pages.g.core = false ∧ listReady pages 0x4000_0000 1 = true ∧
    errors r.2 = [] ∧ values r.2 = [0x4001] ∧ flagCheck r.1 0x4000_0100 (values r.2) = .ok (.dram 0x4000_0100 0) ∧
    pagesHeld r.1 (values r.2) = false ∧ Released r.1 .pkg ∧
    given (exec (.handoff al 3 1 2 1) pages) (fun t => t.g.pos == pages.g.pos && t.g.block == .flag r.1.stamp && still pages t &&
      t.owners == [(0x4001, ⟨true, 7⟩)] && t.g.accs.map (fun a => (a.stamp, a.kind, a.lanes.map (fun l => (l.va, l.data)))) ==
        [(r.1.stamp, .flagStore, [(0x4000_0100, 7)])]) = true ∧
    (let f := fun (h : Option (BitVec 8 × Word)) => { pages with g := { pages.g with
       block := .flag 5, accs := [acc1 .flagStore 8 0x4000_0100 (.dram 0x4000_0100 0) 7 .none false h] } }
     given (exec (.handoff al 3 1 2 1) { pages with g := { pages.g with block := .flag 5 } }) (went pages) = true ∧
     given (exec (.handoff al 3 1 2 1) (f (some (0x0A, 6)))) (went pages) = true ∧
     given (exec (.handoff al 3 1 2 1) (f none)) (fun t => t.g == (f none).g && still (f none) t) = true) ∧
    given (exec (.handoff al 3 1 2 1) tok) (trapped tok 3 0 0 0x4001_0000) = true ∧
    given (exec (.handoff al 3 1 2 1) die) (trapped die 3 0 0 0) = true ∧
    (accessCheck pages pages.g 0x4001_0000 1 2 ⟨false, false⟩ = .ok (.dram 0x4001_0000 0) ∧ pageCheck pages 0x4001_0000 = .ok 0x4001 ∧
      pageCheck pages 0x4001_0008 = .error [⟨7, 2, 0x4001_0008, 0⟩] ∧ pageCheck pages 0x4003_0000 = .error [⟨3, 0, 0, 0x4003_0000⟩] ∧
      accessCheck pages pages.g 0 1 2 ⟨false, false⟩ = .bad 8 2 ∧ pageCheck pages 0 = .error [⟨8, 2, 0, 2⟩]) ∧
    (let w : Window := ⟨0x0800_0000_0000_0001, 0, 0, 0x100, 1, 0⟩
     let s : State := { world with coll := { Coll.reset with windows := [(255, some w)] }
                                   grids := [(0, some ⟨⟨0, 0, 0, 0, 0, 0, 0, 0⟩, 0x0800_0000_0000_0001, 0, 0, 0, 0, 0, none, false, false⟩)] }
     smGet none s.coll.windows 255 = some w ∧ windowOpenTo s w = true ∧ Released s .sys ∧
     given (exec (.publish al 255) s) (fun t => t.g.pos == s.g.pos.next && t.host == [(0x100, 2)]) = true ∧
     windowOpenTo world w = false ∧ given (exec (.publish al 255) world) (trapped world 3 0 0 255) = true) := by
  unfold Issues Released Unheld; decide +kernel

/-- A `handoff` waits for an earlier store to its list, and goes on past one to another place (R55 case 1, R189). -/
theorem test_handoff_list :
    let s := fun (a : Nat) => { pages with g := { pages.g with accs := [acc1 .store 8 (BitVec.ofNat 64 a) (.dram a 0) 0 .none false none] } }
    given (exec (.handoff al 3 1 2 1) (s 0x4000_0000)) (fun t => t.owners == [] && t.g.block == .release .pkg && t.g.pos == pages.g.pos) = true ∧
    listReady (s 0x4000_0100) 0x4000_0000 1 = true := by decide +kernel

/-- The same: an earlier handoff whose flag store is outstanding keeps its page. -/
theorem wit_handoff_waits :
    let f := { acc1 .flagStore 8 0x4001_0100 (.dram 0x4001_0100 0) 7 .none false none with stamp := 3, scope := .grp }
    let o : Group := { Group.reset with live := true, core := 1, accs := [f] }
    let s : State := { pages with others := [o] }
    listReady s 0x4000_0000 1 = true ∧ Released (readList s 0x4000_0000 1).1 .pkg ∧
    pagesHeld (readList s 0x4000_0000 1).1 [0x4001] = true ∧
    given (exec (.handoff al 3 1 2 1) s) (fun t => t.g.block == .pages [0x4001] && t.owners == [] && t.g.pos == s.g.pos) = true := by
  unfold Released Unheld; decide +kernel

/-! ## Barriers, counters, the matrix engine -/

/-- BarriersAndCounters: an arrival, a completed phase, the cluster barrier, a counter at its value and one short of it. -/
theorem wit_barriers :
    let s := here fun g => { g with x := [(1, 0xFFFF_FFFF), (2, 5)], a := [(7, 5)] }
    let d : State := { s with g := { s.g with block := .bar 15 0 }
                              teams := [(0, { Team.reset with slots := [0], bars := [(15, ⟨1, []⟩)] })] }
    Issues al [] s ∧ Issues al [1] s ∧
    given (exec (.bar al 15) s) (fun t => t.g.block == .bar 15 0 && t.team.bars == [(15, ⟨0, [0]⟩)]) = true ∧
    (smGet Barrier.reset d.team.bars 15).phase ≠ 0 ∧ given (exec (.bar al 15) d) (went d) = true ∧
    (s.cbar 3).2.contains (0, 0) = false ∧
    given (exec (.cbarArr al 3 3) s) (fun t => went s t && t.g.readX 3 == 0 && t.cbar 3 == (0, [(0, 0)])) = true ∧
    (BitVec.ofNat 32 (s.cbar 3).1 - ((s.g.readX 1).truncate 32 + 1)).toNat < 2 ^ 31 ∧
    given (exec (.cbarWait al 1 3) s) (went s) = true ∧
    (smGet 0 s.g.a 7 - ((s.g.readX 2).truncate 32 + 0)).toNat < 2 ^ 31 ∧ given (exec (.await al 7 2 0) s) (went s) = true ∧
    2 ^ 31 ≤ (smGet 0 s.g.a 7 - ((s.g.readX 2).truncate 32 + 1)).toNat ∧
    given (exec (.await al 7 2 1) s) (fun t => t.g.block == .awaitCtr 7 6) = true := by unfold Issues; decide +kernel

/-- The same: a release that a store still keeps holds the arrival of `bar` and not that of `cbar.arr`; a group that has arrived at a cluster barrier. -/
theorem wit_barriers_wait :
    let r := { acc1 .store 4 0x4000_0000 (.dram 0x4000_0000 0) 0 .none false none with rel := true, scope := .clu }
    let s : State := { here fun g => { g with accs := [r] } with stamp := 9 }
    let c : State := { world with clusters := [(0, { Cluster.reset with teams := [0], cbar := [(2, (5, [(0, 0)]))] })] }
    releaseOpen s s.g s.stamp = true ∧ releaseOpen c c.g c.stamp = false ∧ (c.cbar 2).2.contains (0, 0) = true ∧
    given (exec (.bar al 3) s) (fun t => t.g.block == .fences && t.teams == s.teams && t.clusters == s.clusters) = true ∧
    given (exec (.cbarArr al 2 3) s) (fun t => t.g.pos == s.g.pos.next && smGet 0 t.g.cbarAt 3 == 9 && t.cbar 3 == (0, [(0, 0)])) = true ∧
    given (exec (.cbarArr al 4 2) c) (fun t => t.g.block == .cbarArr 2 5 && t.clusters == c.clusters && t.g.pos == c.g.pos) = true := by decide +kernel

/-- MatrixOwnershipAndTiles: the engine free, owned, owned by another; a tile of the team and its control register. -/
theorem wit_matrix_ownership :
    let q := fun (k : Quad) => ({ world with quads := [(0, k)], teams := [(0, { Team.reset with slots := [0], tiles := [9] })] } : State)
    let mine : State := { q { Quad.reset with owner := some (0, 0), queue := [(3, 4), (1, 2)] } with
      others := [{ Group.reset with live := true, core := 1, slot := 2 }] }
    let theirs := q { Quad.reset with owner := some (1, 2) }
    Issues al [] mine ∧ mine.quad.owner = some (mine.g.core, mine.g.slot) ∧ world.quad.owner = none ∧ world.quad.queue = [] ∧
    theirs.quad.owner ≠ some (theirs.g.core, theirs.g.slot) ∧ (theirs.g.core, theirs.g.slot) ∉ theirs.quad.queue ∧
    given (exec (.mxacq al) mine) (fun t => went mine t && t.quads == mine.quads) = true ∧
    given (exec (.mxacq al) world) (fun t => went world t && t.quad.owner == some (0, 0)) = true ∧
    given (exec (.mxacq al) theirs) (fun t => t.g.block == .mx && t.quad.queue == [(0, 0)]) = true ∧
    given (exec (.mxrel al) mine) (fun t => went mine t && t.quad.owner == some (1, 2) && t.quad.queue == [(3, 4)]) = true ∧
    given (exec (.mxrel al) theirs) (trapped theirs 3 0 0 0) = true := by unfold Issues; decide +kernel

/-- The values the next test uses: what R193 calls valid and what it does not. -/
theorem wit_config_valid : ConfigValid 0x0000_0020_0040_0000 ∧ ConfigValid 0x0002_0200_0040_0018 ∧ ¬ConfigValid 0x0000_0020_0041_0000 ∧
    ¬ConfigValid 0x0001_0001_0001_0001 := by unfold ConfigValid; decide

/-- The same, `tcfg`: the largest tiles R193 allows and the values just beyond, a number the team has not. -/
theorem wit_tcfg :
    let s := fun (v : Word) => ({ regs [(1, v)] with teams := [(0, { Team.reset with slots := [0], tiles := [9] })] } : State)
    (s 0).team.tiles[(0 : TileNo).toNat]? = some 9 ∧ (s 0).team.tiles[(1 : TileNo).toNat]? = none ∧
    given (exec (.tcfg al 1 1) (s 0x0000_0001_0001_0000)) (fun t => t.g.recs.map (fun r => (r.fr.code, r.fr.info)) == [(3, 1)]) = true ∧
    ([0x0000_0020_0040_0000#64, 0x0002_0200_0040_0018, 0x0000_0001_0001_0000].all fun v =>
      given (exec (.tcfg al 1 0) (s v)) fun t => went (s v) t && smGet Tile.reset t.quad.tiles 9 == { Tile.reset with ctl := v }) = true ∧
    ([0x0000_0020_0041_0000#64, 0x0000_0001_0000_0000, 0x0000_0001_0201_0018, 0x0001_0001_0001_0001, 0x0003_0001_0001_0018,
        0x0004_0001_0001_0001, 0x0000_0001_0001_0004].all fun v => given (exec (.tcfg al 1 0) (s v)) (trapped (s v) 3 0 0 v)) = true := by
  decide +kernel

/-! ## Vector states -/

/-- An expanded name that holds these lanes. -/
def reg (f : Nat → Lane) : Option VName := some ⟨mkLanes f, false, 1⟩

/-- The world in its second of four vector instructions, on pipe 0, the first two lanes active, with these registers. -/
def vec (vs : SMap (Option VName)) : State :=
  here fun g => { g with
    v := vs, masks := [3]
    runnel := [⟨.run 0x4000_0100 1, VMode.reset, 0, 0, 0⟩]
    vpos := { VPos.reset with begun := true, hdr := 0x4000_0100, n := 3, idx := 1, left := 1, pipe := some 0 } }

/-- One register that its bank can give is stored whatever its value. -/
theorem bind_one (b : State) (born : Nat) (u : State) (d : VReg) (h : canBind u u.g.core u.g.team (d.toNat % 4) = true)
    (ho : olderWaits b born (d.toNat % 4) = false) (ws : List NameWrite) (hw : ws.map Prod.fst = [d]) :
    (bindAll b born ws u).isSome = true := by
  obtain ⟨w, rest, rfl, rfl, hr⟩ := List.map_eq_cons_iff.1 hw
  obtain rfl := List.map_eq_nil_iff.1 hr
  simp only [bindAll, List.foldl, Option.bind, bindOne]
  rw [h, ho]
  simp

/-- A name that is bound and expanded is stored whatever its value. -/
theorem bindOne_kept (b : State) (born : Nat) (w : NameWrite) (s : State) (n : VName) (h : s.g.name w.1 = some n) (hc : n.comp = false) :
    ∃ t, bindOne b born w s = some t ∧ ∀ r, r ≠ w.1 → t.g.name r = s.g.name r := by
  have hk : allocFor s s.g w.1 w.2.1 w.2.2 ≠ .bind := by
    unfold allocFor; rw [h]; simp only [hc]; split
    · contradiction
    · split <;> split <;> exact fun h => by cases h
  refine ⟨s.withG (s.g.store w.1 (allocFor s s.g w.1 w.2.1 w.2.2) s.stamp), ?_, fun r hr => ?_⟩
  · simp only [bindOne]
    cases e : allocFor s s.g w.1 w.2.1 w.2.2 <;> first | rfl | exact absurd e hk
  · have hn : r.toNat ≠ w.1.toNat := fun e => hr (BitVec.eq_of_toNat_eq e)
    cases e : allocFor s s.g w.1 w.2.1 w.2.2
    · rfl
    · simp only [State.withG, Group.store, h]
      split <;> simp only [Group.name, Group.setName, smGet_smPut, hn, if_false]
    · exact absurd e hk

/-- Two bound, expanded names are stored whatever their values. -/
theorem bind_pair (b : State) (born : Nat) (u : State) (d e : VReg) (hne : e ≠ d) (n m : VName) (h : u.g.name d = some n) (hc : n.comp = false)
    (h' : u.g.name e = some m) (hc' : m.comp = false) (ws : List NameWrite) (hw : ws.map Prod.fst = [d, e]) :
    (bindAll b born ws u).isSome = true := by
  obtain ⟨x, rest, rfl, rfl, hr⟩ := List.map_eq_cons_iff.1 hw
  obtain ⟨y, last, rfl, rfl, hl⟩ := List.map_eq_cons_iff.1 hr
  obtain rfl := List.map_eq_nil_iff.1 hl
  obtain ⟨t, ht, hk⟩ := bindOne_kept b born x u n h hc
  obtain ⟨w, hu, -⟩ := bindOne_kept b born y t m (by rw [hk y.1 hne]; exact h') hc'
  simp only [bindAll, List.foldl, Option.bind, ht, hu, Option.isSome]

/-- Nothing to store. -/
theorem bind_none (b : State) (born : Nat) (u : State) (ws : List NameWrite) (hw : ws.map Prod.fst = []) : (bindAll b born ws u).isSome = true := by
  rw [List.map_eq_nil_iff] at hw
  subst hw
  rfl

/-- A result that waits for a register until a cycle, with its value in the first two lanes. -/
def waits (d : VReg) (ready : Nat) (x y : Lane) (t : State) : Bool :=
  t.g.pend.any fun p => (match p.dest with | .reg r _ => r == d | .pred _ => false) && p.ready == ready && p.mask == 3 &&
    lane p.val 0 == x && lane p.val 1 == y

/-- The same for a predicate. -/
def waitsP (q : BitVec 3) (ready : Nat) (x y : Bool) (t : State) : Bool :=
  t.g.pend.any fun p => p.dest == .pred q && p.ready == ready && p.mask == 3 && p.val.getLsbD 0 == x && p.val.getLsbD 1 == y

/-- The slice stands at the next instruction of its clause, with its accesses, records and bytes as before. -/
def passed (s t : State) : Bool := t.g.vpos.idx == 2 && t.g.vnow == 2 && t.g.accs == s.g.accs && t.g.recs == [] && still s t

/-! ## Fixed-latency vector instructions -/

/-- Two registers with a small number and a negative one, one for results. -/
def ints : State := vec [(1, reg fun n => if n = 0 then 7 else -3), (2, reg fun n => if n = 0 then 3 else 2), (3, reg fun _ => 5), (4, reg fun _ => 0), (5, reg fun _ => 0)]

/-- FixedLatencyInstructions: a source never written under checking, a zero mask, an instruction that issues. -/
theorem wit_fixed :
    let i : Instr := .xorB32 c0 4 (.v 1) (.v 6)
    let v := iForm c0 false 4 (.v 1) (.v 6)
    let chk : State := { ints with g := { ints.g with runnel := [⟨.run 0x4000_0100 1, { VMode.reset with chk := 2 }, 0, 0, 0⟩] } }
    let z : State := { ints with g := { ints.g with masks := [0] } }
    fixedOf i = some (v, 4) ∧ lowest (v.env chk).bad = some ⟨5, 3, 0, 0, 6⟩ ∧
    given (exec i chk) (fun t => t.g.recs.map (fun r => (r.fr.code, r.fr.orig, r.fr.lanes, r.fr.info)) == [(5, 1, 3, 6)] && t.g.vpos.idx == 1 &&
      t.g.vpos.pipe == none) = true ∧
    (v.env z).bad = [] ∧ (v.env z).m = 0 ∧ given (exec i z) (fun t => t.g.pend == [] && t.g.v == z.g.v && passed z t) = true ∧
    (v.env ints).bad = [] ∧ (v.env ints).m = 3 ∧ given (exec i ints) (fun t => waits 4 4 7 (-3) t && passed ints t) = true := by decide +kernel

/-- The last clause of FixedLatencyInstructions, and `Room` of every statement below whose instruction writes v4. -/
theorem wit_room : Room (iForm c0 false 4 (.v 1) (.v 2)) ints ∧ Room (uForm c0 4 (.v 1)) ints ∧ Room (dForm c0 4) ints ∧
    Room (tForm c0 4 (.v 1) (.v 2) (.v 3)) ints ∧ Room { dForm c0 0 with preds := [1], dests := [] } ints ∧
    Room { uForm c0 4 (.v 2) with a := some ⟨.v 2, true⟩, dests := [4, 5] } ints := by
  refine ⟨bind_one _ _ _ 4 ?_ ?_, bind_one _ _ _ 4 ?_ ?_, bind_one _ _ _ 4 ?_ ?_, bind_one _ _ _ 4 ?_ ?_, bind_none _ _ _,
    bind_pair _ _ _ 4 5 (by decide) ⟨mkLanes fun _ => 0, false, 1⟩ ⟨mkLanes fun _ => 0, false, 1⟩ ?_ rfl ?_ rfl⟩ <;>
    decide +kernel

/-- ResultsLandAfterTheirLatency: the cycle before a result lands and the cycle it lands; LAST frees. -/
theorem wit_landing :
    let p : PendWrite := ⟨4, .reg 1 1, 1, mkLanes fun _ => 9, mkLanes fun _ => 8, 0⟩
    let g := { ints.g with pend := [p] }
    let l : VForm := iForm { c0 with lastA := true } false 4 (.v 1) (.v 2)
    g.bindOf 1 = some 1 ∧ p.ready ≤ 4 ∧ (g.landBy 4).pend = [] ∧ lane ((g.landBy 4).readV 1) 0 = 9 ∧ lane ((g.landBy 4).readV 1) 1 = -3 ∧
    3 < p.ready ∧ g.landBy 3 = g ∧ lane (g.seenV 1) 0 = 8 ∧ freed l = [1] ∧ (l.start ints).g.readV 1 = 0 ∧
    lane ((l.start ints).g.readV 2) 0 = 3 := by decide +kernel

/-- IntegerArithmetic: `.s32` at the ends of its range, saturated, and packed. -/
theorem wit_integer :
    let s := vec [(1, reg fun n => if n = 0 then 0x7FFF_FFFF else -3), (2, reg fun n => if n = 0 then 1 else 2), (3, reg fun _ => 5)]
    let p := vec [(1, reg fun n => if n = 0 then 0x7FFF_8000 else 0x0001_0002), (2, reg fun n => if n = 0 then 0x0001_FFFF else 0x0003_0004)]
    let r := fun (i : Instr) (x y : Lane) => given (exec i s) fun t => waits 4 4 x y t && passed s t && t.g.flagsLate == 0
    ((iForm c0 false 4 (.v 1) (.v 2)).env s).bad = [] ∧ ((iForm c0 false 4 (.v 1) (.v 2)).env s).m ≠ 0 ∧
    r (.add c0 .s32 false 4 (.v 1) (.v 2)) 0x8000_0000 (-1) = true ∧ r (.sub c0 .s32 false 4 (.v 1) (.v 2)) 0x7FFF_FFFE (-5) = true ∧
    r (.mul c0 .s32 4 (.v 1) (.v 2)) 0x7FFF_FFFF (-6) = true ∧ r (.mulhi c0 .s32 4 (.v 1) (.v 2)) 0 (-1) = true ∧
    r (.mulhi c0 .n32 4 (.v 1) (.v 2)) 0 1 = true ∧ r (.min c0 .s32 4 (.v 1) (.v 2)) 1 (-3) = true ∧
    r (.max c0 .n32 4 (.v 1) (.v 2)) 0x7FFF_FFFF (-3) = true ∧ r (.mad c0 .n32 4 (.v 1) (.v 2) (.v 3)) 0x8000_0004 (-1) = true ∧
    given (exec (.add c0 .s32 true 4 (.v 1) (.v 2)) s) (fun t => waits 4 4 0x7FFF_FFFF (-1) t && t.g.flagsLate == 0x80) = true ∧
    given (exec (.add c0 .s16x2 true 4 (.v 1) (.v 2)) p) (fun t => waits 4 4 0x7FFF_8000 0x0004_0006 t && t.g.flagsLate == 0x80) = true ∧
    given (exec (.sub c0 .n16x2 false 4 (.v 1) (.v 2)) p) (waits 4 4 0x7FFE_8001 0xFFFE_FFFE) = true := by decide +kernel

/-- BitAndMoveResults: shifts by 32 and by 2, a field that reaches past the top, an immediate below zero. -/
theorem wit_bits :
    let s := vec [(1, reg fun n => if n = 0 then 0x8000_0F0F else 0xFFFF_FFF0), (2, reg fun n => if n = 0 then 32 else 2), (3, reg fun n => if n = 0 then 4 else 40),
      (4, reg fun _ => 0), (5, reg fun _ => 0), (6, reg fun n => if n = 0 then 28 else 4)]
    let r := fun (i : Instr) (x y : Lane) => given (exec i s) fun t => waits 4 4 x y t && passed s t
    ((tForm c0 4 (.v 1) (.v 6) (.v 3)).env s).bad = [] ∧ ((tForm c0 4 (.v 1) (.v 6) (.v 3)).env s).m ≠ 0 ∧
    r (.andB32 c0 4 (.v 1) (.v 2)) 0 0 = true ∧ r (.orB32 c0 4 (.v 1) (.v 2)) 0x8000_0F2F 0xFFFF_FFF2 = true ∧
    r (.xorB32 c0 4 (.v 1) (.v 2)) 0x8000_0F2F 0xFFFF_FFF2 = true ∧ r (.andnB32 c0 4 (.v 1) (.v 2)) 0x8000_0F0F 0xFFFF_FFF0 = true ∧
    r (.shlB32 c0 4 (.v 1) (.v 2)) 0 0xFFFF_FFC0 = true ∧ r (.shrN32 c0 4 (.v 1) (.v 2)) 0 0x3FFF_FFFC = true ∧
    r (.shrS32 c0 4 (.v 1) (.v 2)) 0xFFFF_FFFF 0xFFFF_FFFC = true ∧ r (.popcB32 c0 4 (.v 1)) 9 28 = true ∧
    r (.clzB32 c0 4 (.v 2)) 26 30 = true ∧ r (.clzB32 c0 4 (.v 5)) 32 32 = true ∧ r (.movB32 c0 4 (.v 1)) 0x8000_0F0F 0xFFFF_FFF0 = true ∧
    given (exec (.bfeN32 c0 4 (.v 1) (.v 6) (.v 3)) s) (waits 4 4 8 0x0FFF_FFFF) = true ∧
    given (exec (.bfeS32 c0 4 (.v 1) (.v 6) (.v 3)) s) (waits 4 4 0xFFFF_FFF8 0xFFFF_FFFF) = true ∧
    r (.moviB32 c0 4 0x1F_FFFE) (-2) (-2) = true ∧ r (.laneid c0 4) 0 1 = true ∧
    given (exec (.selB32 c0 1 4 (.v 1) (.v 2)) { s with g := { s.g with p := [(1, 2)] } }) (waits 4 4 32 0xFFFF_FFF0) = true ∧
    given (exec (.movB64 c0 4 (.v 2)) s) (fun t => waits 4 4 32 2 t && waits 5 4 4 40 t) = true := by decide +kernel

/-- FloatArithmetic: 1.5 and 2.25 in one lane, 0 and an infinity in the other (R101), in `.f32`. -/
theorem wit_float :
    let s := vec [(1, reg fun n => if n = 0 then 0x3FC0_0000 else 0), (2, reg fun n => if n = 0 then 0x4010_0000 else 0x7F80_0000), (3, reg fun n => if n = 0 then 0x3F80_0000 else 0)]
    let m : FMods := ⟨.dyn, ⟨false, false, false, false⟩⟩
    let r := fun (i : Instr) (x y : Lane) (f : Word) => given (exec i s) fun t => waits 4 6 x y t && passed s t && t.g.flagsLate == f
    ((fForm c0 .f32 4 (.v 1) (.v 2)).env s).bad = [] ∧ ((fForm c0 .f32 4 (.v 1) (.v 2)).env s).m ≠ 0 ∧
    r (.fadd c0 .f32 m 4 (.v 1) (.v 2)) 0x4070_0000 0x7F80_0000 0 = true ∧ r (.fsub c0 .f32 m 4 (.v 1) (.v 2)) 0xBF40_0000 0xFF80_0000 0 = true ∧
    r (.fmul c0 .f32 m 4 (.v 1) (.v 2)) 0x4058_0000 0x7FC0_0000 1 = true ∧
    r (.ffma c0 .f32 m 4 (.v 1) (.v 2) (.v 3)) 0x408C_0000 0x7FC0_0000 1 = true ∧
    r (.fmin c0 .f32 m.src 4 (.v 1) (.v 2)) 0x3FC0_0000 0 0 = true ∧ r (.fmax c0 .f32 m.src 4 (.v 1) (.v 2)) 0x4010_0000 0x7F80_0000 0 = true ∧
    r (.fclass c0 .f32 true false 4 (.v 1)) 2 8 0 = true := by decide +kernel

/-- The same, the unary functions at arguments whose results are exact, and 1/0 (R223). -/
theorem wit_float_unary :
    let s := vec [(1, reg fun n => if n = 0 then 0x4080_0000 else 0)]
    let r := fun (i : Instr) (x y : Lane) (f : Word) => given (exec i s) fun t => waits 4 14 x y t && t.g.flagsLate == f
    r (.frcp c0 .f32 .dyn false false 4 (.v 1)) 0x3E80_0000 0x7F80_0000 2 = true ∧
    r (.frsq c0 .f32 .dyn false false 4 (.v 1)) 0x3F00_0000 0x7F80_0000 2 = true ∧
    r (.fsqrt c0 .f32 .dyn false false 4 (.v 1)) 0x4000_0000 0 0 = true ∧
    r (.fexp2 c0 .f32 .dyn false false 4 (.v 1)) 0x4180_0000 0x3F80_0000 0 = true ∧
    r (.flog2 c0 .f32 .dyn false false 4 (.v 1)) 0x4000_0000 0xFF80_0000 2 = true := by decide +kernel

/-- The same, sine and cosine of 0. -/
theorem wit_float_circular :
    let s := vec [(1, reg fun _ => 0)]
    given (exec (.fsin c0 .f32 .dyn false false 4 (.v 1)) s) (waits 4 14 0 0) = true ∧
    given (exec (.fcos c0 .f32 .dyn false false 4 (.v 1)) s) (waits 4 14 0x3F80_0000 0x3F80_0000) = true := by decide +kernel

/-- PredicateResults: each condition in one lane and a NaN in the other, packed `cmp`, the votes. -/
theorem wit_predicates :
    let s := vec [(1, reg fun n => if n = 0 then 0x3FC0_0000 else 0x7FC0_0000), (2, reg fun _ => 0x4010_0000)]
    let m : SMods := ⟨false, false, false, false⟩
    let p : State := { s with g := { s.g with p := [(1, 2)] } }
    let v : VForm := { dForm c0 0 with preds := [1], dests := [] }
    let f := fun (c : FCond) (x y : Bool) (fl : Word) => given (exec (.fcmp c0 .f32 m c 3 (.v 1) (.v 2)) s) fun t =>
      waitsP 3 6 x y t && passed s t && t.g.flagsLate == fl
    ((iForm c0 false 0 (.v 1) (.v 2)).env s).bad = [] ∧ (v.env p).bad = [] ∧ (v.env p).m ≠ 0 ∧
    f .eq false false 0 = true ∧ f .ne true true 0 = true ∧ f .lt true false 1 = true ∧ f .le true false 1 = true ∧ f .gt false false 1 = true ∧
    f .ge false false 1 = true ∧ f .ord true false 0 = true ∧ f .uno false true 0 = true ∧
    given (exec (.cmp c0 .s32 .lt 3 (.v 1) (.v 2)) s) (waitsP 3 4 true false) = true ∧
    given (exec (.cmp c0 .s16x2 .eq 2 (.v 1) (.v 2)) s) (fun t => waitsP 2 4 true true t && waitsP 3 4 false false t) = true ∧
    given (exec (.voteAny c0 3 1 false) p) (waitsP 3 8 true true) = true ∧ given (exec (.voteAll c0 3 1 false) p) (waitsP 3 8 false false) = true ∧
    given (exec (.voteEq c0 3 1 false) p) (waitsP 3 8 false false) = true ∧ given (exec (.voteAll c0 3 7 false) p) (waitsP 3 8 true true) = true := by
  decide +kernel

/-- PackedAndConverted: Table 90's lane of `acs.h2`, saturation of `cvt`, `pack4` and `unpack4`. -/
theorem wit_packed :
    let s := vec [(1, reg fun n => if n = 0 then 0x0014_000A else 0xFFFF_0000), (2, reg fun n => if n = 0 then 0x0005_0007 else 0x0001_0001),
      (3, reg fun n => if n = 0 then 0x4F80_0000 else 0xC020_0000), (4, reg fun _ => 0x0010_FFFF), (5, reg fun _ => 0x0001_000F)]
    ((iForm c0 false 6 (.v 1) (.v 2)).env s).bad = [] ∧
    given (exec (.acsH2 c0 1 6 (.v 1) (.v 2)) s) (fun t => waits 6 4 0x000F_0011 0x0001_0001 t && waitsP 2 4 false false t && waitsP 3 4 false false t &&
      t.g.flagsLate == 0x80) = true ∧
    given (exec (.cvt c0 .s32 .f32 .rz 6 (.v 3)) s) (waits 6 6 0x7FFF_FFFF (-2)) = true ∧
    given (exec (.cvt c0 .n8 .s32 .dyn 6 (.v 1)) s) (fun t => waits 6 6 0xFF 0 t && t.g.flagsLate == 0x80) = true ∧
    given (exec (.cvt c0 .f32 .s32 .dyn 6 (.v 5)) s) (waits 6 6 0x4780_0780 0x4780_0780) = true ∧
    given (exec (.pack4 c0 6 (.v 4) (.v 5) (.v 4) (.v 5)) s) (fun t => waits 6 6 0x1FF0_1FF0 0x1FF0_1FF0 t && t.g.flagsLate == 0x80) = true ∧
    given (exec (.unpack4 c0 1 6 (.v 2)) s) (waits 6 6 0 0) = true ∧
    given (exec (.unpack4 c0 0 6 (.v 2)) s) (waits 6 6 7 1) = true := by decide +kernel

/-- LanesExchanged and TileReductions: tiles of two lanes. -/
theorem wit_tiles :
    let s0 := vec [(1, reg fun n => if n = 0 then 5 else -3), (2, reg fun n => if n = 0 then 1 else 0)]
    let s : State := { s0 with g := { s0.g with runnel := [⟨.run 0x4000_0100 1, { VMode.reset with part := 1 }, 0, 0, 0⟩], p := [(1, 2)] } }
    let r := fun (i : Instr) (lat : Nat) (x y : Lane) => given (exec i s) fun t => waits 4 lat x y t && passed s t
    ((uForm c0 4 (.v 1)).env s).bad = [] ∧ ((fixedOf.shflForm c0 4 (.v 1) (.reg (.v 2))).env s).bad = [] ∧
    r (.shflIdx c0 4 (.v 1) (.reg (.v 2))) 6 (-3) 5 = true ∧ r (.shflUp c0 4 (.v 1) (.imm 1)) 6 5 5 = true ∧
    r (.shflDown c0 4 (.v 1) (.imm 1)) 6 (-3) (-3) = true ∧ r (.shflXor c0 4 (.v 1) (.imm 31)) 6 (-3) 5 = true ∧
    r (.bflyLo c0 0 4 (.v 1) (.v 2)) 6 5 1 = true ∧ r (.bflyHi c0 0 4 (.v 1) (.v 2)) 6 (-3) 0 = true ∧ r (.bflyLo c0 1 4 (.v 1) (.v 2)) 6 5 (-3) = true ∧
    r (.redtAdd c0 .s32 .dyn 4 (.v 1)) 8 2 2 = true ∧ r (.redtMin c0 .s32 .dyn 4 (.v 1)) 8 (-3) (-3) = true ∧
    r (.redtMax c0 .n32 .dyn 4 (.v 1)) 8 (-3) (-3) = true ∧ r (.redtAnd c0 .n32 .dyn 4 (.v 1)) 8 5 5 = true ∧
    r (.redtOr c0 .n32 .dyn 4 (.v 1)) 8 (-3) (-3) = true ∧ r (.redtXor c0 .n32 .dyn 4 (.v 1)) 8 (-8) (-8) = true ∧
    r (.matchLanes c0 false 4 (.v 1)) 8 1 2 = true ∧ r (.voteBallot c0 4 1 false) 8 2 2 = true := by decide +kernel

/-! ## Variable-latency vector instructions -/

/-- A word made of an address and four times or eight times a lane number. -/
def lo (x k : Nat) : Option VName := reg fun n => BitVec.ofNat 32 (x + k * n)

/-- The pairs at v10, v12, v14, v16, v18: addresses in mapped memory, in the team's scratch bank, at its FIFO bank, misaligned, with
no translation; v20 to v23 and v27 hold numbers. -/
def vmem : State :=
  vec [(10, lo 0x4000_0100 8), (11, lo 0 0), (12, lo 0 8), (13, lo 0x00FF_FF00 0), (14, lo 0x8000 0), (15, lo 0x00FF_FF00 0),
    (16, lo 0x4000_0101 8), (17, lo 0 0), (18, lo 0x4000 8), (19, lo 0 0), (20, lo 7 1), (21, lo 0x90 1), (22, lo 0 0), (23, lo 0 0), (27, lo 5 0)]

/-- Counted in slot 2. -/
def c2 : VCtl := { c0 with wset := 2 }

/-- The slice is past the instruction, and these are its accesses: kind, width, lanes with address, place and data. -/
def joined (s : State) (kind : AccKind) (w : Nat) (ls : List (Nat × Word × Loc × Word)) (t : State) : Bool :=
  t.g.vpos.idx == 2 && t.g.vnow == 2 && t.g.recs == [] && still s t &&
    t.g.accs.map (fun a => (a.kind, a.w, a.ctl, a.mask, a.lanes.map fun l => (l.lane, l.va, l.loc, l.data))) == [(kind, w, false, 3, ls)]

/-- What holds of the first two lanes holds of every active lane when no other is active. -/
theorem passes_of (e : VEnv) (va : Nat → Word) (w : Nat) (acc : BitVec 4) (fifo window : Bool) (L : Nat → Loc) (hm : e.m = 3)
    (h0 : laneCheck e.base (va 0) w acc ⟨fifo, window⟩ = .ok (L 0)) (h1 : laneCheck e.base (va 1) w acc ⟨fifo, window⟩ = .ok (L 1)) :
    Passes e va w acc fifo window L := by
  intro n hn
  have hm' : e.m = 3#32 := hm
  rw [hm'] at hn
  match n with
  | 0 => exact h0
  | 1 => exact h1
  | n + 2 =>
    exfalso
    have : (3#32).getLsbD (n + 2) = false := by
      show (3 : Nat).testBit (n + 2) = false
      simp [Nat.testBit_succ]
    rw [this] at hn
    exact absurd hn (by decide)

/-- An incomplete release fence of the vector slice. -/
def rfence : Acc := { acc1 .fence 0 0 (.sram 0) 0 .none false none with ctl := false, rel := true, lanes := [] }

/-- VectorMemoryHoldsAndFaults: slot 2 with 62 and with 63 instructions, an incomplete fence, a zero mask, a source never written under
a mask that is not zero, alone and beside a lane that would fault with a lower code. -/
theorem wit_vector_memory :
    let s := fun (n : Nat) => ({ vmem with g := { vmem.g with accs := List.replicate n { acc1 .load 4 0 (.sram 0) 0 .none false none with ctl := false, wset := 2 } } } : State)
    let z : State := { vmem with g := { vmem.g with masks := [0] } }
    let chk := fun (s : State) => ({ s with g := { s.g with runnel := [⟨.run 0x4000_0100 1, { VMode.reset with chk := 2 }, 0, 0, 0⟩] } } : State)
    let fenced : State := { vmem with g := { vmem.g with accs := [rfence] } }
    let i : Instr := .ld c2 .b32 20 (.v 10) 0
    let n : Instr := .ld { c0 with wset := 0 } .b32 20 (.v 10) 0
    let v := mForm c2 (.v 10) none none none [20]
    let st := fun (a b : VSrc) => (storeForm c2 false b a 0 4 true false .grp).form
    let held := fun (s t : State) => t.g == { s.g with vnow := s.g.vnow + 1 } && still s t
    let took := fun (i : Instr) (s : State) (c l a w : Nat) => given (exec i s) fun t => t.g.accs == [] && still s t &&
      t.g.recs.map (fun r => (r.fr.code.toNat, r.fr.lanes.toNat, r.fr.acc.toNat, r.fr.info.toNat)) == [(c, l, a, w)]
    memOf i = some ⟨v, 0, 4, 1, true, true⟩ ∧ ¬SlotFree v (s 63) ∧ SlotFree v (s 62) ∧ Unfenced v (s 62) ∧ ¬Unfenced v fenced ∧
    given (exec i (s 63)) (held (s 63)) = true ∧ given (exec i fenced) (held fenced) = true ∧
    given (exec i (s 62)) (fun t => t.g.accs.length == 63 && t.g.vpos.idx == 2) = true ∧
    (v.env z).m = 0 ∧ (v.env z).bad = [] ∧ given (exec i z) (fun t => t.g.vpos.idx == 2 && t.g.accs.map (fun a => (a.kind, a.wset, a.lanes)) == [(.zeroMask, 2, [])]) = true ∧
    given (exec n z) (fun t => t.g.vpos.idx == 2 && t.g.accs == []) = true ∧
    lowest ((mForm c2 (.v 30) none none none [20]).env (chk z)).bad = some ⟨5, 0, 0, 0, 30⟩ ∧ took (.ld c2 .b32 20 (.v 30) 0) (chk z) 5 0 0 30 = true ∧
    lowest ((st (.v 10) (.v 30)).env (chk vmem)).bad = some ⟨5, 3, 0, 0, 30⟩ ∧ took (.st c2 .b32 (.v 30) (.v 10) 0) (chk vmem) 5 3 0 30 = true ∧
    took (.st c2 .b32 (.v 30) (.v 16) 0) (chk vmem) 5 3 0 30 = true := by
  refine ⟨rfl, ?_⟩; unfold SlotFree Unfenced; decide +kernel

/-- The same, faults of the lanes: both misaligned, for a load, a store, a reduction, an atomic and a deferred addition; one misaligned
and one with no translation, the lower code in the higher lane; a table bank that is no scratch bank, and one that is. -/
theorem wit_vector_lane_faults :
    let m : State := { vmem with g := { vmem.g with v := vmem.g.v ++ [(40, reg fun n => if n = 0 then 0x4000 else 0x4000_0101), (41, reg fun _ => 0)] } }
    let e := (mForm c2 (.v 40) none none none [20]).env m
    let took := fun (i : Instr) (s : State) (c l a x w : Nat) => given (exec i s) fun t => t.g.accs == [] && still s t &&
      t.g.recs.map (fun r => (r.fr.code.toNat, r.fr.lanes.toNat, r.fr.acc.toNat, r.fr.addr.toNat, r.fr.info.toNat)) == [(c, l, a, x, w)]
    let q := fun (n : Nat) (s : State) => ({ s with g := { s.g with runnel := [⟨.run 0x4000_0100 1, { VMode.reset with qtab := BitVec.ofNat 64 n, chk := 2 }, 0, 0, 0⟩] } } : State)
    let v : VForm := { c := c2, a := some ⟨.v 20, false⟩, b := some ⟨.v 21, false⟩, x := none, e := none, preds := [], dests := [22] }
    let z : State := { vmem with g := { vmem.g with masks := [0] } }
    ([(Instr.ld c2 .b32 20 (.v 16) 0, 1), (.st c2 .b32 (.v 20) (.v 16) 0, 2), (.redAdd c2 false .pkg .s32 (.v 16) (.v 20), 3),
        (.atomAdd c2 .rlx .grp .n32 22 (.v 16) (.v 20), 3), (.redDefer c2 .f32 (.v 16) (.v 20), 3)].all fun p =>
      took p.1 vmem 7 3 p.2 0x4000_0101 0) = true ∧
    laneCheck e.base (addrOf e 0 0) 4 1 ⟨true, true⟩ = .bad 8 2 ∧ laneCheck e.base (addrOf e 0 1) 4 1 ⟨true, true⟩ = .bad 7 0 ∧
    took (.ld c2 .b32 20 (.v 40) 0) m 7 2 1 0x4000_0101 0 = true ∧
    ¬Tabled (v.env (q 0x8000 vmem)) vmem ∧ Tabled (v.env (q 0 vmem)) vmem ∧
    took (.q8t c2 0 22 (.v 20) (.v 21)) (q 0x8000 vmem) 3 3 0 0 0x8000 = true ∧ took (.q8t c2 0 22 (.v 30) (.v 21)) (q 0 vmem) 5 3 0 0 30 = true ∧
    (v.env z).m = 0 ∧ given (exec (.q8t c2 0 22 (.v 20) (.v 21)) z) (fun t => t.g.accs.map (fun a => (a.kind, a.lanes)) == [(.zeroMask, [])]) = true := by
  unfold Tabled; decide +kernel

/-- VectorLoadsIssue: DRAM, scratch, the FIFO bank, the turned and the acquire forms; the last byte and the first of an offset. -/
theorem wit_vector_loads :
    let v := mForm c2 (.v 10) none none none [20]
    let p := mForm c2 (.v 14) none none none [20]
    let d := fun (o : Nat) (n : Nat) => Loc.dram (0x4000_0100 + o + 8 * n) 0
    let got := fun (i : Instr) (k : AccKind) (w o : Nat) => given (exec i vmem) fun t =>
      joined vmem k w [(0, BitVec.ofNat 64 (0x4000_0100 + o), d o 0, 0), (1, BitVec.ofNat 64 (0x4000_0108 + o), d o 1, 0)] t
    MemReady v vmem ∧ MemReady p vmem ∧ (v.env vmem).m ≠ 0 ∧ Passes (v.env vmem) (addrOf (v.env vmem) 0) 4 1 true true (d 0) ∧
    Passes (p.env vmem) (addrOf (p.env vmem) 0) 4 1 true true (fun _ => .fifo 0 1) ∧
    (bindAll (v.env vmem).base (v.env vmem).born [((20, (v.env vmem).m, none) : NameWrite)] (v.start vmem)).isSome = true ∧
    got (.ld c2 .s8 20 (.v 10) 0) .load 1 0 = true ∧ got (.ld c2 .n16 20 (.v 10) 2) .load 2 2 = true ∧ got (.ld c2 .b64 20 (.v 10) 8) .load 8 8 = true ∧
    got (.ldTurn c2 false 20 (.v 10) 0) .turn 4 0 = true ∧ got (.ldTurn c2 true 20 (.v 10) 0) .turn 8 0 = true ∧
    given (exec (.ldAcq c2 true .die 20 (.v 10) 0) vmem) (fun t => t.g.accs.map (fun a => (a.kind, a.w, a.acq, a.scope)) == [(.load, 8, true, .die)]) = true ∧
    given (exec (.ld c2 .b32 20 (.v 10) 0x3_FFFC) vmem) (fun t => t.g.accs.map (fun a => a.lanes.map (·.va)) == [[0x4000_00FC, 0x4000_0104]]) = true ∧
    given (exec (.ld c2 .b32 20 (.v 12) 4) vmem) (joined vmem .load 4 [(0, 0x00FF_FF00_0000_0004, .sram 4, 0), (1, 0x00FF_FF00_0000_000C, .sram 12, 0)]) = true ∧
    given (exec (.ld c2 .b32 20 (.v 14) 0) vmem) (fun t => t.g.accs.map (fun a => (a.kind, a.acq, a.scope)) == [(.fifoPop, true, .clu)]) = true := by
  refine ⟨?_, ?_, ?_, passes_of _ _ _ _ _ _ _ ?_ ?_ ?_, passes_of _ _ _ _ _ _ _ ?_ ?_ ?_, ?_⟩ <;>
    (try unfold MemReady Ready SlotFree Unfenced) <;> decide +kernel

/-- The same: an older stalled group of the core is served first. -/
theorem wit_vector_stall :
    let s : State := { vmem with stamp := 5, others := [{ Group.reset with live := true, slot := 1, stall := some (4, [2]) }] }
    let v := mForm c2 (.v 10) none none none [26]
    bindAll (v.env s).base (v.env s).born [((26, (v.env s).m, none) : NameWrite)] (v.start s) = none ∧
    given (exec (.ld c2 .b32 26 (.v 10) 0) s) (fun t => t.g.vpos.pipe == none && t.g.vpos.idx == 1 && t.g.accs == [] && t.g.stall == some (5, [2]) &&
      still s t) = true := by
  decide +kernel

/-- VectorStoresIssue: the stores, a push, the reductions, the deferred addition, in mapped memory and scratch. -/
theorem wit_vector_stores :
    let f := storeForm c2 false (.v 20) (.v 10) 0 4 true false .grp
    let p := storeForm c2 false (.v 20) (.v 14) 0 4 true false .grp
    let d := fun (o : Nat) (n : Nat) => Loc.dram (0x4000_0100 + o + 8 * n) 0
    let put := fun (i : Instr) (k : AccKind) (w o : Nat) (x y : Word) => given (exec i vmem) fun t =>
      joined vmem k w [(0, BitVec.ofNat 64 (0x4000_0100 + o), d o 0, x), (1, BitVec.ofNat 64 (0x4000_0108 + o), d o 1, y)] t
    let held := { acc1 .store 4 0x4000_0000 (.dram 0x4000_0000 0) 0 .none false (some (9, 5)) with ctl := false }
    let h : State := { vmem with stamp := 9, g := { vmem.g with accs := [held] } }
    MemReady f.form vmem ∧ MemReady p.form vmem ∧ VUnheld (f.form.env vmem) ∧ (f.form.env vmem).m ≠ 0 ∧ MemReady f.form h ∧
    Passes (f.form.env vmem) (addrOf (f.form.env vmem) 0) 4 2 true true (d 0) ∧ Passes (p.form.env vmem) (addrOf (p.form.env vmem) 0) 4 2 true true (fun _ => .fifo 0 1) ∧
    put (.st c2 .b8 (.v 20) (.v 10) 1) .store 1 1 7 8 = true ∧ put (.st c2 .b64 (.v 20) (.v 10) 0) .store 8 0 0x90_0000_0007 0x91_0000_0008 = true ∧
    put (.redAdd c2 false .pkg .s32 (.v 10) (.v 20)) (.red .add true) 4 0 7 8 = true ∧ put (.redMax c2 true .sys .n32 (.v 10) (.v 20)) (.red .max false) 4 0 7 8 = true ∧
    put (.redXor c2 false .grp .n64 (.v 10) (.v 20)) (.red .xor false) 8 0 0x90_0000_0007 0x91_0000_0008 = true ∧
    put (.redAddF32 c2 false .grp (.v 10) (.v 20)) (.red .addF32 false) 4 0 7 8 = true ∧ put (.redDefer c2 .bf16 (.v 10) (.v 20)) (.defer .bf16) 2 0 7 8 = true ∧
    given (exec (.stRel c2 false .sys (.v 20) (.v 10) 0) vmem) (fun t => t.g.accs.map (fun a => (a.kind, a.rel, a.scope)) == [(.store, true, .sys)]) = true ∧
    given (exec (.st c2 .b32 (.v 20) (.v 14) 0) vmem) (fun t => t.g.accs.map (fun a => (a.kind, a.rel)) == [(.fifoPush, true)]) = true ∧
    (h.g.firstHeld (relAt (f.form.env h)) false).isSome = true ∧
    ([Instr.stRel c2 false .sys (.v 20) (.v 10) 0, .st c2 .b32 (.v 20) (.v 14) 0, .redMax c2 true .sys .n32 (.v 10) (.v 20),
        .atomAdd c2 .ar .sys .s32 22 (.v 10) (.v 20), .rput c2 false (.v 20) 1].all fun i => given (exec i h) fun t =>
      t.g.recs.map (fun r => (r.fr.code, r.fr.orig, r.fr.imprec, r.held)) == [(9, 1, true, some 5)] && t.g.accs.length == 1) = true := by
  refine ⟨?_, ?_, ?_, ?_, ?_, passes_of _ _ _ _ _ _ _ ?_ ?_ ?_, passes_of _ _ _ _ _ _ _ ?_ ?_ ?_, ?_⟩ <;>
    (try unfold MemReady Ready SlotFree Unfenced) <;> (try unfold VUnheld) <;> decide +kernel

/-- The bank is bound whatever the name already holds. -/
theorem wit_room_mem :
    Room (mForm c2 (.v 10) (some ⟨.v 20, false⟩) none none [22]) vmem ∧ Room (mForm c2 (.v 10) (some ⟨.v 20, true⟩) none none [22, 23]) vmem := by
  refine ⟨bind_one _ _ _ 22 ?_ ?_, bind_pair _ _ _ 22 23 (by decide) ⟨mkLanes fun n => BitVec.ofNat 32 (0 + 0 * n), false, 1⟩
    ⟨mkLanes fun n => BitVec.ofNat 32 (0 + 0 * n), false, 1⟩ ?_ rfl ?_ rfl⟩ <;> decide +kernel

/-- VectorAtomicsAndTablesIssue: atomics of both widths, with an order and without; `q8t` at byte 1, `q8e`. -/
theorem wit_vector_atomics :
    let f : AtomForm := ⟨.add, (4, true), c2, .ar, .sys, 22, .v 10, .v 20, none⟩
    let d := fun (n : Nat) => Loc.dram (0x4000_0100 + 8 * n) 0
    let rmw := fun (i : Instr) (op : AOp) (sg : Bool) (w : Nat) (x y : Word) => given (exec i vmem) fun t =>
      joined vmem (.atom op sg) w [(0, 0x4000_0100, d 0, x), (1, 0x4000_0108, d 1, y)] t
    let v : VForm := { c := c2, a := some ⟨.v 20, false⟩, b := some ⟨.v 21, false⟩, x := none, e := none, preds := [], dests := [22] }
    MemReady f.form vmem ∧ VUnheld (f.form.env vmem) ∧ Passes (f.form.env vmem) (addrOf (f.form.env vmem) 0) 4 3 false true d ∧
    rmw (.atomAdd c2 .ar .sys .s32 22 (.v 10) (.v 20)) .add true 4 7 8 = true ∧ rmw (.atomMin c2 .rlx .grp .n32 22 (.v 10) (.v 20)) .min false 4 7 8 = true ∧
    rmw (.atomMax c2 .acq .die .s64 22 (.v 10) (.v 20)) .max true 8 0x90_0000_0007 0x91_0000_0008 = true ∧
    rmw (.atomAnd c2 .rel .pkg .n32 22 (.v 10) (.v 20)) .and false 4 7 8 = true ∧ rmw (.atomOr c2 .rlx .grp .n32 22 (.v 10) (.v 20)) .or false 4 7 8 = true ∧
    rmw (.atomXor c2 .rlx .grp .n32 22 (.v 10) (.v 20)) .xor false 4 7 8 = true ∧ rmw (.atomExch c2 .rlx .grp .n32 22 (.v 10) (.v 20)) .exch false 4 7 8 = true ∧
    rmw (.atomAddF32 c2 .rlx .grp 22 (.v 10) (.v 20)) .addF32 false 4 7 8 = true ∧
    given (exec (.atomCas c2 .rlx .grp .n32 22 (.v 10) (.v 20) (.v 21)) vmem) (fun t => t.g.accs.map (fun a => (a.kind, a.lanes.map fun l => (l.data, l.cmp))) ==
      [(.atom .cas false, [(7, 0x90), (8, 0x91)])]) = true ∧
    Ready v vmem ∧ Tabled (v.env vmem) vmem ∧
    given (exec (.q8t c2 0 22 (.v 20) (.v 21)) vmem) (joined vmem (.qtab false 0 1) 4 [(0, 28, .sram 28, 0x90), (1, 32, .sram 32, 0x91)]) = true ∧
    given (exec (.q8t c2 1 22 (.v 20) (.v 21)) vmem) (joined vmem (.qtab false 1 1) 4 [(0, 0, .sram 0, 0x90), (1, 0, .sram 0, 0x91)]) = true ∧
    given (exec (.q8e c2 3 22 (.v 20) (.v 21) (.v 27)) vmem) (joined vmem (.qtab true 3 1) 1024 [(0, 0, .sram 0, 0x5_0000_0007), (1, 0, .sram 0, 0x5_0000_0008)]) = true := by
  refine ⟨?_, ?_, passes_of _ _ _ _ _ _ _ ?_ ?_ ?_, ?_⟩ <;> (try unfold MemReady Ready SlotFree Unfenced) <;>
    (try unfold VUnheld) <;> (try unfold Ready SlotFree Tabled) <;> decide +kernel

/-- FencesAndAdvance: the fences with nothing outstanding, with a store and with a load before them, with a store held; a full slot, an
incomplete fence; `fence.d`, a prefetch, `nop` before the last instruction of its clause and at it. -/
theorem wit_vector_fences :
    let s : State := { vmem with stamp := 9, cores := [(0, { Core.reset with bankMode := [(0, 1), (1, 2)], l1 := [(1, some ⟨1, 0⟩)], pipe := [(0, some 0)] })] }
    let one := fun (a : Acc) => ({ s with g := { s.g with accs := [{ a with ctl := false }] } } : State)
    let st := one (acc1 .store 4 0x4000_0000 (.dram 0x4000_0000 0) 0 .none false none)
    let ld := one (acc1 .load 4 0x4000_0000 (.dram 0x4000_0000 0) 0 .none false none)
    let bad := one (acc1 .store 4 0x4000_0000 (.dram 0x4000_0000 0) 0 .none false (some (9, 5)))
    let fe := one rfence
    let h := 0x9310_0000_0000_0000#64
    let l : State := { s with g := { s.g with vpos := { s.g.vpos with idx := 3, code := [h] } } }
    let e := (zForm c0).env
    let l1 := fun (t : State) => (smGet Core.reset t.cores 0).l1
    let held := fun (s t : State) => t.g == { s.g with vnow := s.g.vnow + 1 } && still s t
    let waits := fun (s t : State) => t.g.vpos.idx == 2 && t.g.accs.map (·.kind) == s.g.accs.map (·.kind) ++ [.fence] && still s t
    MemReady (zForm c0) s ∧ MemReady (zForm c0) st ∧ ¬Unfenced (zForm c0) fe ∧ Unfenced (mForm c0 (.v 10) none none none []) s ∧
    VUnheld (e s) ∧ VUnheld (e st) ∧ (bad.g.firstHeld (relAt (e bad)) false).isSome = true ∧
    given (exec (.vectorFence c0 .clu) s) (fun t => t.g.vpos.idx == 2 && l1 t == [] && t.g.accs == []) = true ∧
    given (exec (.vectorFence c0 .grp) s) (fun t => t.g.vpos.idx == 2 && l1 t != [] && t.g.acquired == 10) = true ∧
    given (exec (.vectorFenceAcq c0 .die) s) (fun t => t.g.vpos.idx == 2 && l1 t == []) = true ∧
    given (exec (.vectorFenceRel c0 .sys) s) (fun t => t.g.vpos.idx == 2 && l1 t != [] && still s t) = true ∧
    given (exec (.vectorFence c0 .sys) st) (waits st) = true ∧ given (exec (.vectorFenceRel c0 .sys) st) (waits st) = true ∧
    given (exec (.vectorFenceAcq c0 .die) ld) (waits ld) = true ∧
    given (exec (.vectorFenceRel c0 .grp) bad) (fun t => t.g.recs.map (fun r => (r.fr.code, r.fr.imprec, r.held)) == [(9, true, some 5)]) = true ∧
    ([Instr.vectorFenceAcq c0 .grp, .fenceD c0, .prefetch c0 (.v 10) 0].all fun i => given (exec i fe) (held fe)) = true ∧
    given (exec (.fenceD c0) st) (fun t => t.g.vpos.idx == 2 && t.g.fenceD == [9]) = true ∧
    given (exec (.prefetch c0 (.v 10) 0) s) (fun t => t.g.vpos.idx == 2 && t.g.recs == [] && t.g.accs == [] && t.sram == s.sram) = true ∧
    given (exec (.prefetch c0 (.v 18) 0) s) (fun t => t.g.vpos.idx == 2 && t.g.recs == []) = true ∧
    given (exec (.vectorNop 7) s) (fun t => t == { s with stamp := s.stamp + 1, g := { s.g with vnow := 9, vpos := { s.g.vpos with idx := 2, resumed := true } } }) = true ∧
    (decodeHeader h).map (·.blkEnd) = some false ∧
    given (exec (.vectorNop 0) l) (fun t => t.g.vpos.hdr == 0x4000_0100 + 8 * 5 && t.g.vpos.idx == 0 && t.g.vpos.pipe == none &&
      smGet none (smGet Core.reset t.cores 0).pipe 0 == none) = true := by unfold MemReady Ready SlotFree Unfenced VUnheld; decide +kernel

/-- RendezvousAndPuts: both sides at slot 3, a put to the only group of the cluster, and the descriptors R248 refuses. -/
theorem wit_rendezvous :
    let s : State := { vmem with
      g := { vmem.g with k := [(1, 0x0030_0016), (2, 0x0080_0000), (3, 0x0001_0000), (4, 0x0000_0800), (5, 0x0000_0015)] }
      teams := [(0, { Team.reset with slots := [0], rdv := [(3, ⟨[(1, 1)], [(2, 2)]⟩)] })], stamp := 9 }
    let one : VForm := { zForm c2 with a := some ⟨.v 20, false⟩ }
    let refused := fun (w : Bool) (k : BitVec 6) (i : Word) => given (exec (.rput c2 w (.v 20) k) s) fun t =>
      t.g.recs.map (fun r => (r.fr.code, r.fr.lanes, r.fr.info)) == [(3, 3, i)] && t.g.accs == []
    let full : State := { s with g := { s.g with accs := List.replicate 63 { acc1 .load 4 0 (.sram 0) 0 .none false none with ctl := false, wset := 2 } } }
    Ready one s ∧ Ready (zForm c2) s ∧ VUnheld (one.env s) ∧ ¬SlotFree one full ∧
    ([Instr.xsend c2 3 false (.v 20), .xrecv c2 3 true 30, .rput c2 false (.v 20) 5].all fun i =>
      given (exec i full) fun t => t.g == { full.g with vnow := full.g.vnow + 1 } && t.teams == full.teams) = true ∧
    given (exec (.xsend c2 3 false (.v 20)) s) (fun t => joined s (.xsend 3) 4 [(0, 0, .capa 0, 7), (1, 0, .capa 0, 8)] t &&
      t.team.rdv == [(3, ⟨[(1, 1), (0, 9)], [(2, 2)]⟩)]) = true ∧
    given (exec (.xrecv c2 3 true 30) s) (fun t => joined s (.xrecv 3) 8 [] t && t.g.accs.map (·.dst) == [.recv 30 true] &&
      t.team.rdv == [(3, ⟨[(1, 1)], [(2, 2), (0, 9)]⟩)]) = true ∧
    given (exec (.rput c2 true (.v 20) 1) s) (fun t => joined s (.rput 0x0030_0016) 8 [(0, 0, .capa 0, 0x90_0000_0007), (1, 0, .capa 0, 0x91_0000_0008)] t &&
      t.g.accs.map (fun a => (a.rel, a.scope)) == [(true, .clu)]) = true ∧
    given (exec (.rput c2 false (.v 20) 5) s) (fun t => t.g.accs.length == 1) = true ∧
    refused false 2 0x0080_0000 = true ∧ refused false 3 0x0001_0000 = true ∧ refused false 4 0x0000_0800 = true ∧ refused true 5 0x0000_0015 = true := by
  refine ⟨?_, ?_, ?_, ?_⟩ <;> (try unfold Ready) <;> (try unfold VUnheld) <;> (try unfold SlotFree) <;> decide +kernel

/-- The team holds tile registers 9 to 12, with these control registers, ready. -/
def tiled (cs : List Word) : State :=
  { vmem with
    teams := [(0, { Team.reset with slots := [0], tiles := [9, 10, 11, 12] })]
    quads := [(0, { Quad.reset with tiles := (List.range 4).map fun n => (9 + n, { Tile.reset with st := .ready, ctl := cs.getD n 0, bytes := [(0, 1)] }) })] }

/-- MatrixInstructionsEnter: each instruction under tiles that Table 106 allows, and an entry for it. -/
theorem wit_matrix_enter :
    let s := tiled [0x0000_0008_0020_0001, 0x0000_0010_0020_0003, 0x0000_0008_0010_0003]
    let z := tiled [0x0000_0008_0020_000A, 0x0000_0020_0020_0019, 0x0000_0008_0020_0019, 0x0000_0020_0021_0019]
    let y := tiled [0x0000_0008_0020_0001, 0x0000_0010_0020_000A, 0x0000_0002_0020_0002, 0x0000_0008_0002_0002]
    let mma : Instr := .mma c2 .bf16 .dyn false false 0 1 2 16
    let mk := mmaFields .bf16 16 [0, 1, 2]
    let may := fun (s : State) (ns : List TileNo) (fields : List Word → List Bool) => MatrixMay ((zForm c2).env s) ns fields (· != .ready)
    let enters := fun (i : Instr) (s : State) (op : MOp) (ts : List Nat) => given (exec i s) fun t =>
      joined s .matrix 0 [] t && t.quad.table.map (fun n => (n.op, n.tiles, n.mask, n.passed)) == [(op, ts, 3, 0)]
    matrixOf mma = some ⟨zForm c2, .mma .bf16 .dyn false false 16, [0, 1, 2], mk, none⟩ ∧ Ready (zForm c2) s ∧ may s [0, 1, 2] mk ∧
    may z [0, 1, 2, 3] (mmazFields false [0, 1, 2, 3]) ∧ may y [0, 1, 2, 3] (saccFields [0, 1, 2, 3]) ∧ may s [0] (tmovFields 7 0) ∧
    enters mma s (.mma .bf16 .dyn false false 16) [9, 10, 11] = true ∧ enters (.mmaz c2 false false true 0 1 2 3) z (.mmaz false false true) [9, 10, 11, 12] = true ∧
    enters (.sacc c2 .rne 0 1 2 3) y (.sacc .rne) [9, 10, 11, 12] = true ∧ enters (.tmovToTile c2 0 (.v 20) 7 0) s (.toTile 7 0) [9] = true ∧
    enters (.tmovToVector c2 22 0 7 0) s (.toVector 7 0) [9] = true := by
  refine ⟨rfl, ?_, ?_⟩ <;> (try unfold Ready SlotFree) <;> (try unfold MatrixMay Configured InState Unowned) <;> decide +kernel

/-- The same: a full table, a zero mask, each fault, `tzero`. -/
theorem wit_matrix_waits :
    let s := tiled [0x0000_0008_0020_0001, 0x0000_0010_0020_0003, 0x0000_0008_0010_0003]
    let mma : Instr := .mma c2 .bf16 .dyn false false 0 1 2 16
    let full : State := { s with quads := smUpd Quad.reset s.quads 0 fun q => { q with
      table := List.replicate 32 ⟨0, 0, 0, 0, .tzero, [9], [0], 3, 1, 0, 0, 0, 0⟩ } }
    let z : State := { s with g := { s.g with masks := [0] } }
    let e := fun (s : State) => (zForm c2).env s
    let fill : State := { s with quads := smUpd Quad.reset s.quads 0 fun q => { q with tiles := smPut Tile.reset q.tiles 10 { Tile.reset with st := .filling, ctl := 0x0000_0010_0020_0003 } } }
    let own : State := { s with quads := smUpd Quad.reset s.quads 0 fun q => { q with owner := some (0, 3) } }
    let bad := fun (i : Instr) (s : State) (c : BitVec 8) (w : Word) => given (exec i s) fun t => t.g.recs.map (fun r => (r.fr.code, r.fr.lanes, r.fr.info)) == [(c, 3, w)] &&
      t.quads == s.quads && t.g.accs == []
    given (exec mma full) (fun t => t.g == { full.g with vnow := full.g.vnow + 1 } && t.quads == full.quads) = true ∧
    (e z).m = 0 ∧ given (exec mma z) (fun t => t.g.vpos.idx == 2 && t.quads == z.quads && t.g.accs.map (·.kind) == [.zeroMask]) = true ∧
    s.tileReg 4 = none ∧ bad (.mma c2 .bf16 .dyn false false 0 1 4 16) s 3 4 = true ∧
    Configured (e fill) [0, 1, 2] (mmaFields .bf16 16 [0, 1, 2]) ∧ ¬InState (e fill) [0, 1, 2] (· != .ready) ∧ bad mma fill 0x10 1 = true ∧
    InState (e own) [0, 1, 2] (· != .ready) ∧ ¬Unowned (e own) ∧ bad mma own 0x11 3 = true ∧
    MatrixMay (e s) [0] (fun _ => [true]) (fun x => x == .filling || x == .draining) ∧
    given (exec (.tzero c0 0) s) (fun t => t.quad.table.map (fun n => (n.op, n.tiles)) == [(.tzero, [9])] && smGet Tile.reset t.quad.tiles 9 == smGet Tile.reset s.quad.tiles 9 &&
      t.g.vpos.idx == 2) = true ∧
    given (exec (.tzero c0 0) full) (fun t => t.g == { full.g with vnow := full.g.vnow + 1 } && t.quads == full.quads) = true ∧
    given (exec (.tzero c0 1) fill) (fun t => t.g.recs.map (·.fr.code) == [0x10]) = true := by
  unfold MatrixMay Configured InState Unowned; decide +kernel

/-! ## Commands -/

/-- A command of one word. -/
def word0 (x : Word) : Cmd := ⟨x, 0, 0, 0, 0, 0, 0, 0⟩

/-- A context that holds n commands that have not ended, with the machine at full service. -/
def held (e : EngineRef) (n : Nat) : State := world.setCtx e { EngCtx.reset with seq := 7, cmds := List.replicate n cmd0 }

/-- CommandsAcceptedAndDelivered: a queue of each kind, with room and full; a fill, a sweep whose basin does not exist. -/
theorem wit_commands_accepted :
    let took := fun (i : Instr) (e : EngineRef) (bad : Bool) =>
      given (exec i (held e 63)) fun t => (t.ctx e).cmds.length == 64 && (t.ctx e).seq == 8 && (t.ctx e).counter == 0 &&
        ((t.ctx e).cmds.getLast?.map fun k => (k.seq, k.bad, k.started)) == some (8, bad, false) && still world t && t.g == world.g
    let full := fun (i : Instr) (e : EngineRef) => same (exec i (held e 64)) (held e 64)
    HasRoom ((held (.copy 0 1) 63).ctx (.copy 0 1)) ∧ ¬HasRoom ((held (.copy 0 1) 64).ctx (.copy 0 1)) ∧
    took (.fill ⟨0x0520_0000_0000_0000, 0xAB, 0x4000_0200, 1, 0, 0, 0, 0⟩) (.copy 0 1) false = true ∧
    took (.fill ⟨0x0520_0000_0000_0000, 0x1AB, 0x4000_0200, 1, 0, 0, 0, 0⟩) (.copy 0 1) true = true ∧
    took (.sweepScale ⟨0x0140_1080_0000_0000, 0x4000_0800, 1, 0x3F80_0000, 0, 0, 0, 0⟩) (.basin 0 1) false = true ∧
    took (.sweepScale ⟨0x017F_1080_0000_0000, 0x4000_0800, 1, 0x3F80_0000, 0, 0, 0, 0⟩) (.basin 0 1) true = true ∧
    took (.stepCmd (word0 0x0830_0000_0000_0000)) (.coll 3) false = true ∧ took (.launch (word0 0x0160_0000_0000_0000)) (.launch 3) false = true ∧
    full (.copy (word0 0x0120_0000_0000_0000)) (.copy 0 1) = true ∧ full (.rowZero (word0 0x0340_0000_0000_0000)) (.basin 0 1) = true ∧
    full (.launch (word0 0x0160_0000_0000_0000)) (.launch 3) = true := by unfold HasRoom; decide +kernel

/-- The same: a ready tile filled and drained, an empty one drained, a filling one filled. -/
theorem wit_tiles_moved :
    let w : Cmd := word0 0x0620_0040_0000_0000
    let s := fun (st : TileSt) => ({ world with
      teams := [(0, { Team.reset with slots := [0], tiles := [9, 10] })]
      quads := [(0, { Quad.reset with tiles := [(10, { Tile.reset with st := st, ctl := 0x0000_0010_0020_0003 })] })] } : State)
    let after := fun (i : Instr) (st : TileSt) (bad : Bool) (to' : TileSt) => given (exec i (s st)) fun t => (smGet Tile.reset t.quad.tiles 10).st == to' &&
      ((t.ctx (.copy 0 1)).cmds.map fun k => (k.seq, k.bad)) == [(1, bad)] && still world t
    (s .ready).tileReg (w.w0.extractLsb' 38 6) = some 10 ∧ tileFieldsOk w = true ∧
    after (.tfill w) .ready false .filling = true ∧ after (.tfill w) .empty false .filling = true ∧ after (.tdrain w) .ready false .draining = true ∧
    after (.tdrain w) .empty true .empty = true ∧ after (.tfill w) .filling true .filling = true ∧ after (.tfill w) .draining true .draining = true := by
  decide +kernel

/-- The same: a suspended command of each kind of context resumes. -/
theorem wit_resumes :
    let s := fun (e : EngineRef) => world.setCtx e { EngCtx.reset with seq := 1, cmds := [{ cmd0 with started := true, susp := some 0x08 }] }
    let ok := fun (i : Instr) (e : EngineRef) => given (exec i (s e)) fun t => t.ctx e ==
      { EngCtx.reset with seq := 1, cmds := [{ cmd0 with started := true }] } && still world t
    let c : Cmd := ⟨0x0F20_0000_0000_0000, 0x4100_0000_0000_0001, 0, 0, 0, 0, 0, 0⟩
    let b : Cmd := ⟨0x0F40_0000_0000_0000, 0x2100_0000_0000_0001, 0, 0, 0, 0, 0, 0⟩
    let l : Cmd := ⟨0x0F30_0000_0000_0000, 0x1003_0000_0000_0001, 0, 0, 0, 0, 0, 0⟩
    resumeOk c 52 = true ∧ resumeOk b 47 = true ∧ resumeOk l 51 = true ∧ (basinRef b world).2 = false ∧
    ok (.copyResume c) (.copy 0 1) = true ∧ ok (.basinResume b) (.basin 0 1) = true ∧ ok (.collectiveResume l) (.coll 3) = true := by
  decide +kernel

/-- The same: a bad command ends in error, the first and the last element of a `fill` of two bytes. -/
theorem wit_elements :
    let e := EngineRef.copy 0 1
    let k := fun (n : Nat) => { cmd0 with w := ⟨0x0520_0000_0000_0000, 0xAB, 0x4000_0200, 2, 0x1_0000_0000, 0, 0, 0⟩, started := true, elem := n }
    let s := fun (k : ECmd) => world.setCtx e { EngCtx.reset with seq := 1, cmds := [k] }
    ((s (k 1)).ctx e).head = some (k 1) ∧ elemCount (k 0).w [] 0 = 2 ∧ (match copyElem e (k 0) (k 0).w [] 0 (s (k 0)) with | .ok _ => true | _ => false) = true ∧
    given (exec (.elementDelivery e) (s { cmd0 with bad := true })) (fun t => (t.ctx e).endStat 1 == .error 0x15 && (t.ctx e).counter == 1 && still world t) = true ∧
    given (exec (.elementDelivery e) (s (k 0))) (fun t => smGet 0 t.dram 0x4000_0200 == 0xAB && smGet 0 t.dram 0x4000_0201 == 0 &&
      (t.ctx e).cmds.map (·.elem) == [1] && (t.ctx e).counter == 0) = true ∧
    given (exec (.elementDelivery e) (s (k 1))) (fun t => smGet 0 t.dram 0x4000_0201 == 0xAB && (t.ctx e).counter == 1 && (t.ctx e).endStat 1 == .completed) = true := by
  decide +kernel

/-- The same: an engine reads and writes four bytes; an address without translation and one of the local window. -/
theorem wit_engine_bytes :
    let s : State := { world with dram := world.dram ++ [(0x4000_0200, 7)] }
    let a := Agent.quad 0
    let to' := fun (va : Word) (acc : BitVec 4) (x : XRes) => (match engTranslate s a 0 va 4 acc, x with
      | .ok l, .ok m => l == m | .bad c i, .bad d j => c == d && i == j | _, _ => false)
    let bad := fun (va : Word) => (match engRead a 0 va 4 s with | .fault c i v t => c == 8 && i == 1 && v == va && t == s | _ => false) &&
      match engWrite false a 0 va [1, 2, 3, 4] s with | .fault c i v t => c == 8 && i == 2 && v == va && t == s | _ => false
    to' 0x4000_0200 1 (.ok (.dram 0x4000_0200 0)) = true ∧ to' 0x4000_0200 2 (.ok (.dram 0x4000_0200 0)) = true ∧
    to' 0 1 (.bad 8 2) = true ∧ to' 0x00FF_FF00_0000_0000 2 (.bad 8 5) = true ∧ bad 0 = true ∧ bad 0x00FF_FF00_0000_0000 = true ∧
    Writable s false 0x4000_0200 ∧ (Machine.rowAt s (Machine.rowOf 0x4000_0200)).deps = [] ∧
    (match engRead a 0 0x4000_0200 4 s with | .ok r => r.2 == [7, 0, 0, 0] && still s r.1 | _ => false) = true ∧
    (match engWrite false a 0 0x4000_0200 [1, 2] s with | .ok t => smBytes t.dram 0x4000_0200 3 == [1, 2, 0] | _ => false) = true := by
  unfold Writable; decide +kernel

/-- The same: a `copy` of two bytes, one whose destination has no translation, one whose destination row a copyout holds; a `resume` of a
command whose record the queue has not taken, and one of a pre-empted context. -/
theorem wit_elements_stop :
    let e := EngineRef.copy 0 1
    let k := fun (d : Word) => { cmd0 with w := ⟨0x0124_0000_0000_0000, 0x4000_0200, d, 1, 0, 0, 0, 0⟩, started := true }
    let s := fun (k : ECmd) => ({ (world.setCtx e { EngCtx.reset with seq := 1, cmds := [k] }) with dram := world.dram ++ [(0x4000_0200, 7), (0x4000_0201, 8)] } : State)
    let h : State := { s (k 0x4000_0800) with rows := [(0x80001, { Row.reset with copyout := some ⟨0, 1, 1⟩ })] }
    let fr := mem.g.ctlRec 8 1 0 0
    let r := fun (p : Bool) => world.setCtx e { EngCtx.reset with seq := 1, preempted := p, cmds := [{ cmd0 with started := true, susp := some 8, waiting := some fr }] }
    let w : Cmd := ⟨0x0F20_0000_0000_0000, 0x4100_0000_0000_0001, 0, 0, 0, 0, 0, 0⟩
    elemCount (k 0).w [] 0 = 1 ∧
    given (exec (.elementDelivery e) (s (k 0x4000_0800))) (fun t => smBytes t.dram 0x4000_0800 3 == [7, 8, 0] && (t.ctx e).endStat 1 == .completed) = true ∧
    given (exec (.elementDelivery e) (s (k 0))) (fun t => still (s (k 0)) t && (t.ctx e).cmds.map (fun q => (q.susp, q.elem)) == [(some 8, 0)] &&
      (t.ctx e).cmds.map (fun q => q.waiting.map fun f => (f.code, f.acc, f.info)) == [some (8, 2, handleOf e 1)]) = true ∧
    given (exec (.elementDelivery e) h) (fun t => still h t && (t.ctx e).cmds.map (fun q => (q.holds, q.elem)) == [(some 0x80001, 0)]) = true ∧
    given (exec (.copyResume w) (r false)) (fun t => t.mgmt.recsDue == [⟨fr, some (0, 0)⟩] && (t.ctx e).cmds == [{ cmd0 with started := true }]) = true ∧
    same (exec (.copyResume w) (r true)) (r true) = true := by decide +kernel

/-- The same: an element of a `copyx`, the index of a `gather` or `scatter`, an element of a `tfill` and a `tdrain`. -/
theorem wit_engine_elements :
    let e := EngineRef.copy 0 1
    let s : State := { world with
      dram := world.dram ++ [(0x4000_0200, 2), (0x4000_0210, 7), (0x4000_0211, 8)], quads := [(0, { Quad.reset with tiles := [(10, { Tile.reset with bytes := [(0, 9)] })] })] }
    let go := fun (k : ECmd) (w : Cmd) (b : List Word) (p : State → Bool) => match copyElem e k w b 0 s with | .ok t => p t | _ => false
    let at_ := fun (a : Nat) (t : State) => smBytes t.dram a 3 == [7, 8, 0]
    let k : ECmd := { cmd0 with tile := some 10, cfg := 0x0000_0002_0020_0003 }
    let tile := fun (t : State) => smBytes (smGet Tile.reset (smGet Quad.reset t.quads 0).tiles 10).bytes 0 2
    go cmd0 ⟨0x0204_0000_0000_0000, 0x4000_0210, 0x4000_0300, 0, 0, 0, 0, 0⟩ [0x0001_0000_0000_0000, 0] (at_ 0x4000_0300) = true ∧
    (match elemRead cmd0 (.quad 0) 0x4000_0200 4 s with | .ok r => still s r.1 && leNat r.2 == 2 | _ => false) = true ∧
    go k ⟨0x0600_0000_0000_0000, 0x4000_0210, 0, 0, 0, 0, 0, 0⟩ [] (fun t => tile t == [7, 8] && still s t) = true ∧
    go k ⟨0x0700_0000_0000_0000, 0x4000_0300, 0, 0, 0, 0, 0, 0⟩ [] (fun t => tile t == [9, 0] && smGet 0 t.dram 0x4000_0300 == 9) = true := by
  decide +kernel

/-- The same, a `clist` of one entry, a `fill` of one byte: the entry read, one that fails its checks, a list without translation, the
element of the entry. -/
theorem wit_lists :
    let e := EngineRef.copy 0 1
    let k : ECmd := { cmd0 with started := true, w := ⟨0x0820_0000_0000_0000, 0x4000_0200, 1, 0, 0, 0, 0, 0⟩ }
    let w : Cmd := ⟨0x0500_0000_0000_0000, 0xAB, 0x4000_0300, 1, 0, 0, 0, 0⟩
    let s := fun (c : Byte) (k : ECmd) => ({ (world.setCtx e { EngCtx.reset with seq := 1, cmds := [k] }) with
      dram := world.dram ++ [(0x4000_0206, c), (0x4000_0207, 5), (0x4000_0208, 0xAB), (0x4000_0211, 3), (0x4000_0213, 0x40), (0x4000_0218, 1)] } : State)
    let go := fun (c : Byte) (k : ECmd) (p : State → Bool) => given (exec (.elementDelivery e) (s c k)) p
    go 0 k (fun t => (t.ctx e).cmds.map (fun q => (q.entry, q.elem)) == [(some w, 0)] && still (s 0 k) t) = true ∧
    go 0x20 k (fun t => (t.ctx e).endStat 1 == .error 0x15) = true ∧
    go 0 { k with w := { k.w with w1 := 0 } } (fun t => (t.ctx e).cmds.map (·.susp) == [some 8]) = true ∧
    go 0 { k with entry := some w } (fun t => smGet 0 t.dram 0x4000_0300 == 0xAB && (t.ctx e).endStat 1 == .completed) = true := by
  decide +kernel

/-! ## Events of a group -/

/-- A runnel of this token and a `vsync` behind it, two results of v1 in flight for nothing, a mask below the top. -/
def token (k : TokKind) (f : Group → Group) : State :=
  here fun g => f { g with runnel := [⟨k, VMode.reset, 0, 0, 0⟩, ⟨.sync, VMode.reset, 0, 0, 0⟩], masks := [5, 7], paths := [(4, false)], p := [(2, 6)] }

/-- TokensTaken: each kind, a count of 0, the last point of a walk, the mask operations, every form of a return. -/
theorem wit_tokens_taken :
    let id' := fun (g : Group) => g
    let ended := fun (t : State) => t.g.runnel.map (·.kind) == [.sync] && !t.g.vpos.begun && t.stamp == 1 && still world t
    let ret := fun (sel ln r : Nat) (v : Word) => given (exec .returnTok (token .ret fun g => { g with block := .get sel ln r, v := [(1, reg fun n => BitVec.ofNat 32 n), (2, reg fun _ => 9)] }))
      fun t => ended t && t.g.block == .got v
    given (exec .runToken (token (.run 0x4000_0100 0) id')) ended = true ∧
    given (exec .runToken (token (.run 0x4000_0100 65535) fun g => { g with i0 := 3 })) (fun t => t.g.runnel.length == 2 && t.g.i0 == 0 && t.g.vpos == { VPos.reset with hdr := 0x4000_0100, begun := true, left := 65535 }) = true ∧
    given (exec (.walkToken 0) (token (.walk 0x4000_0100 2 0 4) id')) ended = true ∧
    given (exec (.walkToken 23) (token (.walk 0x4000_0100 2 3 4) id')) (fun t => t.g.vpos.visited == [23] && t.g.vpos.point && (t.g.i0, t.g.i1, t.g.i2, t.g.i3) == (1, 2, 3, 23)) = true ∧
    given (exec (.walkToken 6) (token (.walk 0x4000_0100 2 3 4) fun g => { g with vpos := { VPos.reset with begun := true, visited := [23], hdr := 8 } }))
      (fun t => t.g.vpos.visited == [6, 23] && t.g.vpos.hdr == 0x4000_0100 && (t.g.i0, t.g.i1, t.g.i2, t.g.i3) == (0, 0, 1, 6)) = true ∧
    given (exec .maskPush (token (.maskPush 2 false) id')) (fun t => ended t && t.g.masks == [4, 5, 7] && t.g.paths == [(0, false), (4, false)]) = true ∧
    given (exec .maskPush (token (.maskPush 2 true) id')) (fun t => ended t && t.g.masks == [1, 5, 7]) = true ∧
    given (exec .maskInvert (token .maskInvert id')) (fun t => ended t && t.g.masks == [2, 7] && t.g.paths == [(4, true)]) = true ∧
    given (exec .maskPop (token .maskPop id')) (fun t => ended t && t.g.masks == [7] && t.g.paths == []) = true ∧
    given (exec .deposit (token (.deposit 5 9) id')) (fun t => ended t && t.g.readK 5 == 9) = true ∧
    given (exec .synchronise (token .sync fun g => { g with block := .sync })) (fun t => ended t && t.g.block == .syncDone) = true ∧
    ret 0 31 1 31 = true ∧ ret 1 3 1 0x9_0000_0003 = true ∧ ret 2 0 2 6 = true ∧ ret 3 0 0 5 = true ∧
    (let s := { token .ret (fun g => { g with block := .get 0 0 1 }) with g := { (token .ret fun g => { g with block := .get 0 0 1 }).g with runnel := [⟨.ret, { VMode.reset with chk := 2 }, 0, 0, 0⟩] } }
     given (exec .returnTok s) (fun t => t.g.recs.map (fun r => (r.fr.code, r.fr.orig, r.fr.info)) == [(5, 0, 1)])) = true := by decide +kernel

/-- GrantsAndPauses: the oldest of two ready groups of a sequencer, a paused one, a pipe, two stalled groups that fill a bank. -/
theorem wit_grants :
    let g := { world.g with pos := ⟨0x4000_0000, 3, 1, [1, 2, 3, 4]⟩, ageC := 5, pause := 7 }
    let o : Group := { g with slot := 2, ageC := 3, pause := 0 }
    let free := fun (c : Core) => { c with seqGrant := [], pipe := [] }
    let s : State := { world with g := g, others := [o, { o with slot := 4, ageC := 4 }], stamp := 9, cores := world.cores.map fun c => (c.1, free c.2) }
    let h := 0x9210_0000_0000_0000#64
    let v : State := { vmem with stamp := 9, cores := s.cores, g := { vmem.g with vpos := { vmem.g.vpos with idx := 0, pipe := none, code := [h, 1, 2, 3] } } }
    let full : SMap (Option VName) := (List.range 512).map fun i => (4 * i + 2, lo i 0)
    let w : Group := { v.g with v := full, slot := 4, stall := some (6, [2]) }
    let x : State := { v with g := { w with slot := 0, stall := some (4, [2]) }, others := [w] }
    given (exec .pauseExpiry s) (fun t => t.g.pause == 0) = true ∧
    (pickControl s 0 0).map (·.slot) = some 2 ∧
    given (exec (.clauseGrant 0 0) s) (fun t => t.g.slot == 2 && t.g.ageC == 9 && smGet none (smGet Core.reset t.cores 0).seqGrant 0 == some 2 && still s t) = true ∧
    pickControl s 0 1 = none ∧ same (exec (.clauseGrant 0 1) s) s = true ∧
    (pickControl { s with others := [] } 0 0).map (·.slot) = some 0 ∧
    (decodeHeader h).map (fun d => (d.n, d.vec)) = some (2, true) ∧
    given (exec (.pipeGrant 0 3 6) v) (fun t => t.g.vpos == { v.g.vpos with n := 2, pipe := some 3, granted := 9, last := false } && t.g.vnow == 6 &&
      smGet none (smGet Core.reset t.cores 0).pipe 3 == some 0) = true ∧
    given (exec (.regsExhausted 0) x) (fun t => t.g.recs.map (fun r => (r.fr.code, r.fr.orig, r.fr.info)) == [(6, 1, 0x0400_0000_0400_0400)]) = true := by
  decide +kernel

/-- The same: clauses that are fetched with the grant. A clause of two words, no header, a vector header, a resume beyond the last word, an
address without translation, a poisoned sector, a line that the write-through buffer holds. -/
theorem wit_grants_fetch :
    let at_ := fun (b : Byte) (pos : CPos) => ({ coded b 0 with g := { (coded b 0).g with pos := pos } } : State)
    let s := fun (b : Byte) => at_ b ⟨0x4000_0100, 0, 0, []⟩
    let a := acc1 .store 4 0x4000_0104 (.dram 0x4000_0104 0) 0 .none false none
    let late : State := { s 0x81 with g := { (s 0x81).g with accs := [{ a with lanes := a.lanes.map fun l => { l with sent := some 0 } }] } }
    let bad : State := { s 0x81 with poison := [(0x4000_0100 / 32, true)] }
    let took := fun (s : State) (c : BitVec 8) (acc : BitVec 4) (i : Word) => let t := grantControl s
      t.g.recs.map (fun r => (r.fr.code, r.fr.acc, r.fr.index, r.fr.info)) == [(c, acc, 0, i)] && still s t
    (let t := grantControl (s 0x81); t.g.pos == ⟨0x4000_0100, 1, 0, [0, 0]⟩ && smGet none (smGet Core.reset t.cores 0).seqGrant 0 == some 0) = true ∧
    took (s 0) 1 0 0 = true ∧ took (s 0x90) 1 0 0x9000_0000_0000_0000 = true ∧
    (grantControl (at_ 0x81 ⟨0x4000_0100, 0, 2, []⟩)).g.recs.map (fun r => (r.fr.code, r.fr.index, r.fr.info)) = [(3, 2, 0x2000_0000_4000_0100)] ∧
    took (at_ 0x81 ⟨0, 0, 0, []⟩) 8 4 2 = true ∧ firstPoison bad 0x4000_0100 8 = some (0x4000_0100 / 32) ∧ took bad 0x14 4 0x4000_0100 = true ∧
    lineBuffered late 0 (0x4000_0100 / 128) = true ∧ (grantControl late == late) = true := by decide +kernel

/-- The same, a pipe: a clause fetched with the grant, no header, no translation, and a clause whose WAIT mask names a slot that holds a
refused store. -/
theorem wit_grants_pipe :
    let s := fun (b : Byte) (h : Word) (code : List Word) => ({ coded b 0 with
      g := { vmem.g with vpos := { vmem.g.vpos with idx := 0, n := 0, pipe := none, hdr := h, code := code } }
      cores := [(0, { Core.reset with bankMode := [(0, 1), (1, 2)] })] } : State)
    let st := { acc1 .store 4 0x4000_0104 (.dram 0x4000_0104 0) 0 .none false (some (9, 5)) with ctl := false, wset := 2 }
    let h := encodeHeader ⟨true, 0, ⟨0, 0, 0, 0, 0⟩, 2, false, false⟩
    let u : State := { s 0x90 0x4000_0100 [h, 0] with g := { (s 0x90 0x4000_0100 [h, 0]).g with accs := [st] } }
    let took := fun (s : State) (c : BitVec 8) (acc : BitVec 4) (i : Word) => given (exec (.pipeGrant 0 2 6) s) fun t =>
      t.g.recs.map (fun r => (r.fr.code, r.fr.orig, r.fr.acc, r.fr.index, r.fr.info)) == [(c, 1, acc, 0, i)] && still s t
    vecReady 2 (s 0x90 0x4000_0100 []) = true ∧
    given (exec (.pipeGrant 0 2 6) (s 0x90 0x4000_0100 [])) (fun t => t.g.vpos.code == [0x9000_0000_0000_0000, 0] && t.g.vpos.pipe == some 2 && t.g.vnow == 6) = true ∧
    took (s 0 0x4000_0100 []) 1 0 0 = true ∧ took (s 0x90 0 []) 8 4 2 = true ∧ (u.g.waitHeld ⟨true, 0, ⟨0, 0, 0, 0, 0⟩, 2, false, false⟩).isSome = true ∧
    given (exec (.pipeGrant 0 2 6) u) (fun t => t.g.recs.map (fun r => (r.fr.code, r.fr.imprec, r.fr.index, r.held)) == [(9, true, 0, some 5)]) = true := by
  decide +kernel

/-- The core of `wit_grants` with every expanded register of bank 2 taken: a group stalled on that bank, and another of its team that waits at an
open barrier. -/
def starvedCore : State :=
  let full : SMap (Option VName) := (List.range 512).map fun i => (4 * i + 2, lo i 0)
  let g := { vmem.g with v := full, vpos := { vmem.g.vpos with pipe := none }, stall := some (4, [2]) }
  let o : Group := { world.g with slot := 4, v := full, block := .bar 3 0 }
  { vmem with stamp := 9, g := g, others := [o], cores := [(0, { Core.reset with bankMode := [(0, 1), (1, 2)] })]
              teams := [(0, { Team.reset with slots := [0, 4] })] }

/-- GrantsAndPauses, the exhaustion of a core's registers: a starved group beside one that meets others, and one that can go on. -/
theorem wit_exhausted :
    let s := starvedCore
    let go : State := { s with others := s.others.map fun o => { o with block := .none } }
    Starving s s.g ∧ 4 ∈ births s.g ∧ unstarted s 0 = false ∧
    given (exec (.regsExhausted 0) s) (fun t => t.g.recs.map (fun r => (r.fr.code, r.fr.orig, r.fr.info.extractLsb' 32 16)) == [(6, 1, 0)] &&
      !(smGet Core.reset t.cores 0).relieved) = true ∧
    (go.others.any (ctlReady go)) = true ∧ same (exec (.regsExhausted 0) go) go = true := by
  unfold Starving; decide +kernel

/-- The same: that other group is blocked in the sense of R209. -/
theorem wit_meeting : ∃ o, starvedCore.others = [o] ∧ Meeting starvedCore o ∧ ¬Starving starvedCore o ∧ o.team = starvedCore.g.team :=
  ⟨_, rfl, ⟨by decide +kernel, rfl, rfl, rfl, _, rfl, rfl, .inl (.inl ⟨3, 0, rfl, by decide +kernel⟩), .inl ⟨.inl ⟨3, 0, rfl, by decide +kernel⟩, rfl, rfl⟩⟩,
    by unfold Starving; decide +kernel, rfl⟩

/-- One outstanding access of the control slice, in a machine with bytes at these places. -/
def standing (a : Acc) : State :=
  let s := regs [(3, 0)]
  { s with g := { s.g with accs := [a] }, sram := [(8, 0x80), (9, 0xFF)], dram := s.dram ++ [(0x4000_0008, 0x34), (0x4000_0009, 0x92)] }

/-- A virtual address of a place: of the scratch bank's first bytes, or of a place in DRAM. -/
def vaOf (l : Loc) : Word := match l with | .sram p => 0x00FF_FF00_0000_0000 + BitVec.ofNat 64 p | _ => 0x4000_0008

/-- The only lane of an access of one lane. -/
def lane0 (a : Acc) : LaneAcc := a.lanes.headD ⟨0, 0, .sram 0, 0, 0, false, none, none, false, none⟩

/-- AccessesServed: loads of two bytes, signed, from scratch and DRAM, with hints that fill L1 and one that does not; a hit in L1; atomics
in scratch and DRAM. -/
theorem wit_accesses :
    let ld := fun (l : Loc) => acc1 .load 2 (vaOf l) l 0 (.x 3 16 true) false none
    let no := { ld (.dram 0x4000_0008 0) with hint := .nol1 }
    let at_ := fun (op : AOp) (l : Loc) => acc1 (.atom op false) 4 (vaOf l) l 0x80 (.x 3 32 false) false none
    let d := Loc.dram 0x4000_0008 0
    let go := fun (a : Acc) (p : State → Bool) => given (exec (.resultArrival 5 1 0) (standing a)) p
    let l1 := fun (t : State) => l1Find (smGet Core.reset t.cores 0) 0x800000
    let hit : State := { standing (ld d) with cores := [(0, { Core.reset with bankMode := [(0, 1), (1, 2)], l1 := [(256 * 2, some ⟨0x800000, 0x7F11 <<< 64⟩)] })] }
    (∀ a ∈ [ld (.sram 8), ld d, no, at_ .add (.sram 8), at_ .cas d], Lane1 (standing a) 5 0 a (lane0 a) ∧ homeReady (standing a) a (lane0 a) = true) ∧
    Lane1 hit 5 0 (ld d) (lane0 (ld d)) ∧ l1 hit = some (512, (0x7F11 : Lanes) <<< 64) ∧ hasL1 (smGet Core.reset (standing no).cores 0) = true ∧
    go (ld (.sram 8)) (fun t => t.g.readX 3 == 0xFFFF_FFFF_FFFF_FF80 && t.g.accs == []) = true ∧
    go (ld d) (fun t => t.g.readX 3 == 0xFFFF_FFFF_FFFF_9234 && t.g.accs == [] && l1 t == some (512, (0x9234 : Lanes) <<< 64)) = true ∧
    go no (fun t => t.g.readX 3 == 0xFFFF_FFFF_FFFF_9234 && l1 t == none) = true ∧
    given (exec (.resultArrival 5 1 1) hit) (fun t => t.g.readX 3 == 0x7F11 && still hit t) = true ∧
    go (at_ .add (.sram 8)) (fun t => t.g.readX 3 == 0xFF80 && t.sram == [(10, 1)]) = true ∧
    go (at_ .cas (.sram 8)) (fun t => t.g.readX 3 == 0xFF80 && t.sram == [(8, 0x80), (9, 0xFF)]) = true ∧
    Writable (standing (at_ .add d)) false 0x4000_0008 ∧
    go (at_ .add d) (fun t => t.g.readX 3 == 0x9234 && smBytes t.dram 0x4000_0008 4 == [0xB4, 0x92, 0, 0]) = true ∧
    go (at_ .min d) (fun t => t.g.readX 3 == 0x9234 && smBytes t.dram 0x4000_0008 4 == [0x80, 0, 0, 0]) = true := by
  unfold Lane1 accAt; (try unfold Writable); decide +kernel

/-- The same, results for vector registers: the last lane of a load in, `ld.turn` at a row that no sweep is to change, a table read. -/
theorem wit_accesses_vector :
    let s0 : State := { standing rfence with g := vmem.g }
    let at_ := fun (a : Acc) => ({ s0 with g := { s0.g with accs := [a] } } : State)
    let v := fun (k : AccKind) (w : Nat) (dst : ADest) (m : BitVec 32) (ls : List LaneAcc) =>
      ({ acc1 k w 0 (.sram 0) 0 dst false none with ctl := false, mask := m, lanes := ls, wset := 2 } : Acc)
    let open_ : LaneAcc := ⟨1, 0x4000_0008, .dram 0x4000_0008 0, 0, 0, false, none, none, false, none⟩
    let ld := v .load 2 (.v 20 1 0 false 16 true) 3 [⟨0, 0x4000_0000, .dram 0x4000_0000 0, 0x8001, 0, true, none, none, false, none⟩, open_]
    let turn := v .turn 4 (.vturn 20 1 0 1 false) 2 [open_]
    let tab := v (.qtab false 0 1) 4 (.v 22 1 0 false 32 false) 2 [{ open_ with loc := .sram 8, data := 0x91 }]
    (∀ a ∈ [ld, turn, tab], Lane1 (at_ a) 5 1 a ((a.lanes.filter fun k => k.lane == 1).headD open_) ∧ homeReady (at_ a) a open_ = true) ∧
    s0.g.bindOf 20 = some 1 ∧ s0.g.bindOf 21 = some 1 ∧
    given (exec (.resultArrival 5 2 0) (at_ ld)) (fun t => t.g.accs == [] && lane (t.g.readV 20) 0 == 0xFFFF_8001 &&
      lane (t.g.readV 20) 1 == 0xFFFF_9234 && lane (t.g.readV 20) 2 == lane (s0.g.readV 20) 2) = true ∧
    given (exec (.resultArrival 5 2 0) (at_ turn)) (fun t => lane (t.g.readV 20) 1 == 0x9234 && lane (t.g.readV 21) 1 == 1 &&
      lane (t.g.readV 20) 0 == 7) = true ∧
    given (exec (.resultArrival 5 2 0) (at_ tab)) (fun t => lane (t.g.readV 22) 1 == BitVec.ofNat 32 (q8Result false 0 1 { open_ with data := 0x91 }
      (smBytes s0.sram 8 4)).1.toNat && t.g.accs == []) = true := by
  unfold Lane1 accAt; decide +kernel

/-- The same, writes: stores in scratch and DRAM, one that enters the buffer and its line of L1 only, refusals by the page's owner and at
a derived row, the flag of a handoff, a reduction, a deferred addition. -/
theorem wit_accesses_written :
    let st := fun (l : Loc) => acc1 .store 2 (vaOf l) l 0xABCD_1122 .none false none
    let k := Loc.dram 0x4000_0008 0
    let flag := acc1 .flagStore 8 0x4000_0008 k 1 .none false none
    let red := fun (l : Loc) => acc1 (.red .add true) 4 (vaOf l) l 0x80 .none false none
    let d := acc1 (.defer .s16) 2 0x4000_0008 k 7 .none false none
    let line := fun (a : Acc) => ({ standing a with cores := [(0, { Core.reset with bankMode := [(0, 1), (1, 2)], l1 := [(512, some ⟨0x800000, 0⟩)] })] } : State)
    let token' : State := { standing (st k) with mgmt := { world.mgmt with win0 := (0x4000_0000, 0x10000) }, owners := [(0x4000, ⟨true, 6⟩)] }
    let derived : State := { standing (st k) with rows := [(0x80000, { Row.reset with rule := some ⟨1, 2, [0x90000]⟩ })] }
    let go := fun (s : State) (p : State → Bool) => given (exec (.writePerformed 5 ⟨0, false⟩) s) p
    let held := fun (s : State) (c : BitVec 8) (i : Word) => go s fun t => still s t && t.g.accs.map (fun a => a.lanes.map (·.held)) == [[some (c, i)]]
    (∀ a ∈ [st (.sram 8), st k, flag, red k, red (.sram 8), d], Lane1 (standing a) 5 0 a (lane0 a) ∧ Writable (standing a) false 0x4000_0008 ∧
      (a.kind.isStore = true ∨ homeReady (standing a) a (lane0 a) = true)) ∧
    locBuffered (standing (st k)) 0 k 2 none = false ∧ Lane1 token' 5 0 (st k) (lane0 (st k)) ∧ Lane1 derived 5 0 (st k) (lane0 (st k)) ∧
    go (standing (st (.sram 8))) (fun t => t.sram == [(8, 0x22), (9, 0x11)] && t.g.accs == []) = true ∧
    go (standing (st k)) (fun t => smBytes t.dram 0x4000_0008 4 == [0x22, 0x11, 0, 0] && t.g.accs == []) = true ∧
    go (standing flag) (fun t => smBytes t.dram 0x4000_0008 4 == [1, 0, 0, 0] && t.g.accs == []) = true ∧
    given (exec (.writePerformed 5 ⟨0, true⟩) (line (st k))) (fun t => still (line (st k)) t && t.g.accs.map (fun a => a.lanes.map (fun l => (l.sent, l.done))) == [[(some 0, false)]] &&
      l1Find (smGet Core.reset t.cores 0) 0x800000 == some (512, (0x1122 : Lanes) <<< 64)) = true ∧
    inWindow token' 0x4000_0008 = true ∧ held token' 0x0A 6 = true ∧ held derived 0x0B 0x4000_0000 = true ∧
    go (standing (red (.sram 8))) (fun t => t.sram == [(10, 1)] && t.g.accs == []) = true ∧
    go (standing (red k)) (fun t => smBytes t.dram 0x4000_0008 4 == [0xB4, 0x92, 0, 0]) = true ∧
    given (exec (.deferredAccept 5 0) (standing d)) (fun t => (smGet Bank.reset t.banks (bankOf 0x4000_0008)).deferred == [⟨0x4000_0008, .s16, 7⟩] &&
      t.dram == (standing d).dram) = true := by
  unfold Lane1 accAt Writable; decide +kernel

/-- The same, a fence that nothing keeps any more and one that a store before it keeps. -/
theorem wit_accesses_fence :
    let f : Acc := { acc1 .fence 0 0 (.sram 0) 0 .none false none with acq := true, rel := true, scope := .clu, lanes := [] }
    let old : Acc := { acc1 .store 2 0x4000_0008 (.dram 0x4000_0008 0) 0 .none false none with stamp := 3 }
    let s : State := { standing f with stamp := 9, cores := [(0, { Core.reset with bankMode := [(0, 1), (1, 2)], l1 := [(512, some ⟨0x800000, 0⟩)] })] }
    let u : State := { s with g := { s.g with accs := [old, f] } }
    accAt s 5 = some f ∧ accAt u 5 = some f ∧ (fencesDone s.g f && fenceOpen s s.g f) = true ∧ (fencesDone u.g f && fenceOpen u u.g f) = false ∧
    given (exec (.resultArrival 5 1 0) s) (fun t => t.g.accs == [] && t.g.acquired == 9 && (smGet Core.reset t.cores 0).l1 == []) = true ∧
    same (exec (.resultArrival 5 1 0) u) u = true := by decide +kernel

/-- AccessesServed: a line that L1 holds stays when a `.nol1` load is served by its home. -/
theorem wit_line_kept :
    let a := { acc1 .load 2 0x4000_0008 (.dram 0x4000_0008 0) 0 (.x 3 16 true) false none with hint := .nol1 }
    let s : State := { standing a with cores := [(0, { Core.reset with bankMode := [(0, 1), (1, 2)], l1 := [(512, some ⟨0x800000, 0⟩)] })] }
    given (exec (.resultArrival 5 1 0) s) (fun t => t.g.readX 3 == 0xFFFF_FFFF_FFFF_9234 &&
      (smGet Core.reset t.cores 0).l1 == [(512, some ⟨0x800000, 0⟩)]) = true := by decide +kernel

/-- What `Settled` asks of a machine with no pending work. -/
theorem wit_settled : Settled (standing (acc1 .load 2 0x4000_0008 (.dram 0x4000_0008 0) 0 (.x 3 16 true) false none)) 0x4000_0008 2 0 :=
  ⟨⟨fun _ => rfl, fun _ => rfl⟩, by decide +kernel, fun _ => rfl⟩

/-- The same: a push, a pop, a zero-mask instruction, the TLBs. -/
theorem wit_units :
    let u := fun (a : Acc) (n : Nat) => ({ standing a with cores := [(0, { Core.reset with bankMode := [(0, 1), (1, 2)], units := [(1, [(0, 0, 5), (0, 1, 2)])], fifo := [(1, List.replicate n 9)] })] } : State)
    let push := acc1 .fifoPush 4 0x00FF_FF00_0000_8000 (.fifo 0 1) 7 .none false none
    let pop := acc1 .fifoPop 4 0x00FF_FF00_0000_8000 (.fifo 0 1) 0 (.x 3 32 false) false none
    let z := { acc1 .zeroMask 0 0 (.sram 0) 0 .none false none with ctl := false, lanes := [], wset := 2 }
    let left := fun (t : State) => smGet [] (smGet Core.reset t.cores 0).units 1 == [(0, 1, 2)]
    let queue := fun (t : State) => smGet [] (smGet Core.reset t.cores 0).fifo 1
    given (exec (.fifoUnit 0 1) (u push 2)) (fun t => left t && queue t == [9, 9, 7]) = true ∧
    given (exec (.fifoUnit 0 1) (u pop 2)) (fun t => left t && queue t == [9] && t.g.readX 3 == 9) = true ∧
    given (exec (.zeroMaskSlotFall 5) (standing z)) (fun t => t.g.accs == []) = true ∧
    given (exec .tlbInvalidation { standing z with tlb := [(4, none)], cores := [(0, { Core.reset with tlb := [(4, none)] })], quads := [(1, { Quad.reset with tlb := [(4, none)] })] })
      (fun t => t.tlb == [] && t.cores == [] && t.quads == []) = true ∧
    (let s : State := { standing (acc1 .load 2 0x4000_0008 (.dram 0x4000_0008 0) 0 (.x 3 16 true) false none) with tlb := [(4, none)] }
     given (exec .tlbInvalidation s) (fun t => t == { s with mgmt := { s.mgmt with changing := true } })) = true := by decide +kernel

/-- A mapping of one byte of the world's page table. -/
def oneByte : MapWrite := ⟨0x30010, 0, [0x0F]⟩

/-- The world with that mapping to come. -/
def mapping (changes : Bool) : State := { world with tlb := [(4, none)], mgmt := { world.mgmt with mappings := [⟨changes, [oneByte]⟩] } }

/-- The same: a mapping that changes a valid one is made with the invalidation of the TLBs; one whose row a copyout holds. -/
theorem wit_mappings :
    let s := mapping true
    let h : State := { s with rows := [(0x30010 / 2048, { Row.reset with copyout := some ⟨0, 1, 1⟩ })] }
    Unused s ∧ OneWrite ⟨true, [oneByte]⟩ oneByte s ∧
    given (exec .tlbInvalidation s) (fun t => t.mgmt.mappings == [] && t.tlb == [] && smGet 0 t.dram 0x30010 == 0x0F && t.sram == s.sram) = true ∧
    same (exec .tlbInvalidation h) h = true :=
  ⟨⟨fun h hh _ a ha => (by obtain rfl := List.mem_singleton.1 hh; cases ha), fun _ hb => (by cases hb)⟩,
    ⟨rfl, by decide, by decide, ⟨⟨fun _ => rfl, fun _ => rfl⟩, by decide +kernel, fun _ => rfl⟩, by decide +kernel, by decide +kernel⟩, by decide +kernel, by decide +kernel⟩

/-- An access that has used a translation. -/
theorem wit_used : ¬Unused (standing (acc1 .load 2 0x4000_0008 (.dram 0x4000_0008 0) 0 .none false none)) := fun h => by
  have := h.1 _ (List.mem_cons_self) rfl _ (List.mem_singleton.2 rfl) _ (List.mem_singleton.2 rfl) rfl
  rcases this with h | h
  · cases h
  · exact h _ _ rfl

/-! ## Faults -/

/-- A halted group whose one record has this code, slice and held operation. -/
def halted (code : BitVec 8) (vec : Bool) (held : Option Nat) (sent : Bool) : State :=
  let s := if vec then vmem else mem
  let r := s.g.ctlRec code 1 0 0
  { s with
    g := { s.g with recs := [⟨if vec then { r with orig := 1 } else r, sent, held, none, false, held.isNone && code == 0x0A⟩], accs := [acc1 .store 4 0x4000_0000 (.dram 0x4000_0000 0) 0 .none false (some (0x0A, 6))] }
    grids := [(0, some ⟨word0 0, 0x0800_0000_0000_0001, 0, 0, 0, 9, 8, none, false, false⟩)] }

/-- FaultsRecordedAndResolved: a record of either slice is queued, with and without a notification, and of a command. -/
theorem wit_records :
    let rec' := fun (v : Bool) (c : BitVec 8) (n : Nat) => given (exec (.faultRecord (if v then .vec else .ctl)) (halted c v none false)) fun t =>
      t.mgmt.faultQueue.map (·.code) == [c] && t.g.recs.map (·.sent) == [true] && t.mgmt.outbox.length == n
    let e := EngineRef.copy 0 1
    let fr := { mem.g.ctlRec 8 1 0 (handleOf e 1) with orig := 2 }
    let s := mem.setCtx e { EngCtx.reset with seq := 1, cmds := [{ cmd0 with started := true, susp := some 8, waiting := some fr }] }
    let ended := fun (c : BitVec 8) => mem.setCtx e { EngCtx.reset with seq := 1, cmds := [{ cmd0 with started := true, susp := some c }] }
    let u := mem.setCtx e { EngCtx.reset with seq := 1, cmds := [{ cmd0 with started := true }] }
    let due := fun (r : FaultRec) (ask : Option (Nat × BitVec 32)) => ({ u with mgmt := { u.mgmt with recsDue := [⟨r, ask⟩] } } : State)
    rec' false 8 1 = true ∧ rec' true 5 0 = true ∧ rec' false 0x0A 0 = true ∧
    given (exec (.faultRecord (.engine e)) s) (fun t => t.mgmt.faultQueue == [fr] && (t.ctx e).cmds.map (·.waiting) == [none]) = true ∧
    handleRef fr.info = some (e, 1) ∧
    given (exec (.faultRecord (.engine e)) (due fr (some (4, 5)))) (fun t => t.mgmt.faultQueue == [fr] && t.mgmt.recsDue == [] && t.ctx e == u.ctx e &&
      t.mgmt.outbox == [.notify 4 5 fr.words]) = true ∧
    (let gr := mem.g.ctlRec 9 1 0 0
     given (exec (.faultRecord .ctl) (due gr none)) (fun t => t.mgmt.faultQueue == [gr] && t.mgmt.recsDue == [] && t.g == u.g && t.mgmt.outbox == [])) = true ∧
    given (exec (.commandEndedInError e) (ended 3)) (fun t => (t.ctx e).endStat 1 == .error 3 && (t.ctx e).counter == 1) = true ∧
    same (exec (.commandEndedInError e) (ended 8)) (ended 8) = true := by decide +kernel

/-- A fault of the control slice leaves the vector slice, whose clause a pipe holds, one instruction to finish; that of a group whose vector
slice runs nothing leaves none; the instruction finishes, and its fault is a second record (R79). -/
theorem test_late :
    let h := 0x9300_0000_0000_0000#64
    let s : State := { vmem with
      g := { vmem.g with vpos := { vmem.g.vpos with code := [h, 0, 0xC30A_0000_001D_C000, 0, 0] } }
      cores := [(0, { Core.reset with seqGrant := [(0, some 0)], pipe := [(0, some 0)] })] }
    let f := fun (s : State) (p : State → Bool) => given (exec (.jmp al 12) s) p
    let x := fun (s : State) => ({ s with g := { s.g with x := [(12, 1)] } } : State)
    RunsClause false s ∧ ¬RunsClause false world ∧ f (x world) (fun t => t.g.late == none && t.g.halted) = true ∧
    f (x s) (fun t => t.g.late == some true && t.g.halted && lateVector t == some (⟨0, 0, 0, 0, 0⟩, 0xC30A_0000_001D_C000#64) &&
      given (step { t with agenda := [{ focus := none, act := .issueVector }] }) fun u => u.g.late == none && u.g.recs.length == 1 &&
        u.g.pend.map (·.ready) == [4]) = true := by
  unfold RunsClause; decide +kernel

/-- The same: the four resolutions, of either slice; a record that the firmware takes to the host. -/
theorem wit_resolutions :
    let r := fun (s : State) => s.g.recs.headD ⟨s.g.ctlRec 0 0 0 0, false, none, none, false, false⟩
    let q := halted 6 true none true
    let p : State := { q with cores := smUpd Core.reset q.cores 0 fun c => { c with relieved := true } }
    let d := halted 0x0A false (some 5) true
    let w0 := halted 0x0A false none true
    let w : State := { w0 with stamp := 9, g := { w0.g with accs := [] }, cores := [(0, { Core.reset with l1 := [(512, some ⟨0x800000, 0⟩)] })] }
    let c := halted 5 true none true
    let h := halted 8 false none true
    (r p).fr.code = 6 ∧ (r w).wait = true ∧ (r d).held = some 5 ∧ (r c).fr.code = 5 ∧ (r h).fr.code = 8 ∧
    same (exec (.replayHalt true) q) q = true ∧ given (exec (.replayHalt true) p) (fun t => t.g.recs == [] && t.g.vpos == p.g.vpos) = true ∧
    given (exec (.continueHalt false) w) (fun t => t.g.recs == [] && t.g.pos == mem.g.pos.next && t.g.acquired == 9 && (smGet Core.reset t.cores 0).l1 == []) = true ∧
    given (exec (.discardHalt false) d) (fun t => t.g.recs == [] && t.g.accs == []) = true ∧
    given (exec (.terminateHalt true) c) (fun t => t.g.recs.map (·.act) == [some .terminate] && (smGet none t.grids 0).map (·.term) == some true) = true ∧
    ([Instr.replayHalt false, .continueHalt false, .discardHalt false, .terminateHalt false].all fun i => same (exec i h) h) = true := by
  decide +kernel

/-- The same: what the firmware does by itself, with POL 0, and where it asks the host. -/
theorem wit_by_firmware :
    let r := fun (c : BitVec 8) (held : Option Nat) (wait : Bool) => (⟨mem.g.ctlRec c 0 0 0, true, held, none, false, wait⟩ : HaltRec)
    let s : State := { mem with teams := [] }
    let u : State := { mem with cores := [(0, { Core.reset with relieved := true })] }
    ByFirmware 0 (r 6 none false) .replay s ∧ ByFirmware 0 (r 6 none false) .replay u ∧ ¬ByFirmware 0 (r 6 none false) .replay mem ∧
    ByFirmware 0 (r 0x0A none true) .continue s ∧ ByFirmware 0 (r 0x0A (some 5) false) .discard s ∧
    ByFirmware 0 (r 5 none false) .terminate s ∧ ByFirmware 1 (r 0x0B (some 5) false) .terminate s ∧ AsksHost 0 8 ∧ AsksHost 2 0x0A := by
  unfold ByFirmware AsksHost Relieved; refine ⟨?_, ?_, ?_, ?_, ?_, ?_, ?_, ?_, ?_⟩ <;> decide +kernel

/-- The same: groups with one sent record of either slice. -/
theorem wit_stopped (c : BitVec 8) (vec : Bool) :
    ∃ r, Stopped vec r (halted c vec (some 5) true) ∧ r.fr.code = c := by
  cases vec <;> exact ⟨_, ⟨rfl, rfl, rfl, rfl, rfl, rfl, fun x hx => by
    obtain rfl := List.mem_singleton.1 hx; exact ⟨fun _ => rfl, fun k => ⟨nofun, nofun⟩⟩⟩, rfl⟩

/-- The same: message 0x06 for a malformed body, a suspended command and a group. -/
theorem wit_resolve_message :
    let e := EngineRef.copy 0 1
    let s := (halted 8 false none true).setCtx e { EngCtx.reset with seq := 1, cmds := [{ cmd0 with started := true, susp := some 8 }] }
    let answer := fun (t : State) (x : Word) => t.mgmt.outbox == [.reply 0 0x86 3 x]
    s.mgmt.state ≠ 1 ∧ handleRef 0x4100_0000_0000_0001 = some (e, 1) ∧
    given (exec (.resolveHalt 3 2 0 0) s) (fun t => answer t 0x15 && t.g == s.g) = true ∧ given (exec (.resolveHalt 3 1 0 4) s) (fun t => answer t 0x15) = true ∧
    same (exec (.resolveHalt 3 2 0 0) State.reset) State.reset = true ∧
    given (exec (.resolveHalt 3 1 0x4100_0000_0000_0001 0) s) (fun t => answer t 0 && (t.ctx e).cmds.map (·.susp) == [none]) = true ∧
    given (exec (.resolveHalt 3 1 0x4100_0000_0000_0001 1) s) (fun t => answer t 3 && t.ctx e == s.ctx e) = true ∧
    given (exec (.resolveHalt 3 1 0x4100_0000_0000_0001 0) (s.setCtx e { s.ctx e with cmds := [{ cmd0 with started := true, susp := some 0x0A }] }))
      (fun t => answer t 3 && (t.ctx e).cmds.map (·.susp) == [some 0x0A]) = true ∧
    given (exec (.resolveHalt 3 1 0x4100_0000_0000_0001 3) s) (fun t => answer t 0 && (t.ctx e).endStat 1 == .error 8) = true ∧
    given (exec (.resolveHalt 3 0 0 0) s) (fun t => answer t 0 && t.g.recs == [] && t.g.pos == s.g.pos) = true := by decide +kernel

/-- FaultsRecordedAndResolved: the host's replay of a suspended command, also in a pre-empted context, makes the mapping that is to come. -/
theorem wit_replay_maps :
    let e := EngineRef.copy 0 1
    let s := fun (p : Bool) => (mapping false).setCtx e { EngCtx.reset with seq := 1, preempted := p, cmds := [{ cmd0 with started := true, susp := some 8 }] }
    ([false, true].all fun p => given (exec (.resolveHalt 3 1 0x4100_0000_0000_0001 0) (s p)) fun t => t.mgmt.outbox == [.reply 0 0x86 3 0] &&
      (t.ctx e).cmds.map (·.susp) == [none] && t.mgmt.mappings == [] && smGet 0 t.dram 0x30010 == 0x0F) = true := by decide +kernel

/-! ## Pre-emption -/

/-- A launch of one cluster of one team of one group with all its lanes on die P0, at 0x4000_0100. -/
def lw : Cmd := ⟨0x0101_1104_0000_0000, 0x4000_0100, 0x0001_0001_0001_0000, 0, 0, 0, 0, 0⟩

/-- The running grid of that launch, all its clusters placed. -/
def grid1 : Grid := ⟨lw, 0x0800_0000_0000_0001, 0, 1, 1, 9, 8, none, false, false⟩

/-- Its core, die and slot. -/
def place1 : Placement := { die := 1, col := 0, row := 0, teams := [{ core := 0, slots := [4], tiles := [] }] }

/-- A machine whose cluster 0 is of context 1, while a cluster of context 0 waits to be placed. -/
def yielding (s : State) : State :=
  let t := s.setCtx (.launch 0) { EngCtx.reset with seq := 1, cmds := [{ cmd0 with started := true, w := lw }] }
  { t with grids := [(1, some { grid1 with next := 0 })], clusters := [(0, { Cluster.reset with teams := [0], grid := 2 ^ 48 + 1 })] }

/-- PreemptionSavesAndResumes: a request to a group at an open barrier with a result in flight, the save once it has halted and before; no
ground to pre-empt. -/
theorem wit_preempted :
    let n : State := { vmem with
      g := { vmem.g with block := .bar 3 0, x := [(5, 6)], pend := [⟨90, .reg 20 1, 3, mkLanes fun _ => 8, 0, 0⟩] }
      cores := [(0, { Core.reset with seqGrant := [(0, some 0)], pipe := [(0, some 0), (1, some 7)] })]
      teams := [(0, { Team.reset with slots := [0], bars := [(3, ⟨0, [0]⟩)] })] }
    let s := yielding n
    let h : State := { s with g := { s.g with preempted := true, block := .none, vpos := { s.g.vpos with pipe := none } } }
    mayYield s 0 = true ∧ mayYield n 0 = false ∧ same (exec (.preemptionRequest 0) n) n = true ∧ same (exec (.contextSave 0 0 false) n) n = true ∧
    given (exec (.preemptionRequest 0) s) (fun t => t.g.preempted && t.g.block == .none && t.g.pend == [] && lane (t.g.readV 20) 0 == 8 && t.g.vpos.pipe == none &&
      t.g.x == s.g.x && t.g.pos == s.g.pos && smGet none (smGet Core.reset t.cores 0).pipe 0 == none && smGet none (smGet Core.reset t.cores 0).pipe 1 == some 7 &&
      smGet none (smGet Core.reset t.cores 0).seqGrant 0 == none && t.team.bars == []) = true ∧
    same (exec (.contextSave 0 0 true) s) s = true ∧
    (clusterGroups h (smGet Cluster.reset h.clusters 0)).map (·.slot) = [0] ∧
    given (exec (.contextSave 0 0 true) h) (fun t => t.mgmt.saved.map (fun c => (c.id, c.teams.map fun w => (w.id, w.groups.map fun g => (g.x, g.masks, g.runnel.length)))) ==
      [(0, [(0, [([(5, 6)], [3], 1)])])] && t.teams == [] && t.clusters == [] && !t.g.live && t.dram == s.dram) = true := by decide +kernel

/-- The same: a request withdraws a waiting matrix entry; the save waits while a pass of the team runs. -/
theorem wit_preempted_entry :
    let n : MEntry := ⟨3, 0, 0, 0, .tzero, [9], [0x0000_0008_0020_0001], 3, 1, 0, 0, 5, 0⟩
    let w := yielding world
    let s : State := { w with
      g := { w.g with accs := [{ acc1 .matrix 0 0 (.sram 0) 0 .none false none with ctl := false, lanes := [] }] }
      quads := [(0, { Quad.reset with table := [n, { n with slot := 4, stamp := 6 }] })] }
    let h : State := { w with g := { w.g with preempted := true }, quads := [(0, { Quad.reset with running := [n] })] }
    given (exec (.preemptionRequest 0) s) (fun t => t.g.preempted && t.g.entries == [n] && t.quad.table == [{ n with slot := 4, stamp := 6 }]) = true ∧
    matrixRuns h 0 = true ∧ same (exec (.contextSave 0 0 true) h) h = true := by decide +kernel

/-- PreemptionSavesAndResumes: a core whose two groups halt, one of them for want of registers; the save of its newest team lets it go on. -/
theorem wit_preempted_core :
    let r : HaltRec := ⟨{ mem.g.ctlRec 6 0 0 0 with orig := 1 }, true, none, none, false, false⟩
    let s : State := { world with g := { world.g with recs := [r] }, others := [{ world.g with slot := 2, x := [(5, 6)] }], teams := [(0, { Team.reset with slots := [0, 2] })] }
    let h : State := { s with g := { s.g with preempted := true }, others := s.others.map fun o => { o with preempted := true } }
    mayYield s 0 = true ∧ ((s.g :: s.others).map fun h => (h.core, h.slot)).Nodup ∧
    given (exec (.preemptionRequest 0) s) (fun t => (t.g :: t.others).all (·.preempted) && t.g.recs == [r] && t.others.map (·.x) == [[(5, 6)]]) = true ∧
    given (exec (.contextSave 0 0 false) h) (fun t => t.mgmt.saved.map (·.id) == [0] && t.teams == [] && (smGet Core.reset t.cores 0).relieved) = true := by
  decide +kernel

/-- The same: the saved cluster on slot 4, and not on a slot in use; engine contexts. -/
theorem wit_resumed :
    let tm : Team := { Team.reset with slots := [0] }
    let st : SavedTeam := ⟨0, tm, [{ world.g with x := [(5, 6)] }], [], [(3, 7)], [], [], [], none, []⟩
    let sv : SavedCluster := ⟨0, { Cluster.reset with teams := [0] }, [st]⟩
    let s : State := { State.reset with mgmt := { world.mgmt with saved := [sv] }, grids := [(0, some grid1)] }
    let u : State := { s with teams := [(6, { Team.reset with slots := [4], cluster := 6 })] }
    let e := EngineRef.copy 0 1
    let c := fun (st : Bool) => world.setCtx e { EngCtx.reset with seq := 1, cmds := [{ cmd0 with started := st }] }
    shapeOk s lw place1 = true ∧ tilesApart place1 = true ∧
    (sv.teams.zip place1.teams).all (fun x => coreFits s (savedNeed x.1) x.2 (tileBack s x.1 x.2) && ownerFits s x.1 x.2) = true ∧
    given (exec (.contextResume 0 place1) s) (fun t => t.mgmt.saved == [] && t.teams == [(0, { tm with slots := [4], placed := 1 })] && (t.g :: t.others).any (fun g => g.live && g.slot == 4 && g.x == [(5, 6)]) &&
      t.clusters == [(0, { Cluster.reset with teams := [0], die := 1 })] && t.dram == s.dram) = true ∧
    (sv.teams.zip place1.teams).all (fun x => coreFits u (savedNeed x.1) x.2 (tileBack u x.1 x.2)) = false ∧
    same (exec (.contextResume 0 place1) u) u = true ∧
    given (exec (.engineContextPreemption e) (c false)) (fun t => (t.ctx e).preempted) = true ∧ same (exec (.engineContextPreemption e) (c true)) (c true) = true ∧
    given (exec (.engineContextResume e) (c true)) (fun t => !(t.ctx e).preempted) = true := by decide +kernel

/-! ## Launches -/

/-- A machine at full service with one command in launch context 0. -/
def queued (k : ECmd) (gr : Option Grid) : State :=
  { State.reset with
    grids := [(1, gr)].filter (·.2.isSome)
    mgmt := { Mgmt.reset with state := 3, spaces := [(3, some 0x10000)], launch := [(0, { EngCtx.reset with seq := 1, cmds := [k] })] } }

/-- LaunchesRunTheirGrids: the message, the start of a launch that passes the checks and of one that names no die. -/
theorem wit_launches :
    let e := EngineRef.launch 0
    let ok : Cmd := { lw with w6 := 3 }
    let k := { cmd0 with w := ok, host := true }
    let bad := { cmd0 with w := { ok with w0 := 0x0100_1104_0000_0000 }, host := true }
    let m := fun (n : Nat) => world.setCtx e { EngCtx.reset with seq := 7, cmds := List.replicate n cmd0 }
    let body := [ok.w0, ok.w1, ok.w2, ok.w3, ok.w4, ok.w5, ok.w6, ok.w7]
    given (exec (.launchMessage 1 5 9 body) (m 63)) (fun t => t.mgmt.outbox == [.reply 9 0x81 5 0x0800_0000_0000_0008] && ((t.ctx e).cmds.getLast?.map fun k => (k.seq, k.bad, k.host)) == some (8, false, true)) = true ∧
    given (exec (.launchMessage 0x4F 5 9 [0]) (m 63)) (fun t => t.mgmt.outbox == [.reply 9 0xCF 5 0x15] && t.ctx e == (m 63).ctx e) = true ∧
    given (exec (.launchMessage 1 5 9 body) (m 64)) (fun t => t.mgmt.outbox == [.reply 9 0x81 5 3] && t.ctx e == (m 64).ctx e) = true ∧
    ((queued k none).ctx e).head = some k ∧ launchOk (queued k none) k = true ∧ launchOk (queued bad none) bad = false ∧
    given (exec (.launchStart ⟨0, none⟩) (queued k none)) (fun t => (t.ctx e).cmds.map (·.started) == [true] && (smGet none t.grids 1).map (fun g => (g.handle, g.next, g.open_, g.asid)) ==
      some (0x0800_0000_0000_0001, 0, 0, 3)) = true ∧
    given (exec (.launchStart ⟨0, none⟩) (queued bad none)) (fun t => (t.ctx e).endStat 1 == .error 0x15 && t.grids == [] && t.teams == []) = true := by decide +kernel

/-- The same: in state 1 nothing is answered; the launch of an iteration on token die T0 with one sequence ready for decode and a slice of four
tokens of a prompt of six, one with a budget that does not fit, one beside the earlier grid, one on no token die. -/
theorem wit_iterations :
    let e := EngineRef.launch 0
    let it := fun (b : Nat) => ({ budget := b, come := [⟨9, 0, 6, (0, 0)⟩], gone := [], cnts := [4] } : Iteration)
    let k := fun (die : Word) => { cmd0 with w := { lw with w0 := 0x0100_1104_0000_0000 ||| die <<< 48, w3 := 0x4000_0000 } }
    let s := fun (die : Word) => ({ world.setCtx e { EngCtx.reset with seq := 1, cmds := [k die] } with
      dram := world.dram ++ [(0x4000_0001, 8), (0x4000_0003, 0x40)], mgmt := { world.mgmt with serving := [(3, { Serving.reset with decoding := [⟨7, 5, 0, (0, 0)⟩] })], launch := [(0, { EngCtx.reset with seq := 1, cmds := [k die] })] } } : State)
    let go := fun (b : Nat) (u : State) => exec (.launchStart ⟨0, some (it b)⟩) u
    let busy : State := { s 4 with grids := [(0, some grid1)] }
    let v : Serving := { iter := 1, grid := 1, waiting := [⟨9, 4, 2, (0, 0)⟩], decoding := [⟨7, 6, 0, (0, 0)⟩] }
    same (exec (.launchMessage 1 5 9 []) State.reset) State.reset = true ∧
    launchOk (s 4) (k 4) = true ∧ launchOk (s 1) (k 1) = true ∧ Settled (s 4) 0x4000_0800 48 0 ∧
    (match engTranslate (s 4) (.die 0) 0 0x4000_0800 48 2 with | .ok l => l == .dram 0x4000_0800 0 | _ => false) = true ∧
    given (go 8 (s 4)) (fun t => smGet Serving.reset t.mgmt.serving 3 == v && t.grids.map (·.1) == [1] &&
      smBytes t.dram 0x4000_0800 48 == [8, 0, 1, 0, 1, 0, 0, 0, 0, 0, 0, 0, 0, 0, 0, 0, 5, 0, 0, 0, 7, 0, 0, 0, 1, 0, 0, 0, 0, 0, 0, 0,
        0, 0, 0, 0, 9, 0, 0, 0, 4, 0, 0, 0, 0, 0, 0, 0]) = true ∧
    same (go 4 (s 4)) (s 4) = true ∧ same (go 8 busy) busy = true ∧ same (go 8 (s 1)) (s 1) = true := by
  refine ⟨?_, ?_, ?_, ⟨⟨fun _ => rfl, fun _ => rfl⟩, by decide +kernel, fun _ => rfl⟩, ?_, ?_, ?_, ?_, ?_⟩ <;> decide +kernel

/-- The same: a sequence that comes with its prompt prefilled, before its flag has its generation, without one, and once the flag is there. -/
theorem wit_iterations_flag :
    let k : ECmd := { cmd0 with w := { lw with w0 := 0x0104_1104_0000_0000, w3 := 0x4000_0000 } }
    let w := world.setCtx (.launch 0) { EngCtx.reset with seq := 1, cmds := [k] }
    let s : State := { w with dram := world.dram ++ [(0x4000_0001, 8), (0x4000_0003, 0x40), (0x4000_0900, 3)] }
    let go := fun (gen : Word) => exec (.launchStart ⟨0, some { budget := 8, come := [⟨7, 5, 0, (0x4000_0900, gen)⟩], gone := [], cnts := [] }⟩) s
    let read := fun (p : State × List Byte → Bool) => match engRead (.die 0) 0 0x4000_0900 8 s with | .ok r => p r | _ => false
    same (go 4) s = true ∧ same (go 0) s = true ∧ read (fun r => still s r.1 && leNat r.2 == 3) = true ∧
    (flagSeen 0 ⟨7, 5, 0, (0x4000_0900, 2)⟩ s).isSome = true := by
  decide +kernel

/-- The same: a reclaim of the page of `pages`: malformed, without its list, of a page of no window, behind a flag store, done, and its end. -/
theorem wit_reclaims :
    let e := EngineRef.launch 0
    let k := fun (w1 w2 : Word) => { cmd0 with w := ⟨0x0200_0000_0000_0000, w1, w2, 9, 0, 0, 0, 0⟩ }
    let s := fun (k : ECmd) => ({ pages with owners := [(0x4001, ⟨true, 6⟩)], mgmt := { pages.mgmt with launch := [(0, { EngCtx.reset with seq := 1, cmds := [k] })] } } : State)
    let go := fun (k : ECmd) (p : State → Bool) => given (exec (.elementDelivery e) (s k)) p
    let fails := fun (t : State) => (t.ctx e).endStat 1 == .error 0x15 && (t.ctx e).counter == 1 && t.owners == [(0x4001, ⟨true, 6⟩)]
    let f : State := { s (k 0x4000_0000 1) with g := { pages.g with accs := [acc1 .flagStore 8 0x4001_0000 (.dram 0x4001_0000 0) 7 .none false none] } }
    go (k 0x4000_0000 0) fails = true ∧ go (k 0 1) fails = true ∧ go (k 0x4000_0008 1) fails = true ∧
    flagPending f [0x4001] = true ∧ same (exec (.elementDelivery e) f) f = true ∧ flagPending (s (k 0x4000_0000 1)) [0x4001] = false ∧
    go (k 0x4000_0000 1) (fun t => smGet Owner.reset t.owners 0x4001 == ⟨false, 9⟩ && (t.ctx e).cmds.map (fun q => (q.started, q.fin)) == [(true, none)]) = true ∧
    go { k 0x4000_0000 1 with started := true } (fun t => (t.ctx e).endStat 1 == .completed && t.owners == [(0x4001, ⟨true, 6⟩)]) = true := by decide +kernel

/-- The same: the placement of a cluster, the start of its group under a mask of 20 lanes, and its end. -/
theorem wit_placed :
    let k := { cmd0 with w := lw, started := true }
    let s := queued k (some { grid1 with next := 0, open_ := 0 })
    let lw20 : Cmd := { lw with w0 := 0x0101_1102_8000_0000 }
    let b : Bind := ⟨true, 0, 0x4000_0100, 0, 4, 1, 0, 0, 0, 0, 0⟩
    let r : State := { queued k (some { grid1 with w := lw20 }) with
      teams := [(0, { Team.reset with grid := 1, slots := [4] })], clusters := [(0, { Cluster.reset with grid := 1, teams := [0] })], cores := [(0, { Core.reset with bind := [(4, b)] })] }
    runningLaunch s 0 = some (k, { grid1 with next := 0, open_ := 0 }) ∧ shapeOk s lw place1 = true ∧
    (place1.teams.all fun p => coreFits s (launchNeed lw) p (fun _ x => tileFree s (quadOfCore p.core) x)) = true ∧
    given (exec (.teamPlacement 0 place1) s) (fun t => t.clusters == [(0, ⟨1, 1, 1, 1, [1], [], []⟩)] && (smGet Team.reset t.teams 1).slots == [4] && (smGet none t.grids 1).map (fun g => (g.next, g.open_)) == some (1, 1) &&
      smGet Bind.reset (smGet Core.reset t.cores 0).bind 4 == b) = true ∧
    ((coreTeams r 0).find? fun p => p.2.slots.contains 4).map (·.1) = some 0 ∧
    given (exec (.groupStart 0 4) r) (fun t => t.g.live && t.g.slot == 4 && t.g.pos == ⟨0x4000_0100, 0, 0, []⟩ && t.g.masks == [0x000F_FFFF] && t.g.id.nlane == 20) = true := by decide +kernel

/-- The same: the end of a group, of its grid, of a terminated one; a store that a home holds. -/
theorem wit_ends :
    let k := { cmd0 with w := lw, started := true, host := true, ep := 9, tag := 5 }
    let s : State := { queued k (some grid1) with
      g := { world.g with exited := true }, teams := [(0, { Team.reset with grid := 1, slots := [0, 1] })], clusters := [(0, { Cluster.reset with grid := 1, teams := [0] })] }
    let one : State := { s with teams := [(0, { Team.reset with grid := 1, slots := [0] })] }
    let held' : State := { s with g := { s.g with accs := [acc1 .store 4 0x4000_0000 (.dram 0x4000_0000 0) 0 .none false (some (0x0A, 6))] } }
    let e := EngineRef.launch 0
    let done := queued k (some { grid1 with open_ := 0 })
    let term : State := { s with grids := [(1, some { grid1 with term := true, err := some 8 })] }
    let put := { acc1 (.rput 0x0030_0814) 4 0 (.capa 0) 0 .none false none with ctl := false, wset := 0 }
    given (exec .groupEnd s) (fun t => !t.g.live && t.team.ended == [0] && t.dram == s.dram) = true ∧
    given (exec .groupEnd one) (fun t => !t.g.live && t.teams == [] && t.clusters == [] && (smGet none t.grids 1).map (·.open_) == some 0) = true ∧
    given (exec .groupEnd held') (fun t => t.g.live && t.g.recs.map (fun r => (r.fr.code, r.fr.imprec, r.held)) == [(0x0A, true, some 5)]) = true ∧
    given (exec (.gridEnd 0) done) (fun t => (t.ctx e).endStat 1 == .completed && t.grids == [] && t.mgmt.outbox == [.reply 9 0x81 5 0]) = true ∧
    given (exec (.gridEnd 0) term) (fun t => (t.ctx e).endStat 1 == .error 8 && t.grids == [] && t.teams == [] && !t.g.live) = true ∧
    given (exec .groupEnd { s with g := { s.g with accs := [put] } }) (fun t => !t.g.live && t.clusters.map (fun c => c.2.puts.map fun p => (p.core, p.slot, p.acc)) == [[(0, 0, put)]] &&
      t.team.kept.length == 1) = true ∧
    (let w : State := { s with g := { s.g with accs := [{ acc1 .store 4 0x4000_0000 (.dram 0x4000_0000 0) 0 .none false none with wset := 0 }] } }; same (exec .groupEnd w) w) = true ∧
    same (exec (.gridEnd 0) s) s = true := by decide +kernel

/-- LaunchesRunTheirGrids: the start of a group is an acquire and leaves its core's L1 empty; the end of a terminated grid leaves the records of
its groups due, of resident ones and of saved ones. -/
theorem wit_due :
    let b : Bind := ⟨true, 0, 0x4000_0100, 0, 4, 1, 0, 0, 0, 0, 0⟩
    let k := { cmd0 with w := lw, started := true }
    let r : State := { queued k (some grid1) with
      teams := [(0, { Team.reset with grid := 1, slots := [4] })], cores := [(0, { Core.reset with bind := [(4, b)], l1 := [(512, some ⟨0x800000, 0⟩)] })], stamp := 6 }
    let rec' : HaltRec := ⟨mem.g.ctlRec 8 1 0 0, false, none, none, false, false⟩
    let old : HaltRec := ⟨mem.g.ctlRec 9 1 0 0, false, none, none, false, false⟩
    let sv : SavedTeam := ⟨1, Team.reset, [{ world.g with recs := [old] }], [], [], [], [], [], none, []⟩
    let u := queued k (some { grid1 with term := true, err := some 8 })
    let t : State := { u with
      g := { world.g with recs := [rec'] }, teams := [(0, { Team.reset with grid := 1, slots := [0] })], clusters := [(0, { Cluster.reset with grid := 1, teams := [0] })]
      mgmt := { u.mgmt with saved := [⟨2, { Cluster.reset with grid := 1, teams := [1] }, [sv]⟩] } }
    given (exec (.groupStart 0 4) r) (fun t => t.g.live && t.g.acquired == 7 && (smGet Core.reset t.cores 0).l1 == []) = true ∧
    runningLaunch t 0 = some (k, { grid1 with term := true, err := some 8 }) ∧ ((t.g :: t.others).map fun h => (h.core, h.slot)).Nodup ∧
    given (exec (.gridEnd 0) t) (fun t => t.mgmt.recsDue.map (·.fr.code) == [8, 9] && t.mgmt.saved == []) = true := by decide +kernel

/-- The same: barrier phases, complete with an ended group, one short, and one whose group has halted after it arrived. -/
theorem wit_phases :
    let s := fun (a : List Nat) (cl : List (Nat × Nat)) => ({ world with
      teams := [(0, { Team.reset with slots := [0, 1, 2], ended := [1], bars := [(3, ⟨5, a⟩)] })]
      clusters := [(0, { Cluster.reset with teams := [0], cbar := [(2, (5, cl))] })] } : State)
    given (exec (.barPhaseComplete 3) (s [2, 0] [])) (fun t => t.team.bars == [(3, ⟨6, []⟩)]) = true ∧ same (exec (.barPhaseComplete 3) (s [2] [])) (s [2] []) = true ∧
    same (exec (.barPhaseComplete 4) (s [2] [])) (s [2] []) = true ∧
    (let h : State := { s [2, 0] [] with g := { world.g with preempted := true } }; same (exec (.barPhaseComplete 3) h) h) = true ∧
    given (exec (.clusterBarrierPhase 2) (s [] [(0, 0), (0, 2)])) (fun t => t.cbar 2 == (6, [])) = true ∧
    same (exec (.clusterBarrierPhase 2) (s [] [(0, 1), (0, 2)])) (s [] [(0, 1), (0, 2)]) = true := by decide +kernel

/-- The same: a cluster barrier whose arrivals are all there waits for a release that was issued before one of them. -/
theorem wit_barrier_late :
    let a := { acc1 .store 4 0x4000_0000 (.dram 0x4000_0000 0) 0 .none false none with rel := true, scope := .clu }
    let s := fun (at_ : Nat) => ({ world with
      g := { world.g with accs := [a], cbarAt := [(2, at_)] }
      clusters := [(0, { Cluster.reset with teams := [0], cbar := [(2, (5, [(0, 0)]))] })] } : State)
    releaseOpen (s 6) (s 6).g 6 = true ∧ same (exec (.clusterBarrierPhase 2) (s 6)) (s 6) = true ∧
    releaseOpen (s 5) (s 5).g 5 = false ∧ given (exec (.clusterBarrierPhase 2) (s 5)) (fun t => t.cbar 2 == (6, [])) = true := by decide +kernel

/-! ## Rows -/

/-- Row 524288 of basin 0, bytes 5 and 6 at its start, with its record; context 1 of the basin holds this command. -/
def rowed (w : Row) (k : ECmd) : State :=
  { (world.setCtx (.basin 0 1) { EngCtx.reset with seq := 1, cmds := [k] }) with
    dram := world.dram ++ [(0x4000_0000, 5), (0x4000_0001, 6)], rows := [(524288, w)] }

/-- RowsTurnRecomputeAndDrain: a pending fill turned by a refresh and by force, a row with nothing pending. -/
theorem wit_turns :
    let b := bankOf 0x4000_0000
    let f : WeirFn := ⟨4, 0x0A, 0x0102_0304, 0⟩
    let k := { cmd0 with started := true, rows := [524288], regDone := true, forced := true }
    let w := { Row.reset with pending := some (⟨0, 1, 1⟩, f) }
    let s : State := { rowed w k with banks := [(b, { Bank.reset with ptr := rowInBank 0x4000_0000 })] }
    let turned := fun (t : State) => (rowAt t 524288).pending == none && (t.ctx (.basin 0 1)).endStat 1 == .completed && t.sram == s.sram
    rowOfBank b (rowInBank 0x4000_0000) = 524288 ∧ cmdOf s ⟨0, 1, 1⟩ = some k ∧ (transformRow s 524288 f).take 6 = [4, 3, 2, 1, 4, 3] ∧
    given (exec (.refreshRestore b) s) (fun t => turned t && (smGet Bank.reset t.banks b).ptr == (rowInBank 0x4000_0000 + 1) % 65536) = true ∧
    given (exec (.refreshRestore b) { s with rows := [] }) (fun t => t == { s with rows := [], banks := t.banks }) = true ∧
    given (exec (.forcedActivation b) s) turned = true ∧
    same (exec (.forcedActivation b) { s with rows := [] }) { s with rows := [] } = true := by decide +kernel

/-- A forced activation passes by the nearest forced row while its copyout finds no room in the drain. -/
theorem wit_forced_past :
    let b := bankOf 0x4000_0000
    let p := rowInBank 0x4000_0000
    let r := rowOfBank b (p + 1)
    let ref : CmdRef := ⟨0, 1, 1⟩
    let k := { cmd0 with started := true, rows := [524288, r], regDone := true, forced := true }
    let w := { Row.reset with pending := some (ref, ⟨4, 0x0A, 0, 0⟩) }
    let u := rowed w k
    let s : State := { u with rows := smPut Row.reset [(524288, { w with copyout := some ⟨0, 2, 1⟩ })] r w, banks := [(b, { Bank.reset with ptr := p })], mgmt := { u.mgmt with drainCap := 0 } }
    bankOf (r * 2048) = b ∧ given (exec (.forcedActivation b) s) (fun t => (rowAt t r).pending == none && (rowAt t 524288).pending.isSome) = true := by
  decide +kernel

/-- The same: a capture for a store that waits, the registrations of a sweep, a rule and a snapshot. -/
theorem wit_registered :
    let ref : CmdRef := ⟨0, 1, 1⟩
    let k := fun (c : BitVec 8) => { cmd0 with started := true, rows := [524288], w := { word0 (c.zeroExtend 64 <<< 56 ||| 0x0000_1100_0000_0000) with w3 := 0x0000_0009_0000_0008, w4 := 3 } }
    let st := acc1 .store 4 0x4000_0004 (.dram 0x4000_0004 0) 0 .none false none
    let cap : State := { rowed { Row.reset with copyout := some ref } { k 9 with res := [524288] } with g := { world.g with accs := [{ st with lanes := st.lanes.map fun l => { l with sent := some 0 } }] } }
    let none_ : State := { cap with rows := [] }
    let full : State := { cap with mgmt := { cap.mgmt with drainCap := 0 } }
    let sn := { k 9 with registered := [524288], regDone := true }
    let s6 := rowed Row.reset { k 6 with res := [524300] }
    let s9 : State := { rowed Row.reset sn with coll := { Coll.reset with sigma := 0x0000_0009_0000_0008 } }
    given (exec (.demandCapture 524288) cap) (fun t => (rowAt t 524288).copyout == none && t.dram == cap.dram &&
      (smGet Basin.reset t.basins 0).drain.map (fun c => (c.snap, c.target, c.s, c.indices, c.data.take 3)) == [(ref, 3, 0x0000_0009_0000_0008, [0], [5, 6, 0])]) = true ∧
    same (exec (.demandCapture 524288) none_) none_ = true ∧ same (exec (.demandCapture 524288) full) full = true ∧
    given (exec (.registration 0 1 524288) (rowed Row.reset (k 1))) (fun t => (rowAt t 524288).pending == some (ref, ⟨1, 2, 8, 9⟩)) = true ∧
    newRule { k 6 with res := [524300] } 524288 = some ⟨1, 2, [524300]⟩ ∧
    given (exec (.registration 0 1 524288) s6) (fun t => (rowAt t 524288).rule == some ⟨1, 2, [524300]⟩ && (rowAt t 524288).stale && (rowAt t 524300).deps == [524288]) = true ∧
    (s9.coll.sigma - sn.w.w3).toNat < 2 ^ 63 ∧
    given (exec (.registration 0 1 524288) s9) (fun t => (rowAt t 524288).copyout == some ref) = true := by decide +kernel

/-- A store to byte 4 of row 524288 that stands in its core's write-through buffer. -/
def buffered : Group :=
  let st := acc1 .store 4 0x4000_0004 (.dram 0x4000_0004 0) 0 .none false none
  { world.g with accs := [{ st with lanes := st.lanes.map fun l => { l with sent := some 0 } }] }

/-- The three ways of `WriteHeld`: a store, a write of a command, a registration of rules. -/
theorem wit_write_held :
    let k := fun (h : Option Nat) => { cmd0 with w := word0 0x0600_0000_0000_0000, started := true, rows := [524288], holds := h }
    WriteHeld { world with g := buffered } 524288 ∧ WriteHeld (rowed Row.reset (k (some 524288))) 524288 ∧ WriteHeld (rowed Row.reset (k none)) 524288 :=
  ⟨.inl ⟨rfl, _, List.mem_singleton.2 rfl, rfl, _, List.mem_singleton.2 rfl, rfl, ⟨_, _, rfl, rfl⟩, by decide +kernel⟩,
    .inr (.inl ⟨.basin 0 1, _, List.mem_singleton.2 rfl, rfl, rfl⟩),
    .inr (.inr ⟨0, 1, _, List.mem_singleton.2 rfl, rfl, rfl, rfl, by decide, by decide⟩)⟩

/-- A result slot whose row a copyout holds stays with its sweep, and is written when the copyout is captured. -/
theorem wit_slot_held :
    let b := bankOf 0x4000_0000
    let ref : CmdRef := ⟨0, 1, 1⟩
    let k := { cmd0 with started := true, rows := [524288], res := [0x4000_0800], regDone := true }
    let w := { Row.reset with pending := some (ref, ⟨6, 0x0A, 0, 0⟩) }
    let u := rowed w k
    let s : State := { u with rows := [(524288, w), (524289, { Row.reset with copyout := some ⟨0, 2, 1⟩ })], banks := [(b, { Bank.reset with ptr := rowInBank 0x4000_0000 })] }
    let q := { cmd0 with w := word0 0x0900_0000_0000_0000, started := true, rows := [524289], slots := [(0x4000_0800, 9)] }
    let c := rowed Row.reset q
    let c1 : State := { c with rows := [(524289, { Row.reset with copyout := some ref })] }
    (1, 4, some fp32) ∈ weirFormats ∧ (10, 4, none) ∈ weirFormats ∧
    given (exec (.refreshRestore b) s) (fun t => still s t && (rowAt t 524288).pending == none &&
      (t.ctx (.basin 0 1)).cmds.map (fun q => q.slots.map (·.1)) == [[0x4000_0800]]) = true ∧
    slotHolders c1 524289 = [(ref, q)] ∧
    given (exec (.demandCapture 524289) c1) (fun t => (rowAt t 524289).copyout == none && smGet 0 t.dram 0x4000_0800 == 9) = true := by decide +kernel

/-- A snapshot of two rows places both copyouts in one event. -/
theorem wit_placed_whole :
    let k := { cmd0 with started := true, rows := [524288, 524290], registered := [524288, 524290], regDone := true, w := { word0 0x0900_0000_0000_0000 with w3 := 7 } }
    let u := rowed Row.reset k
    let s : State := { u with coll := { u.coll with sigma := 7 } }
    given (exec (.registration 0 1 524288) s) (fun t => ([524288, 524290].all fun r => (rowAt t r).copyout == some ⟨0, 1, 1⟩)) = true := by decide +kernel

/-- The same: the drain of a captured row, the end record of a snapshot of one row, and its acknowledgement. -/
theorem wit_drained :
    let k := { cmd0 with started := true, regDone := true, rows := [524288], turned := [524288], w := { word0 0x0900_0000_0000_0000 with w3 := 7, w4 := 3 } }
    let c : Captured := ⟨⟨0, 1, 1⟩, 3, 7, [2], List.replicate 2048 1⟩
    let s := rowed Row.reset k
    let d : State := { s with basins := smUpd Basin.reset s.basins 0 fun b => { b with drain := [c] } }
    let a := rowed Row.reset { k with elem := 1 }
    given (exec (.snapshotDrainRecord 0) d) (fun t => (smGet Basin.reset t.basins 0).drain == [] &&
      t.mgmt.outbox == [.drain 3 4128 ([7, 0, 0, 0, 0, 0, 0, 0, 2, 0, 0, 0, 0, 0, 0, 0] ++ List.replicate 2048 1)]) = true ∧
    recordDue s 0 = some (⟨0, 1, 1⟩, k) ∧
    given (exec (.snapshotDrainRecord 0) s) (fun t =>
      t.mgmt.outbox == [.drain 3 2064 ([7, 0, 0, 0, 0, 0, 0, 0, 0xFE, 0xFF, 0xFF, 0xFF, 0xFF, 0xFF, 0xFF, 0xFF, 1] ++ List.replicate 2047 0)]) = true ∧
    given (exec (.drainAcknowledgement 3) a) (fun t => (t.ctx (.basin 0 1)).endStat 1 == .completed && (t.ctx (.basin 0 1)).counter == 1) = true := by decide +kernel

/-- The same: a recompute of a transpose whose one base row holds one element, at row 1 and column 0. -/
theorem wit_recomputed :
    let s : State := { world with dram := [(0x4000_0840, 5)], rows := [(524288, { Row.reset with rule := some ⟨1, 2, [524289]⟩, stale := true })] }
    let two : State := { s with rows := [(524288, { Row.reset with rule := some ⟨2, 2, [524289, 524290]⟩, stale := true })] }
    given (exec (.recompute 524288) s) (fun t => !(rowAt t 524288).stale && (rowAt t 524288).part == []) = true ∧
    (deriveBytes ⟨1, 2, [524289]⟩ [rowBytes s 524289]).take 4 = [0, 0, 5, 0] ∧
    given (exec (.recompute 524288) two) (fun t => t.dram == s.dram && (rowAt t 524288).stale && (rowAt t 524288).part.length == 1) = true := by decide +kernel

/-- The poison of a base counts as it is read by the recompute. -/
theorem wit_taint :
    let s : State := { world with poison := [(64 * 524289 + 3, true)], rows := [(524288, { Row.reset with rule := some ⟨2, 2, [524289, 524290]⟩, stale := true })] }
    given (exec (.recompute 524288) s) (fun t => (rowAt t 524288).taint == [[3]]) = true := by decide +kernel

/-- What stops a command of the basins: its code, the access and the element of its record. -/
def stopped (e : EngineRef) (s : State) (code : BitVec 8) (acc : BitVec 4) (t : State) : Bool :=
  still s t && (t.ctx e).cmds.map (fun q => (q.susp, q.elem)) == [(some code, 0)] && (t.ctx e).cmds.map (fun q => q.waiting.map fun f => (f.code, f.acc)) == [some (code, acc)]

/-- The same, `row.copy` and `row.zero`: no translation of either side, the other side's page, a derived row, a copyout, the read event of a
copy between banks, the only row zeroed. -/
theorem wit_row_commands :
    let e := EngineRef.basin 0 1
    let k := fun (c : BitVec 8) (a b : Word) => { cmd0 with w := ⟨c.zeroExtend 64 <<< 56, a, b, 1, 0, 0, 0, 0⟩ }
    let go := fun (s : State) (p : State → Bool) => given (exec (.elementDelivery e) s) p
    let zero := rowed Row.reset (k 5 0 0x4000_0000)
    let copy := rowed Row.reset (k 4 0x4000_0000 0x4000_0800)
    let other : State := { zero with mgmt := { world.mgmt with win0 := (0x4000_0000, 0x10000) }, owners := [(0x4000, ⟨true, 6⟩)] }
    let derived := rowed { Row.reset with rule := some ⟨1, 2, [9]⟩ } (k 5 0 0x4000_0000)
    let held := rowed { Row.reset with copyout := some ⟨0, 2, 1⟩ } (k 5 0 0x4000_0000)
    (match rowPlace zero (.die (dieOfBasin 0)) 0 0x4000_0000 2048 true with | .ok p => p == (0x4000_0000, 0) | _ => false) = true ∧
    rowClash zero (0x4000_0000, 0) = false ∧ Writable zero false 0x4000_0000 ∧
    (bankOf 0x4000_0000 = bankOf 0x4000_0800 ∧ rowInBank 0x4000_0000 / 512 = rowInBank 0x4000_0800 / 512 → False) ∧
    (let s := rowed Row.reset (k 4 0 0x4000_0000); go s (stopped e s 8 1)) = true ∧ (let s := rowed Row.reset (k 5 0 0); go s (stopped e s 8 2)) = true ∧
    go other (stopped e other 0x0A 2) = true ∧ go derived (stopped e derived 0x0B 2) = true ∧
    go held (fun t => still held t && (t.ctx e).cmds.map (·.holds) == [some 0x80000]) = true ∧
    go zero (fun t => (t.ctx e).endStat 1 == .completed) = true ∧
    go copy (fun t => (t.ctx e).cmds.map (fun q => (q.elem, q.block.length, q.block.headD 0)) == [(0, 256, 0x605)]) = true := by
  unfold Writable; decide +kernel

/-- A `row.copy` of a row with a poisoned sector. -/
theorem wit_copy_poisoned :
    let e := EngineRef.basin 0 1
    let u := rowed Row.reset { cmd0 with w := ⟨0x0400_0000_0000_0000, 0x4000_0000, 0x4000_0800, 1, 0, 0, 0, 0⟩ }
    let s : State := { u with poison := [(64 * 0x80000 + 5, true)] }
    given (exec (.elementDelivery e) s) (stopped e s 0x14 1) = true := by decide +kernel

/-- The same, `derive.drop` and `derive.flush` at a row with a rule that is not stale, a row without one, and an address without
translation. -/
theorem wit_derived_commands :
    let e := EngineRef.basin 0 1
    let k := fun (c : BitVec 8) (b : Word) => { cmd0 with w := ⟨c.zeroExtend 64 <<< 56, 0, b, 0, 0, 0, 0, 0⟩, started := true }
    let s := fun (c : BitVec 8) => ({ rowed Row.reset (k c 0x4000_0000) with rows := [(9, { Row.reset with deps := [0x80000] }), (0x80000, { Row.reset with rule := some ⟨1, 2, [9]⟩ })] } : State)
    let no := rowed Row.reset (k 7 0)
    ((registering (s 7)).all fun x => x.k.w.cmd != 6) = true ∧
    given (exec (.elementDelivery e) (s 7)) (fun t => still (s 7) t && t.rows == [] && (t.ctx e).endStat 1 == .completed) = true ∧
    given (exec (.elementDelivery e) (s 8)) (fun t => still (s 8) t && t.rows == (s 8).rows && (t.ctx e).endStat 1 == .completed) = true ∧
    given (exec (.elementDelivery e) (rowed Row.reset (k 7 0x4000_0000))) (fun t => (t.ctx e).endStat 1 == .completed) = true ∧
    given (exec (.elementDelivery e) no) (stopped e no 8 1) = true := by decide +kernel

/-- The same, the commands that name another: no such command, one of another kind, a sweep forced, a snapshot aborted before and after its
start and once its copyouts have gone, the last item of a status, and its record. -/
theorem wit_naming_commands :
    let e := EngineRef.basin 0 1
    let r := EngineRef.basin 0 2
    let sw := { cmd0 with w := ⟨0x0100_0000_0000_0000, 0x4000_0000, 1, 0, 0, 0, 0, 0⟩, started := true, regDone := true, rows := [0x80000] }
    let sn := fun (st ca : Bool) => { cmd0 with w := ⟨0x0900_0000_0000_0000, 0x4000_0000, 1, 0, 0, 0, 0, 0⟩, started := st, cancel := ca, rows := [0x80000] }
    let k := fun (c : BitVec 8) (h : Word) => { cmd0 with w := ⟨c.zeroExtend 64 <<< 56, h, 0, 0x4000_0800, 0, 0, 0, 0⟩ }
    let h := handleOf r 1
    let s := fun (k x : ECmd) => (rowed Row.reset k).setCtx r { EngCtx.reset with seq := 1, cmds := [x] }
    let go := fun (k x : ECmd) (p : State → Bool) => given (exec (.elementDelivery e) (s k x)) fun t => p t
    let fails := fun (t : State) => (t.ctx e).endStat 1 == .error 0x15
    let done := fun (t : State) => (t.ctx e).endStat 1 == .completed && (t.ctx e).counter == 1
    namedCmd (s (k 2 h) sw) h = some (⟨0, 2, 1⟩, sw) ∧ namedCmd (s (k 2 9) sw) 9 = none ∧
    go (k 2 9) sw fails = true ∧ go (k 2 h) (sn false false) fails = true ∧
    go (k 2 h) sw (fun t => done t && (t.ctx r).cmds.map (·.forced) == [true]) = true ∧
    go (k 10 9) sw fails = true ∧ go (k 10 h) sw fails = true ∧
    go (k 10 h) (sn false false) (fun t => done t && (t.ctx r).endStat 1 == .cancelled) = true ∧
    go (k 10 h) (sn true false) (fun t => (t.ctx e).counter == 0 && (t.ctx r).cmds.map (·.cancel) == [true]) = true ∧
    go (k 10 h) (sn true true) done = true ∧
    (let b : State := { s (k 10 h) (sn true true) with rows := [(0x80000, { Row.reset with copyout := some ⟨0, 2, 1⟩ })] }
     same (exec (.elementDelivery e) b) b) = true ∧
    go (k 3 9) sw fails = true ∧ go { k 3 h with w := { (k 3 h).w with w2 := 1 } } sw fails = true ∧
    go { k 3 h with registered := [0] } sw (fun t => (t.ctx e).cmds.map (fun q => (q.registered, q.block)) == [([0], [0x1_0000_0000_0000])]) = true ∧
    go { k 3 h with registered := [0], turned := [0], block := [0x1_0000_0000_0000] } sw (fun t => done t && smBytes t.dram 0x4000_0800 16 ==
      [1, 0, 0, 0, 0, 0, 0, 0, 1, 0, 0, 0, 0, 0, 1, 0]) = true := by decide +kernel

/-- The same, the checks of a sweep, a rule and a snapshot: no translation, a function already pending, no drain target; and none of them. -/
theorem wit_registration_checks :
    let e := EngineRef.basin 0 1
    let k := fun (c : BitVec 8) (a b d : Word) => { cmd0 with w := ⟨c.zeroExtend 64 <<< 56 ||| 0x0000_1100_0000_0000, a, b, d, 0, 0, 0, 0⟩ }
    let go := fun (s : State) (p : State → Bool) => given (exec (.elementDelivery e) s) fun t => still s t && t.rows == s.rows && p t
    let fails := fun (c : BitVec 8) (t : State) => (t.ctx e).endStat 1 == .error c && (t.ctx e).counter == 1
    let begins := fun (t : State) => (t.ctx e).cmds.map (fun q => (q.started, q.rows)) == [(true, [0x80000])]
    let pend := { Row.reset with pending := some (⟨0, 2, 1⟩, ⟨1, 2, 0, 0⟩) }
    let armed : State := { rowed Row.reset (k 9 0x4000_0000 1 7) with coll := { Coll.reset with targets := [(0, some ⟨0, 1, 0, 4128, 0⟩)] } }
    (activeCmds (rowed Row.reset (k 1 0 1 0))).isEmpty = true ∧
    go (rowed Row.reset (k 1 0 1 0)) (fails 8) = true ∧ go (rowed pend (k 1 0x4000_0000 1 0)) (fails 0x0F) = true ∧
    go (rowed Row.reset (k 1 0x4000_0000 1 0)) begins = true ∧ go (rowed Row.reset (k 9 0x4000_0000 1 7)) (fails 0x15) = true ∧
    go armed begins = true ∧ go (rowed Row.reset (k 6 0x4000_0800 0 0)) (fails 8) = true := by decide +kernel

/-- A registration whose place is later waits for one that names a row of its own, and goes first where its place is the earlier. -/
theorem wit_comes_first :
    let e := EngineRef.basin 0 1
    let k := fun (p : Nat) => { cmd0 with w := ⟨0x0100_1100_0000_0000, 0x4000_0000, 1, 0, 0, 0, 0, 0⟩, place := p }
    let s := fun (p : Nat) => (rowed Row.reset (k p)).setCtx (.basin 0 2) { EngCtx.reset with seq := 1, cmds := [k 3] }
    (unsettled (s 5)).map (fun x => (x.ref.ctx, x.k.place)) = [(1, 5), (2, 3)] ∧ (unsettled (s 5)).map (namedRows (s 5)) = [[0x80000], [0x80000]] ∧
    same (exec (.elementDelivery e) (s 5)) (s 5) = true ∧ ComesFirst (s 2) ⟨0, 1, 1⟩ (k 2) ∧
    given (exec (.elementDelivery e) (s 2)) (fun t => (t.ctx e).cmds.map (·.rows) == [[0x80000]]) = true := by
  unfold ComesFirst; decide +kernel

/-- The same, a cancelled sweep with a row left and with none; a cancelled snapshot that has placed no copyout, one that waits for its
abort record, and that record. -/
theorem wit_cancels :
    let e := EngineRef.basin 0 1
    let k := fun (c : BitVec 8) (res : List Nat) => { cmd0 with w := ⟨c.zeroExtend 64 <<< 56, 0x4000_0000, 1, 7, 3, 0, 0, 0⟩, started := true, cancel := true, regDone := true, rows := [0x80000], res := res }
    let pend := { Row.reset with pending := some (⟨0, 1, 1⟩, ⟨1, 2, 0, 0⟩) }
    let go := fun (s : State) (p : State → Bool) => given (exec (.elementDelivery e) s) p
    let ended := fun (t : State) => (t.ctx e).endStat 1 == .cancelled && (t.ctx e).counter == 1
    let w := rowed Row.reset (k 9 [0x80000])
    go (rowed pend (k 1 [])) (fun t => t.rows == [] && (t.ctx e).cmds == [k 1 []]) = true ∧ go (rowed Row.reset (k 1 [])) ended = true ∧
    go (rowed { Row.reset with copyout := some ⟨0, 1, 1⟩ } (k 9 [])) (fun t => t.rows == [] && (t.ctx e).counter == 0) = true ∧
    go (rowed Row.reset (k 9 [])) ended = true ∧ same (exec (.elementDelivery e) w) w = true ∧
    recordDue w 0 = some (⟨0, 1, 1⟩, k 9 [0x80000]) ∧
    given (exec (.snapshotDrainRecord 0) w) (fun t => ended t && t.mgmt.outbox ==
      [.drain 3 2064 ([7, 0, 0, 0, 0, 0, 0, 0, 0xFF, 0xFF, 0xFF, 0xFF, 0xFF, 0xFF, 0xFF, 0xFF] ++ List.replicate 2048 0)]) = true := by decide +kernel

/-- A cancelled sweep leaves both of its rows at one home and not the one at another. -/
theorem wit_cancels_home :
    let e := EngineRef.basin 0 1
    let rs := [0x80000, 0x80010, 0x80001]
    let k : ECmd := { cmd0 with w := word0 0x0100_0000_0000_0000, started := true, cancel := true, regDone := true, rows := rs }
    let w := { Row.reset with pending := some (⟨0, 1, 1⟩, ⟨1, 2, 0, 0⟩) }
    let s : State := { rowed w k with rows := [(0x80000, w), (0x80001, w), (0x80010, w)] }
    basinOf (2048 * 0x80010) = basinOf (2048 * 0x80000) ∧ basinOf (2048 * 0x80001) ≠ basinOf (2048 * 0x80000) ∧
    given (exec (.elementDelivery e) s) (fun t => t.rows == [(0x80001, w)]) = true ∧
    (let h := rowed Row.reset { k with slots := [(0x4000_0800, 9)] }; same (exec (.elementDelivery e) h) h) = true := by decide +kernel

/-! ## Bring-up -/

/-- An image of 64 bytes with a header that R428 admits for a store that has seen version 3. -/
def image : List Byte := [0x41, 0x4E, 0x59, 0x50, 3, 0, 0, 0, 64, 0, 0, 0, 0, 0, 0, 0] ++ List.replicate 176 0

/-- A machine in state 1 that tries this port. -/
def booting (f : Mgmt → Mgmt) : State := { State.reset with mgmt := f Mgmt.reset }

/-- BringUpAndItsEvents: power-up past absent ports, the ports in turn, the last one, a trained port, an image too short and one that
may start. -/
theorem wit_bring_up :
    let p := fun (n : Nat) => booting fun m => { m with trying := n, absentPorts := [0, 1, 7] }
    let b := booting fun m => { m with bootPort := some 2, minVersion := 3 }
    let at_ := fun (i n : Nat) => leNat ((image.drop i).take n)
    given (exec .powerUp { world with mgmt := { world.mgmt with fused := ⟨[], [0, 1], [], [], []⟩, minVersion := 9 } }) (fun t => t.mgmt.state == 1 && t.mgmt.trying == 2 && !t.g.live && t.grids == [] &&
      t.mgmt.minVersion == 9 && t.mgmt.absentPorts == [0, 1]) = true ∧
    given (exec .portTrainingTimeout (p 2)) (fun t => t.mgmt.trying == 3) = true ∧ given (exec .portTrainingTimeout (p 6)) (fun t => t.mgmt.trying == 2) = true ∧
    given (exec .bootPortTrained (p 2)) (fun t => t.mgmt.bootPort == some 2) = true ∧ same (exec .bootPortTrained b) b = true ∧ same (exec .portTrainingTimeout b) b = true ∧
    given (exec (.imageDownload (image.take 100)) b) (fun t => t.mgmt.state == 1 && t.mgmt.outbox == [.image 0x15]) = true ∧ same (exec (.imageDownload image) (p 2)) (p 2) = true ∧
    at_ 0 4 = 0x50594E41 ∧ at_ 4 4 = 3 ∧ at_ 8 8 = 64 ∧ image.length = 128 + 64 := by decide +kernel

/-- The same: full service, a fault before it and after it, an attestation, the sensor at its bounds, soft errors. -/
theorem wit_service :
    let s := booting fun m => { m with state := 2, bootPort := some 2, setWin0 := (0x40_0000_0000, 0x10000), setWin1 := (1, 2), trainings := [⟨⟨[], [], [], [], [9]⟩, 7⟩] }
    let hot := fun (b : Bool) => ({ world with cores := [(5, { Core.reset with hot := b })] } : State)
    let is := fun (b : Bool) (t : State) => (smGet Core.reset t.cores 5).hot == b
    given (exec .fullService s) (fun t => t.mgmt.state == 3 && t.mgmt.win0 == (0x40_0000_0000, 0x10000) && t.mgmt.win1 == (0, 0) && t.mgmt.minVersion == 7 && t.mgmt.absentBasins == [9] && t.mgmt.trainings == []) = true ∧
    given (exec .fullService { s with mgmt := { s.mgmt with trainings := [] } }) (fun t => t.mgmt.minVersion == s.mgmt.minVersion && t.mgmt.absentBasins == []) = true ∧
    same (exec .fullService world) world = true ∧
    same (exec .fullService { s with grids := [(1, some grid1)] }) { s with grids := [(1, some grid1)] } = true ∧
    given (exec .bringUpFault { s with grids := [(1, some grid1)] }) (fun t => t.mgmt.state == 1 && t.mgmt.bootPort == some 2 && t.grids == []) = true ∧
    given (exec .bringUpFault world) (fun t => t.mgmt.state == 1 && !t.g.live) = true ∧
    given (exec (.attestationRequest none) s) (fun t => match t.mgmt.outbox with | [.report bs] => bs.length == 256 && bs.head? == some 2 | _ => false) = true ∧
    given (exec (.sensorSample 5 380 0) (hot false)) (is true) = true ∧ given (exec (.sensorSample 5 0 60) (hot false)) (is true) = true ∧
    given (exec (.sensorSample 5 379 59) (hot false)) (is false) = true ∧ given (exec (.sensorSample 5 340 35) (hot true)) (is false) = true ∧
    given (exec (.sensorSample 5 340 36) (hot true)) (is true) = true ∧ given (exec (.sensorSample 5 341 35) (hot true)) (is true) = true ∧
    given (exec (.uncorrectableSoftError 0x47 true) world) (fun t => t.mgmt.softErrors == 1 && t.poison == []) = true ∧
    isMemory world 0x47 = true ∧ given (exec (.uncorrectableSoftError 0x47 false) world) (fun t => t.poison == [(2, true)]) = true ∧
    isMemory world 0xC0_0000_0000 = false ∧ same (exec (.uncorrectableSoftError 0xC0_0000_0000 false) world) world = true := by decide +kernel

/-- BringUpAndItsEvents, the clause of the signature: with the number 1 the point is the base point. -/
theorem wit_signature : (ecdsaAt 3 5 1).1 ≠ 0 ∧ (ecdsaAt 3 5 1).2 ≠ 0 := by decide +kernel

/-! ## Host messages and peers -/

/-- HostMessagesAndPeers: a window opened, already open, out of range, closed; the silence of state 1; a read of its range. -/
theorem wit_windows :
    let w : Window := ⟨7, 0x4000_0000, 8, 0x100, 0, 1⟩
    let s : State := { world with coll := { Coll.reset with windows := [(3, some w)] }, host := [(0x200, 9), (0x209, 8)], mgmt := { world.mgmt with spaces := [(1, some 0x10000)] } }
    let says' := fun (t : State) (ty : BitVec 8) (x : Word) => t.mgmt.outbox == [.reply 0 ty 5 x]
    given (exec (.openWindow 5 255 7 0x4000_0000 8 0x200) s) (fun t => says' t 0x82 0 && t.host == [(0x209, 8)] && (smGet none t.coll.windows 255).map (fun w => (w.grid, w.vaddr, w.version)) == some (7, 0x200, 0)) = true ∧
    given (exec (.openWindow 5 3 7 0 8 0x200) s) (fun t => says' t 0x82 3 && t.coll == s.coll) = true ∧ given (exec (.openWindow 5 256 7 0 8 0x200) s) (fun t => says' t 0x82 0x15 && t.coll == s.coll) = true ∧
    given (exec (.closeWindow 5 3) s) (fun t => says' t 0x83 0 && t.coll.windows == []) = true ∧ given (exec (.closeWindow 5 256) s) (fun t => says' t 0x83 0x15 && t.coll == s.coll) = true ∧
    same (exec (.closeWindow 5 3) State.reset) State.reset = true ∧
    (match engRead (.die 0) 1 0x4000_0004 4 s with | .ok r => r.2 == [0, 0, 0, 0] | _ => false) = true ∧
    given (exec (.hostRmaRead 3 4 4) s) (fun t => t.mgmt.outbox == [.rma [0, 0, 0, 0]]) = true ∧ same (exec (.hostRmaRead 3 5 4) s) s = true ∧ same (exec (.hostRmaRead 4 0 4) s) s = true := by decide +kernel

/-- The same: the close of a window behind a publish, a key behind a registration. -/
theorem wit_behind :
    let p : State := { world with g := { world.g with block := .release .sys, pos := { world.g.pos with idx := 0, code := [(encodeCtl (.publish al 3)).getD 0] } } }
    let r := rowed Row.reset { cmd0 with w := ⟨0x0100_0000_0000_0000, 0x4000_0000, 1, 0, 0, 0, 0, 0⟩, started := true }
    publishing p 3 = true ∧ same (exec (.closeWindow 5 3) p) p = true ∧ slotMapped r 15 = false ∧ (registering r).length = 1 ∧
    same (exec (.loadKeySlot 5 15 .generated) r) r = true := by decide +kernel

/-- The same: communicators, drain targets, key slots, connections. -/
theorem wit_configured :
    let c : Comm := ⟨[4, 5], 0, 1, []⟩
    let k : Cmd := ⟨0x0100_3000_0000_0000, 0, 0, 0, 0, 0, 0, 0⟩
    let s : State := (world.setCtx (.coll 0) { EngCtx.reset with seq := 1, cmds := [{ cmd0 with w := k, started := true }] })
    let u : State := { s with coll := { s.coll with comms := [(3, some c)] }, mgmt := { s.mgmt with absentPorts := [7] } }
    let answer := fun (t : State) (ty : BitVec 8) (x : Word) => t.mgmt.outbox == [.reply 0 ty 5 x]
    commNamed u 3 = true ∧ commNamed u 4 = false ∧
    given (exec (.setCommunicator 5 4 1 0x7F [6, 7]) u) (fun t => answer t 0x84 0 && t.comm 4 == some ⟨[6, 7], 1, 0x7F, []⟩) = true ∧
    given (exec (.setCommunicator 5 3 1 0x7F [6, 7]) u) (fun t => answer t 0x84 3 && t.coll == u.coll) = true ∧
    ([(256, 1, 0x7F), (4, 2, 0x7F), (4, 1, 0x80)].all fun (p : Nat × Nat × BitVec 8) =>
      given (exec (.setCommunicator 5 p.1 p.2.1 p.2.2 [6, 7]) u) fun t => answer t 0x84 0x15 && t.coll == u.coll) = true ∧
    slotUsed u 15 = false ∧ given (exec (.setDrainTarget 5 15 6 1 8 9 0) u) (fun t => answer t 0x85 0 && smGet none t.coll.targets 15 == some ⟨6, 1, 8, 9, 0⟩) = true ∧
    given (exec (.setDrainTarget 5 16 6 1 8 9 0) u) (fun t => answer t 0x85 0x15) = true ∧
    (let d := rowed Row.reset { cmd0 with started := true, w := { word0 0x0900_0000_0000_0000 with w4 := 15 } }
     slotUsed d 15 = true ∧ given (exec (.setDrainTarget 5 15 6 1 8 9 0) d) (fun t => answer t 0x85 3) = true) ∧
    slotMapped u 15 = false ∧ given (exec (.loadKeySlot 5 15 .generated) u) (fun t => answer t 0x87 0 && (smGet none t.mgmt.keySlots 15).isSome) = true ∧
    given (exec (.loadKeySlot 5 0 .generated) u) (fun t => answer t 0x87 0x15) = true ∧ given (exec (.loadKeySlot 5 16 .generated) u) (fun t => answer t 0x87 0x15) = true ∧
    (let p : State := { u with mgmt := { u.mgmt with bootPort := some 0 } }
     given (exec (.connectionSetUp 8 [.uetIp, .llr]) p) (fun t => t.mgmt.peers == [8]) = true ∧ same (exec (.connectionSetUp 8 [.uetIp, .uud]) p) p = true) ∧
    same (exec (.connectionSetUp 8 [.uetIp, .llr]) u) u = true := by decide +kernel

/-- The same: a key slot that a page uses, deliveries to each kind of command, a packet that cannot be delivered. -/
theorem wit_peers :
    let e := EngineRef.coll 0
    let c : Comm := ⟨[4, 5, 6], 0, 1, []⟩
    let s := fun (k : ECmd) => ({ world.setCtx e { EngCtx.reset with seq := 1, cmds := [k] } with coll := { (world.setCtx e { EngCtx.reset with seq := 1, cmds := [k] }).coll with comms := [(3, some c)] }, mgmt := { world.mgmt with peers := [5, 6] } } : State)
    let k := fun (n : Nat) (w1 w4 : Word) => { cmd0 with started := true, w := ⟨BitVec.ofNat 64 n <<< 56 ||| 0x0000_3008_0000_0000, w1, 0, 4, w4, 0, 0, 0⟩ }
    let m : State := { world with dram := world.dram ++ [(0x3000F, 0xF0)] }
    ((s (k 1 0 0)).ctx e).head = some (k 1 0 0) ∧ (s (k 1 0 0)).comm ((k 1 0 0).w.w0.extractLsb' 44 8).toNat = some c ∧
    slotMapped m 15 = true ∧ given (exec (.loadKeySlot 5 15 .generated) m) (fun t => t.mgmt.outbox == [.reply 0 0x87 5 3] && t.mgmt.keySlots == []) = true ∧
    given (exec (.peerDelivery 0 2 ⟨0, [1, 2]⟩) (s (k 4 0 2))) (fun t => (t.ctx e).cmds.map (·.regDone) == [true]) = true ∧
    given (exec (.peerDelivery 0 2 ⟨0, [1, 2]⟩) (s (k 5 0 2))) (fun t => (t.ctx e).cmds.map (fun k => (k.regDone, k.peers)) == [(true, [(2, [1, 2])])]) = true ∧
    given (exec (.peerDelivery 0 1 ⟨0, [1, 2]⟩) (s (k 1 0 0))) (fun t => (t.ctx e).cmds.map (·.peers) == [[(1, [1, 2].take (collLens 3 (k 1 0 0).w).1)]]) = true ∧
    same (exec (.peerDelivery 0 2 ⟨9, [1, 2]⟩) (s (k 5 0 2))) (s (k 5 0 2)) = true ∧
    (let u : State := { s (k 5 0 2) with mgmt := world.mgmt }; same (exec (.peerDelivery 0 2 ⟨0, [1, 2]⟩) u) u = true) ∧
    given (exec (.peerDelivery 0 1 ⟨0, []⟩) (s (k 7 1 0))) (fun t => t.comm 3 == some { c with bars := [(1, 1)] }) = true ∧
    given (exec (.retransmissionFailure 0) (s (k 3 0 0))) (fun t => (t.ctx e).endStat 1 == .error 0x15 && still world t) = true ∧
    same (exec (.retransmissionFailure 0) (s { k 3 0 0 with started := false })) (s { k 3 0 0 with started := false }) = true := by decide +kernel

/-- Context 0 of the collective engine holds this command; communicator 3 has three ranks, this device the first. Bytes 5 and 6 stand at
0x4000_0000, and an `allreduce` of one 32-bit element at 0x4000_0100. -/
def colled (k : ECmd) : State :=
  let s := world.setCtx (.coll 0) { EngCtx.reset with seq := 1, cmds := [k] }
  { s with
    coll := { s.coll with sigma := 9, comms := [(3, some ⟨[4, 5, 6], 0, 1, []⟩)] }
    dram := world.dram ++ [(0x4000_0000, 5), (0x4000_0001, 6), (0x4000_0104, 0x70), (0x4000_0105, 0x30), (0x4000_0107, 1), (0x4000_0109, 8), (0x4000_010B, 0x40),
      (0x4000_0112, 0x01), (0x4000_0113, 0x40), (0x4000_0118, 1)] }

/-- A command of the collective engine on communicator 3 with 32-bit unsigned elements: SRC, COUNT and the words 2 and 4. -/
def collCmd (n : Nat) (w1 w2 w3 w4 : Word) : ECmd :=
  { cmd0 with w := ⟨BitVec.ofNat 64 n <<< 56 ||| 0x0000_3070_0000_0000, w1, w2, w3, w4, 0, 0, 0⟩ }

/-- The same, the start of a command: malformed, with nothing to do, with one element, a `step` with and without its barrier, an arm whose
command may run, may not, and cannot be read. -/
theorem wit_collectives_start :
    let e := EngineRef.coll 0
    let go := fun (k : ECmd) (p : State → Bool) => given (exec (.elementDelivery e) (colled k)) p
    let started := fun (t : State) => (t.ctx e).cmds.map (fun q => (q.started, q.sigma, q.before)) == [(true, 9, 0)]
    go { collCmd 1 0 0 1 0 with bad := true } (fun t => (t.ctx e).endStat 1 == .error 0x15) = true ∧
    go { collCmd 1 0 0 0 0 with host := true, ep := 7, tag := 8 } (fun t => (t.ctx e).endStat 1 == .completed && (t.ctx e).past.map (·.sigma) == [9] && t.mgmt.outbox == [.reply 7 0x81 8 0]) = true ∧
    go (collCmd 1 0 0 1 0) (fun t => started t && t.mgmt == world.mgmt) = true ∧ go (collCmd 7 0 0 0 0) started = true ∧
    go (collCmd 7 1 0 0 0) (fun t => started t && t.comm 3 == some ⟨[4, 5, 6], 0, 1, [(0, 1)]⟩ && (t.ctx e).cmds.map (·.barNo) == [1] && t.mgmt.outbox == [.peer 3 1 0 [], .peer 3 2 0 []]) = true ∧
    go (collCmd 6 0x4000_0100 0x4000_0000 2048 2) (fun t => started t && smGet 0 t.coll.counts 3 == 0 && (smGet none t.coll.buckets 3).map (fun b => (b.t, b.ctx, b.seq, b.cmd.cmd)) == some (2, 0, 1, 1)) = true ∧
    go (collCmd 6 0x4000_0000 0x4000_0000 2048 2) (fun t => (t.ctx e).endStat 1 == .error 0x15 && t.coll.buckets == []) = true ∧
    (let s := colled (collCmd 6 0 0x4000_0000 2048 2); given (exec (.elementDelivery e) s) (stopped e s 8 1)) = true := by decide +kernel

/-- The same, transfers: a segment read and sent, one that cannot be read, a `send` and a `recv` before and after they are paired, the shorter
LEN, a reduction that waits, one complete, and one whose DST cannot be written or is written. -/
theorem wit_transfers :
    let e := EngineRef.coll 0
    let k := fun (n : Nat) (w1 w2 w4 : Word) (elem : Nat) (paired : Bool) (ps : SMap (List Byte)) =>
      { collCmd n w1 w2 (if n = 1 then 1 else 4) w4 with started := true, elem := elem, regDone := paired, peers := ps }
    let go := fun (k : ECmd) (p : State → Bool) => given (exec (.elementDelivery e) (colled k)) p
    let waits := fun (k : ECmd) => same (exec (.elementDelivery e) (colled k)) (colled k)
    let ended := fun (f : EndStat) (t : State) => (t.ctx e).endStat 1 == f && (t.ctx e).counter == 1
    let stops := fun (k : ECmd) (acc : BitVec 4) (el : Nat) => go k fun t => still (colled k) t &&
      (t.ctx e).cmds.map (fun q => (q.susp, q.elem, q.waiting.map (·.acc))) == [(some 8, el, some acc)]
    let all : SMap (List Byte) := [(0, [5, 6, 0, 0]), (1, [1, 0, 0, 0]), (2, [2, 0, 0, 0])]
    let at_ := fun (t : State) => smBytes t.dram 0x4000_0800 4
    go (k 1 0x4000_0000 0 0 0 false []) (fun t => (t.ctx e).cmds.map (fun q => (q.elem, q.peers)) == [(1, [(0, [5, 6, 0, 0])])] &&
      t.mgmt.outbox == [.peer 3 1 0 [5, 6, 0, 0], .peer 3 2 0 [5, 6, 0, 0]]) = true ∧
    go (k 4 0x4000_0000 0 0x50002 0 false []) (fun t => t.mgmt.outbox == [.peer 3 2 5 [5, 6, 0, 0]]) = true ∧ stops (k 1 0 0 0 0 false []) 1 0 = true ∧
    waits (k 4 0x4000_0000 0 2 1 false []) = true ∧ go (k 4 0x4000_0000 0 2 1 true []) (ended .completed) = true ∧
    waits (k 5 0 0x4000_0800 2 0 false []) = true ∧ go (k 5 0 0x4000_0800 2 0 true all) (fun t => ended .completed t && at_ t == [2, 0, 0, 0]) = true ∧
    go (k 5 0 0x4000_0800 2 0 true [(2, [7, 8])]) (fun t => ended (.error 0x15) t && at_ t == [7, 8, 0, 0]) = true ∧ stops (k 5 0 0 2 0 true all) 2 0 = true ∧
    waits (k 1 0x4000_0000 0x4000_0800 0 1 false [(0, [5, 6, 0, 0])]) = true ∧
    go (k 1 0x4000_0000 0x4000_0800 0 1 false all) (fun t => ended .completed t && at_ t == [8, 6, 0, 0]) = true ∧
    go (k 1 0x4000_0000 0x4000_0800 0 2 false all) (fun t => ended .completed t && at_ t == [0, 0, 0, 0]) = true ∧ stops (k 1 0x4000_0000 0 0 1 false all) 2 1 = true := by
  decide +kernel

/-- The same, an arm: a row registered, one without translation, RDY not asked for and written, the counter below T and at T, with and
without elements to reduce. -/
theorem wit_arms :
    let e := EngineRef.coll 0
    let k := fun (va rdy : Word) (elem : Nat) (ready : Bool) =>
      { collCmd 6 0x4000_0100 va 2048 2 with started := true, elem := elem, regDone := ready, w := { (collCmd 6 0x4000_0100 va 2048 2).w with w5 := rdy } }
    let s := fun (k : ECmd) (count : BitVec 40) (n : Word) => ({ colled k with
      coll := { (colled k).coll with counts := [(3, count)], buckets := [(3, some ⟨2, 0, 1, (collCmd 1 0x4000_0000 0x4000_0800 n 0).w⟩)] }
      rows := [(7, { Row.reset with buckets := [(3, 0, 2048)] })] } : State)
    let go := fun (k : ECmd) (count : BitVec 40) (n : Word) (p : State → Bool) => given (exec (.elementDelivery e) (s k count n)) p
    let q := fun (t : State) => (t.ctx e).cmds.map fun q => (q.elem, q.regDone, q.susp)
    let d := k 0x4000_0000 0 1 true
    go (k 0x4000_0000 0 0 false) 0 1 (fun t => q t == [(1, false, none)] && (smGet Row.reset t.rows 0x80000).buckets == [(3, 0, 2048)]) = true ∧
    go (k 0 0 0 false) 0 1 (fun t => q t == [(0, false, some 8)]) = true ∧
    go (k 0x4000_0000 0 1 false) 0 1 (fun t => q t == [(1, true, none)]) = true ∧
    go (k 0x4000_0000 0x4000_0800 1 false) 0 1 (fun t => q t == [(1, true, none)] && smBytes t.dram 0x4000_0800 8 == [1, 0, 0, 0, 0, 0, 0, 0]) = true ∧
    go (k 0x4000_0000 8 1 false) 0 1 (fun t => q t == [(1, false, some 8)]) = true ∧
    same (exec (.elementDelivery e) (s d 1 1)) (s d 1 1) = true ∧
    go d 2 1 (fun t => (t.ctx e).cmds.map (fun q => (q.entry.map (·.cmd), q.elem, q.regDone, q.sigma)) == [(some 1, 0, false, 9)] && t.coll.buckets == [] && t.rows == []) = true ∧
    go d 2 0 (fun t => (t.ctx e).endStat 1 == .completed && t.coll.buckets == []) = true := by decide +kernel

/-- The same, a `step`: behind its peers, at their number, behind a snapshot, with and without OUT. -/
theorem wit_steps :
    let e := EngineRef.coll 0
    let k := fun (bar out : Word) (adv : Bool) => { collCmd 7 bar out 0 0 with started := true, regDone := adv, barNo := 1, cfg := 10 }
    let met : SMap Nat := [(0, 1), (1, 1), (2, 1)]
    let s := fun (k : ECmd) (bars : SMap Nat) => ({ colled k with coll := { (colled k).coll with comms := [(3, some ⟨[4, 5, 6], 0, 1, bars⟩)] } } : State)
    let go := fun (k : ECmd) (p : State → Bool) => given (exec (.elementDelivery e) (s k met)) p
    let snap := (s (k 1 0 true) met).setCtx (.basin 0 1) { EngCtx.reset with seq := 1, cmds := [{ cmd0 with started := true, rows := [0x80000], w := ⟨0x0900_0000_0000_0000, 0x4000_0000, 1, 10, 0, 0, 0, 0⟩ }] }
    same (exec (.elementDelivery e) (s (k 1 0 false) [(0, 1), (1, 1)])) (s (k 1 0 false) [(0, 1), (1, 1)]) = true ∧
    go (k 1 0 false) (fun t => t.coll.sigma == 10 && (t.ctx e).cmds.map (fun q => (q.regDone, q.cfg)) == [(true, 10)]) = true ∧
    same (exec (.elementDelivery e) snap) snap = true ∧ go (k 1 0 true) (fun t => (t.ctx e).endStat 1 == .completed && t.coll.sigma == 9) = true ∧
    go (k 0 0x4000_0800 true) (fun t => (t.ctx e).endStat 1 == .completed && smBytes t.dram 0x4000_0800 8 == [10, 0, 0, 0, 0, 0, 0, 0]) = true ∧
    go (k 0 8 true) (fun t => (t.ctx e).cmds.map (·.susp) == [some 8]) = true := by decide +kernel

/-- An image that starts the firmware bears a signature that the key of the store verifies; which key has that hash the model leaves
open. -/
theorem wit_image (s : State) (h : s.mgmt.state = 1) (hp : s.mgmt.bootPort = some 2) (hv : s.mgmt.minVersion = 3)
    (hi : ecdsaVerify (Config.imageKey s.mgmt.keyHash) (sha256 (image.take 128)).toNat (beNat ((image.drop 128).take 32))
      (beNat ((image.drop 160).take 32)) = true) :
    s.mgmt.state = 1 ∧ s.mgmt.bootPort ≠ none ∧ s.mgmt.minVersion.toNat ≤ leNat ((image.drop 4).take 4) ∧
      given (exec (.imageDownload image) s) (fun t => t.mgmt.state == 2) = true := by
  refine ⟨h, by rw [hp]; decide, by rw [hv]; decide +kernel, ?_⟩
  have ok : imageOk s image = true := by
    have e : imgNat image 8 8 = 64 := by decide +kernel
    have d : ((image.drop (64 + 64)).drop 32) = (image.drop 160).take 32 := by decide +kernel
    simp only [imageOk, imageHash, e, hv, d]
    rw [hi, Bool.and_true]
    decide +kernel
  show given (execImageDownload image s) _ = true
  simp [execImageDownload, h, hp, ok, given]

/-! ## Grants, pairs and puts -/

/-- GrantsPairsAndPuts: a conflict that holds an older entry's follower, an owner's entry first, a completion that writes. -/
theorem wit_matrix_grant :
    let n := fun (st slot : Nat) (ts : List Nat) => (⟨st, 0, slot, 0, .tzero, ts, [0x0000_0008_0020_0001], 3, 1, 0, 0, st, 0⟩ : MEntry)
    let s := fun (q : Quad) => ({ world with quads := [(0, q)] } : State)
    let table := fun (t : State) => t.quad.table.map fun m => (m.stamp, m.passed)
    let q : Quad := { Quad.reset with table := [n 1 0 [9], n 2 1 [9], n 3 1 [10]] }
    let z : State := { s { Quad.reset with running := [n 5 0 [9], n 6 0 [9]], tiles := [(9, { Tile.reset with st := .ready, bytes := [(0, 7)] }), (10, { Tile.reset with bytes := [(1, 8)] })] } with
      g := { world.g with accs := [{ acc1 .matrix 0 0 (.sram 0) 0 .none false none with lanes := [], ctl := false, wset := 2 }] } }
    same (exec (.matrixGrant 0) (s Quad.reset)) (s Quad.reset) = true ∧
    given (exec (.matrixGrant 0) (s q)) (fun t => table t == [(2, 0), (3, 1)] && t.quad.running == [n 1 0 [9]]) = true ∧
    given (exec (.matrixGrant 0) (s { q with owner := some (0, 1) })) (fun t => table t == [(1, 1), (2, 0)] && t.quad.running == [n 3 1 [10]]) = true ∧
    same (exec (.matrixGrant 0) (s { q with running := [n 0 0 [9]], table := [n 1 0 [9]] })) (s { q with running := [n 0 0 [9]], table := [n 1 0 [9]] }) = true ∧
    given (exec (.matrixCompletion 0) z) (fun t => t.quad.running == [n 6 0 [9]] && smGet Tile.reset t.quad.tiles 9 == { Tile.reset with st := .ready } &&
      smGet Tile.reset t.quad.tiles 10 == { Tile.reset with bytes := [(1, 8)] } && t.g.accs == []) = true ∧
    same (exec (.matrixCompletion 0) (s Quad.reset)) (s Quad.reset) = true := by decide +kernel

/-- The same: a pair whose lanes meet in lane 1, a put of two lanes, one to a group that has ended. -/
theorem wit_pairs :
    let x := { acc1 (.xsend 3) 4 0 (.capa 0) 0 .none false none with ctl := false, mask := 6, lanes := [⟨1, 0, .capa 0, 0x55, 0, false, none, none, false, none⟩, ⟨2, 0, .capa 0, 0x66, 0, false, none, none, false, none⟩] }
    let y := { acc1 (.xrecv 3) 4 0 (.capa 0) 0 (.recv 20 false) false none with stamp := 8, ctl := false, mask := 3, lanes := [] }
    let p := { acc1 (.rput 0x0030_0814) 4 0 (.capa 0) 0 .none false none with ctl := false, mask := 3, lanes := [⟨0, 0, .capa 0, 0x55, 0, false, none, none, false, none⟩, ⟨1, 0, .capa 0, 0x66, 0, false, none, none, false, none⟩] }
    let o : Group := { vmem.g with slot := 2, accs := [x] }
    let s : State := { vmem with stamp := 9, g := { vmem.g with accs := [y] }, others := [o], teams := [(0, { Team.reset with slots := [0, 2], rdv := [(3, ⟨[(2, 5)], [(0, 8), (1, 1)]⟩)] })] }
    let r : State := { s with g := { vmem.g with accs := [p] }, others := [{ o with a := [(3, 4)], accs := [] }] }
    let gone : State := { r with teams := [(0, { Team.reset with slots := [0, 2], ended := [1] })] }
    waitingPairs s 3 = [] ∧ (s.groupAt 0 2).map (·.slot) = some 2 ∧ (s.g.name 20).map (·.comp) = some false ∧
    given (exec (.rendezvousPairing 3) s) (fun t => t.team.rdv == [(3, ⟨[], [(1, 1)]⟩)] && t.g.accs == [] && lane (t.g.readV 20) 0 == 7 && lane (t.g.readV 20) 1 == 0x55 &&
      lane (t.g.readV 20) 2 == 9) = true ∧
    same (exec (.rendezvousPairing 4) s) s = true ∧
    accAt r 5 = some p ∧ (r.groupAt 0 2).map (·.slot) = some 2 ∧
    given (exec (.rputArrival ⟨5, 3⟩) r) (fun t => t.g.accs == [] && (match t.groupAt 0 2 with
      | some h => smGet 0 h.a 3 == 5 && lane (h.readV 20) 0 == 0x55 && lane (h.readV 20) 1 == 0x66 && lane (h.readV 20) 2 == 9 | none => false)) = true ∧
    given (exec (.rputArrival ⟨5, 3⟩) gone) (fun t => t.g.accs == [] && t.others == gone.others) = true := by decide +kernel

/-- The same: a put lands lane 0, then lane 1 with the counter; one whose sender has ended; one to a group that has not started; one that finds
no register. -/
theorem wit_puts :
    let p := fun (d : BitVec 32) => { acc1 (.rput d) 4 0 (.capa 0) 0 .none false none with ctl := false, mask := 3, lanes := [⟨0, 0, .capa 0, 0x55, 0, false, none, none, false, none⟩, ⟨1, 0, .capa 0, 0x66, 0, false, none, none, false, none⟩] }
    let o : Group := { vmem.g with slot := 2, a := [(3, 4)], accs := [] }
    let w : Group := { Group.reset with live := true, slot := 1, stall := some (4, [2]) }
    let s := fun (d : BitVec 32) (mine : Bool) (os : List Group) => ({ vmem with
      stamp := 9, g := { vmem.g with accs := if mine then [p d] else [] }, others := os, teams := [(0, { Team.reset with slots := [0, 2] })]
      clusters := [(0, { Cluster.reset with teams := [0], puts := if mine then [] else [⟨0, 0, p d⟩] })] } : State)
    let is := fun (t : State) (x y : Lane) (n : BitVec 32) (ars : List (Nat × Nat × Nat)) => (t.groupAt 0 2).any fun h =>
      lane (h.readV 20) 0 == x && lane (h.readV 20) 1 == y && smGet 0 h.a 3 == n && h.arrivals.map (·.src) == ars
    let r := s 0x0030_0814 true [o]
    let u := s 0x0030_0814 false [o]
    findPut r 5 = some (0, ⟨0, 0, p 0x0030_0814⟩, true) ∧ findPut u 5 = some (0, ⟨0, 0, p 0x0030_0814⟩, false) ∧ accEnabled r r.g (p 0x0030_0814) = true ∧
    given (exec (.rputArrival ⟨5, 1⟩) r) (fun t => is t 0x55 8 4 [(0, 0, 5)] && t.g.accs.map (fun a => a.lanes.map (·.done)) == [[true, false]] &&
      given (exec (.rputArrival ⟨5, 2⟩) t) fun t => is t 0x55 0x66 5 [] && t.g.accs == []) = true ∧
    given (exec (.rputArrival ⟨5, 3⟩) u) (fun t => is t 0x55 0x66 5 [] && t.clusters == [(0, { Cluster.reset with teams := [0] })]) = true ∧
    same (exec (.rputArrival ⟨5, 3⟩) (s 0x0030_0814 true [])) (s 0x0030_0814 true []) = true ∧
    given (exec (.rputArrival ⟨5, 3⟩) (s 0x0030_081A true [o, w])) (fun t => is t 7 8 4 [(0, 0, 5)] && t.g.accs == [p 0x0030_081A]) = true := by decide +kernel

end Sys2Proof.Tests
end

section
/-! SUPPORT. x0 and the false guard (R136, R156): every instruction with a guard has the shape of `ctlInstr`, and under a false
guard that shape only advances. -/
namespace Sys2Proof.ControlSequencer
open Sys2Proof Sys2Proof.Machine Sys2Proof.Says

/-! ## x0 -/

/-- A write of x0 is discarded (R136). -/
theorem writeX_zero (g : Group) (v : Word) : g.writeX 0 v = g := by
  simp [Group.writeX]

/-! ## What the advance of the control slice leaves alone -/

/-- Besides the group in focus the advance can change only grants of the cores. -/
theorem ctlAdvance_frame (s : State) :
    ctlAdvance s =
      { s with g := { s.g with pos := s.g.pos.next, block := .none }, cores := (ctlAdvance s).cores } := by
  unfold ctlAdvance
  dsimp only
  split <;> rfl

theorem sameCores_endGrant (s : State) : SameCores s (endGrant s) := by
  intro n
  simp only [endGrant, smGet_smUpd]
  by_cases hn : n = s.g.core
  · subst hn
    rw [if_pos rfl]
    split <;> rfl
  · rw [if_neg hn]

theorem sameCores_ctlAdvance (s : State) : SameCores s (ctlAdvance s) := by
  unfold ctlAdvance
  dsimp only
  split
  · exact fun _ => rfl
  · exact sameCores_endGrant { s with g := { s.g with pos := s.g.pos.next, block := .none } }

theorem sameMemory_ctlAdvance (s : State) : SameMemory s (ctlAdvance s) := by
  intro a
  simp

theorem advanced_ctlAdvance (s : State) : Advanced s (ctlAdvance s) := by
  simp [Advanced]

/-- The advance writes no control register, no predicate and no destination of an access. -/
theorem ctlFrame_ctlAdvance (s : State) : CtlFrame [] [] s (ctlAdvance s) := by
  refine ⟨fun r _ => ?_, fun p _ => ?_, .inl ?_, ?_, sameCores_ctlAdvance s, sameMemory_ctlAdvance s⟩
  · simp
  · simp [Group.readC]
  · simp
  · simpa using ctlAdvance_frame s

/-! ## The shape of a guarded instruction -/

/-- What `ctlInstr` makes of every instruction with a guard: a choice between something of its own and the bare advance. -/
theorem exec_eq_ite_guard {i : Instr} {g : CGuard} (s : State) (h : guardOf i = some g) :
    ∃ u, exec i s = .next (if s.g.guard g then u else ctlAdvance s) := by
  cases i
  -- An instruction without a guard contradicts `h`; for any other, `h` says that its guard is `g`.
  all_goals cases h
  -- Each control instruction is an application of `ctlInstr`.
  all_goals exact ⟨_, rfl⟩

/-- Under a false guard an instruction only advances (R156). -/
theorem exec_of_guard_false {i : Instr} {g : CGuard} {s : State} (h : guardOf i = some g) (hg : s.g.guard g = false) :
    exec i s = .next (ctlAdvance s) := by
  obtain ⟨u, hu⟩ := exec_eq_ite_guard s h
  simpa [hg] using hu

/-! ## The statement -/

/-- Settles O12: reads and writes of x0 by the laws of the registers; under a false guard every instruction with a guard is the bare
advance, whose frame is `ctlFrame_ctlAdvance`. -/
theorem falseGuardAndXZero : Obligations.FalseGuardAndXZero := by
  refine ⟨readX_zero, writeX_zero, fun i g s h hg => ?_⟩
  refine ⟨ctlAdvance s, exec_of_guard_false h hg, ?_, ctlFrame_ctlAdvance s, advanced_ctlAdvance s⟩
  simp

end Sys2Proof.ControlSequencer
end

section
/-! SUPPORT. What a halt does (R79): the group gives up its grant and its pipe, and what it has waiting elsewhere is withdrawn. Every
fault of either slice is a `haltWith`, so that `faulted_haltWith` serves the faults of every instruction. -/
namespace Sys2Proof.Halting
open Sys2Proof Sys2Proof.Machine Sys2Proof.Says

/-! ## Repeated updates of a sparse map -/

/-- An update that is made at each key of a list, and that is the same when made twice. -/
theorem smGet_foldl_smUpd {α : Type} [DecidableEq α] (d : α) (f : α → α) (hf : ∀ a, f (f a) = f a) (ks : List Nat) (m : SMap α)
    (k : Nat) : smGet d (ks.foldl (fun m k => smUpd d m k f) m) k = if k ∈ ks then f (smGet d m k) else smGet d m k := by
  induction ks generalizing m with
  | nil => simp
  | cons i ks ih =>
    rw [List.foldl_cons, ih, smGet_smUpd]
    by_cases hi : k = i
    · subst hi
      simp [hf]
    · simp [hi]

/-- An update of the units waiting at one bank of one core. -/
def updUnits (f : List (Nat × Nat × Nat) → List (Nat × Nat × Nat)) (m : SMap Core) (cb : Nat × Nat) : SMap Core :=
  smUpd Core.reset m cb.1 fun c => { c with units := smUpd [] c.units cb.2 f }

section
variable (f : List (Nat × Nat × Nat) → List (Nat × Nat × Nat))

/-- Only the units of a core change. -/
theorem smGet_foldl_updUnits (cbs : List (Nat × Nat)) (m : SMap Core) (n : Nat) :
    smGet Core.reset (cbs.foldl (updUnits f) m) n =
      { smGet Core.reset m n with units := (smGet Core.reset (cbs.foldl (updUnits f) m) n).units } := by
  induction cbs generalizing m with
  | nil => rfl
  | cons cb cbs ih =>
    rw [List.foldl_cons, ih]
    by_cases hn : n = cb.1
    · subst hn
      simp [updUnits]
    · simp [updUnits, hn]

/-- The units at each bank of the list are updated, once. -/
theorem units_foldl_updUnits (hf : ∀ l, f (f l) = f l) (cbs : List (Nat × Nat)) (m : SMap Core) (n b : Nat) :
    smGet [] (smGet Core.reset (cbs.foldl (updUnits f) m) n).units b =
      if (n, b) ∈ cbs then f (smGet [] (smGet Core.reset m n).units b) else smGet [] (smGet Core.reset m n).units b := by
  induction cbs generalizing m with
  | nil => simp
  | cons cb cbs ih =>
    obtain ⟨n', b'⟩ := cb
    rw [List.foldl_cons, ih]
    by_cases hn : n = n'
    · subst hn
      by_cases hb : b = b'
      · subst hb
        simp [updUnits, hf]
      · simp [updUnits, hb]
    · simp [updUnits, hn]

end

/-! ## Where an access waits -/

theorem rdvSlot_eq_some_iff (a : Acc) (k : Nat) : a.rdvSlot = some k ↔ a.kind = .xsend k ∨ a.kind = .xrecv k := by
  unfold Acc.rdvSlot
  cases a.kind <;> simp

theorem mem_rdvSlots_iff (as : List Acc) (k : Nat) :
    k ∈ as.filterMap Acc.rdvSlot ↔ ∃ a ∈ as, a.kind = .xsend k ∨ a.kind = .xrecv k := by
  simp [List.mem_filterMap, rdvSlot_eq_some_iff]

theorem mem_fifos_iff (a : Acc) (n b : Nat) : (n, b) ∈ a.fifos ↔ fifoOf a n b := by
  simp only [Acc.fifos, List.mem_eraseDups, List.mem_filterMap, fifoOf]
  refine exists_congr fun l => and_congr_right fun _ => ?_
  cases l.loc <;> simp

theorem mem_flatMap_fifos_iff (as : List Acc) (n b : Nat) : (n, b) ∈ as.flatMap Acc.fifos ↔ ∃ a ∈ as, fifoOf a n b := by
  simp [List.mem_flatMap, mem_fifos_iff]

/-! ## The withdrawal -/

/-- The accesses that a withdrawal names, by their moments. -/
def withdrawn (which : Acc → Bool) (s : State) (n : Nat) : Bool := ((s.g.accs.filter which).map (·.stamp)).contains n

/-- The two halves of a rendezvous slot without those that the withdrawal names. -/
def keepMates (which : Acc → Bool) (s : State) (r : Rdv) : Rdv :=
  let mates := fun (p : Nat × Nat) => !(p.1 == s.g.slot && withdrawn which s p.2)
  { send := r.send.filter mates, recv := r.recv.filter mates }

/-- The units at a bank without those that the withdrawal names. -/
def keepUnits (which : Acc → Bool) (s : State) (l : List (Nat × Nat × Nat)) : List (Nat × Nat × Nat) :=
  l.filter fun u => !(u.1 == s.g.core && u.2.1 == s.g.slot && withdrawn which s u.2.2)

theorem withdraw_cores (which : Acc → Bool) (s : State) :
    (withdraw which s).cores = (s.g.accs.flatMap Acc.fifos).foldl (updUnits (keepUnits which s)) s.cores := rfl

theorem withdraw_teams (which : Acc → Bool) (s : State) :
    (withdraw which s).teams = smUpd Team.reset s.teams s.g.team fun t =>
      { t with rdv := (s.g.accs.filterMap Acc.rdvSlot).foldl (fun m k => smUpd Rdv.reset m k (keepMates which s)) t.rdv } := rfl

theorem withdraw_quads (which : Acc → Bool) (s : State) :
    (withdraw which s).quads = smUpd Quad.reset s.quads (quadOfCore s.g.core) fun q =>
      { q with table := q.table.filter fun m => !(m.of s.g && withdrawn which s m.acc) } := rfl

theorem withdraw_team (which : Acc → Bool) (s : State) :
    (withdraw which s).team = { s.team with
      rdv := (s.g.accs.filterMap Acc.rdvSlot).foldl (fun m k => smUpd Rdv.reset m k (keepMates which s)) s.team.rdv } := by
  have hg : (withdraw which s).g.team = s.g.team := rfl
  rw [State.team, hg, withdraw_teams, smGet_smUpd, if_pos rfl]
  rfl

/-- The rendezvous slots of the group's team after a withdrawal. -/
theorem withdraw_rdv (which : Acc → Bool) (s : State) (k : Nat) :
    smGet Rdv.reset (withdraw which s).team.rdv k =
      if k ∈ s.g.accs.filterMap Acc.rdvSlot then keepMates which s (smGet Rdv.reset s.team.rdv k)
      else smGet Rdv.reset s.team.rdv k := by
  rw [withdraw_team, smGet_foldl_smUpd Rdv.reset (keepMates which s) fun r => by simp [keepMates]]

/-- The units at the banks of a core after a withdrawal. -/
theorem withdraw_units (which : Acc → Bool) (s : State) (n b : Nat) :
    smGet [] (smGet Core.reset (withdraw which s).cores n).units b =
      if (n, b) ∈ s.g.accs.flatMap Acc.fifos then keepUnits which s (smGet [] (smGet Core.reset s.cores n).units b)
      else smGet [] (smGet Core.reset s.cores n).units b := by
  rw [withdraw_cores, units_foldl_updUnits _ fun l => by simp [keepUnits]]

/-- A withdrawal does to the machine what a halt does besides the record. -/
theorem halts_withdraw (which : Acc → Bool) (s : State) : Halts (withdrawn which s) s (withdraw which s) := by
  refine ⟨rfl, fun _ => ⟨rfl, rfl, rfl⟩, rfl, fun q => ?quads, fun n hn => ?teams, ?team,
    fun k => ⟨fun h => ?mates, fun h => ?noMates⟩, fun n => ?cores, fun n b => ⟨fun h => ?units, fun h => ?noUnits⟩⟩
  case quads =>
    rw [withdraw_quads, smGet_smUpd]
    rfl
  case teams => rw [withdraw_teams, smGet_smUpd, if_neg hn]
  case team => rw [withdraw_team]
  case mates =>
    rw [withdraw_rdv, if_pos ((mem_rdvSlots_iff _ _).2 h)]
    rfl
  case noMates =>
    refine (withdraw_rdv which s k).trans (if_neg fun hk => ?_)
    obtain ⟨a, ha, hs | hr⟩ := (mem_rdvSlots_iff _ _).1 hk
    · exact (h a ha).1 hs
    · exact (h a ha).2 hr
  case cores =>
    rw [withdraw_cores, smGet_foldl_updUnits]
  case units =>
    rw [withdraw_units, if_pos ((mem_flatMap_fifos_iff _ _ _).2 h)]
    rfl
  case noUnits =>
    refine (withdraw_units which s n b).trans (if_neg fun hm => ?_)
    obtain ⟨a, ha, hf⟩ := (mem_flatMap_fifos_iff _ _ _).1 hm
    exact h a ha hf

/-! ## The halt before its withdrawal -/

/-- The slice that may still finish one instruction after the fault (R79). -/
def haltLate (r : HaltRec) (s : State) : Option Bool :=
  if !s.g.recs.isEmpty || s.g.preempted then none
  else if inClause (r.fr.orig != 0) s then some (!(r.fr.orig != 0)) else none

/-- The record has joined those of the group, which has given up its grant and its pipe. -/
def released (r : HaltRec) (s : State) : State :=
  endPipe (endGrant { s with g := { s.g with recs := s.g.recs ++ [r], late := haltLate r s } })

theorem haltWith_eq_withdraw (r : HaltRec) (s : State) : haltWith r s = withdraw (released r s).g.yields (released r s) := rfl

theorem sameCores_trans {s t u : State} (h : SameCores s t) (k : SameCores t u) : SameCores s u := by
  intro n
  rw [k n, h n]

theorem sameCores_endPipe (s : State) : SameCores s (endPipe s) := by
  intro n
  unfold endPipe
  split
  · rfl
  · by_cases hn : n = s.g.core
    · subst hn
      simp
    · simp [hn]

theorem sameCores_released (r : HaltRec) (s : State) : SameCores s (released r s) :=
  sameCores_trans (t := endGrant { s with g := { s.g with recs := s.g.recs ++ [r], late := haltLate r s } })
    (ControlSequencer.sameCores_endGrant _) (sameCores_endPipe _)

/-- What the halt has changed before its withdrawal. -/
theorem released_eq (r : HaltRec) (s : State) :
    released r s = { s with
      g := { s.g with
        recs := s.g.recs ++ [r], late := haltLate r s, ageV := (released r s).g.ageV, vpos := (released r s).g.vpos }
      cores := (released r s).cores } := by
  unfold released endPipe
  split <;> rfl

theorem endPipe_vpos (s : State) :
    (endPipe s).g.vpos = { s.g.vpos with pipe := none, resumed := (endPipe s).g.vpos.resumed } := by
  unfold endPipe
  split
  · rename_i hp
    rw [← hp]
  · rfl

/-- What a withdrawal does after the record it does to the state before it: the halt has changed nothing yet that it reads. -/
theorem halts_of_halts_released {goes : Nat → Bool} {r : HaltRec} {s v : State} (h : Halts goes (released r s) v) :
    Halts goes s v := by
  have hc := sameCores_released r s
  rw [released_eq] at h
  obtain ⟨hv, hm, he, hq, ht, hteam, hr, hcores, hu⟩ := h
  refine ⟨hv, hm, he, hq, ht, hteam, hr, fun n => (hcores n).trans (by rw [hc n]), fun n b => ?_⟩
  have hun : (smGet Core.reset (released r s).cores n).units = (smGet Core.reset s.cores n).units := by rw [hc n]
  rw [← hun]
  exact hu n b

/-! ## The halt -/

/-- What a halt withdraws is what the slices without a record have waiting (R78, R79). -/
theorem withdrawn_yields {s t u : State} (ha : u.g.accs = s.g.accs) (hr : u.g.recs = t.g.recs) :
    withdrawn u.g.yields u = Yielded s t := by
  funext n
  rw [Bool.eq_iff_iff]
  simp [withdrawn, Yielded, ha, hr, Group.yields, HaltRec.ofSlice, and_comm, and_left_comm]

theorem inClause_iff (ctl : Bool) (s : State) : inClause ctl s = true ↔ RunsClause ctl s := by
  cases ctl <;> simp [inClause, RunsClause, and_assoc]

/-- At the first record the other slice may finish an instruction, where it runs a clause (R79). -/
theorem haltLate_of_first {r : HaltRec} {s : State}
    (h : s.g.recs = [] ∧ s.g.preempted = false ∧ RunsClause (r.fr.orig != 0) s) : haltLate r s = some (r.fr.orig == 0) := by
  obtain ⟨hr, hp, hc⟩ := h
  rw [← inClause_iff] at hc
  rw [haltLate, hr, hp, if_neg (by simp), if_pos hc]
  simp [bne]

theorem haltLate_of_not_first {r : HaltRec} {s : State}
    (h : ¬(s.g.recs = [] ∧ s.g.preempted = false ∧ RunsClause (r.fr.orig != 0) s)) : haltLate r s = none := by
  unfold haltLate
  split
  · rfl
  · rename_i hg
    obtain ⟨hr, hp⟩ : s.g.recs = [] ∧ s.g.preempted = false := by simpa using hg
    exact if_neg fun hc => h ⟨hr, hp, (inClause_iff _ _).1 hc⟩

theorem haltWith_g (r : HaltRec) (s : State) :
    (haltWith r s).g = { s.g with
      recs := s.g.recs ++ [r], late := haltLate r s, ageV := (haltWith r s).g.ageV, vpos := (haltWith r s).g.vpos
      entries := (haltWith r s).g.entries } := by
  rw [haltWith_eq_withdraw, withdraw_g, released_eq]

/-- The group halts with the record, and nothing else of it or of the machine changes but what a halt withdraws (R73, R79). -/
theorem faulted_haltWith (r : HaltRec) (s : State) : Faulted r s (haltWith r s) := by
  have hrecs : (haltWith r s).g.recs = s.g.recs ++ [r] := congrArg Group.recs (haltWith_g r s)
  have hlate : (haltWith r s).g.late = haltLate r s := congrArg Group.late (haltWith_g r s)
  refine ⟨hrecs, ?_, fun h => hlate.trans (haltLate_of_first h), fun h => hlate.trans (haltLate_of_not_first h), ?_, ?_⟩
  · rw [hrecs, hlate]
    exact haltWith_g r s
  · exact endPipe_vpos _
  · have hw : Halts (withdrawn (released r s).g.yields (released r s)) s (haltWith r s) :=
      halts_of_halts_released (halts_withdraw _ _)
    rwa [withdrawn_yields (congrArg (fun u => u.g.accs) (released_eq r s))
      ((congrArg (fun u => u.g.recs) (released_eq r s)).trans hrecs.symm)] at hw

end Sys2Proof.Halting
end

section
/-! SUPPORT. `jmp` (R165): the fields of its target that fault, the record of a control fault, and the jump. -/
namespace Sys2Proof.ControlSequencer
open Sys2Proof Sys2Proof.Machine Sys2Proof.Says

/-- A control fault is taken with the record of Table 30, precise at the current instruction (R73, R154). -/
theorem controlFault_ctlFault (code : BitVec 8) (acc : BitVec 4) (addr : BitVec 56) (info : Word) (s : State) :
    ControlFault code acc addr info s (ctlFault code acc addr info s) := Halting.faulted_haltWith _ s

/-- An instruction whose guard is true and whose registers are at hand has its own effect. -/
theorem ctlInstr_of_issues {g : CGuard} {rs : List XReg} {s : State} (h : Issues g rs s) (k : State → State) :
    ctlInstr g rs s k = .next (k s) := ctlInstr_run k h.1 h.2

/-- A jump changes the position and the block of its group, and gives up the grant. -/
theorem onlyGroup_ctlJump (x : Word) (s : State) : OnlyGroup s (ctlJump x s) :=
  ⟨rfl, sameCores_endGrant { s with g := (ctlJump x s).g }, fun _ => ⟨rfl, rfl, rfl⟩⟩

theorem high8_iff (x : Word) : high8 x = true ↔ x.extractLsb' 56 8 ≠ 0 := by
  have hlt : x.toNat >>> 56 < 2 ^ 8 := by
    rw [Nat.shiftRight_eq_div_pow]
    omega
  rw [high8, bne_iff_ne, not_iff_not, ← BitVec.toNat_inj, ← BitVec.toNat_inj, BitVec.toNat_ushiftRight, BitVec.extractLsb'_toNat,
    Nat.mod_eq_of_lt hlt]
  rfl

theorem and_seven_eq_zero_iff (x : Word) : x &&& 7 = 0 ↔ x.extractLsb' 0 3 = 0 := by
  have h : x.toNat &&& 7 = x.toNat % 8 := Nat.and_two_pow_sub_one_eq_mod x.toNat 3
  simp [← BitVec.toNat_inj, h]

/-- `jmp` tests the high bits of its target first, then the low ones (R165). -/
theorem exec_jmp {g : CGuard} {a : XReg} {s : State} (h : Issues g [a] s) :
    exec (.jmp g a) s = .next (
      if high8 (s.g.readX a) then ctlFault cTargetBad 0 0 (s.g.readX a) s
      else if s.g.readX a &&& 7 ≠ 0 then ctlFault cAlign 4 (lo56 (s.g.readX a)) 0 s
      else ctlJump (s.g.readX a) s) := by
  have hj : exec (.jmp g a) s = execJmp g a s := rfl
  rw [hj, execJmp, ctlInstr_of_issues h]

/-- Settles O18, along the three branches of `exec_jmp`: two faults of `controlFault_ctlFault` and the jump. -/
theorem jmpFaultsAndJumps : Obligations.JmpFaultsAndJumps := by
  intro g a s hi x
  refine ⟨fun hx => ⟨_, exec_jmp hi, ?high⟩, fun hx hl => ⟨_, exec_jmp hi, ?misaligned⟩, fun hx hl => ⟨_, exec_jmp hi, ?jump⟩⟩
  case high =>
    rw [if_pos ((high8_iff x).2 hx)]
    exact controlFault_ctlFault _ _ _ _ s
  case misaligned =>
    rw [if_neg fun h => (high8_iff x).1 h hx, if_pos fun h => hl ((and_seven_eq_zero_iff x).1 h)]
    exact controlFault_ctlFault _ _ _ _ s
  case jump =>
    rw [if_neg fun h => (high8_iff x).1 h hx, if_neg (not_not.2 ((and_seven_eq_zero_iff x).2 hl))]
    exact ⟨rfl, onlyGroup_ctlJump x s⟩

end Sys2Proof.ControlSequencer
end

section
/-! SUPPORT. `cmp`, `lea`, `movi`, `movhi` and `nop` (R160 to R162, R196): what each issued one answers, and what the write of a
register or a predicate leaves behind. -/
namespace Sys2Proof.ControlSequencer
open Sys2Proof Sys2Proof.Machine Sys2Proof.Says

/-! ## Control predicates -/

/-- A control predicate reads back what was written, but for c7, which reads as true (R137). -/
theorem readC_writeC_self (g : Group) (p : BitVec 3) (b : Bool) : (g.writeC p b).readC p = (p == 7 || b) := by
  by_cases hp : p = 7
  · simp [Group.readC, hp]
  · have hlt : p.toNat < 8 := p.isLt
    rw [Group.writeC, if_neg hp]
    cases b <;> simp [Group.readC, hlt]

theorem condHolds_iff (cc : Cond) (a b : Word) : condHolds cc a b = true ↔ condTable cc a b := by
  cases cc <;> simp [condHolds, condTable, BitVec.slt, BitVec.ult]

/-! ## The write of a result and the advance -/

theorem advanced_ctlSetC (p : BitVec 3) (b : Bool) (s : State) : Advanced s (ctlSetC p b s) := by
  simp [Advanced, ctlSetC]

theorem readC_ctlSetC_self (p : BitVec 3) (b : Bool) (s : State) : (ctlSetC p b s).g.readC p = true ↔ p = 7 ∨ b = true := by
  have h : (ctlSetC p b s).g.readC p = (s.g.writeC p b).readC p := by simp [ctlSetC, Group.readC]
  rw [h, readC_writeC_self, Bool.or_eq_true, beq_iff_eq]

theorem advanced_ctlWrite (d : XReg) (v : Word) (s : State) : Advanced s (ctlWrite d v s) := by
  simp [Advanced]

theorem readX_ctlWrite_self (d : XReg) (v : Word) (s : State) : (ctlWrite d v s).g.readX d = if d = 0 then 0 else v := by
  simp

/-- The concatenation by which the model says `movhi` is the sum of R162. -/
theorem append_truncate_eq (imm : BitVec 32) (x : Word) :
    (imm ++ x.truncate 32 : Word) = (imm.zeroExtend 64 <<< 32) ||| (x.truncate 32).zeroExtend 64 := by
  rw [BitVec.append_def, BitVec.shiftLeftZeroExtend_eq, BitVec.setWidth'_eq]

/-! ## What each instruction answers -/

section
variable {g : CGuard} {s : State}

theorem exec_cmpCr (cc : Cond) (pd : BitVec 3) {a b : XReg} (h : Issues g [a, b] s) :
    exec (.cmpCr g cc pd a b) s = .next (ctlSetC pd (condHolds cc (s.g.readX a) (s.g.readX b)) s) := ctlInstr_of_issues h _

theorem exec_cmpCi (cc : Cond) (pd : BitVec 3) {a : XReg} (imm : BitVec 32) (h : Issues g [a] s) :
    exec (.cmpCi g cc pd a imm) s = .next (ctlSetC pd (condHolds cc (s.g.readX a) (imm.signExtend 64)) s) := ctlInstr_of_issues h _

theorem exec_lea (d : XReg) {a b : XReg} {pcRel : Bool} (sh : BitVec 3) (disp : BitVec 28)
    (h : Issues g (if pcRel then [b] else [a, b]) s) :
    exec (.lea g d a b pcRel sh disp) s = .next (ctlWrite d
      ((if pcRel then s.g.pc else s.g.readX a) + (s.g.readX b <<< sh.toNat) + disp.signExtend 64) s) := ctlInstr_of_issues h _

theorem exec_movi (d : XReg) (imm : BitVec 32) (h : Issues g [] s) :
    exec (.movi g d imm) s = .next (ctlWrite d (imm.signExtend 64) s) := ctlInstr_of_issues h _

theorem exec_movhi (d : XReg) {a : XReg} (imm : BitVec 32) (h : Issues g [a] s) :
    exec (.movhi g d a imm) s = .next (ctlWrite d (imm ++ (s.g.readX a).truncate 32) s) := ctlInstr_of_issues h _

theorem exec_nop (h : Issues g [] s) : exec (.nop g) s = .next (ctlAdvance s) := ctlInstr_of_issues h _

end

/-! ## The statement -/

/-- Settles O11: each instruction answers a write of its result and the advance; the results agree with Table 67 by `condHolds_iff`,
with R162 by `append_truncate_eq`. -/
theorem compareAndMoveResults : Obligations.CompareAndMoveResults := by
  intro g s
  refine ⟨fun cc pd a b h => ?cmpCr, fun cc pd a imm h => ?cmpCi, fun d a b pcRel sh disp h => ?lea, fun d imm h => ?movi,
    fun d a imm h => ?movhi, fun h => ?nop⟩
  case cmpCr => exact ⟨_, exec_cmpCr cc pd h, advanced_ctlSetC _ _ s, by rw [readC_ctlSetC_self, condHolds_iff]⟩
  case cmpCi => exact ⟨_, exec_cmpCi cc pd imm h, advanced_ctlSetC _ _ s, by rw [readC_ctlSetC_self, condHolds_iff]⟩
  case lea => exact ⟨_, exec_lea d sh disp h, advanced_ctlWrite _ _ s, readX_ctlWrite_self _ _ s⟩
  case movi => exact ⟨_, exec_movi d imm h, advanced_ctlWrite _ _ s, readX_ctlWrite_self _ _ s⟩
  case movhi => exact ⟨_, exec_movhi d imm h, advanced_ctlWrite _ _ s, by rw [readX_ctlWrite_self, append_truncate_eq]⟩
  case nop => exact ⟨_, exec_nop h, advanced_ctlAdvance s⟩

end Sys2Proof.ControlSequencer
end
